-- ==== Sys2Proof/Word.lean ====
section
/-! DEFINITION. The words of the VSE synthesis block (spec 00_scope.md R9, 20_memory.md R103, 30_encoding.md R140). -/

namespace Sys2Proof

/-- An 8-bit register, R103. -/
abbrev Byte := BitVec 8

/-- A 32-bit word: a command word (R140), a u32 field or the two's-complement bits of an s32 field (R9). -/
abbrev Word := BitVec 32

end Sys2Proof
end

