-- ==== Sys2Proof/Syntax.lean ====
section
/-! DEFINITION. The commands of the block: the 96-bit command word (spec 30_encoding.md R140) and one constructor of `Instr`
for each row of spec/opcode_table.json. -/

namespace Sys2Proof

/-- A 96-bit command, R140: `w0` holds OPC, INST, SEL, ADDR and DATA, `w1` is operand A, `w2` operand B. -/
structure Command where
  w0 : Word
  w1 : Word
  w2 : Word
  deriving DecidableEq, Repr

/-- An FM register port, SEL of OPC 0x30 (R144). -/
inductive FmPort where
  | p0
  | p1
  deriving DecidableEq, Repr

/-- One constructor per row of spec/opcode_table.json. `time` and `delta` are s32 operands, the other words u32 (R142).
INST is 4 bits, and 1 bit (0 or 1) in the register forms whose row leaves only that bit free. -/
inductive Instr where
  /-- R620 -/
  | nop
  /-- R621 -/
  | blockReset
  /-- R201 -/
  | bufSetSampleRate (rate msec : Word)
  /-- R202 -/
  | bufSetClockRate (clock : Word)
  /-- R211 -/
  | bufClear
  /-- R208; SEL names the DSB -/
  | bufAddDelta (sel : BitVec 4) (time delta : Word)
  /-- R210 -/
  | bufEndFrame (time : Word)
  /-- R212 -/
  | bufSamplesAvail
  /-- R242 -/
  | bufReadStereo (count : Word)
  /-- R214 -/
  | bufRemoveSamples (n : Word)
  /-- R263: every OSC_WRITE; a decoded one is a word no register form below matches -/
  | oscWrite (inst sel : BitVec 4) (addr data : Byte) (time : Word)
  /-- R266: every OSC_READ; a decoded one is a word no register form below matches -/
  | oscRead (inst sel : BitVec 4) (addr : Byte) (time : Word)
  /-- R267 -/
  | oscRun (inst sel : BitVec 4) (time : Word)
  /-- R268 -/
  | oscEndFrame (inst sel : BitVec 4) (time : Word)
  /-- R269 -/
  | oscReset (inst sel : BitVec 4)
  /-- R272 -/
  | oscWaveStatus (time : Word)
  /-- R430: every FM_WRITE; a decoded one is a word no register form below matches -/
  | fmWrite (inst sel : BitVec 4) (addr data : Byte)
  /-- R530 -/
  | fmRender (inst : BitVec 4) (n : Word)
  /-- R533 -/
  | fmReset (inst : BitVec 4)
  /-- R534 -/
  | fmSetRate (inst : BitVec 4) (clock rate : Word)
  /-- R294: the latch byte, its channel, type and data fields (R150) -/
  | oscWritePsgLatch (inst : BitVec 1) (ch : BitVec 2) (ty : BitVec 1) (data : BitVec 4) (time : Word)
  /-- R295: the data byte, its bits 6..0 (R150) -/
  | oscWritePsgData (inst : BitVec 1) (data : BitVec 7) (time : Word)
  /-- R296 -/
  | oscWritePsgStereo (inst : BitVec 1) (data : Byte) (time : Word)
  /-- R330 -/
  | oscWriteHhNr10 (data : Byte) (time : Word)
  /-- R332 -/
  | oscWriteHhNr11 (data : Byte) (time : Word)
  /-- R333 -/
  | oscWriteHhNr12 (data : Byte) (time : Word)
  /-- R334 -/
  | oscWriteHhNr13 (data : Byte) (time : Word)
  /-- R335 -/
  | oscWriteHhNr14 (data : Byte) (time : Word)
  /-- R395 -/
  | oscWriteHhUnused15 (data : Byte) (time : Word)
  /-- R332 -/
  | oscWriteHhNr21 (data : Byte) (time : Word)
  /-- R333 -/
  | oscWriteHhNr22 (data : Byte) (time : Word)
  /-- R334 -/
  | oscWriteHhNr23 (data : Byte) (time : Word)
  /-- R335 -/
  | oscWriteHhNr24 (data : Byte) (time : Word)
  /-- R373 -/
  | oscWriteHhNr30 (data : Byte) (time : Word)
  /-- R374 -/
  | oscWriteHhNr31 (data : Byte) (time : Word)
  /-- R375 -/
  | oscWriteHhNr32 (data : Byte) (time : Word)
  /-- R376 -/
  | oscWriteHhNr33 (data : Byte) (time : Word)
  /-- R377 -/
  | oscWriteHhNr34 (data : Byte) (time : Word)
  /-- R395 -/
  | oscWriteHhUnused1F (data : Byte) (time : Word)
  /-- R383 -/
  | oscWriteHhNr41 (data : Byte) (time : Word)
  /-- R384 -/
  | oscWriteHhNr42 (data : Byte) (time : Word)
  /-- R385 -/
  | oscWriteHhNr43 (data : Byte) (time : Word)
  /-- R386 -/
  | oscWriteHhNr44 (data : Byte) (time : Word)
  /-- R398 -/
  | oscWriteHhNr50 (data : Byte) (time : Word)
  /-- R390 -/
  | oscWriteHhNr51 (data : Byte) (time : Word)
  /-- R395 -/
  | oscWriteHhUnused27 (data : Byte) (time : Word)
  /-- R391: NR52 with bit 7 clear, its bits 6..0 -/
  | oscWriteHhNr52Off (data : BitVec 7) (time : Word)
  /-- R392: NR52 with bit 7 set, its bits 6..0 -/
  | oscWriteHhNr52On (data : BitVec 7) (time : Word)
  /-- R395: addresses 0x28..0x2F, ADDR[2:0] -/
  | oscWriteHhUnused28 (low : BitVec 3) (data : Byte) (time : Word)
  /-- R378: addresses 0x30..0x3F, ADDR[3:0] -/
  | oscWriteHhWaveRam (low : BitVec 4) (data : Byte) (time : Word)
  /-- R414 -/
  | oscWriteTri08 (data : Byte) (time : Word)
  /-- R415 -/
  | oscWriteTri09 (data : Byte) (time : Word)
  /-- R415 -/
  | oscWriteTri0A (data : Byte) (time : Word)
  /-- R416 -/
  | oscWriteTri0B (data : Byte) (time : Word)
  /-- R418 -/
  | oscWriteTri15 (data : Byte) (time : Word)
  /-- R420 -/
  | oscWriteTri17 (data : Byte) (time : Word)
  /-- R396: HH reads outside wave RAM, the whole ADDR -/
  | oscReadHhReg (addr : Byte) (time : Word)
  /-- R378: addresses 0x30..0x3F, ADDR[3:0] -/
  | oscReadHhWaveRam (low : BitVec 4) (time : Word)
  /-- R421 -/
  | oscReadTri15 (time : Word)
  /-- R434 -/
  | fmWriteLfo (inst : BitVec 1) (data : Byte)
  /-- R435 -/
  | fmWriteTimer24 (inst : BitVec 1) (data : Byte)
  /-- R435 -/
  | fmWriteTimer25 (inst : BitVec 1) (data : Byte)
  /-- R435 -/
  | fmWriteTimer26 (inst : BitVec 1) (data : Byte)
  /-- R436 -/
  | fmWriteMode27 (inst : BitVec 1) (data : Byte)
  /-- R437 -/
  | fmWriteKey (inst : BitVec 1) (data : Byte)
  /-- R438 -/
  | fmWriteDacData (inst : BitVec 1) (data : Byte)
  /-- R439 -/
  | fmWriteDacEnable (inst : BitVec 1) (data : Byte)
  /-- R440; `slot` is ADDR[3:2], `ch` is ADDR[1:0] (R154) -/
  | fmWriteDtMul (inst : BitVec 1) (port : FmPort) (slot ch : BitVec 2) (data : Byte)
  /-- R441 -/
  | fmWriteTl (inst : BitVec 1) (port : FmPort) (slot ch : BitVec 2) (data : Byte)
  /-- R442 -/
  | fmWriteKsAr (inst : BitVec 1) (port : FmPort) (slot ch : BitVec 2) (data : Byte)
  /-- R443 -/
  | fmWriteAmD1r (inst : BitVec 1) (port : FmPort) (slot ch : BitVec 2) (data : Byte)
  /-- R444 -/
  | fmWriteD2r (inst : BitVec 1) (port : FmPort) (slot ch : BitVec 2) (data : Byte)
  /-- R445 -/
  | fmWriteSlRr (inst : BitVec 1) (port : FmPort) (slot ch : BitVec 2) (data : Byte)
  /-- R447 -/
  | fmWriteSsgEg (inst : BitVec 1) (port : FmPort) (slot ch : BitVec 2) (data : Byte)
  /-- R448; `ch` is ADDR[1:0] (R155) -/
  | fmWriteFnumLow (inst : BitVec 1) (port : FmPort) (ch : BitVec 2) (data : Byte)
  /-- R449 -/
  | fmWriteFnumHigh (inst : BitVec 1) (port : FmPort) (ch : BitVec 2) (data : Byte)
  /-- R446; port 0, `j` is ADDR[1:0] -/
  | fmWriteSplitLow (inst : BitVec 1) (j : BitVec 2) (data : Byte)
  /-- R446; port 0, `j` is ADDR[1:0] -/
  | fmWriteSplitHigh (inst : BitVec 1) (j : BitVec 2) (data : Byte)
  /-- R450 -/
  | fmWriteFbAlgo (inst : BitVec 1) (port : FmPort) (ch : BitVec 2) (data : Byte)
  /-- R451 -/
  | fmWritePan (inst : BitVec 1) (port : FmPort) (ch : BitVec 2) (data : Byte)
  /-- R432 -/
  | fmWriteNoEffect (inst : BitVec 1) (port : FmPort) (addr : Byte) (data : Byte)
  deriving DecidableEq, Repr

end Sys2Proof
end

