-- ==== Sys2Proof/WellFormed.lean ====
section
/-! DEFINITION. Which terms of `Instr` stand for a command word: a plain OSC_WRITE, OSC_READ or FM_WRITE is well formed only
where no register form of spec/opcode_table.json matches its word, and the two register forms that stand for several
addresses only at those addresses (entry 5 of the assumption log). -/

namespace Sys2Proof

/-- Whether an OSC_WRITE word is matched by a register form: the PSG, HH and TRI rows of the table. -/
def oscWriteHasForm (inst sel : BitVec 4) (addr : Byte) : Bool :=
  (decide (sel = 0) && decide (inst.toNat < 2) && decide (addr.toNat < 2)) ||
  (decide (sel = 1) && decide (inst = 0) && decide (0x10 ≤ addr.toNat) && decide (addr.toNat < 0x40)) ||
  (decide (sel = 2) && decide (inst = 0) &&
    (decide (addr = 0x08) || decide (addr = 0x09) || decide (addr = 0x0A) || decide (addr = 0x0B) ||
     decide (addr = 0x15) || decide (addr = 0x17)))

/-- Whether an OSC_READ word is matched by a register form: the two HH rows leave ADDR free, the TRI row is 0x15. -/
def oscReadHasForm (inst sel : BitVec 4) (addr : Byte) : Bool :=
  decide (inst = 0) && (decide (sel = 1) || (decide (sel = 2) && decide (addr = 0x15)))

/-- Whether an FM_WRITE word is matched by a register form: with INST 0 or 1 and SEL 0 or 1 every ADDR is. -/
def fmWriteHasForm (inst sel : BitVec 4) : Bool :=
  decide (inst.toNat < 2) && decide (sel.toNat < 2)

/-- The addresses of 47_fm_registers.md R432 that no other FM_WRITE row of the table matches. -/
def fmNoEffectAddr (port : FmPort) (addr : Byte) : Bool :=
  match port with
  | .p0 => decide (addr.toNat < 0x22) || decide (addr = 0x23) || decide (addr = 0x29) ||
      (decide (0x2C ≤ addr.toNat) && decide (addr.toNat < 0x30)) || decide (0xB8 ≤ addr.toNat)
  | .p1 => decide (addr.toNat < 0x30) || (decide (0xA8 ≤ addr.toNat) && decide (addr.toNat < 0xB0)) ||
      decide (0xB8 ≤ addr.toNat)

/-- Well-formedness: the term is the reading of some command word. -/
def Instr.wf (i : Instr) : Bool :=
  match i with
  | .oscWrite inst sel addr _ _ => !oscWriteHasForm inst sel addr
  | .oscRead inst sel addr _ => !oscReadHasForm inst sel addr
  | .fmWrite inst sel _ _ => !fmWriteHasForm inst sel
  | .oscReadHhReg addr _ => decide (addr.extractLsb' 4 4 ≠ 3#4)
  | .fmWriteNoEffect _ port addr _ => fmNoEffectAddr port addr
  | _ => true

end Sys2Proof
end

