-- ==== Sys2Proof/Decode.lean ====
section
/-! DEFINITION. The decoder (spec 30_encoding.md R140 to R145), total on any command and on any bytes, and after it the encoder.
A word that several rows of the opcode table match decodes to the most specific row (entry 5 of the assumption log). Whether
the named unit exists (R144) is checked by the command itself, in `Sys2Proof/Machine/Operands.lean`: it needs the parameters. -/

namespace Sys2Proof

/-- Why a command has no reading; either way the block raises ILLEGAL (R141, R145). `incomplete` is only of byte streams:
fewer than 12 bytes are no command (R140, R106). -/
inductive DecodeError where
  | unknownOpcode
  | nonZeroField
  | incomplete
  deriving DecidableEq, Repr

/-! Fields of W0, R140. -/

/-- OPC = W0[31:24]. -/
def Command.opc (c : Command) : Byte := c.w0.extractLsb' 24 8
/-- INST = W0[23:20]. -/
def Command.inst (c : Command) : BitVec 4 := c.w0.extractLsb' 20 4
/-- SEL = W0[19:16]. -/
def Command.sel (c : Command) : BitVec 4 := c.w0.extractLsb' 16 4
/-- ADDR = W0[15:8]. -/
def Command.addr (c : Command) : Byte := c.w0.extractLsb' 8 8
/-- DATA = W0[7:0]. -/
def Command.data (c : Command) : Byte := c.w0.extractLsb' 0 8

/-- W0 from its fields, R140. -/
def word0 (opc : Byte) (inst sel : BitVec 4) (addr data : Byte) : Word :=
  opc ++ inst ++ sel ++ addr ++ data

/-- The FM port a SEL of 0 or 1 names, by its lowest bit (R144). -/
def fmPortOf (sel : BitVec 4) : FmPort :=
  if sel.extractLsb' 0 1 = 0#1 then .p0 else .p1

/-- SEL of an FM port. -/
def fmPortSel (port : FmPort) : BitVec 4 :=
  match port with
  | .p0 => 0
  | .p1 => 1

/-- A 1-bit INST as the 4-bit field. -/
def instNibble (inst : BitVec 1) : BitVec 4 :=
  0#3 ++ inst

/-- OPC 0x20, PSG rows (R149, R150), for INST 0 or 1. -/
def decodePsgWrite (inst : BitVec 4) (addr data : Byte) (time : Word) : Instr :=
  let i := inst.extractLsb' 0 1
  if addr = 0 then
    if data.extractLsb' 7 1 = 1#1 then
      .oscWritePsgLatch i (data.extractLsb' 5 2) (data.extractLsb' 4 1) (data.extractLsb' 0 4) time
    else .oscWritePsgData i (data.extractLsb' 0 7) time
  else if addr = 1 then .oscWritePsgStereo i data time
  else .oscWrite inst 0 addr data time

/-- OPC 0x20, HH rows (R151, R395), for INST 0. -/
def decodeHhWrite (addr data : Byte) (time : Word) : Instr :=
  match addr with
  | 0x10#8 => .oscWriteHhNr10 data time
  | 0x11#8 => .oscWriteHhNr11 data time
  | 0x12#8 => .oscWriteHhNr12 data time
  | 0x13#8 => .oscWriteHhNr13 data time
  | 0x14#8 => .oscWriteHhNr14 data time
  | 0x15#8 => .oscWriteHhUnused15 data time
  | 0x16#8 => .oscWriteHhNr21 data time
  | 0x17#8 => .oscWriteHhNr22 data time
  | 0x18#8 => .oscWriteHhNr23 data time
  | 0x19#8 => .oscWriteHhNr24 data time
  | 0x1A#8 => .oscWriteHhNr30 data time
  | 0x1B#8 => .oscWriteHhNr31 data time
  | 0x1C#8 => .oscWriteHhNr32 data time
  | 0x1D#8 => .oscWriteHhNr33 data time
  | 0x1E#8 => .oscWriteHhNr34 data time
  | 0x1F#8 => .oscWriteHhUnused1F data time
  | 0x20#8 => .oscWriteHhNr41 data time
  | 0x21#8 => .oscWriteHhNr42 data time
  | 0x22#8 => .oscWriteHhNr43 data time
  | 0x23#8 => .oscWriteHhNr44 data time
  | 0x24#8 => .oscWriteHhNr50 data time
  | 0x25#8 => .oscWriteHhNr51 data time
  | 0x27#8 => .oscWriteHhUnused27 data time
  | 0x26#8 =>
    if data.extractLsb' 7 1 = 1#1 then .oscWriteHhNr52On (data.extractLsb' 0 7) time
    else .oscWriteHhNr52Off (data.extractLsb' 0 7) time
  | _ =>
    if addr.extractLsb' 3 5 = 0b00101#5 then .oscWriteHhUnused28 (addr.extractLsb' 0 3) data time
    else if addr.extractLsb' 4 4 = 3#4 then .oscWriteHhWaveRam (addr.extractLsb' 0 4) data time
    else .oscWrite 0 1 addr data time

/-- OPC 0x20, TRI rows (R152), for INST 0. -/
def decodeTriWrite (addr data : Byte) (time : Word) : Instr :=
  match addr with
  | 0x08#8 => .oscWriteTri08 data time
  | 0x09#8 => .oscWriteTri09 data time
  | 0x0A#8 => .oscWriteTri0A data time
  | 0x0B#8 => .oscWriteTri0B data time
  | 0x15#8 => .oscWriteTri15 data time
  | 0x17#8 => .oscWriteTri17 data time
  | _ => .oscWrite 0 2 addr data time

/-- OPC 0x20. -/
def decodeOscWrite (inst sel : BitVec 4) (addr data : Byte) (time : Word) : Instr :=
  if sel = 0 ∧ inst.extractLsb' 1 3 = 0#3 then decodePsgWrite inst addr data time
  else if sel = 1 ∧ inst = 0 then decodeHhWrite addr data time
  else if sel = 2 ∧ inst = 0 then decodeTriWrite addr data time
  else .oscWrite inst sel addr data time

/-- OPC 0x21. The first HH row leaves ADDR free: an address outside the HH space is ILLEGAL when it runs (R108). -/
def decodeOscRead (inst sel : BitVec 4) (addr : Byte) (time : Word) : Instr :=
  if sel = 1 ∧ inst = 0 then
    if addr.extractLsb' 4 4 = 3#4 then .oscReadHhWaveRam (addr.extractLsb' 0 4) time
    else .oscReadHhReg addr time
  else if sel = 2 ∧ inst = 0 ∧ addr = 0x15#8 then .oscReadTri15 time
  else .oscRead inst sel addr time

/-- The global FM registers, port 0 (R153); the addresses without a meaning there and on port 1 are R432. -/
def decodeFmGlobal (inst : BitVec 1) (port : FmPort) (addr data : Byte) : Instr :=
  if port = .p0 then
    match addr with
    | 0x22#8 => .fmWriteLfo inst data
    | 0x24#8 => .fmWriteTimer24 inst data
    | 0x25#8 => .fmWriteTimer25 inst data
    | 0x26#8 => .fmWriteTimer26 inst data
    | 0x27#8 => .fmWriteMode27 inst data
    | 0x28#8 => .fmWriteKey inst data
    | 0x2A#8 => .fmWriteDacData inst data
    | 0x2B#8 => .fmWriteDacEnable inst data
    | _ => .fmWriteNoEffect inst port addr data
  else .fmWriteNoEffect inst port addr data

/-- The FM channel registers 0xA0..0xBF (R155). -/
def decodeFmChannel (inst : BitVec 1) (port : FmPort) (addr data : Byte) : Instr :=
  let ch := addr.extractLsb' 0 2
  match addr.extractLsb' 2 6 with
  | 0b101000#6 => .fmWriteFnumLow inst port ch data
  | 0b101001#6 => .fmWriteFnumHigh inst port ch data
  | 0b101100#6 => .fmWriteFbAlgo inst port ch data
  | 0b101101#6 => .fmWritePan inst port ch data
  | 0b101010#6 => if port = .p0 then .fmWriteSplitLow inst ch data else .fmWriteNoEffect inst port addr data
  | 0b101011#6 => if port = .p0 then .fmWriteSplitHigh inst ch data else .fmWriteNoEffect inst port addr data
  | _ => .fmWriteNoEffect inst port addr data

/-- OPC 0x30 (R154: the operator groups by ADDR[7:4]). -/
def decodeFmWrite (inst sel : BitVec 4) (addr data : Byte) : Instr :=
  if sel.extractLsb' 1 3 = 0#3 ∧ inst.extractLsb' 1 3 = 0#3 then
    let i := inst.extractLsb' 0 1
    let port := fmPortOf sel
    let slot := addr.extractLsb' 2 2
    let ch := addr.extractLsb' 0 2
    match addr.extractLsb' 4 4 with
    | 0x2#4 => decodeFmGlobal i port addr data
    | 0x3#4 => .fmWriteDtMul i port slot ch data
    | 0x4#4 => .fmWriteTl i port slot ch data
    | 0x5#4 => .fmWriteKsAr i port slot ch data
    | 0x6#4 => .fmWriteAmD1r i port slot ch data
    | 0x7#4 => .fmWriteD2r i port slot ch data
    | 0x8#4 => .fmWriteSlRr i port slot ch data
    | 0x9#4 => .fmWriteSsgEg i port slot ch data
    | 0xA#4 => decodeFmChannel i port addr data
    | 0xB#4 => decodeFmChannel i port addr data
    | _ => .fmWriteNoEffect i port addr data
  else .fmWrite inst sel addr data

/-- An instruction whose row's must-be-zero fields are zero, else a rejection (R141 step 2). -/
def whenZero (zero : Bool) (i : Instr) : Except DecodeError Instr :=
  if zero then .ok i else .error .nonZeroField

/-- INST = 0. -/
def Command.inst0 (c : Command) : Bool := decide (c.inst = 0)
/-- SEL = 0. -/
def Command.sel0 (c : Command) : Bool := decide (c.sel = 0)
/-- ADDR = DATA = 0. -/
def Command.reg0 (c : Command) : Bool := decide (c.addr = 0) && decide (c.data = 0)
/-- INST = SEL = ADDR = DATA = 0. -/
def Command.fields0 (c : Command) : Bool := c.inst0 && c.sel0 && c.reg0
/-- A = 0. -/
def Command.a0 (c : Command) : Bool := decide (c.w1 = 0)
/-- B = 0. -/
def Command.b0 (c : Command) : Bool := decide (c.w2 = 0)

/-- Decoding, R141 steps 1, 2 and 4, by the opcode map R143. -/
def decode (c : Command) : Except DecodeError Instr :=
  match c.opc with
  | 0x00#8 => whenZero (c.fields0 && c.a0 && c.b0) .nop
  | 0x01#8 => whenZero (c.fields0 && c.a0 && c.b0) .blockReset
  | 0x10#8 => whenZero c.fields0 (.bufSetSampleRate c.w1 c.w2)
  | 0x11#8 => whenZero (c.fields0 && c.b0) (.bufSetClockRate c.w1)
  | 0x12#8 => whenZero (c.fields0 && c.a0 && c.b0) .bufClear
  | 0x13#8 => whenZero (c.inst0 && c.reg0) (.bufAddDelta c.sel c.w1 c.w2)
  | 0x14#8 => whenZero (c.fields0 && c.b0) (.bufEndFrame c.w1)
  | 0x15#8 => whenZero (c.fields0 && c.a0 && c.b0) .bufSamplesAvail
  | 0x16#8 => whenZero (c.fields0 && c.b0) (.bufReadStereo c.w1)
  | 0x17#8 => whenZero (c.fields0 && c.b0) (.bufRemoveSamples c.w1)
  | 0x20#8 => whenZero c.b0 (decodeOscWrite c.inst c.sel c.addr c.data c.w1)
  | 0x21#8 => whenZero (decide (c.data = 0) && c.b0) (decodeOscRead c.inst c.sel c.addr c.w1)
  | 0x22#8 => whenZero (c.reg0 && c.b0) (.oscRun c.inst c.sel c.w1)
  | 0x23#8 => whenZero (c.reg0 && c.b0) (.oscEndFrame c.inst c.sel c.w1)
  | 0x24#8 => whenZero (c.reg0 && c.a0 && c.b0) (.oscReset c.inst c.sel)
  | 0x25#8 => whenZero (c.inst0 && decide (c.sel = 1) && c.reg0 && c.b0) (.oscWaveStatus c.w1)
  | 0x30#8 => whenZero (c.a0 && c.b0) (decodeFmWrite c.inst c.sel c.addr c.data)
  | 0x31#8 => whenZero (c.sel0 && c.reg0 && c.b0) (.fmRender c.inst c.w1)
  | 0x32#8 => whenZero (c.sel0 && c.reg0 && c.a0 && c.b0) (.fmReset c.inst)
  | 0x33#8 => whenZero (c.sel0 && c.reg0) (.fmSetRate c.inst c.w1 c.w2)
  | _ => .error .unknownOpcode

/-! Commands as bytes, 20_memory.md R102. -/

/-- A word as four bytes, least significant first. -/
def wordBytes (w : Word) : List Byte :=
  [w.extractLsb' 0 8, w.extractLsb' 8 8, w.extractLsb' 16 8, w.extractLsb' 24 8]

/-- A command as twelve bytes, word 0 first. -/
def Command.toBytes (c : Command) : List Byte :=
  wordBytes c.w0 ++ wordBytes c.w1 ++ wordBytes c.w2

/-- The command at the head of a byte stream, and the rest of the stream. -/
def takeCommand (bs : List Byte) : Option (Command × List Byte) :=
  match bs with
  | a0 :: a1 :: a2 :: a3 :: b0 :: b1 :: b2 :: b3 :: c0 :: c1 :: c2 :: c3 :: rest =>
    some (⟨a3 ++ a2 ++ a1 ++ a0, b3 ++ b2 ++ b1 ++ b0, c3 ++ c2 ++ c1 ++ c0⟩, rest)
  | _ => none

/-- Decoding a byte stream: the instruction and the rest of the stream. -/
def decodeBytes (bs : List Byte) : Except DecodeError (Instr × List Byte) :=
  match takeCommand bs with
  | none => .error .incomplete
  | some (c, rest) =>
    match decode c with
    | .ok i => .ok (i, rest)
    | .error e => .error e

/-- The command whose bits, numbered from the lowest bit of W0 on, are the lowest `nbits` bits of `w`, every bit above them 0. -/
def tableCommand (nbits w : Nat) : Command :=
  let v := w % 2 ^ nbits
  ⟨BitVec.ofNat 32 v, BitVec.ofNat 32 (v / 2 ^ 32), BitVec.ofNat 32 (v / 2 ^ 64)⟩

/-- The instruction the decoder reads from an opcode-table word, laid out as bytes (R102). -/
def decodeTableWord (nbits w : Nat) : Option Instr :=
  match decodeBytes (tableCommand nbits w).toBytes with
  | .ok (i, _) => some i
  | .error _ => none

/-! The encoder: the command of an instruction, by the same tables. -/

/-- A command with operand A only. -/
def cmdA (w0 a : Word) : Command := ⟨w0, a, 0⟩

/-- OSC_WRITE on HH instance 0 (SEL 1). -/
def encodeHh (addr data : Byte) (time : Word) : Command := cmdA (word0 0x20 0 1 addr data) time
/-- OSC_WRITE on TRI instance 0 (SEL 2). -/
def encodeTri (addr data : Byte) (time : Word) : Command := cmdA (word0 0x20 0 2 addr data) time
/-- OSC_WRITE on a PSG instance (SEL 0). -/
def encodePsg (inst : BitVec 1) (addr data : Byte) (time : Word) : Command :=
  cmdA (word0 0x20 (instNibble inst) 0 addr data) time
/-- FM_WRITE. -/
def encodeFm (inst : BitVec 1) (port : FmPort) (addr data : Byte) : Command :=
  cmdA (word0 0x30 (instNibble inst) (fmPortSel port) addr data) 0
/-- FM_WRITE of an operator register: group, slot and channel make ADDR (R154). -/
def encodeFmOp (inst : BitVec 1) (port : FmPort) (group : BitVec 4) (slot ch : BitVec 2) (data : Byte) : Command :=
  encodeFm inst port (group ++ slot ++ ch) data
/-- FM_WRITE of a channel register: a 6-bit group and the channel make ADDR (R155). -/
def encodeFmCh (inst : BitVec 1) (port : FmPort) (group : BitVec 6) (ch : BitVec 2) (data : Byte) : Command :=
  encodeFm inst port (group ++ ch) data

/-- The command word of an instruction (R140, R143, R149 to R155). -/
def encode (i : Instr) : Command :=
  match i with
  | .nop => cmdA (word0 0x00 0 0 0 0) 0
  | .blockReset => cmdA (word0 0x01 0 0 0 0) 0
  | .bufSetSampleRate rate msec => ⟨word0 0x10 0 0 0 0, rate, msec⟩
  | .bufSetClockRate clock => cmdA (word0 0x11 0 0 0 0) clock
  | .bufClear => cmdA (word0 0x12 0 0 0 0) 0
  | .bufAddDelta sel time delta => ⟨word0 0x13 0 sel 0 0, time, delta⟩
  | .bufEndFrame time => cmdA (word0 0x14 0 0 0 0) time
  | .bufSamplesAvail => cmdA (word0 0x15 0 0 0 0) 0
  | .bufReadStereo count => cmdA (word0 0x16 0 0 0 0) count
  | .bufRemoveSamples n => cmdA (word0 0x17 0 0 0 0) n
  | .oscWrite inst sel addr data time => cmdA (word0 0x20 inst sel addr data) time
  | .oscRead inst sel addr time => cmdA (word0 0x21 inst sel addr 0) time
  | .oscRun inst sel time => cmdA (word0 0x22 inst sel 0 0) time
  | .oscEndFrame inst sel time => cmdA (word0 0x23 inst sel 0 0) time
  | .oscReset inst sel => cmdA (word0 0x24 inst sel 0 0) 0
  | .oscWaveStatus time => cmdA (word0 0x25 0 1 0 0) time
  | .fmWrite inst sel addr data => cmdA (word0 0x30 inst sel addr data) 0
  | .fmRender inst n => cmdA (word0 0x31 inst 0 0 0) n
  | .fmReset inst => cmdA (word0 0x32 inst 0 0 0) 0
  | .fmSetRate inst clock rate => ⟨word0 0x33 inst 0 0 0, clock, rate⟩
  | .oscWritePsgLatch inst ch ty data time => encodePsg inst 0 (1#1 ++ ch ++ ty ++ data) time
  | .oscWritePsgData inst data time => encodePsg inst 0 (0#1 ++ data) time
  | .oscWritePsgStereo inst data time => encodePsg inst 1 data time
  | .oscWriteHhNr10 data time => encodeHh 0x10 data time
  | .oscWriteHhNr11 data time => encodeHh 0x11 data time
  | .oscWriteHhNr12 data time => encodeHh 0x12 data time
  | .oscWriteHhNr13 data time => encodeHh 0x13 data time
  | .oscWriteHhNr14 data time => encodeHh 0x14 data time
  | .oscWriteHhUnused15 data time => encodeHh 0x15 data time
  | .oscWriteHhNr21 data time => encodeHh 0x16 data time
  | .oscWriteHhNr22 data time => encodeHh 0x17 data time
  | .oscWriteHhNr23 data time => encodeHh 0x18 data time
  | .oscWriteHhNr24 data time => encodeHh 0x19 data time
  | .oscWriteHhNr30 data time => encodeHh 0x1A data time
  | .oscWriteHhNr31 data time => encodeHh 0x1B data time
  | .oscWriteHhNr32 data time => encodeHh 0x1C data time
  | .oscWriteHhNr33 data time => encodeHh 0x1D data time
  | .oscWriteHhNr34 data time => encodeHh 0x1E data time
  | .oscWriteHhUnused1F data time => encodeHh 0x1F data time
  | .oscWriteHhNr41 data time => encodeHh 0x20 data time
  | .oscWriteHhNr42 data time => encodeHh 0x21 data time
  | .oscWriteHhNr43 data time => encodeHh 0x22 data time
  | .oscWriteHhNr44 data time => encodeHh 0x23 data time
  | .oscWriteHhNr50 data time => encodeHh 0x24 data time
  | .oscWriteHhNr51 data time => encodeHh 0x25 data time
  | .oscWriteHhUnused27 data time => encodeHh 0x27 data time
  | .oscWriteHhNr52Off data time => encodeHh 0x26 (0#1 ++ data) time
  | .oscWriteHhNr52On data time => encodeHh 0x26 (1#1 ++ data) time
  | .oscWriteHhUnused28 low data time => encodeHh (0b00101#5 ++ low) data time
  | .oscWriteHhWaveRam low data time => encodeHh (3#4 ++ low) data time
  | .oscWriteTri08 data time => encodeTri 0x08 data time
  | .oscWriteTri09 data time => encodeTri 0x09 data time
  | .oscWriteTri0A data time => encodeTri 0x0A data time
  | .oscWriteTri0B data time => encodeTri 0x0B data time
  | .oscWriteTri15 data time => encodeTri 0x15 data time
  | .oscWriteTri17 data time => encodeTri 0x17 data time
  | .oscReadHhReg addr time => cmdA (word0 0x21 0 1 addr 0) time
  | .oscReadHhWaveRam low time => cmdA (word0 0x21 0 1 (3#4 ++ low) 0) time
  | .oscReadTri15 time => cmdA (word0 0x21 0 2 0x15 0) time
  | .fmWriteLfo inst data => encodeFm inst .p0 0x22 data
  | .fmWriteTimer24 inst data => encodeFm inst .p0 0x24 data
  | .fmWriteTimer25 inst data => encodeFm inst .p0 0x25 data
  | .fmWriteTimer26 inst data => encodeFm inst .p0 0x26 data
  | .fmWriteMode27 inst data => encodeFm inst .p0 0x27 data
  | .fmWriteKey inst data => encodeFm inst .p0 0x28 data
  | .fmWriteDacData inst data => encodeFm inst .p0 0x2A data
  | .fmWriteDacEnable inst data => encodeFm inst .p0 0x2B data
  | .fmWriteDtMul inst port slot ch data => encodeFmOp inst port 3 slot ch data
  | .fmWriteTl inst port slot ch data => encodeFmOp inst port 4 slot ch data
  | .fmWriteKsAr inst port slot ch data => encodeFmOp inst port 5 slot ch data
  | .fmWriteAmD1r inst port slot ch data => encodeFmOp inst port 6 slot ch data
  | .fmWriteD2r inst port slot ch data => encodeFmOp inst port 7 slot ch data
  | .fmWriteSlRr inst port slot ch data => encodeFmOp inst port 8 slot ch data
  | .fmWriteSsgEg inst port slot ch data => encodeFmOp inst port 9 slot ch data
  | .fmWriteFnumLow inst port ch data => encodeFmCh inst port 0b101000 ch data
  | .fmWriteFnumHigh inst port ch data => encodeFmCh inst port 0b101001 ch data
  | .fmWriteSplitLow inst j data => encodeFmCh inst .p0 0b101010 j data
  | .fmWriteSplitHigh inst j data => encodeFmCh inst .p0 0b101011 j data
  | .fmWriteFbAlgo inst port ch data => encodeFmCh inst port 0b101100 ch data
  | .fmWritePan inst port ch data => encodeFmCh inst port 0b101101 ch data
  | .fmWriteNoEffect inst port addr data => encodeFm inst port addr data

end Sys2Proof
end

