-- ==== Sys2Proof/Machine/Bits.lean ====
section
/-! DEFINITION. Arithmetic of the pseudocode (spec 00_scope.md R9, R11): exact integers, narrowed where a field is stored. -/

namespace Sys2Proof.Machine

/-- `sext_32`: the integer of an s32 field or operand, R9. -/
def sext (w : Word) : Int := w.toInt

/-- `wrap32`: the s32 congruent to an integer modulo 2^32, R9; what a store to an s32 or u32 field keeps, R11. -/
def wrap32 (v : Int) : Word := BitVec.ofInt 32 v

/-- The arithmetic right shift of an integer, `floor(v / 2^n)`, R9. -/
def asr (v : Int) (n : Nat) : Int := v / (2 ^ n : Int)

/-- `clamp(v, lo, hi) = min(max(v, lo), hi)`, R9. -/
def clamp (v lo hi : Int) : Int := min (max v lo) hi

/-- `ceil(n / d)` on naturals. -/
def ceilDiv (n d : Nat) : Nat := (n + (d - 1)) / d

/-- How many of the times `t`, `t + period`, `t + 2 period`, ... lie before `stop`: none when `t >= stop`, else
`ceil((stop - t) / period)` (42_osc_common.md R261). -/
def eventsBefore (t stop : Int) (period : Nat) : Nat := ceilDiv (stop - t).toNat period

/-- `f` applied `n` times. -/
def iterate {α : Type} (f : α → α) : Nat → α → α
  | 0, a => a
  | n + 1, a => iterate f n (f a)

/-- A bit of a byte. -/
def bit (b : Byte) (i : Nat) : Bool := b.getLsbD i

end Sys2Proof.Machine
end

