-- ==== Sys2Proof/Config.lean ====
section
/-! DEFINITION. The parameters of spec 00_scope.md R7: the values the spec fixes, the record of those a machine may differ in
(numbers and finite tables, carried by the state so that every statement holds for all of them), and the FM function tables,
which stay opaque, as do the free values. -/

namespace Sys2Proof

/-- BUILD_MODE, 00_scope.md R7, 60_exceptions.md R605: whether a misplaced delta faults or is clamped. -/
inductive BuildMode where
  | debug
  | release
  deriving DecidableEq, Repr

/-- The four envelope phases of an FM operator, 10_state.md R46. -/
inductive EgPhase where
  | attack
  | decay
  | sustain
  | release
  deriving DecidableEq, Repr

namespace Config

/-- LEAK_SHIFT, R7: fixed by the source. -/
def leakShift : Nat := 9
/-- MIX_SHIFT, R7: fixed by the source. -/
def mixShift : Nat := 15
/-- TIME_BITS, R7: decision D10. -/
def timeBits : Nat := 16
/-- HH_WAVE_DC_FREQ, R7: decision D20, an 11-bit frequency never reaches it. -/
def hhWaveDcFreq : Nat := 2048

/-! The FM tables that are functions of unbounded arguments, R7 (OPEN). Nothing in Lean can evaluate them. They are the raw
tables: `Sys2Proof/Machine/FmTables.lean` builds from them the tables of R7 with the constraints of R488, R489 and R491.
(DESIGN CHOICE, safe: entry 3 of the assumption log.) -/

/-- FM_FREQ(fnum) at a given (clock, rate). -/
opaque fmFreq : Word → Word → BitVec 11 → Nat
/-- FM_DT(dt, kc) at a given (clock, rate). -/
opaque fmDt : Word → Word → BitVec 3 → BitVec 5 → Int
/-- FM_RATE(ph, r) at a given (clock, rate), for r other than 0. -/
opaque fmRateRaw : Word → Word → EgPhase → Nat → Nat
/-- FM_ATT_CURVE(e, inc) before it is bounded, for inc other than 0. -/
opaque fmAttCurveRaw : Nat → Nat → Nat
/-- How much the magnitude of FM_OPOUT falls from attenuation `att` to `att + 1`, at a phase index of the first half period. -/
opaque fmOpDrop : Nat → Nat → Nat
/-- Whether FM_OPOUT is negative at a phase index of the first half period and an attenuation. -/
opaque fmOpNegative : Nat → Nat → Bool
/-- How much FM_SL rises from `sl` to `sl + 1`. -/
opaque fmSlStep : Nat → Nat
/-- How much FM_TL rises from `tl` to `tl + 1`. -/
opaque fmTlStep : Nat → Nat
/-- FM_LFO_INC(f) at a given (clock, rate). -/
opaque fmLfoInc : Word → Word → BitVec 3 → Nat
/-- FM_LFO_PM(v, fms, fnum), for fms other than 0. -/
opaque fmLfoPmRaw : Word → BitVec 3 → BitVec 11 → Int
/-- FM_LFO_AM(v, ams), for ams other than 0. -/
opaque fmLfoAmRaw : Word → BitVec 2 → Nat

/-- The free values of `next_frame_time`, by their count, before they are kept from lying before the run's time: for a run whose
loop of 42_osc_common.md R260 would never end (DESIGN CHOICE: entry 8 of the log). -/
opaque freeFrameTime : Nat → Word

end Config

/-- The parameters of 00_scope.md R7 that are numbers or finite tables. They are arguments of the step relation
(10_state.md R47): the state carries them and no step changes them. -/
structure Params where
  /-- PHASE_BITS (OPEN). -/
  phaseBits : Nat
  /-- KW (OPEN). -/
  kw : Nat
  /-- K, 2^PHASE_BITS rows of KW residues (OPEN, constrained by R205). -/
  kernel : List (List Word)
  /-- CAP_MAX (OPEN). -/
  capMax : Nat
  /-- BUILD_MODE (default debug). -/
  buildMode : BuildMode
  /-- N_PSG (1 or 2). -/
  nPsg : Nat
  /-- N_FM (0, 1 or 2). -/
  nFm : Nat
  /-- HAS_HH. -/
  hasHh : Bool
  /-- HAS_TRI. -/
  hasTri : Bool
  /-- UNIT_PSG (OPEN). -/
  unitPsg : Int
  /-- UNIT_HH (OPEN). -/
  unitHh : Int
  /-- UNIT_TRI (OPEN). -/
  unitTri : Int
  /-- PSG_VOL[16]. -/
  psgVol : List Nat
  /-- PSG_DC_PERIOD. -/
  psgDcPeriod : Nat
  /-- PSG_FB_WHITE. -/
  psgFbWhite : BitVec 16
  /-- PSG_FB_PERIODIC. -/
  psgFbPeriodic : BitVec 16
  /-- PSG_NOISE_INIT. -/
  psgNoiseInit : BitVec 16
  /-- HH_FRAME_PERIOD. -/
  hhFramePeriod : Nat
  /-- HH_DAC_BIAS. -/
  hhDacBias : Int
  /-- HH_DAC_OFF_LEVEL. -/
  hhDacOffLevel : Int
  /-- HH_SQ_DC_FREQ. -/
  hhSqDcFreq : Nat
  /-- HH_WAVE_TRIGGER_DELAY. -/
  hhWaveTriggerDelay : Nat
  /-- HH_LENGTH_QUIRK. -/
  hhLengthQuirk : Bool
  /-- TRI_FRAME_PERIOD. -/
  triFramePeriod : Nat
  /-- TRI_MIN_PERIOD. -/
  triMinPeriod : Nat
  /-- TRI_LEN[32], 46_triangle.md R412. -/
  triLen : List Nat
  /-- FM_ENV_MAX (OPEN). -/
  fmEnvMax : Nat
  /-- FM_CH_LIMIT (OPEN, suggested 24575). -/
  fmChLimit : Nat
  /-- FM_OUT_SHIFT (OPEN). -/
  fmOutShift : Nat
  /-- FM_MOD_SHIFT (OPEN). -/
  fmModShift : Nat
  /-- FM_PHASE_SHIFT (OPEN, suggested 20). -/
  fmPhaseShift : Nat
  /-- FM_FB_SHIFT(fb) for fb = 1..7, listed from fb = 0 (whose entry is not used) (OPEN, suggested 9 - fb). -/
  fmFbShift : List Nat
  /-- FM_DAC_SHIFT (OPEN, suggested 6). -/
  fmDacShift : Nat
  /-- FM_KEYON_ENV_RESET. -/
  fmKeyonEnvReset : Bool
  deriving DecidableEq, Repr

/-- The sum of a kernel row's residues as signed integers, for the constraint of 40_delta_buffer.md R205. -/
def rowSum (row : List Word) : Int :=
  (row.map BitVec.toInt).sum

/-- What the spec says of the parameters: R205 (kernel), the ranges of R7, lengths of the tables, a frame period of at least
one tick, and the widths of the fields that a parameter initialises or bounds (entry 9 of the assumption log). -/
def Params.wf (p : Params) : Bool :=
  decide (p.phaseBits ≤ Config.timeBits) && decide (1 ≤ p.kw) &&
  decide (p.kernel.length = 2 ^ p.phaseBits) &&
  p.kernel.all (fun row => decide (row.length = p.kw) && decide (rowSum row = 2 ^ Config.mixShift)) &&
  decide (p.capMax < 2 ^ 32) &&
  (decide (p.nPsg = 1) || decide (p.nPsg = 2)) && decide (p.nFm ≤ 2) &&
  decide (p.psgVol.length = 16) &&
  decide (1 ≤ p.hhFramePeriod) && decide (1 ≤ p.triFramePeriod) && decide (p.triFramePeriod < 2 ^ 31) &&
  decide (p.triLen.length = 32) && p.triLen.all (fun n => decide (n ≤ 254)) &&
  decide (p.fmFbShift.length = 8)

/-- The test kernel KT of 92_eei_decisions.md D11: 32 phases of two taps, [32768 - 1024 p, 1024 p]. -/
def testKernel : List (List Word) :=
  (List.range 32).map fun p => [BitVec.ofNat 32 (32768 - 1024 * p), BitVec.ofNat 32 (1024 * p)]

/-- The parameters of State.reset. Those with a default in R7 take it; the OPEN ones take the values of the conventions of
95_test_vectors.md (KT, units 1), the suggestion of R7 where there is one, and else a value of the model's.
(DESIGN CHOICE, unsafe for a statement that rests on State.reset's OPEN parameters: entry 2 of the assumption log.) -/
def defaultParams : Params where
  phaseBits := 5
  kw := 2
  kernel := testKernel
  capMax := 2 ^ 32 - 1
  buildMode := .debug
  nPsg := 2
  nFm := 2
  hasHh := true
  hasTri := true
  unitPsg := 1
  unitHh := 1
  unitTri := 1
  psgVol := [64, 50, 39, 31, 24, 19, 15, 12, 9, 7, 5, 4, 3, 2, 1, 0]
  psgDcPeriod := 8
  psgFbWhite := 0x9000
  psgFbPeriodic := 0x8000
  psgNoiseInit := 0x8000
  hhFramePeriod := 8192
  hhDacBias := 7
  hhDacOffLevel := 0
  hhSqDcFreq := 0x7FA
  hhWaveTriggerDelay := 6
  hhLengthQuirk := true
  triFramePeriod := 7457
  triMinPeriod := 3
  triLen := [10, 254, 20, 2, 40, 4, 80, 6, 160, 8, 60, 10, 14, 12, 26, 14,
             12, 16, 24, 18, 48, 20, 96, 22, 192, 24, 72, 26, 16, 28, 32, 30]
  fmEnvMax := 1023
  fmChLimit := 24575
  fmOutShift := 0
  fmModShift := 0
  fmPhaseShift := 20
  fmFbShift := [0, 8, 7, 6, 5, 4, 3, 2]
  fmDacShift := 6
  fmKeyonEnvReset := true

end Sys2Proof
end

