-- ==== Sys2Proof/Machine/Store.lean ====
section
/-! DEFINITION. A store of `w`-bit cells by address: the HH registers, the FM register images and the DSB cells (spec
20_memory.md R100). It is a list of (address, value) pairs in one canonical form: addresses strictly rising and no cell equal
to 0, which is what an unlisted address reads as: the reset contents (10_state.md R33, R39; 70_reset_and_hazards.md R705).
(Entry 10 of the assumption log.) -/

namespace Sys2Proof.Machine

/-- A store: its non-zero cells by rising address. -/
abbrev Store (w : Nat) := List (Nat × BitVec w)

/-- The cell at address `a`; 0 where none is listed. -/
def Store.get {w : Nat} : Store w → Nat → BitVec w
  | [], _ => 0
  | (b, v) :: s, a => if a = b then v else Store.get s a

/-- Insert or replace the cell at `a`, at its place in the order. -/
def Store.put {w : Nat} : Store w → Nat → BitVec w → Store w
  | [], a, v => [(a, v)]
  | (b, x) :: s, a, v =>
    if a < b then (a, v) :: (b, x) :: s
    else if a = b then (a, v) :: s
    else (b, x) :: Store.put s a v

/-- Write `v` at `a`: a zero removes the cell. -/
def Store.set {w : Nat} (s : Store w) (a : Nat) (v : BitVec w) : Store w :=
  if v = 0 then s.filter (fun e => decide (e.1 ≠ a)) else s.put a v

/-- Drop the cells below `n` and move every other cell down by `n` (40_delta_buffer.md R215). -/
def Store.shift {w : Nat} (s : Store w) (n : Nat) : Store w :=
  (s.filter (fun e => decide (n ≤ e.1))).map (fun e => (e.1 - n, e.2))

/-- The canonical form: addresses strictly rising above `lo`'s predecessor, no zero cell. -/
def Store.wfFrom {w : Nat} : Nat → Store w → Bool
  | _, [] => true
  | lo, (a, v) :: s => decide (lo ≤ a) && decide (v ≠ 0) && Store.wfFrom (a + 1) s

/-- The canonical form holds. -/
def Store.wf {w : Nat} (s : Store w) : Bool := Store.wfFrom 0 s

/-- Every listed address is below `n`. -/
def Store.below {w : Nat} (s : Store w) (n : Nat) : Bool := s.all (fun e => decide (e.1 < n))

end Sys2Proof.Machine
end

