-- ==== Sys2Proof/Machine/Vec.lean ====
section
/-! DEFINITION. The fixed groups of like things the spec numbers: two instances, four operators or frequencies, six channels. -/

namespace Sys2Proof.Machine

/-- Two instances, 0 and 1 (spec 00_scope.md R7: N_PSG and N_FM are at most 2). -/
structure Two (α : Type) where
  i0 : α
  i1 : α
  deriving DecidableEq, Repr

/-- The instance named by one bit. -/
def Two.get {α : Type} (v : Two α) (i : BitVec 1) : α := if i = 0#1 then v.i0 else v.i1

/-- Replace the instance named by one bit. -/
def Two.set {α : Type} (v : Two α) (i : BitVec 1) (x : α) : Two α :=
  if i = 0#1 then { v with i0 := x } else { v with i1 := x }

/-- The operators 1..4 of an FM channel, 10_state.md R46. -/
inductive OpNum where
  | op1
  | op2
  | op3
  | op4
  deriving DecidableEq, Repr

/-- One thing per operator. -/
structure Ops4 (α : Type) where
  o1 : α
  o2 : α
  o3 : α
  o4 : α
  deriving DecidableEq, Repr

/-- The operator `k`. -/
def Ops4.get {α : Type} (v : Ops4 α) (k : OpNum) : α :=
  match k with
  | .op1 => v.o1
  | .op2 => v.o2
  | .op3 => v.o3
  | .op4 => v.o4

/-- Replace the operator `k`. -/
def Ops4.set {α : Type} (v : Ops4 α) (k : OpNum) (x : α) : Ops4 α :=
  match k with
  | .op1 => { v with o1 := x }
  | .op2 => { v with o2 := x }
  | .op3 => { v with o3 := x }
  | .op4 => { v with o4 := x }

/-- The frequency indices 0..3 of an FM channel, 10_state.md R45. -/
structure Freqs (α : Type) where
  f0 : α
  f1 : α
  f2 : α
  f3 : α
  deriving DecidableEq, Repr

/-- The frequency of index `s`. -/
def Freqs.get {α : Type} (v : Freqs α) (s : BitVec 2) : α :=
  match s with
  | 0#2 => v.f0
  | 1#2 => v.f1
  | 2#2 => v.f2
  | 3#2 => v.f3

/-- Replace the frequency of index `s`. -/
def Freqs.set {α : Type} (v : Freqs α) (s : BitVec 2) (x : α) : Freqs α :=
  match s with
  | 0#2 => { v with f0 := x }
  | 1#2 => { v with f1 := x }
  | 2#2 => { v with f2 := x }
  | 3#2 => { v with f3 := x }

/-- The channels 0..5 of an FM instance, 10_state.md R45. -/
inductive ChNum where
  | ch0
  | ch1
  | ch2
  | ch3
  | ch4
  | ch5
  deriving DecidableEq, Repr

/-- One thing per channel. -/
structure Chans (α : Type) where
  c0 : α
  c1 : α
  c2 : α
  c3 : α
  c4 : α
  c5 : α
  deriving DecidableEq, Repr

/-- The channel `c`. -/
def Chans.get {α : Type} (v : Chans α) (c : ChNum) : α :=
  match c with
  | .ch0 => v.c0
  | .ch1 => v.c1
  | .ch2 => v.c2
  | .ch3 => v.c3
  | .ch4 => v.c4
  | .ch5 => v.c5

/-- Replace the channel `c`. -/
def Chans.set {α : Type} (v : Chans α) (c : ChNum) (x : α) : Chans α :=
  match c with
  | .ch0 => { v with c0 := x }
  | .ch1 => { v with c1 := x }
  | .ch2 => { v with c2 := x }
  | .ch3 => { v with c3 := x }
  | .ch4 => { v with c4 := x }
  | .ch5 => { v with c5 := x }

end Sys2Proof.Machine
end

