-- ==== Sys2Proof/Machine/State.lean ====
section
/-! DEFINITION. The state of the block (spec 10_state.md R30 to R46) as plain data, why a step could stop, and the reset state
(70_reset_and_hazards.md R700, R701, R705). -/

namespace Sys2Proof.Machine

/-- Why a step stops with a host-level fault: never. Every fault of the block (60_exceptions.md R601) is a state the block
goes to, so it is a next state with the fault recorded. (Safe: entry 7 of the assumption log.) -/
inductive Fault where
  deriving DecidableEq, Repr

/-- Why a step has no meaning. -/
inductive Refusal where
  /-- Raised by an arm of `exec` whose instruction has no meaning yet; no arm raises it now. Safe: the model stops. -/
  | notModelled (mnemonic : String)
  deriving DecidableEq, Repr

/-- The fault codes of 60_exceptions.md R601. -/
inductive FaultCode where
  | illegal
  | notConfigured
  | badRate
  | rateMidtrack
  | deltaBeforeOrigin
  | deltaPastHorizon
  | frameOverflow
  | badTime
  | removeTooMany
  | oddCount
  | unsupported
  | timeBackwards
  deriving DecidableEq, Repr

/-- The code as the u8 of the fault record, R601. -/
def FaultCode.toByte (c : FaultCode) : Byte :=
  match c with
  | .illegal => 0x01
  | .notConfigured => 0x02
  | .badRate => 0x03
  | .rateMidtrack => 0x04
  | .deltaBeforeOrigin => 0x05
  | .deltaPastHorizon => 0x06
  | .frameOverflow => 0x07
  | .badTime => 0x08
  | .removeTooMany => 0x09
  | .oddCount => 0x0A
  | .unsupported => 0x0B
  | .timeBackwards => 0x0C

/-- A fault record, R30, R601. -/
structure FaultRecord where
  code : FaultCode
  cmd : BitVec 64
  info : Word
  deriving DecidableEq, Repr

/-- An oscillator's route, 10_state.md R36. -/
inductive Route where
  | none
  | center
  | left
  | right
  deriving DecidableEq, Repr

/-- The fields every oscillator holds, R36; `delay` and `lastAmp` are s32. -/
structure Osc where
  delay : Word
  lastAmp : Word
  route : Route
  deriving DecidableEq, Repr

/-- One delta-synthesis buffer, R33. Cells are s32, `offset` has TIME_BITS fraction bits, `accum` is s32. -/
structure Dsb where
  cells : Store 32
  offset : Nat
  accum : Word
  deriving DecidableEq, Repr

/-- The mix stage, R34, with its three DSBs. -/
structure Mix where
  sampleRate : Word
  clockRate : Word
  factor : Word
  cap : Word
  dirty : Bool
  center : Dsb
  left : Dsb
  right : Dsb
  deriving DecidableEq, Repr

/-- A PSG tone generator, R38. -/
structure Tone where
  period : BitVec 10
  atten : BitVec 4
  phase : BitVec 1
  osc : Osc
  deriving DecidableEq, Repr

/-- The PSG noise generator, R38. -/
structure PsgNoise where
  ctrl : BitVec 3
  atten : BitVec 4
  shifter : BitVec 16
  osc : Osc
  deriving DecidableEq, Repr

/-- A PSG group, R38, R37; `lastTime` is s32. -/
structure Psg where
  latch : Byte
  stereo : Byte
  tone0 : Tone
  tone1 : Tone
  tone2 : Tone
  noise : PsgNoise
  lastTime : Word
  deriving DecidableEq, Repr

/-- `enabled` and `length_ctr` of an HH oscillator, R40 to R42. -/
structure Gate where
  enabled : Bool
  lengthCtr : Nat
  deriving DecidableEq, Repr

/-- `volume`, `env_delay` and `env_enabled` of an HH square or noise, R40, R42, and the period and direction its last trigger
latched: NRx2[2:0] and NRx2[3], which take effect at a trigger only (44_hh_square.md R325, R333; entry 20 of the log). -/
structure Env where
  volume : BitVec 4
  delay : Nat
  enabled : Bool
  period : BitVec 3
  rising : Bool
  deriving DecidableEq, Repr

/-- An HH square oscillator, R40. -/
structure Square where
  gate : Gate
  env : Env
  phase : BitVec 3
  osc : Osc
  deriving DecidableEq, Repr

/-- The sweep unit of sq1, R40. -/
structure Sweep where
  freq : BitVec 11
  delay : Nat
  enabled : Bool
  neg : Bool
  deriving DecidableEq, Repr

/-- The HH wave oscillator, R41 (HH_WAVE_LEN = 32). -/
structure Wave where
  gate : Gate
  position : BitVec 5
  latched : BitVec 4
  osc : Osc
  deriving DecidableEq, Repr

/-- The HH noise oscillator, R42. -/
structure HhNoise where
  gate : Gate
  env : Env
  lfsr : BitVec 15
  osc : Osc
  deriving DecidableEq, Repr

/-- The HH group, R39, R37. `regs` holds the registers at their own addresses 0x10..0x3F; the times are s32. -/
structure Hh where
  regs : Store 8
  framePhase : BitVec 3
  nextFrameTime : Word
  volScale : Int
  lastTime : Word
  sq1 : Square
  sweep : Sweep
  sq2 : Square
  wave : Wave
  noise : HhNoise
  deriving DecidableEq, Repr

/-- The TRI group, R43, R37; the times are s32. -/
structure Tri where
  r4008 : Byte
  r400A : Byte
  r400B : Byte
  chanEnable : Bool
  lengthCtr : Nat
  linearCtr : Nat
  linearReload : Bool
  step : BitVec 5
  frameStep : BitVec 2
  nextFrameTime : Word
  lastTime : Word
  osc : Osc
  deriving DecidableEq, Repr

/-- One frequency setting of an FM channel, R45. -/
structure Freq where
  fnum : BitVec 11
  block : BitVec 3
  kc : BitVec 5
  deriving DecidableEq, Repr

/-- An FM operator, R46. -/
structure Operator where
  dt : BitVec 3
  mul : BitVec 4
  tl : BitVec 7
  ks : BitVec 2
  ar : BitVec 5
  amEn : BitVec 1
  d1r : BitVec 5
  d2r : BitVec 5
  sl : BitVec 4
  rr : BitVec 4
  ssg : BitVec 4
  phaseCnt : Word
  phaseInc : Word
  egPhase : EgPhase
  egLvl : Nat
  key : Bool
  deriving DecidableEq, Repr

/-- An FM channel, R45, with its operators; `fbH1` and `fbH2` are s32. -/
structure Channel where
  freqs : Freqs Freq
  algo : BitVec 3
  fb : BitVec 3
  ams : BitVec 2
  fms : BitVec 3
  panL : Bool
  panR : Bool
  fbH1 : Word
  fbH2 : Word
  ops : Ops4 Operator
  deriving DecidableEq, Repr

/-- An FM instance, R44; `dacData` is s32. -/
structure Fm where
  reg0 : Store 8
  reg1 : Store 8
  clock : Word
  rate : Word
  lfoEn : Bool
  lfoFreq : BitVec 3
  lfoCnt : Word
  mode27 : Byte
  dacEn : Bool
  dacData : Word
  chans : Chans Channel
  deriving DecidableEq, Repr

/-- A frame of an FM output port, R30: (left, right), both s32. -/
abbrev FmFrame := Word × Word

/-- The state of the block, 10_state.md, with three fields of the model's own: `params` (R47: the arguments of the step
relation; entry 1), `port`, the commands the host has issued and the block has not taken (entry 4), and `freeCount`, how many free
values the block has taken (entry 8). -/
structure State where
  params : Params
  port : List Command
  cmdCount : BitVec 64
  fault : Option FaultRecord
  result : Word
  pcmOut : List Byte
  fmOut : Two (List FmFrame)
  mix : Mix
  psg : Two Psg
  hh : Hh
  tri : Tri
  fm : Two Fm
  freeCount : Nat
  deriving DecidableEq, Repr

/-! Reset values, 10_state.md and 70_reset_and_hazards.md R701. -/

/-- An oscillator at reset with its variant's route, R36. -/
def Osc.reset (route : Route) : Osc := ⟨0, 0, route⟩

/-- A DSB at reset, R33. -/
def Dsb.reset : Dsb := ⟨[], 0, 0⟩

/-- The mix stage at reset, R34: unconfigured. -/
def Mix.reset : Mix := ⟨0, 0, 0, 0, false, .reset, .reset, .reset⟩

/-- A tone at reset, R38. -/
def Tone.reset : Tone := ⟨0, 15, 0, .reset .center⟩

/-- A PSG group at reset, R38. -/
def Psg.reset (p : Params) : Psg :=
  ⟨0, 0xFF, .reset, .reset, .reset, ⟨0, 15, p.psgNoiseInit, .reset .center⟩, 0⟩

/-- An envelope at reset, R40; what a trigger latches is 0 until the first one. -/
def Env.reset : Env := ⟨0, 0, false, 0, false⟩

/-- A square at reset, R40. -/
def Square.reset : Square := ⟨⟨false, 0⟩, .reset, 0, .reset .none⟩

/-- The HH group at reset, R39 to R42, R398. -/
def Hh.reset (p : Params) : Hh where
  regs := []
  framePhase := 0
  nextFrameTime := 0
  volScale := p.unitHh
  lastTime := 0
  sq1 := .reset
  sweep := ⟨0, 0, false, false⟩
  sq2 := .reset
  wave := ⟨⟨false, 0⟩, 0, 0, .reset .none⟩
  noise := ⟨⟨false, 0⟩, .reset, 0x7FFF, .reset .none⟩

/-- The TRI group at reset, R43. -/
def Tri.reset (p : Params) : Tri where
  r4008 := 0
  r400A := 0
  r400B := 0
  chanEnable := false
  lengthCtr := 0
  linearCtr := 0
  linearReload := false
  step := 0
  frameStep := 0
  nextFrameTime := BitVec.ofNat 32 p.triFramePeriod
  lastTime := 0
  osc := .reset .center

/-- An operator at reset, R46. -/
def Operator.reset (p : Params) : Operator :=
  ⟨0, 0, 0, 0, 0, 0, 0, 0, 0, 0, 0, 0, 0, .release, p.fmEnvMax, false⟩

/-- A channel at reset, R45. -/
def Channel.reset (p : Params) : Channel :=
  ⟨⟨⟨0, 0, 0⟩, ⟨0, 0, 0⟩, ⟨0, 0, 0⟩, ⟨0, 0, 0⟩⟩, 0, 0, 0, 0, true, true, 0, 0,
   ⟨.reset p, .reset p, .reset p, .reset p⟩⟩

/-- An FM instance at reset with given rates, R44, R705 (FM_RESET keeps the rates, R533). -/
def Fm.reset (p : Params) (clock rate : Word) : Fm where
  reg0 := [(0x2A, 0x80), (0xB4, 0xC0), (0xB5, 0xC0), (0xB6, 0xC0)]
  reg1 := [(0xB4, 0xC0), (0xB5, 0xC0), (0xB6, 0xC0)]
  clock := clock
  rate := rate
  lfoEn := false
  lfoFreq := 0
  lfoCnt := 0
  mode27 := 0
  dacEn := false
  dacData := 0
  chans := ⟨.reset p, .reset p, .reset p, .reset p, .reset p, .reset p⟩

/-- The power-on state of a block with given parameters, R700: every field of the block at the spec's reset
value. -/
def State.powerOn (p : Params) : State where
  params := p
  port := []
  cmdCount := 0
  fault := none
  result := 0
  pcmOut := []
  fmOut := ⟨[], []⟩
  mix := .reset
  psg := ⟨.reset p, .reset p⟩
  hh := .reset p
  tri := .reset p
  fm := ⟨.reset p 0 0, .reset p 0 0⟩
  freeCount := 0

/-- The machine right after reset: power-on, R700, with the parameters of entry 2 of the assumption log. -/
def State.reset : State := State.powerOn defaultParams

end Sys2Proof.Machine
end

