-- ==== Sys2Proof/Machine/Ops.lean ====
section
/-! DEFINITION. The shared operations: raising a fault and accepting a command (spec 60_exceptions.md R601 to R608), and the
primitives over the DSBs (40_delta_buffer.md R200 to R217, 41_stereo_mix.md R240 to R242). -/

namespace Sys2Proof.Machine

/-! ## Faults and the command shell -/

/-- What `raise Fault(code, info)` names, R601. -/
structure Raise where
  code : FaultCode
  info : Word
  deriving DecidableEq, Repr

/-- A rule's outcome: what it computes, or the fault it raises. -/
abbrev Res (α : Type) := Except Raise α

/-- `raise Fault(code, info)`. -/
def raise {α : Type} (code : FaultCode) (info : Word) : Res α := .error ⟨code, info⟩

/-- Fault entry, R601, R607: the record, with the index of the faulting command, and `cmd_count` advanced; nothing else
changes. The state is the pre-command state, which R602 lets a model keep. (DESIGN CHOICE, safe: entry 6 of the log.) -/
def takeFault (r : Raise) (s : State) : State :=
  { s with fault := some ⟨r.code, s.cmdCount, r.info⟩, cmdCount := s.cmdCount + 1 }

/-- A command other than BLOCK_RESET, R603, R31: refused with no effect while a fault is recorded; else it takes its effect and
`cmd_count` advances, or it takes the fault it raises. -/
def runCommand (body : Res State) (s : State) : Host.Outcome State Fault Refusal :=
  match s.fault with
  | some _ => .next s
  | none =>
    match body with
    | .ok t => .next { t with cmdCount := s.cmdCount + 1 }
    | .error r => .next (takeFault r s)

/-- The way out of the faulted state, R608, R621: every field at its reset value, the output ports kept (and, of the model's
own fields, the parameters, the commands still to come and the count of free values). -/
def blockReset (s : State) : State :=
  { State.powerOn s.params with port := s.port, pcmOut := s.pcmOut, fmOut := s.fmOut, freeCount := s.freeCount }

/-! ## Rates -/

/-- `F(S, Q)`, R200: S * 2^TIME_BITS / Q rounded to nearest, halves up. -/
def rateFactor (rate clock : Nat) : Nat := (rate * 2 ^ (Config.timeBits + 1) + clock) / (2 * clock)

/-- A factor is valid, R200. -/
def validFactor (f : Nat) : Bool := decide (1 ≤ f) && decide (f < 2 ^ 32)

/-- The mix stage is configured, R203. -/
def Mix.configured (m : Mix) : Bool := decide (m.sampleRate ≠ 0) && decide (m.clockRate ≠ 0)

/-! ## DSBs -/

/-- The three DSBs, R33. -/
inductive DsbName where
  | center
  | left
  | right
  deriving DecidableEq, Repr

/-- DSB u. -/
def Mix.dsb (m : Mix) (u : DsbName) : Dsb :=
  match u with
  | .center => m.center
  | .left => m.left
  | .right => m.right

/-- Replace DSB u. -/
def Mix.setDsb (m : Mix) (u : DsbName) (d : Dsb) : Mix :=
  match u with
  | .center => { m with center := d }
  | .left => { m with left := d }
  | .right => { m with right := d }

/-- The common offset, R35: the three are equal; it is read from C. (DEDUCED: entry 10 of the log.) -/
def Mix.offset (m : Mix) : Nat := m.center.offset

/-- `samples_available`, R35, R217. -/
def Mix.available (m : Mix) : Nat := m.offset / 2 ^ Config.timeBits

/-- `pos(t)`, R204. -/
def Mix.pos (m : Mix) (t : Int) : Int := t * m.factor.toNat + m.offset

/-- `idx(t)`, R204. -/
def Mix.idx (m : Mix) (t : Int) : Int := asr (m.pos t) Config.timeBits

/-- `ph(t)`, R204. -/
def Mix.ph (p : Params) (m : Mix) (t : Int) : Nat :=
  (asr (m.pos t) (Config.timeBits - p.phaseBits) % (2 ^ p.phaseBits : Int)).toNat

/-- The cell and phase of a delta at `t`, checked or clamped, R206, R605. -/
def Mix.place (p : Params) (m : Mix) (t : Int) : Res (Nat × Nat) :=
  if m.pos t < 0 then
    match p.buildMode with
    | .debug => raise .deltaBeforeOrigin (wrap32 t)
    | .release => .ok (0, 0)
  else if m.cap.toNat < m.idx t then
    match p.buildMode with
    | .debug => raise .deltaPastHorizon (wrap32 t)
    | .release => .ok (m.cap.toNat, m.ph p t)
  else .ok ((m.idx t).toNat, m.ph p t)

/-- `K[ph][j]`, R205. -/
def kernelTap (p : Params) (ph j : Nat) : Word := (p.kernel.getD ph []).getD j 0

/-- `buf[i + j] <- wrap32(buf[i + j] + d * K[ph][j])` for the first `n` taps, R207. -/
def addTaps (p : Params) (ph i : Nat) (d : Int) : Nat → Store 32 → Store 32
  | 0, c => c
  | n + 1, c =>
    let c' := addTaps p ph i d n c
    c'.set (i + n) (wrap32 (sext (c'.get (i + n)) + d * sext (kernelTap p ph n)))

/-- `AddDelta(u, t, d)`, R207, in a command of opcode `opc`. -/
def addDelta (p : Params) (opc : Byte) (u : DsbName) (t d : Int) (m : Mix) : Res Mix :=
  if m.configured then do
    let (i, ph) ← m.place p t
    let b := m.dsb u
    .ok { m.setDsb u { b with cells := addTaps p ph i d p.kw b.cells } with dirty := true }
  else raise .notConfigured (opc.zeroExtend 32)

/-- The DSB a route names. -/
def Route.dsb (r : Route) : Option DsbName :=
  match r with
  | .none => .none
  | .center => some .center
  | .left => some .left
  | .right => some .right

/-- `Emit(route, t, d)`, 00_scope.md R10. -/
def emit (p : Params) (opc : Byte) (r : Route) (t d : Int) (m : Mix) : Res Mix :=
  match r.dsb with
  | none => .ok m
  | some u => if d = 0 then .ok m else addDelta p opc u t d m

/-- `Route(l, r)`, 43_psg.md R296. -/
def routeOf (l r : Bool) : Route :=
  match l, r with
  | true, true => .center
  | true, false => .left
  | false, true => .right
  | false, false => .none

/-- The same change to all three DSBs. -/
def Mix.mapDsbs (m : Mix) (f : Dsb → Dsb) : Mix :=
  { m with center := f m.center, left := f m.left, right := f m.right }

/-- `RemoveSamples(n)`, R215. -/
def Mix.removeSamples (m : Mix) (n : Nat) : Mix :=
  m.mapDsbs fun d => { d with cells := d.cells.shift n, offset := d.offset - n * 2 ^ Config.timeBits }

/-! ## Integrator and stereo output -/

/-- The integrator's next state on a cell, R213. -/
def integrate (accum cell : Word) : Word :=
  wrap32 (sext accum + sext cell - asr (sext accum) Config.leakShift)

/-- The three integrator states of a read. -/
structure Accums where
  center : Word
  left : Word
  right : Word
  deriving DecidableEq, Repr

/-- `Sat16(s)`, R241, as 16 bits. -/
def sat16 (s : Int) : BitVec 16 :=
  let low := BitVec.ofInt 16 s
  if low.toInt = s then low else BitVec.ofInt 16 (asr s 24) ^^^ 0x7FFF

/-- One side's sample of a frame, R240. -/
def mixSample (side center : Word) : BitVec 16 :=
  sat16 (asr (sext (wrap32 (sext side + sext center))) Config.mixShift)

/-- A sample as two bytes, most significant first, R101. -/
def sampleBytes (v : BitVec 16) : List Byte := [v.extractLsb' 8 8, v.extractLsb' 0 8]

/-- The four bytes of a frame, R240, R242. -/
def frameBytes (a : Accums) : List Byte :=
  sampleBytes (mixSample a.left a.center) ++ sampleBytes (mixSample a.right a.center)

/-- `Step` of the three DSBs for cell `i`, R213. -/
def Mix.stepAccums (m : Mix) (i : Nat) (a : Accums) : Accums :=
  ⟨integrate a.center (m.center.cells.get i), integrate a.left (m.left.cells.get i),
   integrate a.right (m.right.cells.get i)⟩

/-- The frames of cells `i .. i + n - 1`: the bytes written, and the integrators after, R242. -/
def Mix.readFrames (m : Mix) : Nat → Nat → Accums → List Byte × Accums
  | 0, _, a => ([], a)
  | n + 1, i, a =>
    let (bytes, a') := Mix.readFrames m n (i + 1) (m.stepAccums i a)
    (frameBytes a ++ bytes, a')

/-- The integrators of a mix stage. -/
def Mix.accums (m : Mix) : Accums := ⟨m.center.accum, m.left.accum, m.right.accum⟩

/-- Store the integrators back. -/
def Mix.setAccums (m : Mix) (a : Accums) : Mix :=
  { m with
    center := { m.center with accum := a.center }
    left := { m.left with accum := a.left }
    right := { m.right with accum := a.right } }

end Sys2Proof.Machine
end

