-- ==== Sys2Proof/Machine/Operands.lean ====
section
/-! DEFINITION. Operand forms: assembly (spec 30_encoding.md R142), the unit a command names (R144), and the channel and
operator an FM address names (R154, R155). -/

namespace Sys2Proof.Machine

/-- A time or delta operand, `sext_32`, R142. -/
def timeOperand (w : Word) : Int := sext w

/-- A count, rate, clock or length operand, `zext_32`, R142. -/
def countOperand (w : Word) : Nat := w.toNat

/-- The DSB named by SEL, R144: 0 = C, 1 = L, 2 = R. -/
def dsbOperand (sel : BitVec 4) : Option DsbName :=
  match sel with
  | 0#4 => some .center
  | 1#4 => some .left
  | 2#4 => some .right
  | _ => none

/-- An oscillator group that exists. -/
inductive GroupRef where
  | psg (inst : BitVec 1)
  | hh
  | tri
  deriving DecidableEq, Repr

/-- The instance named by INST when it is below a count of at most 2, R144. -/
def instOperand (count : Nat) (inst : BitVec 4) : Option (BitVec 1) :=
  if inst.toNat < count ∧ inst.toNat < 2 then some (inst.extractLsb' 0 1) else none

/-- The group named by SEL and INST, R144. -/
def groupOperand (p : Params) (inst sel : BitVec 4) : Option GroupRef :=
  match sel with
  | 0#4 => (instOperand p.nPsg inst).map .psg
  | 1#4 => if inst = 0 ∧ p.hasHh = true then some .hh else none
  | 2#4 => if inst = 0 ∧ p.hasTri = true then some .tri else none
  | _ => none

/-- The FM port named by SEL, R144. -/
def portOperand (sel : BitVec 4) : Option FmPort :=
  match sel with
  | 0#4 => some .p0
  | 1#4 => some .p1
  | _ => none

/-- `raise Fault(ILLEGAL, W0)`, R601. -/
def illegal {α : Type} (w0 : Word) : Res α := raise .illegal w0

/-- What a rule needs, or ILLEGAL. -/
def orIllegal {α : Type} (w0 : Word) (o : Option α) : Res α :=
  match o with
  | some a => .ok a
  | none => illegal w0

/-- Go on, or ILLEGAL. -/
def checkLegal (w0 : Word) (ok : Bool) : Res Unit := if ok then .ok () else illegal w0

/-- The FM channel of an address: c = (a & 3) + 3 * port, and a & 3 = 3 names no channel, R154, R155. -/
def fmChannel (port : FmPort) (low : BitVec 2) : Option ChNum :=
  match port, low with
  | .p0, 0#2 => some .ch0
  | .p0, 1#2 => some .ch1
  | .p0, 2#2 => some .ch2
  | .p1, 0#2 => some .ch3
  | .p1, 1#2 => some .ch4
  | .p1, 2#2 => some .ch5
  | _, 3#2 => none

/-- The FM operator of an address, by (a >> 2) & 3: 1, 3, 2, 4, R154. -/
def fmSlot (slot : BitVec 2) : OpNum :=
  match slot with
  | 0#2 => .op1
  | 1#2 => .op3
  | 2#2 => .op2
  | 3#2 => .op4

/-- The channel a key-on code names, 47_fm_registers.md R437: 0, 1, 2 and 4, 5, 6; 3 and 7 name none. -/
def keyChannel (code : BitVec 3) : Option ChNum :=
  fmChannel (if code.extractLsb' 2 1 = 1#1 then .p1 else .p0) (code.extractLsb' 0 2)

end Sys2Proof.Machine
end

