-- ==== Sys2Proof/Machine/Flags.lean ====
section
/-! DEFINITION. The status bits of the block. It has no condition codes (spec 10_state.md R32); its status bits are the
per-oscillator `enabled` flags and what software reads of them, the restart signal in `result`, the DAC states and the modes
that register bits switch. -/

namespace Sys2Proof.Machine

/-- A flag as one bit of a word. -/
def flagWord (b : Bool) (at_ : Nat) : Word := if b then BitVec.ofNat 32 (2 ^ at_) else 0

/-- A flag as one bit of a byte. -/
def flagByte (b : Bool) (at_ : Nat) : Byte := if b then BitVec.ofNat 8 (2 ^ at_) else 0

/-- The restart signal as the result of a register write, 42_osc_common.md R263, R264. -/
def restartResult (restart : Bool) : Word := flagWord restart 0

/-- An HH register, 10_state.md R39. -/
def Hh.reg (h : Hh) (a : Nat) : Byte := Store.get h.regs a

/-- `dac_on` of a square or the noise by its NRx2, 44_hh_square.md R322. -/
def dacOnByte (nrx2 : Byte) : Bool := decide (nrx2.extractLsb' 3 5 ≠ 0#5)

/-- `dac_on(wave)`, R322. -/
def Hh.waveDacOn (h : Hh) : Bool := bit (h.reg 0x1A) 7

/-- The HH group is powered on, 45_hh_wave_noise_master.md R394. -/
def Hh.powered (h : Hh) : Bool := bit (h.reg 0x26) 7

/-- The value NR52 reads as, R396. -/
def Hh.statusByte (h : Hh) : Byte :=
  (h.reg 0x26 &&& 0x80) ||| 0x70 ||| flagByte h.sq1.gate.enabled 0 ||| flagByte h.sq2.gate.enabled 1 |||
  flagByte h.wave.gate.enabled 2 ||| flagByte h.noise.gate.enabled 3

/-- The result of OSC_WAVE_STATUS, 42_osc_common.md R272. -/
def Hh.waveStatus (h : Hh) : Word :=
  h.wave.position.zeroExtend 32 ||| (h.wave.latched.zeroExtend 32 <<< 8) ||| flagWord h.wave.gate.enabled 16

/-- The value TRI 0x15 reads as, 46_triangle.md R421. -/
def Tri.statusByte (t : Tri) : Byte := flagByte (decide (0 < t.lengthCtr)) 2

/-- Channel-3 split mode is on, 47_fm_registers.md R436, R446. -/
def Fm.splitMode (f : Fm) : Bool := decide (f.mode27.extractLsb' 6 2 = 1#2)

/-- An FM instance is configured, 49_fm_channel_output.md R530. -/
def Fm.configured (f : Fm) : Bool := decide (f.clock ≠ 0) && decide (f.rate ≠ 0)

end Sys2Proof.Machine
end

