-- ==== Sys2Proof/Machine/Buffer.lean ====
section
/-! DEFINITION. The delta-synthesis buffer commands (spec 40_delta_buffer.md R201 to R214) and the stereo read
(41_stereo_mix.md R242). Each is a rule on the mix stage that answers the mix stage and the result word. -/

namespace Sys2Proof.Machine

/-- Go on, or raise a fault. -/
def require (ok : Bool) (code : FaultCode) (info : Word) : Res Unit := if ok then .ok () else raise code info

/-- Every cell, offset and integrator 0, R201, R211. -/
def Mix.clearDsbs (m : Mix) : Mix := m.mapDsbs fun _ => .reset

/-- The capacity BUF_SET_SAMPLE_RATE gives, R201: `(rate*msec + 999) / 1000`. -/
def newCap (rate msec : Word) : Nat := (countOperand rate * countOperand msec + 999) / 1000

/-- Whether a pair of rates is acceptable, R201, R202: one of them is still 0, or their factor is valid. -/
def ratesFit (rate clock : Word) : Bool :=
  decide (rate = 0) || decide (clock = 0) || validFactor (rateFactor (countOperand rate) (countOperand clock))

/-- `mix.factor` after a rate is set, R201, R202: computed once both rates are there. -/
def newFactor (rate clock old : Word) : Word :=
  if rate = 0 ∨ clock = 0 then old else BitVec.ofNat 32 (rateFactor (countOperand rate) (countOperand clock))

/-- BUF_SET_SAMPLE_RATE, R201. -/
def Mix.setSampleRate (p : Params) (rate msec : Word) (m : Mix) : Res (Mix × Word) := do
  require (!m.dirty) .rateMidtrack 0x10
  require (decide (rate ≠ 0) && decide (msec ≠ 0)) .badRate rate
  require (decide (newCap rate msec ≤ p.capMax)) .badRate rate
  require (ratesFit rate m.clockRate) .badRate rate
  let cap := BitVec.ofNat 32 (newCap rate msec)
  .ok ({ m.clearDsbs with sampleRate := rate, cap := cap, factor := newFactor rate m.clockRate m.factor }, cap)

/-- BUF_SET_CLOCK_RATE, R202. -/
def Mix.setClockRate (clock : Word) (m : Mix) : Res (Mix × Word) := do
  require (!m.dirty) .rateMidtrack 0x11
  require (decide (clock ≠ 0)) .badRate clock
  require (ratesFit m.sampleRate clock) .badRate clock
  let factor := newFactor m.sampleRate clock m.factor
  .ok ({ m with clockRate := clock, factor := factor }, factor)

/-- BUF_CLEAR, R211. -/
def Mix.clear (m : Mix) : Mix := { m.clearDsbs with dirty := false }

/-- `n`, the offset BUF_END_FRAME gives, R210. -/
def Mix.endOffset (t : Int) (m : Mix) : Nat := m.offset + t.toNat * m.factor.toNat

/-- BUF_END_FRAME, R210. -/
def Mix.endFrame (time : Word) (m : Mix) : Res (Mix × Word) := do
  let n := m.endOffset (timeOperand time)
  require m.configured .notConfigured 0x14
  require (decide (0 ≤ timeOperand time)) .badTime time
  require (decide (n / 2 ^ Config.timeBits ≤ m.cap.toNat)) .frameOverflow time
  .ok ({ m.mapDsbs (fun d => { d with offset := n }) with dirty := true }, BitVec.ofNat 32 (n / 2 ^ Config.timeBits))

/-- BUF_REMOVE_SAMPLES, R214. -/
def Mix.remove (n : Word) (m : Mix) : Res (Mix × Word) := do
  require (decide (countOperand n ≤ m.available)) .removeTooMany n
  .ok (m.removeSamples (countOperand n), n)

/-- The frames a stereo read makes, R242. -/
def Mix.readCount (count : Word) (m : Mix) : Nat := min (countOperand count / 2) m.available

/-- BUF_READ_STEREO, R242: the bytes put out, the mix stage after, and the result. -/
def Mix.readStereo (count : Word) (m : Mix) : Res (List Byte × Mix × Word) := do
  require (decide (countOperand count % 2 = 0)) .oddCount count
  let frames := m.readCount count
  let (bytes, accums) := m.readFrames frames 0 m.accums
  .ok (bytes, (m.setAccums accums).removeSamples frames, BitVec.ofNat 32 (2 * frames))

/-- A rule on the mix stage as a rule on the state. -/
def onMix (rule : Mix → Res (Mix × Word)) (s : State) : Res State := do
  let (m, result) ← rule s.mix
  .ok { s with mix := m, result := result }

/-- BUF_SET_SAMPLE_RATE, R201. -/
def execBufSetSampleRate (rate msec : Word) (s : State) : Host.Outcome State Fault Refusal :=
  runCommand (onMix (Mix.setSampleRate s.params rate msec) s) s

/-- BUF_SET_CLOCK_RATE, R202. -/
def execBufSetClockRate (clock : Word) (s : State) : Host.Outcome State Fault Refusal :=
  runCommand (onMix (Mix.setClockRate clock) s) s

/-- BUF_CLEAR, R211. -/
def execBufClear (s : State) : Host.Outcome State Fault Refusal :=
  runCommand (onMix (fun m => .ok (m.clear, 0)) s) s

/-- BUF_ADD_DELTA, R208; SEL names the DSB, R144. -/
def execBufAddDelta (sel : BitVec 4) (time delta : Word) (s : State) : Host.Outcome State Fault Refusal :=
  runCommand (onMix (fun m => do
    let u ← orIllegal (encode (.bufAddDelta sel time delta)).w0 (dsbOperand sel)
    let m' ← addDelta s.params 0x13 u (timeOperand time) (timeOperand delta) m
    .ok (m', 0)) s) s

/-- BUF_END_FRAME, R210. -/
def execBufEndFrame (time : Word) (s : State) : Host.Outcome State Fault Refusal :=
  runCommand (onMix (Mix.endFrame time) s) s

/-- BUF_SAMPLES_AVAIL, R212. -/
def execBufSamplesAvail (s : State) : Host.Outcome State Fault Refusal :=
  runCommand (onMix (fun m => .ok (m, BitVec.ofNat 32 m.available)) s) s

/-- BUF_READ_STEREO, R242. -/
def execBufReadStereo (count : Word) (s : State) : Host.Outcome State Fault Refusal :=
  runCommand (do
    let (bytes, m, result) ← s.mix.readStereo count
    .ok { s with mix := m, pcmOut := s.pcmOut ++ bytes, result := result }) s

/-- BUF_REMOVE_SAMPLES, R214. -/
def execBufRemoveSamples (n : Word) (s : State) : Host.Outcome State Fault Refusal :=
  runCommand (onMix (Mix.remove n) s) s

end Sys2Proof.Machine
end

