-- ==== Sys2Proof/Machine/Control.lean ====
section
/-! DEFINITION. The control commands (spec 60_exceptions.md R620, R621). -/

namespace Sys2Proof.Machine

/-- NOP, R620: `result <- 0`. -/
def execNop (s : State) : Host.Outcome State Fault Refusal := runCommand (.ok { s with result := 0 }) s

/-- BLOCK_RESET, R621: accepted also while a fault is recorded (R603); `cmd_count` becomes 0. -/
def execBlockReset (s : State) : Host.Outcome State Fault Refusal := .next (blockReset s)

end Sys2Proof.Machine
end

