-- ==== Sys2Proof/Machine/FmTables.lean ====
section
/-! DEFINITION. The FM tables of spec 00_scope.md R7, built from the opaque raw tables of `Sys2Proof.Config` so that the
constraints of 48_fm_operator.md R488, R489 and R491 hold by construction and nothing else is assumed: every table that meets
the constraints is one of these. (DESIGN CHOICE, safe: entry 3 of the assumption log.) -/

namespace Sys2Proof.Machine

/-- The first `n` values of `f`, summed. -/
def sumBelow (f : Nat → Nat) : Nat → Nat
  | 0 => 0
  | n + 1 => sumBelow f n + f n

/-- `FM_RATE(ph, r)`: no increment at rate 0, R488. -/
def fmRate (clock rate : Word) (ph : EgPhase) (r : Nat) : Nat :=
  if r = 0 then 0 else Config.fmRateRaw clock rate ph r

/-- `FM_ATT_CURVE(e, inc)`: unchanged for inc 0, never above `e`, R488. -/
def fmAttCurve (e inc : Nat) : Nat := if inc = 0 then e else min e (Config.fmAttCurveRaw e inc)

/-- `FM_SL(sl)`: from 0, non-decreasing, at most FM_ENV_MAX, R488. -/
def fmSl (p : Params) (sl : BitVec 4) : Nat := min p.fmEnvMax (sumBelow Config.fmSlStep sl.toNat)

/-- `FM_TL(tl)`: from 0, non-decreasing, at most FM_ENV_MAX, R488. -/
def fmTl (p : Params) (tl : BitVec 7) : Nat := min p.fmEnvMax (sumBelow Config.fmTlStep tl.toNat)

/-- `|FM_OPOUT|`: what the magnitude has still to fall before FM_ENV_MAX, so non-increasing in `att` and 0 from FM_ENV_MAX on,
R489. -/
def fmOpMagnitude (p : Params) (half att : Nat) : Nat :=
  sumBelow (fun i => Config.fmOpDrop half (att + i)) (p.fmEnvMax - att)

/-- `FM_OPOUT(pidx, att)`: the second half period is the first negated, R489. -/
def fmOpOut (p : Params) (pidx : BitVec 12) (att : Nat) : Int :=
  let half := pidx.toNat % 2048
  let v : Int := if Config.fmOpNegative half att then -(fmOpMagnitude p half att : Int) else fmOpMagnitude p half att
  if p.fmEnvMax ≤ att then 0 else if pidx.toNat < 2048 then v else -v

/-- `FM_LFO_PM(v, fms, fnum)`: 0 for fms 0, R491. -/
def fmLfoPm (v : Word) (fms : BitVec 3) (fnum : BitVec 11) : Int :=
  if fms = 0#3 then 0 else Config.fmLfoPmRaw v fms fnum

/-- `FM_LFO_AM(v, ams)`: 0 for ams 0, never negative, R491. -/
def fmLfoAm (v : Word) (ams : BitVec 2) : Nat := if ams = 0#2 then 0 else Config.fmLfoAmRaw v ams

/-- `FM_FB_SHIFT(fb)`. -/
def fmFbShift (p : Params) (fb : BitVec 3) : Nat := p.fmFbShift.getD fb.toNat 0

/-- `FKEY[n]`, R480. -/
def fkey (n : BitVec 4) : BitVec 2 :=
  if n.toNat < 7 then 0 else if n = 7#4 then 1 else if n = 8#4 then 2 else 3

/-- `KC(fnum, block)`, R480. -/
def keyCode (fnum : BitVec 11) (block : BitVec 3) : BitVec 5 := block ++ fkey (fnum.extractLsb' 7 4)

end Sys2Proof.Machine
end

