-- ==== Sys2Proof/Machine/FmRegs.lean ====
section
/-! DEFINITION. FM register writes (spec 47_fm_registers.md R430 to R452). A rule runs after the register image is stored
(R430); a refused value raises its fault before. -/

namespace Sys2Proof.Machine

/-- The register image of a port. -/
def Fm.image (f : Fm) (port : FmPort) : Store 8 :=
  match port with
  | .p0 => f.reg0
  | .p1 => f.reg1

/-- `reg[p][a]`. -/
def Fm.reg (f : Fm) (port : FmPort) (a : Byte) : Byte := Store.get (f.image port) a.toNat

/-- `reg[p][a] <- d`, R430. -/
def Fm.setReg (f : Fm) (port : FmPort) (a d : Byte) : Fm :=
  match port with
  | .p0 => { f with reg0 := Store.set f.reg0 a.toNat d }
  | .p1 => { f with reg1 := Store.set f.reg1 a.toNat d }

/-- Change a channel. -/
def Fm.mapChan (f : Fm) (c : ChNum) (g : Channel → Channel) : Fm :=
  { f with chans := f.chans.set c (g (f.chans.get c)) }

/-- Change the channel an address names; none for a & 3 = 3 (R432). -/
def Fm.mapChan? (f : Fm) (c : Option ChNum) (g : Channel → Channel) : Fm :=
  match c with
  | some c => f.mapChan c g
  | none => f

/-- Change an operator of a channel. -/
def Channel.mapOp (c : Channel) (k : OpNum) (g : Operator → Operator) : Channel :=
  { c with ops := c.ops.set k (g (c.ops.get k)) }

/-- Change the operator an operator register names, R154. -/
def Fm.mapOp (f : Fm) (port : FmPort) (slot ch : BitVec 2) (g : Operator → Operator) : Fm :=
  f.mapChan? (fmChannel port ch) (fun c => c.mapOp (fmSlot slot) g)

/-- 0x22, R434. -/
def fmLfo (d : Byte) (f : Fm) : Fm :=
  { f with lfoEn := bit d 3, lfoFreq := d.extractLsb' 0 3, lfoCnt := if bit d 3 then f.lfoCnt else 0 }

/-- 0x27, R436, for an accepted value. -/
def fmMode27 (d : Byte) (f : Fm) : Fm := { f with mode27 := d }

/-- `KeyOn(c, k)`, R485. -/
def keyOn (p : Params) (o : Operator) : Operator :=
  { o with egPhase := .attack, phaseCnt := 0, egLvl := if p.fmKeyonEnvReset then p.fmEnvMax else o.egLvl }

/-- `KeyOff(c, k)`, R485. -/
def keyOff (o : Operator) : Operator := { o with egPhase := .release }

/-- One operator's key bit, R437: edge-triggered. -/
def setKey (p : Params) (b : Bool) (o : Operator) : Operator :=
  let o' := if b && !o.key then keyOn p o else if !b && o.key then keyOff o else o
  { o' with key := b }

/-- 0x28, R437. -/
def fmKey (p : Params) (d : Byte) (f : Fm) : Fm :=
  f.mapChan? (keyChannel (d.extractLsb' 0 3)) fun c =>
    { c with ops :=
      { o1 := setKey p (bit d 4) c.ops.o1
        o2 := setKey p (bit d 5) c.ops.o2
        o3 := setKey p (bit d 6) c.ops.o3
        o4 := setKey p (bit d 7) c.ops.o4 } }

/-- 0x2A, R438. -/
def fmDacData (p : Params) (d : Byte) (f : Fm) : Fm :=
  { f with dacData := wrap32 (((d.toNat : Int) - 128) * 2 ^ p.fmDacShift) }

/-- 0x2B, R439. -/
def fmDacEnable (d : Byte) (f : Fm) : Fm := { f with dacEn := bit d 7 }

/-- 0x30 group, R440. -/
def opDtMul (d : Byte) (o : Operator) : Operator := { o with dt := d.extractLsb' 4 3, mul := d.extractLsb' 0 4 }
/-- 0x40 group, R441. -/
def opTl (d : Byte) (o : Operator) : Operator := { o with tl := d.extractLsb' 0 7 }
/-- 0x50 group, R442. -/
def opKsAr (d : Byte) (o : Operator) : Operator := { o with ks := d.extractLsb' 6 2, ar := d.extractLsb' 0 5 }
/-- 0x60 group, R443. -/
def opAmD1r (d : Byte) (o : Operator) : Operator := { o with amEn := d.extractLsb' 7 1, d1r := d.extractLsb' 0 5 }
/-- 0x70 group, R444. -/
def opD2r (d : Byte) (o : Operator) : Operator := { o with d2r := d.extractLsb' 0 5 }
/-- 0x80 group, R445. -/
def opSlRr (d : Byte) (o : Operator) : Operator := { o with sl := d.extractLsb' 4 4, rr := d.extractLsb' 0 4 }
/-- 0x90 group, R447, for an accepted value. -/
def opSsg (d : Byte) (o : Operator) : Operator := { o with ssg := d.extractLsb' 0 4 }

/-- Whether a 0x90-group write is refused, R447: SSG-EG enabled on an operator. An address with a & 3 = 3 names none, so it has
no effect (R432). (DEDUCED: entry 11.) -/
def ssgRefused (ch : BitVec 2) (d : Byte) : Bool := bit d 3 && decide (ch ≠ 3#2)

/-- A frequency from its high byte `h` and low byte `d`, R448. -/
def freqOf (h d : Byte) : Freq :=
  let fnum : BitVec 11 := h.extractLsb' 0 3 ++ d
  let block := h.extractLsb' 3 3
  ⟨fnum, block, keyCode fnum block⟩

/-- 0xA0..0xA2, R448. -/
def fmFnumLow (port : FmPort) (ch : BitVec 2) (d : Byte) (f : Fm) : Fm :=
  f.mapChan? (fmChannel port ch) fun c =>
    { c with freqs := { c.freqs with f0 := freqOf (f.reg port (0b101001#6 ++ ch)) d } }

/-- 0xA8..0xAA on port 0, R446: split frequency `j + 1` of channel 2; 0xAB names none (R432). -/
def fmSplitLow (j : BitVec 2) (d : Byte) (f : Fm) : Fm :=
  if j = 3#2 then f
  else f.mapChan .ch2 fun c =>
    { c with freqs := c.freqs.set (j + 1) (freqOf (f.reg .p0 (0b101011#6 ++ j)) d) }

/-- 0xB0..0xB2, R450. -/
def chFbAlgo (d : Byte) (c : Channel) : Channel := { c with fb := d.extractLsb' 3 3, algo := d.extractLsb' 0 3 }

/-- 0xB4..0xB6, R451. -/
def chPan (d : Byte) (c : Channel) : Channel :=
  { c with panL := bit d 7, panR := bit d 6, ams := d.extractLsb' 4 2, fms := d.extractLsb' 0 3 }

/-- The rule of a global register of port 0 (R153); an address without a meaning changes nothing else (R432, R435). -/
def fmGlobalRule (p : Params) (addr d : Byte) (f : Fm) : Fm :=
  match addr with
  | 0x22#8 => fmLfo d f
  | 0x27#8 => fmMode27 d f
  | 0x28#8 => fmKey p d f
  | 0x2A#8 => fmDacData p d f
  | 0x2B#8 => fmDacEnable d f
  | _ => f

/-- The rule of a channel register 0xA0..0xBF (R155, R432, R449). -/
def fmChannelRule (port : FmPort) (addr d : Byte) (f : Fm) : Fm :=
  let ch := addr.extractLsb' 0 2
  match addr.extractLsb' 2 6 with
  | 0b101000#6 => fmFnumLow port ch d f
  | 0b101010#6 => if port = .p0 then fmSplitLow ch d f else f
  | 0b101100#6 => f.mapChan? (fmChannel port ch) (chFbAlgo d)
  | 0b101101#6 => f.mapChan? (fmChannel port ch) (chPan d)
  | _ => f

/-- The rule of an address, R430, after the register image is stored. -/
def fmRule (p : Params) (port : FmPort) (addr d : Byte) (f : Fm) : Fm :=
  let slot := addr.extractLsb' 2 2
  let ch := addr.extractLsb' 0 2
  match addr.extractLsb' 4 4 with
  | 0x2#4 => if port = .p0 then fmGlobalRule p addr d f else f
  | 0x3#4 => f.mapOp port slot ch (opDtMul d)
  | 0x4#4 => f.mapOp port slot ch (opTl d)
  | 0x5#4 => f.mapOp port slot ch (opKsAr d)
  | 0x6#4 => f.mapOp port slot ch (opAmD1r d)
  | 0x7#4 => f.mapOp port slot ch (opD2r d)
  | 0x8#4 => f.mapOp port slot ch (opSlRr d)
  | 0x9#4 => f.mapOp port slot ch (opSsg d)
  | 0xA#4 => fmChannelRule port addr d f
  | 0xB#4 => fmChannelRule port addr d f
  | _ => f

/-- Whether a write is refused, R436 (CSM mode, on port 0), R447 (SSG-EG). -/
def fmRefused (port : FmPort) (addr d : Byte) : Bool :=
  (decide (port = .p0) && decide (addr = 0x27#8) && bit d 7) ||
  (decide (addr.extractLsb' 4 4 = 0x9#4) && ssgRefused (addr.extractLsb' 0 2) d)

/-- A register write: the refusal, then the image, then the rule, R430. -/
def fmWriteReg (port : FmPort) (addr d : Byte) (refused : Bool) (rule : Fm → Fm) (f : Fm) : Res Fm :=
  if refused then raise .unsupported (d.zeroExtend 32) else .ok (rule (f.setReg port addr d))

end Sys2Proof.Machine
end

