-- ==== Sys2Proof/Machine/FmSynth.lean ====
section
/-! DEFINITION. One FM frame (spec 48_fm_operator.md R481 to R491, 49_fm_channel_output.md R521 to R526). -/

namespace Sys2Proof.Machine

/-- `SPLIT_IDX[k]`, R481. -/
def splitIndex (k : OpNum) : BitVec 2 :=
  match k with
  | .op1 => 2
  | .op2 => 3
  | .op3 => 1
  | .op4 => 0

/-- `s(c, k)`, R481. -/
def Fm.freqIndex (f : Fm) (c : ChNum) (k : OpNum) : BitVec 2 :=
  if c = .ch2 ∧ f.splitMode = true then splitIndex k else 0

/-- The frequency an operator uses, R481. -/
def Fm.opFreq (f : Fm) (c : ChNum) (k : OpNum) : Freq := (f.chans.get c).freqs.get (f.freqIndex c k)

/-- The F-number after the LFO's pitch effect, R482. -/
def Fm.bentFnum (f : Fm) (fms : BitVec 3) (fn : BitVec 11) : BitVec 11 :=
  if f.lfoEn = true ∧ fms ≠ 0#3 then BitVec.ofInt 11 ((fn.toNat : Int) + fmLfoPm f.lfoCnt fms fn) else fn

/-- The phase increment from a table frequency, a block, a detune and a multiple, R482. -/
def phaseIncOf (tableFreq : Nat) (block : BitVec 3) (detune : Int) (mul : BitVec 4) : Word :=
  let base := wrap32 ((tableFreq / 2 ^ (7 - block.toNat) : Nat) + detune)
  BitVec.ofNat 32 (base.toNat * (if mul = 0#4 then 1 else 2 * mul.toNat) / 2)

/-- `phase_inc` of an operator for this frame, R482. -/
def Fm.phaseInc (f : Fm) (c : ChNum) (k : OpNum) (o : Operator) : Word :=
  let fr := f.opFreq c k
  let fn := f.bentFnum (f.chans.get c).fms fr.fnum
  phaseIncOf (Config.fmFreq f.clock f.rate fn) fr.block (Config.fmDt f.clock f.rate o.dt fr.kc) o.mul

/-- Step 1 of R526 on a channel. -/
def Fm.withPhaseIncs (f : Fm) (c : ChNum) (x : Channel) : Channel :=
  let up (k : OpNum) (o : Operator) : Operator := { o with phaseInc := f.phaseInc c k o }
  { x with ops := ⟨up .op1 x.ops.o1, up .op2 x.ops.o2, up .op3 x.ops.o3, up .op4 x.ops.o4⟩ }

/-- `am(op)`, R491. -/
def Fm.amplitudeMod (f : Fm) (ams : BitVec 2) (o : Operator) : Nat :=
  if f.lfoEn = true ∧ o.amEn = 1#1 then fmLfoAm f.lfoCnt ams else 0

/-- The phase index of an operator with modulation offset `off`, R483. -/
def phaseIndex (p : Params) (o : Operator) (off : Int) : BitVec 12 :=
  BitVec.ofInt 12 ((o.phaseCnt.toNat / 2 ^ p.fmPhaseShift : Nat) + off)

/-- An operator's output, R489. -/
def Fm.opOutput (p : Params) (f : Fm) (ams : BitVec 2) (o : Operator) (off : Int) : Int :=
  fmOpOut p (phaseIndex p o off) (o.egLvl + fmTl p o.tl + f.amplitudeMod ams o)

/-- Operator 1's feedback offset, R522. -/
def feedbackOffset (p : Params) (c : Channel) : Int :=
  if c.fb = 0#3 then 0 else asr (sext c.fbH1 + sext c.fbH2) (fmFbShift p c.fb)

/-- `m_2`, R521. -/
def modInput2 (algo : BitVec 3) (o1 : Int) : Int :=
  match algo with
  | 0#3 => o1
  | 1#3 => 0
  | 2#3 => 0
  | 3#3 => o1
  | 4#3 => o1
  | 5#3 => o1
  | 6#3 => o1
  | 7#3 => 0

/-- `m_3`, R521. -/
def modInput3 (algo : BitVec 3) (o1 o2 : Int) : Int :=
  match algo with
  | 0#3 => o2
  | 1#3 => o1 + o2
  | 2#3 => o2
  | 3#3 => 0
  | 4#3 => 0
  | 5#3 => o1
  | 6#3 => 0
  | 7#3 => 0

/-- `m_4`, R521. -/
def modInput4 (algo : BitVec 3) (o1 o2 o3 : Int) : Int :=
  match algo with
  | 0#3 => o3
  | 1#3 => o3
  | 2#3 => o1 + o3
  | 3#3 => o2 + o3
  | 4#3 => o3
  | 5#3 => o1
  | 6#3 => 0
  | 7#3 => 0

/-- `S`, the sum of the carriers, R521. -/
def carrierSum (algo : BitVec 3) (o1 o2 o3 o4 : Int) : Int :=
  match algo with
  | 0#3 => o4
  | 1#3 => o4
  | 2#3 => o4
  | 3#3 => o4
  | 4#3 => o2 + o4
  | 5#3 => o2 + o3 + o4
  | 6#3 => o2 + o3 + o4
  | 7#3 => o1 + o2 + o3 + o4

/-- Channel saturation, R523. -/
def saturate (p : Params) (v : Int) : Int := clamp v (-(p.fmChLimit : Int)) p.fmChLimit

/-- The four outputs of a channel, in order, R521, R522. -/
def Fm.opOutputs (p : Params) (f : Fm) (c : Channel) : Ops4 Int :=
  let out := f.opOutput p c.ams
  let o1 := out c.ops.o1 (feedbackOffset p c)
  let o2 := out c.ops.o2 (asr (modInput2 c.algo o1) p.fmModShift)
  let o3 := out c.ops.o3 (asr (modInput3 c.algo o1 o2) p.fmModShift)
  let o4 := out c.ops.o4 (asr (modInput4 c.algo o1 o2 o3) p.fmModShift)
  ⟨o1, o2, o3, o4⟩

/-- `chout(c)` of a synthesised channel, R523. -/
def Fm.chanOut (p : Params) (f : Fm) (c : Channel) : Int :=
  let o := f.opOutputs p c
  saturate p (asr (carrierSum c.algo o.o1 o.o2 o.o3 o.o4) p.fmOutShift)

/-- The effective rate `ER(R)`, R486. -/
def effRate (ks : BitVec 2) (kc : BitVec 5) (r : Nat) : Nat :=
  if r = 0 then 0 else min 63 (2 * r + kc.toNat / 2 ^ (3 - ks.toNat))

/-- A non-attack envelope rise, R487. -/
def egRise (p : Params) (lvl inc : Nat) : Nat := min p.fmEnvMax (lvl + inc)

/-- The envelope step, R487; `kc` is the operator's key code. -/
def Fm.egStep (p : Params) (f : Fm) (kc : BitVec 5) (o : Operator) : Operator :=
  let inc (r : Nat) : Nat := fmRate f.clock f.rate o.egPhase (effRate o.ks kc r)
  match o.egPhase with
  | .attack =>
    let lvl := fmAttCurve o.egLvl (inc o.ar.toNat)
    { o with egLvl := lvl, egPhase := if lvl = 0 then .decay else .attack }
  | .decay =>
    let lvl := egRise p o.egLvl (inc o.d1r.toNat)
    { o with egLvl := lvl, egPhase := if fmSl p o.sl ≤ lvl then .sustain else .decay }
  | .sustain => { o with egLvl := egRise p o.egLvl (inc o.d2r.toNat) }
  | .release => { o with egLvl := egRise p o.egLvl (inc (2 * o.rr.toNat + 1)) }

/-- The phase step, R483. -/
def phaseStep (o : Operator) : Operator := { o with phaseCnt := o.phaseCnt + o.phaseInc }

/-- Step 4 of R526 on an operator. -/
def Fm.opStep (p : Params) (f : Fm) (c : ChNum) (k : OpNum) (o : Operator) : Operator :=
  f.egStep p (f.opFreq c k).kc (phaseStep o)

/-- What a frame leaves of a synthesised channel: phase increments, feedback history, then phase and envelope, R526. -/
def Fm.chanStep (p : Params) (f : Fm) (c : ChNum) (x : Channel) : Channel :=
  let x := f.withPhaseIncs c x
  let o1 := (f.opOutputs p x).o1
  { x with
    fbH1 := wrap32 o1
    fbH2 := x.fbH1
    ops := ⟨f.opStep p c .op1 x.ops.o1, f.opStep p c .op2 x.ops.o2, f.opStep p c .op3 x.ops.o3,
            f.opStep p c .op4 x.ops.o4⟩ }

/-- Channel `c` is skipped: channel 5 in DAC mode, R524. -/
def Fm.skipped (f : Fm) (c : ChNum) : Bool := decide (c = .ch5) && f.dacEn

/-- `chout(c)`, R523, R524. -/
def Fm.chout (p : Params) (f : Fm) (c : ChNum) : Int :=
  if f.skipped c then saturate p (sext f.dacData) else f.chanOut p (f.withPhaseIncs c (f.chans.get c))

/-- A channel's share of the left sum, R525. -/
def Fm.leftOut (p : Params) (f : Fm) (c : ChNum) : Int := if (f.chans.get c).panL then f.chout p c else 0

/-- A channel's share of the right sum, R525. -/
def Fm.rightOut (p : Params) (f : Fm) (c : ChNum) : Int := if (f.chans.get c).panR then f.chout p c else 0

/-- A sum over the six channels. -/
def sumChans (g : ChNum → Int) : Int := g .ch0 + g .ch1 + g .ch2 + g .ch3 + g .ch4 + g .ch5

/-- The frame an instance puts out, R525. -/
def Fm.frameOut (p : Params) (f : Fm) : FmFrame := (wrap32 (sumChans (f.leftOut p)), wrap32 (sumChans (f.rightOut p)))

/-- A channel after a frame. -/
def Fm.chanNext (p : Params) (f : Fm) (c : ChNum) : Channel :=
  if f.skipped c then f.chans.get c else f.chanStep p c (f.chans.get c)

/-- The LFO step, R491. -/
def Fm.lfoNext (f : Fm) : Word :=
  if f.lfoEn then BitVec.ofNat 32 (f.lfoCnt.toNat + Config.fmLfoInc f.clock f.rate f.lfoFreq) else f.lfoCnt

/-- The instance after one frame, R526. -/
def Fm.frameNext (p : Params) (f : Fm) : Fm :=
  { f with
    chans := ⟨f.chanNext p .ch0, f.chanNext p .ch1, f.chanNext p .ch2, f.chanNext p .ch3, f.chanNext p .ch4,
              f.chanNext p .ch5⟩
    lfoCnt := f.lfoNext }

/-- `n` frames, R530: the frames put out, in order, and the instance after. -/
def Fm.render (p : Params) : Nat → Fm → List FmFrame × Fm
  | 0, f => ([], f)
  | n + 1, f =>
    let (frames, f') := Fm.render p n (f.frameNext p)
    (f.frameOut p :: frames, f')

end Sys2Proof.Machine
end

