-- ==== Sys2Proof/Machine/FmCommands.lean ====
section
/-! DEFINITION. The FM commands (spec 47_fm_registers.md R430, 49_fm_channel_output.md R530, R533, R534). -/

namespace Sys2Proof.Machine

/-- FM_WRITE on instance `i`, R430. -/
def writeFm (i : BitVec 1) (port : FmPort) (addr data : Byte) (refused : Bool) (rule : Fm → Fm) (s : State) :
    Res State := do
  let f ← fmWriteReg port addr data refused rule (s.fm.get i)
  .ok { s with fm := s.fm.set i f, result := 0 }

/-- A register form of FM_WRITE; the instance exists, or the command is ILLEGAL (30_encoding.md R144). -/
def fmForm (i : Instr) (inst : BitVec 1) (port : FmPort) (addr data : Byte) (refused : Bool) (rule : Fm → Fm)
    (s : State) : Host.Outcome State Fault Refusal :=
  runCommand (do
    let n ← orIllegal (encode i).w0 (instOperand s.params.nFm (instNibble inst))
    writeFm n port addr data refused rule s) s

/-- FM_WRITE, R430. -/
def execFmWrite (inst sel : BitVec 4) (addr data : Byte) (s : State) : Host.Outcome State Fault Refusal :=
  let w0 := (encode (.fmWrite inst sel addr data)).w0
  runCommand (do
    let i ← orIllegal w0 (instOperand s.params.nFm inst)
    let port ← orIllegal w0 (portOperand sel)
    writeFm i port addr data (fmRefused port addr data) (fmRule s.params port addr data) s) s

/-- FM_RENDER, R530. -/
def execFmRender (inst : BitVec 4) (n : Word) (s : State) : Host.Outcome State Fault Refusal :=
  runCommand (do
    let i ← orIllegal (encode (.fmRender inst n)).w0 (instOperand s.params.nFm inst)
    if (s.fm.get i).configured then
      let (frames, f) := (s.fm.get i).render s.params (countOperand n)
      .ok { s with fm := s.fm.set i f, fmOut := s.fmOut.set i (s.fmOut.get i ++ frames), result := n }
    else raise .notConfigured (i.zeroExtend 32)) s

/-- FM_RESET, R533: the rates are kept. -/
def execFmReset (inst : BitVec 4) (s : State) : Host.Outcome State Fault Refusal :=
  runCommand (do
    let i ← orIllegal (encode (.fmReset inst)).w0 (instOperand s.params.nFm inst)
    .ok { s with fm := s.fm.set i (.reset s.params (s.fm.get i).clock (s.fm.get i).rate), result := 0 }) s

/-- FM_SET_RATE, R534. -/
def execFmSetRate (inst : BitVec 4) (clock rate : Word) (s : State) : Host.Outcome State Fault Refusal :=
  runCommand (do
    let i ← orIllegal (encode (.fmSetRate inst clock rate)).w0 (instOperand s.params.nFm inst)
    if clock = 0 ∨ rate = 0 then raise .badRate (i.zeroExtend 32)
    else .ok { s with fm := s.fm.set i { s.fm.get i with clock := clock, rate := rate }, result := 0 }) s

end Sys2Proof.Machine
end

