-- ==== Sys2Proof/Machine/FmForms.lean ====
section
/-! DEFINITION. The register forms of FM_WRITE (spec 47_fm_registers.md R432 to R451). -/

namespace Sys2Proof.Machine

/-- 0x22, the LFO, R434. -/
def execFmWriteLfo (inst : BitVec 1) (data : Byte) (s : State) : Host.Outcome State Fault Refusal :=
  fmForm (.fmWriteLfo inst data) inst .p0 0x22 data false (fmLfo data) s

/-- 0x24, timer A, stored only, R435. -/
def execFmWriteTimer24 (inst : BitVec 1) (data : Byte) (s : State) : Host.Outcome State Fault Refusal :=
  fmForm (.fmWriteTimer24 inst data) inst .p0 0x24 data false id s

/-- 0x25, timer A, stored only, R435. -/
def execFmWriteTimer25 (inst : BitVec 1) (data : Byte) (s : State) : Host.Outcome State Fault Refusal :=
  fmForm (.fmWriteTimer25 inst data) inst .p0 0x25 data false id s

/-- 0x26, timer B, stored only, R435. -/
def execFmWriteTimer26 (inst : BitVec 1) (data : Byte) (s : State) : Host.Outcome State Fault Refusal :=
  fmForm (.fmWriteTimer26 inst data) inst .p0 0x26 data false id s

/-- 0x27, channel-3 mode, R436: CSM mode is refused by the spec. -/
def execFmWriteMode27 (inst : BitVec 1) (data : Byte) (s : State) : Host.Outcome State Fault Refusal :=
  fmForm (.fmWriteMode27 inst data) inst .p0 0x27 data (bit data 7) (fmMode27 data) s

/-- 0x28, key on and off, R437. -/
def execFmWriteKey (inst : BitVec 1) (data : Byte) (s : State) : Host.Outcome State Fault Refusal :=
  fmForm (.fmWriteKey inst data) inst .p0 0x28 data false (fmKey s.params data) s

/-- 0x2A, DAC data, R438. -/
def execFmWriteDacData (inst : BitVec 1) (data : Byte) (s : State) : Host.Outcome State Fault Refusal :=
  fmForm (.fmWriteDacData inst data) inst .p0 0x2A data false (fmDacData s.params data) s

/-- 0x2B, DAC enable, R439. -/
def execFmWriteDacEnable (inst : BitVec 1) (data : Byte) (s : State) : Host.Outcome State Fault Refusal :=
  fmForm (.fmWriteDacEnable inst data) inst .p0 0x2B data false (fmDacEnable data) s

/-- The 0x30 group, DT and MUL, R440. -/
def execFmWriteDtMul (inst : BitVec 1) (port : FmPort) (slot ch : BitVec 2) (data : Byte) (s : State) :
    Host.Outcome State Fault Refusal :=
  fmForm (.fmWriteDtMul inst port slot ch data) inst port (3#4 ++ slot ++ ch) data false
    (fun f => f.mapOp port slot ch (opDtMul data)) s

/-- The 0x40 group, TL, R441. -/
def execFmWriteTl (inst : BitVec 1) (port : FmPort) (slot ch : BitVec 2) (data : Byte) (s : State) :
    Host.Outcome State Fault Refusal :=
  fmForm (.fmWriteTl inst port slot ch data) inst port (4#4 ++ slot ++ ch) data false
    (fun f => f.mapOp port slot ch (opTl data)) s

/-- The 0x50 group, KS and AR, R442. -/
def execFmWriteKsAr (inst : BitVec 1) (port : FmPort) (slot ch : BitVec 2) (data : Byte) (s : State) :
    Host.Outcome State Fault Refusal :=
  fmForm (.fmWriteKsAr inst port slot ch data) inst port (5#4 ++ slot ++ ch) data false
    (fun f => f.mapOp port slot ch (opKsAr data)) s

/-- The 0x60 group, AM enable and D1R, R443. -/
def execFmWriteAmD1r (inst : BitVec 1) (port : FmPort) (slot ch : BitVec 2) (data : Byte) (s : State) :
    Host.Outcome State Fault Refusal :=
  fmForm (.fmWriteAmD1r inst port slot ch data) inst port (6#4 ++ slot ++ ch) data false
    (fun f => f.mapOp port slot ch (opAmD1r data)) s

/-- The 0x70 group, D2R, R444. -/
def execFmWriteD2r (inst : BitVec 1) (port : FmPort) (slot ch : BitVec 2) (data : Byte) (s : State) :
    Host.Outcome State Fault Refusal :=
  fmForm (.fmWriteD2r inst port slot ch data) inst port (7#4 ++ slot ++ ch) data false
    (fun f => f.mapOp port slot ch (opD2r data)) s

/-- The 0x80 group, SL and RR, R445. -/
def execFmWriteSlRr (inst : BitVec 1) (port : FmPort) (slot ch : BitVec 2) (data : Byte) (s : State) :
    Host.Outcome State Fault Refusal :=
  fmForm (.fmWriteSlRr inst port slot ch data) inst port (8#4 ++ slot ++ ch) data false
    (fun f => f.mapOp port slot ch (opSlRr data)) s

/-- The 0x90 group, SSG-EG, R447: enabling it is refused by the spec. -/
def execFmWriteSsgEg (inst : BitVec 1) (port : FmPort) (slot ch : BitVec 2) (data : Byte) (s : State) :
    Host.Outcome State Fault Refusal :=
  fmForm (.fmWriteSsgEg inst port slot ch data) inst port (9#4 ++ slot ++ ch) data (ssgRefused ch data)
    (fun f => f.mapOp port slot ch (opSsg data)) s

/-- 0xA0..0xA2, F-number low, R448. -/
def execFmWriteFnumLow (inst : BitVec 1) (port : FmPort) (ch : BitVec 2) (data : Byte) (s : State) :
    Host.Outcome State Fault Refusal :=
  fmForm (.fmWriteFnumLow inst port ch data) inst port (0b101000#6 ++ ch) data false (fmFnumLow port ch data) s

/-- 0xA4..0xA6, block and F-number high, stored only, R449. -/
def execFmWriteFnumHigh (inst : BitVec 1) (port : FmPort) (ch : BitVec 2) (data : Byte) (s : State) :
    Host.Outcome State Fault Refusal :=
  fmForm (.fmWriteFnumHigh inst port ch data) inst port (0b101001#6 ++ ch) data false id s

/-- 0xA8..0xAA on port 0, split-mode F-number low, R446. -/
def execFmWriteSplitLow (inst : BitVec 1) (j : BitVec 2) (data : Byte) (s : State) :
    Host.Outcome State Fault Refusal :=
  fmForm (.fmWriteSplitLow inst j data) inst .p0 (0b101010#6 ++ j) data false (fmSplitLow j data) s

/-- 0xAC..0xAE on port 0, split-mode block and F-number high, stored only, R446. -/
def execFmWriteSplitHigh (inst : BitVec 1) (j : BitVec 2) (data : Byte) (s : State) :
    Host.Outcome State Fault Refusal :=
  fmForm (.fmWriteSplitHigh inst j data) inst .p0 (0b101011#6 ++ j) data false id s

/-- 0xB0..0xB2, feedback and algorithm, R450. -/
def execFmWriteFbAlgo (inst : BitVec 1) (port : FmPort) (ch : BitVec 2) (data : Byte) (s : State) :
    Host.Outcome State Fault Refusal :=
  fmForm (.fmWriteFbAlgo inst port ch data) inst port (0b101100#6 ++ ch) data false
    (fun f => f.mapChan? (fmChannel port ch) (chFbAlgo data)) s

/-- 0xB4..0xB6, pan and LFO sensitivities, R451. -/
def execFmWritePan (inst : BitVec 1) (port : FmPort) (ch : BitVec 2) (data : Byte) (s : State) :
    Host.Outcome State Fault Refusal :=
  fmForm (.fmWritePan inst port ch data) inst port (0b101101#6 ++ ch) data false
    (fun f => f.mapChan? (fmChannel port ch) (chPan data)) s

/-- An address without a meaning, R432: the register image only. -/
def execFmWriteNoEffect (inst : BitVec 1) (port : FmPort) (addr data : Byte) (s : State) :
    Host.Outcome State Fault Refusal :=
  fmForm (.fmWriteNoEffect inst port addr data) inst port addr data false id s

end Sys2Proof.Machine
end

