-- ==== Sys2Proof/Machine/Osc.lean ====
section
/-! DEFINITION. What every oscillator shares: the level check, the transition loop (spec 42_osc_common.md R261) and the route
change (R265). A variant is given by its level, its period, its advance and whether it is audible; none of these reads a field
that `Advance` changes except through the level, so its loop runs a number of times known when it starts (entry 8). -/

namespace Sys2Proof.Machine

/-- `if amp != o.last_amp: Emit(o.route, t, amp - o.last_amp); o.last_amp <- amp`, R261. -/
def levelCheck (p : Params) (opc : Byte) (t amp : Int) (o : Osc) (m : Mix) : Res (Osc × Mix) :=
  if amp = sext o.lastAmp then .ok (o, m)
  else do
    let m' ← emit p opc o.route t (amp - sext o.lastAmp) m
    .ok ({ o with lastAmp := wrap32 amp }, m')

/-- The audible branch of R261: `n` transitions at `t`, `t + period`, ..., each advancing the variant's state `a` and checking
its level. -/
def audibleLoop {α : Type} (p : Params) (opc : Byte) (level : α → Int) (advance : α → α) (period : Nat) :
    Nat → Int → α → Osc → Mix → Res (α × Osc × Mix)
  | 0, _, a, o, m => .ok (a, o, m)
  | n + 1, t, a, o, m => do
    let a' := advance a
    let (o', m') ← levelCheck p opc t (level a') o m
    audibleLoop p opc level advance period n (t + period) a' o' m'

/-- `o.delay` after the transitions: the next one, `n` periods after `t`, counted from `stop`, R261. -/
def delayAfter (t stop : Int) (n period : Nat) : Word := wrap32 (t + n * period - stop)

/-- `Run(o, from, to)`, R261, for a variant with state `a`; `level` is already scaled by `Unit(o)`. -/
def runOsc {α : Type} (p : Params) (opc : Byte) (level : α → Int) (advance : α → α) (audible : Bool) (period : Nat)
    (start stop : Int) (a : α) (o : Osc) (m : Mix) : Res (α × Osc × Mix) := do
  let (o, m) ← levelCheck p opc start (level a) o m
  let t := start + sext o.delay
  let n := eventsBefore t stop period
  if audible then
    let (a, o, m) ← audibleLoop p opc level advance period n t a o m
    .ok (a, { o with delay := delayAfter t stop n period }, m)
  else .ok (iterate advance n a, { o with delay := delayAfter t stop n period }, m)

/-- The route-change protocol at time `t`, R265; with `route` the oscillator's own route it is the protocol of a scale change
(45_hh_wave_noise_master.md R398). -/
def changeRoute (p : Params) (opc : Byte) (t : Int) (route : Route) (o : Osc) (m : Mix) : Res (Osc × Mix) := do
  let m' ← emit p opc o.route t (-sext o.lastAmp) m
  .ok ({ o with lastAmp := 0, route := route }, m')

/-- The route change where the route differs, 43_psg.md R296, 45_hh_wave_noise_master.md R390. -/
def setRoute (p : Params) (opc : Byte) (t : Int) (route : Route) (o : Osc) (m : Mix) : Res (Osc × Mix) :=
  if route = o.route then .ok (o, m) else changeRoute p opc t route o m

/-- A group's run refuses to go back in time, R260. -/
def checkTime (t : Int) (lastTime : Word) : Res Unit :=
  if t < sext lastTime then raise .timeBackwards (wrap32 t) else .ok ()

/-- The loop of R260 for a group with a frame sequencer, at most `n` passes that end in a frame step. `last` is `last_time`, and
`next` is `next_frame_time`, which wraps each time it is stored (00_scope.md R11). `run` runs the group's oscillators between two
times and `frame` is its FrameStep. It answers the group, the mix stage and `next_frame_time`: none where the passes are used up and
the oscillators have run to `t` all the same. -/
def frameLoop {γ : Type} (run : Int → Int → γ → Mix → Res (γ × Mix)) (frame : γ → γ) (period : Nat) (t : Int) :
    Nat → Int → Word → γ → Mix → Res (γ × Option Word × Mix)
  | 0, last, _, g, m => do
    let (g', m') ← run last t g m
    .ok (g', none, m')
  | n + 1, last, next, g, m =>
    if t ≤ sext next then do
      let (g', m') ← run last t g m
      .ok (g', some next, m')
    else do
      let (g', m') ← run last (sext next) g m
      frameLoop run frame period t n (sext next) (wrap32 (sext next + period)) (frame g') m'

/-- The loop of R260 ends: one of the frame times that it stores, `next`, `next + period`, ..., each an s32 (00_scope.md R11), is not
before `t`. They are the s32 values that differ from `next` by a multiple of the period's common divisor with 2^32, so the largest
of them tells. -/
def frameTimesReach (next : Word) (period : Nat) (t : Int) : Bool :=
  let top : Int := 2 ^ 31 - 1
  decide (t ≤ top - (top - sext next) % (Nat.gcd period (2 ^ 32) : Int))

/-- No `Emit` into a DSB fails, at whatever time a run may place it (40_delta_buffer.md R203, R206): a delay is an s32, so the times
lie between -2^32 and 2^31. -/
def Mix.acceptsAll (p : Params) (m : Mix) : Bool :=
  m.configured &&
    match p.buildMode with
    | .release => true
    | .debug => decide (0 ≤ m.pos (-2 ^ 32)) && decide (m.idx (2 ^ 31) ≤ m.cap.toNat)

/-- The fault of the first `n` passes of the loop of R260 where it never reaches its time: a pass runs the oscillators to the next
frame step, which may lie in the past, and an `Emit` of it may fail. `quiet` tells that no later pass can fail. -/
def firstFault {γ : Type} (run : Int → Int → γ → Mix → Res (γ × Mix)) (frame : γ → γ) (quiet : γ → Mix → Bool) (period : Nat) :
    Nat → Int → Word → γ → Mix → Option Raise
  | 0, _, _, _, _ => none
  | n + 1, last, next, g, m =>
    if quiet g m then none
    else
      match run last (sext next) g m with
      | .error r => some r
      | .ok (g', m') => firstFault run frame quiet period n (sext next) (wrap32 (sext next + period)) (frame g') m'

/-- More passes than an oscillator with its frame sequencer has states: a loop without a fault in as many never has one
(entry 8). -/
def endlessPasses : Nat := 2 ^ 256

/-- `next_frame_time` after a run to `t`, and the count of free values: what the loop of R260 answers; else the next free value,
which is not before `t`, as after every run. (DESIGN CHOICE: entry 8.) -/
def settleFrameTime (t : Int) (free : Nat) (next : Option Word) : Word × Nat :=
  match next with
  | some w => (w, free)
  | none => (wrap32 (max t (sext (Config.freeFrameTime free))), free + 1)

/-- The loop of R260. Where it reaches `t`, it does so within 2^32 passes, since `next_frame_time` has 2^32 values. Where it never
does, it ends with the fault of a pass; without one, the run takes a pass for each frame time before `t`, as many as the operands
give (70_reset_and_hazards.md R740; DESIGN CHOICE: entry 8). -/
def frameOutcome {γ : Type} (run : Int → Int → γ → Mix → Res (γ × Mix)) (frame : γ → γ) (quiet : γ → Mix → Bool) (period : Nat)
    (t last : Int) (next : Word) (g : γ) (m : Mix) : Res (γ × Option Word × Mix) :=
  if frameTimesReach next period t then frameLoop run frame period t (2 ^ 32) last next g m
  else
    match firstFault run frame quiet period endlessPasses last next g m with
    | some r => .error r
    | none => frameLoop run frame period t (eventsBefore (sext next) t period) last next g m

/-- `RunGroup(g, t)` after its time check for a group with a frame sequencer, R260: `last` and `next` are its `last_time` and
`next_frame_time`, and `free` counts the free values. It answers the group, its `next_frame_time`, the count and the mix stage. -/
def runFrames {γ : Type} (run : Int → Int → γ → Mix → Res (γ × Mix)) (frame : γ → γ) (quiet : γ → Mix → Bool) (period : Nat)
    (t : Int) (last next : Word) (free : Nat) (g : γ) (m : Mix) : Res (γ × Word × Nat × Mix) := do
  let (g', stored, m') ← frameOutcome run frame quiet period t (sext last) next g m
  let (next', free') := settleFrameTime t free stored
  .ok (g', next', free', m')

/-- `period_frame(g)` of a frame-period parameter; a period of 0, which no machine has, is read as 1 so that the loop of R260
ends. (DESIGN CHOICE: entry 9.) -/
def framePeriod (n : Nat) : Nat := max n 1

/-! Register rules (42_osc_common.md R263, R264) answer the group, the mix stage and the restart signal. -/

/-- A register rule that touches only the group. -/
def pureWrite {γ : Type} (f : γ → γ × Bool) (g : γ) (m : Mix) : Res (γ × Mix × Bool) :=
  .ok ((f g).1, m, (f g).2)

/-- A register rule without a restart signal. -/
def noRestart {γ : Type} (f : γ → Mix → Res (γ × Mix)) (g : γ) (m : Mix) : Res (γ × Mix × Bool) := do
  let (g, m) ← f g m
  .ok (g, m, false)

end Sys2Proof.Machine
end

