-- ==== Sys2Proof/Machine/Hh.lean ====
section
/-! DEFINITION. The handheld group's oscillators, frame sequencer and run (spec 44_hh_square.md R320 to R329,
45_hh_wave_noise_master.md R370 to R372, R380 to R382, 42_osc_common.md R260). -/

namespace Sys2Proof.Machine

/-- base(sq1), 44_hh_square.md. -/
def baseSq1 : Nat := 0x10
/-- base(sq2). -/
def baseSq2 : Nat := 0x15
/-- base(wave). -/
def baseWave : Nat := 0x1A
/-- base(noise). -/
def baseNoise : Nat := 0x1F

/-- Store a register. -/
def Hh.setReg (h : Hh) (a : Nat) (v : Byte) : Hh := { h with regs := Store.set h.regs a v }

/-- The 11-bit frequency of the oscillator at a base, `{r(o,4)[2:0], r(o,3)}`, R328, R371. -/
def Hh.freq (h : Hh) (base : Nat) : BitVec 11 := (h.reg (base + 4)).extractLsb' 0 3 ++ h.reg (base + 3)

/-! ## Square -/

/-- The duty offset `OFF[d]`, R328. -/
def dutyOffset (d : BitVec 2) : BitVec 3 :=
  match d with
  | 0#2 => 1
  | 1#2 => 1
  | 2#2 => 3
  | 3#2 => 7

/-- The duty length `LEN[d]`, R328. -/
def dutyLength (d : BitVec 2) : Nat :=
  match d with
  | 0#2 => 1
  | 1#2 => 2
  | 2#2 => 4
  | 3#2 => 6

/-- `high`, R328. -/
def dutyHigh (d : BitVec 2) (phase : BitVec 3) : Bool := decide ((phase + dutyOffset d).toNat < dutyLength d)

/-- The duty of the square at a base, `r(o,1)[7:6]`. -/
def Hh.duty (h : Hh) (base : Nat) : BitVec 2 := (h.reg (base + 1)).extractLsb' 6 2

/-- `dac_on(o)` of the square or noise at a base, R322. -/
def Hh.dacOn (h : Hh) (base : Nat) : Bool := dacOnByte (h.reg (base + 2))

/-- `vol`, R328. -/
def Square.vol (q : Square) : Nat := if q.gate.enabled then q.env.volume.toNat else 0

/-- `Period(sq)`, R328. -/
def Hh.squareTicks (h : Hh) (base : Nat) : Nat := (2048 - (h.freq base).toNat) * 4

/-- `Level(sq)`, R328, by the phase. -/
def Hh.squareLevel (p : Params) (h : Hh) (base : Nat) (q : Square) (phase : BitVec 3) : Int :=
  if h.dacOn base = false then p.hhDacOffLevel
  else if p.hhSqDcFreq ≤ (h.freq base).toNat then -p.hhDacBias + ((q.vol * dutyLength (h.duty base)) / 8 : Nat)
  else -p.hhDacBias + (if dutyHigh (h.duty base) phase then q.vol else 0 : Nat)

/-- `Audible(sq)`, R328. -/
def Hh.squareAudible (p : Params) (h : Hh) (base : Nat) (q : Square) : Bool :=
  h.dacOn base && decide (q.vol ≠ 0) && decide ((h.freq base).toNat < p.hhSqDcFreq)

/-- `Run` of the square at a base. -/
def Hh.runSquare (p : Params) (opc : Byte) (h : Hh) (base : Nat) (start stop : Int) (q : Square) (m : Mix) :
    Res (Square × Mix) := do
  let (phase, osc, m) ← runOsc p opc (fun ph => h.squareLevel p base q ph * h.volScale) (fun ph => ph + 1)
    (h.squareAudible p base q) (h.squareTicks base) start stop q.phase q.osc m
  .ok ({ q with phase := phase, osc := osc }, m)

/-! ## Wave -/

/-- `nibble(e)`, R370. -/
def Hh.nibble (h : Hh) (e : BitVec 5) : BitVec 4 :=
  let b := h.reg (0x30 + (e.extractLsb' 1 4).toNat)
  if e.extractLsb' 0 1 = 0#1 then b.extractLsb' 4 4 else b.extractLsb' 0 4

/-- The volume code, NR32[6:5]. -/
def Hh.waveCode (h : Hh) : BitVec 2 := (h.reg 0x1C).extractLsb' 5 2

/-- `SHIFT[vc]`, R371. -/
def waveShift (vc : BitVec 2) : Nat :=
  match vc with
  | 0#2 => 4
  | 1#2 => 0
  | 2#2 => 1
  | 3#2 => 2

/-- `Period(wave)`, R371. -/
def Hh.waveTicks (h : Hh) : Nat := (2048 - (h.freq baseWave).toNat) * 2

/-- `Level(wave)`, R371, by the latched nibble. -/
def Hh.waveLevel (p : Params) (h : Hh) (w : Wave) (latched : BitVec 4) : Int :=
  if h.waveDacOn = false then p.hhDacOffLevel
  else -p.hhDacBias + (if w.gate.enabled then latched.toNat / 2 ^ waveShift h.waveCode else 0 : Nat)

/-- `Audible(wave)`, R371. -/
def Hh.waveAudible (h : Hh) (w : Wave) : Bool :=
  h.waveDacOn && w.gate.enabled && decide (h.waveCode ≠ 0#2) && decide ((h.freq baseWave).toNat < Config.hhWaveDcFreq)

/-- `Advance(wave)`, R371, on (position, latched). -/
def Hh.waveAdvance (h : Hh) (a : BitVec 5 × BitVec 4) : BitVec 5 × BitVec 4 :=
  let position := a.1 + 1
  (position, h.nibble position)

/-- `Run(wave, start, stop)`. -/
def Hh.runWave (p : Params) (opc : Byte) (h : Hh) (start stop : Int) (w : Wave) (m : Mix) : Res (Wave × Mix) := do
  let (a, osc, m) ← runOsc p opc (fun a : BitVec 5 × BitVec 4 => h.waveLevel p w a.2 * h.volScale) h.waveAdvance
    (h.waveAudible w) h.waveTicks start stop (w.position, w.latched) w.osc m
  .ok ({ w with position := a.1, latched := a.2, osc := osc }, m)

/-! ## Noise -/

/-- NR43[7:4], R380. -/
def Hh.noiseShift (h : Hh) : Nat := ((h.reg 0x22).extractLsb' 4 4).toNat

/-- `DIV[code]`, R380. -/
def noiseDivisor (code : BitVec 3) : Nat := if code = 0#3 then 8 else 16 * code.toNat

/-- `Period(noise)`, R380. -/
def Hh.noiseTicks (h : Hh) : Nat := noiseDivisor ((h.reg 0x22).extractLsb' 0 3) * 2 ^ h.noiseShift

/-- `Level(noise)`, R380, by the LFSR. -/
def Hh.noiseLevel (p : Params) (h : Hh) (x : HhNoise) (lfsr : BitVec 15) : Int :=
  if h.dacOn baseNoise = false then p.hhDacOffLevel
  else -p.hhDacBias + (if x.gate.enabled && !lfsr.getLsbD 0 then x.env.volume.toNat else 0 : Nat)

/-- `Audible(noise)`, R380. -/
def Hh.noiseAudible (h : Hh) (x : HhNoise) : Bool :=
  h.dacOn baseNoise && x.gate.enabled && decide (x.env.volume ≠ 0#4) && decide (h.noiseShift < 14)

/-- The LFSR step of `Advance(noise)`, R380; `narrow` is NR43[3]. -/
def lfsrStep (narrow : Bool) (lfsr : BitVec 15) : BitVec 15 :=
  let fb := lfsr.extractLsb' 0 1 ^^^ lfsr.extractLsb' 1 1
  let l : BitVec 15 := fb ++ lfsr.extractLsb' 1 14
  if narrow then l.extractLsb' 7 8 ++ fb ++ l.extractLsb' 0 6 else l

/-- `Advance(noise)`, R380: frozen from clock shift 14 on. -/
def Hh.noiseAdvance (h : Hh) (lfsr : BitVec 15) : BitVec 15 :=
  if 14 ≤ h.noiseShift then lfsr else lfsrStep (bit (h.reg 0x22) 3) lfsr

/-- `Run(noise, start, stop)`. -/
def Hh.runNoise (p : Params) (opc : Byte) (h : Hh) (start stop : Int) (x : HhNoise) (m : Mix) : Res (HhNoise × Mix) := do
  let (lfsr, osc, m) ← runOsc p opc (fun l => h.noiseLevel p x l * h.volScale) h.noiseAdvance (h.noiseAudible x)
    h.noiseTicks start stop x.lfsr x.osc m
  .ok ({ x with lfsr := lfsr, osc := osc }, m)

/-! ## Length, envelope, sweep -/

/-- `ClockLength(o)`, R321; `nrx4` is `r(o,4)`. -/
def Gate.clockLength (nrx4 : Byte) (g : Gate) : Gate :=
  if bit nrx4 6 && decide (0 < g.lengthCtr) then
    { enabled := if g.lengthCtr - 1 = 0 then false else g.enabled, lengthCtr := g.lengthCtr - 1 }
  else g

/-- `ReloadEnv(o)`, R323, with the period the last trigger latched. -/
def Env.reload (e : Env) : Env := { e with delay := if e.period = 0#3 then 8 else e.period.toNat }

/-- `ClockEnv(o)`, R324. A write of NRx2 takes effect at the next trigger (R333), so `r(o,2)` is what the last one latched.
(DEDUCED: entry 20.) -/
def Env.clock (e : Env) : Env :=
  if e.enabled then
    if e.delay - 1 = 0 then
      let e' := e.reload
      if e.period = 0#3 then e'
      else if e.rising then
        if e.volume.toNat + 1 ≤ 15 then { e' with volume := e.volume + 1 } else { e' with enabled := false }
      else if 1 ≤ e.volume.toNat then { e' with volume := e.volume - 1 } else { e' with enabled := false }
    else { e with delay := e.delay - 1 }
  else e

/-- NR10[6:4]. -/
def Hh.sweepPeriod (h : Hh) : BitVec 3 := (h.reg 0x10).extractLsb' 4 3

/-- NR10[2:0]. -/
def Hh.sweepShift (h : Hh) : BitVec 3 := (h.reg 0x10).extractLsb' 0 3

/-- `ReloadSweep()`, R326. -/
def Hh.reloadSweep (h : Hh) : Hh :=
  { h with sweep := { h.sweep with delay := if h.sweepPeriod = 0#3 then 8 else h.sweepPeriod.toNat } }

/-- Disable sq1. -/
def Hh.disableSq1 (h : Hh) : Hh := { h with sq1 := { h.sq1 with gate := { h.sq1.gate with enabled := false } } }

/-- The frequency CalcSweep computes, R326; never negative, since the subtrahend is at most `freq`. -/
def Hh.sweptFreq (h : Hh) : Nat :=
  let f := h.sweep.freq.toNat
  let delta := f / 2 ^ h.sweepShift.toNat
  if bit (h.reg 0x10) 3 then f - delta else f + delta

/-- `CalcSweep(update)`, R326. -/
def Hh.calcSweep (update : Bool) (h : Hh) : Hh :=
  let f := h.sweptFreq
  let h' := { h with sweep := { h.sweep with neg := bit (h.reg 0x10) 3 } }
  if 0x7FF < f then h'.disableSq1
  else if h.sweepShift ≠ 0#3 ∧ update = true then
    let fv := BitVec.ofNat 11 f
    let h'' := { h' with sweep := { h'.sweep with freq := fv } }
    (h''.setReg 0x13 (fv.extractLsb' 0 8)).setReg 0x14 ((h.reg 0x14 &&& 0xF8) ||| (fv.extractLsb' 8 3).zeroExtend 8)
  else h'

/-- `ClockSweep(sq1)`, R327. -/
def Hh.clockSweep (h : Hh) : Hh :=
  if h.sweep.delay - 1 = 0 then
    let h' := h.reloadSweep
    if h'.sweep.enabled = true ∧ h'.sweepPeriod ≠ 0#3 then (h'.calcSweep true).calcSweep false else h'
  else { h with sweep := { h.sweep with delay := h.sweep.delay - 1 } }

/-- ClockLength of the four oscillators, R320, R321. -/
def Hh.clockLengths (h : Hh) : Hh :=
  { h with
    sq1 := { h.sq1 with gate := h.sq1.gate.clockLength (h.reg 0x14) }
    sq2 := { h.sq2 with gate := h.sq2.gate.clockLength (h.reg 0x19) }
    wave := { h.wave with gate := h.wave.gate.clockLength (h.reg 0x1E) }
    noise := { h.noise with gate := h.noise.gate.clockLength (h.reg 0x23) } }

/-- ClockEnv of the squares and the noise, R320, R324. -/
def Hh.clockEnvs (h : Hh) : Hh :=
  { h with
    sq1 := { h.sq1 with env := h.sq1.env.clock }
    sq2 := { h.sq2 with env := h.sq2.env.clock }
    noise := { h.noise with env := h.noise.env.clock } }

/-- `FrameStep(hh)`, R320. -/
def Hh.frameStep (h : Hh) : Hh :=
  let ph := h.framePhase
  let h := { h with framePhase := ph + 1 }
  let h := if ph = 2#3 ∨ ph = 6#3 then h.clockSweep else h
  let h := if ph.extractLsb' 0 1 = 0#1 then h.clockLengths else h
  if ph = 7#3 then h.clockEnvs else h

/-! ## The group's run -/

/-- The oscillators in order, 42_osc_common.md R270. -/
def Hh.runAll (p : Params) (opc : Byte) (start stop : Int) (h : Hh) (m : Mix) : Res (Hh × Mix) := do
  let (sq1, m) ← h.runSquare p opc baseSq1 start stop h.sq1 m
  let (sq2, m) ← h.runSquare p opc baseSq2 start stop h.sq2 m
  let (wave, m) ← h.runWave p opc start stop h.wave m
  let (noise, m) ← h.runNoise p opc start stop h.noise m
  .ok ({ h with sq1 := sq1, sq2 := sq2, wave := wave, noise := noise }, m)

/-- A square or noise can sound, now or after unit clocks: it is enabled, and its volume is not 0 or may rise (R324). -/
def canSound (g : Gate) (e : Env) : Bool := g.enabled && (decide (e.volume ≠ 0#4) || e.rising)

/-- An oscillator of level `level` that no run and no frame step makes emit: it has no route, or it cannot sound and has emitted its
level, which then is that of volume 0 or of a DAC that is off. -/
def Osc.quiet (o : Osc) (sounds : Bool) (level : Int) : Bool :=
  decide (o.route = .none) || (!sounds && decide (level = sext o.lastAmp))

/-- No later pass of the group's loop can fail: every `Emit` is accepted, or nothing emits. -/
def Hh.quiet (p : Params) (h : Hh) (m : Mix) : Bool :=
  m.acceptsAll p ||
    (h.sq1.osc.quiet (h.dacOn baseSq1 && canSound h.sq1.gate h.sq1.env)
        (h.squareLevel p baseSq1 h.sq1 h.sq1.phase * h.volScale) &&
      h.sq2.osc.quiet (h.dacOn baseSq2 && canSound h.sq2.gate h.sq2.env)
        (h.squareLevel p baseSq2 h.sq2 h.sq2.phase * h.volScale) &&
      h.wave.osc.quiet (h.waveDacOn && h.wave.gate.enabled) (h.waveLevel p h.wave h.wave.latched * h.volScale) &&
      h.noise.osc.quiet (h.dacOn baseNoise && canSound h.noise.gate h.noise.env)
        (h.noiseLevel p h.noise h.noise.lfsr * h.volScale))

/-- `RunGroup(hh, t)`, R260; `free` counts the free values. -/
def Hh.runGroup (p : Params) (opc : Byte) (t : Int) (free : Nat) (h : Hh) (m : Mix) : Res (Hh × Nat × Mix) := do
  checkTime t h.lastTime
  let (g, next, free', m) ← runFrames (fun a b g m => Hh.runAll p opc a b g m) Hh.frameStep (Hh.quiet p)
    (framePeriod p.hhFramePeriod) t h.lastTime h.nextFrameTime free h m
  .ok ({ g with lastTime := wrap32 t, nextFrameTime := next }, free', m)

/-- OSC_END_FRAME on the HH group after its run, R268. -/
def Hh.endFrame (t : Int) (h : Hh) : Hh :=
  { h with lastTime := wrap32 (sext h.lastTime - t), nextFrameTime := wrap32 (sext h.nextFrameTime - t) }

end Sys2Proof.Machine
end

