-- ==== Sys2Proof/Machine/HhRegs.lean ====
section
/-! DEFINITION. The handheld group's register writes and reads (spec 44_hh_square.md R330 to R335,
45_hh_wave_noise_master.md R373 to R378, R383 to R398). A write rule runs after its register is stored; `old` is the register's
value before (44_hh_square.md section 5). -/

namespace Sys2Proof.Machine

/-- The shape of a register rule: data, old value, group, mix stage. -/
abbrev HhRule := Byte → Byte → Hh → Mix → Res (Hh × Mix × Bool)

/-- A rule that changes only the group and restarts nothing. -/
def hhPlain (f : Hh → Hh) (h : Hh) (m : Mix) : Res (Hh × Mix × Bool) := .ok (f h, m, false)

/-- `WriteTrig(o, max_len, old4)` on the gate, R331; `data` is the new NRx4. -/
def Gate.writeTrig (p : Params) (framePhase : BitVec 3) (maxLen : Nat) (data old : Byte) (g : Gate) : Gate :=
  let quirk := p.hhLengthQuirk && framePhase.getLsbD 0
  let g := if quirk && !bit old 6 && bit data 6 && decide (0 < g.lengthCtr) then
      { g with lengthCtr := g.lengthCtr - 1 } else g
  let g := if bit data 7 then
      { enabled := true
        lengthCtr := if g.lengthCtr = 0 then (if quirk && bit data 6 then maxLen - 1 else maxLen) else g.lengthCtr }
    else g
  if g.lengthCtr = 0 then { g with enabled := false } else g

/-- The envelope start of R325; it latches the direction and the period of `nrx2` (R333). -/
def envStart (framePhase : BitVec 3) (nrx2 : Byte) : Env :=
  let e := Env.reload
    { volume := nrx2.extractLsb' 4 4, delay := 0, enabled := true, period := nrx2.extractLsb' 0 3, rising := bit nrx2 3 }
  if framePhase = 7#3 then { e with delay := e.delay + 1 } else e

/-- `if not dac_on(o): o.enabled <- false`, R325, R333, R373. -/
def Gate.dacCheck (dacOn : Bool) (g : Gate) : Gate := if dacOn then g else { g with enabled := false }

/-- What NRx4 does to a square, R335 without the sweep; `ticks` is `Period(o)` and `nrx2` is `r(o,2)`. -/
def Square.writeNrx4 (p : Params) (framePhase : BitVec 3) (nrx2 data old : Byte) (ticks : Nat) (q : Square) : Square :=
  let g := q.gate.writeTrig p framePhase 64 data old
  if bit data 7 then
    { gate := g.dacCheck (dacOnByte nrx2)
      env := envStart framePhase nrx2
      phase := q.phase
      osc := { q.osc with delay := wrap32 (sext (q.osc.delay &&& 3) + ticks) } }
  else { q with gate := g }

/-- The sweep start of R335. -/
def Hh.sweepStart (h : Hh) : Hh :=
  let h := { h with sweep := { h.sweep with freq := h.freq baseSq1, neg := false } }
  let h := h.reloadSweep
  let h := { h with sweep := { h.sweep with enabled := decide (h.sweepPeriod ≠ 0#3) || decide (h.sweepShift ≠ 0#3) } }
  if h.sweepShift ≠ 0#3 then h.calcSweep false else h

/-- NR10, R330. -/
def hhNr10 : HhRule := fun data _ =>
  hhPlain fun h => if h.sweep.enabled && h.sweep.neg && !bit data 3 then h.disableSq1 else h

/-- NR11, R332. -/
def hhNr11 : HhRule := fun data _ =>
  hhPlain fun h => { h with sq1 := { h.sq1 with gate := { h.sq1.gate with lengthCtr := 64 - (data.extractLsb' 0 6).toNat } } }

/-- NR12, R333: the DAC check; the rest takes effect at the next trigger. -/
def hhNr12 : HhRule := fun data _ =>
  hhPlain fun h => { h with sq1 := { h.sq1 with gate := h.sq1.gate.dacCheck (dacOnByte data) } }

/-- NR13, R334. -/
def hhNr13 : HhRule := fun _ _ => hhPlain id

/-- NR14, R335. -/
def hhNr14 (p : Params) : HhRule := fun data old h m =>
  let h := { h with sq1 := h.sq1.writeNrx4 p h.framePhase (h.reg 0x12) data old (h.squareTicks baseSq1) }
  .ok (if bit data 7 then h.sweepStart else h, m, bit data 7)

/-- NR21, R332. -/
def hhNr21 : HhRule := fun data _ =>
  hhPlain fun h => { h with sq2 := { h.sq2 with gate := { h.sq2.gate with lengthCtr := 64 - (data.extractLsb' 0 6).toNat } } }

/-- NR22, R333. -/
def hhNr22 : HhRule := fun data _ =>
  hhPlain fun h => { h with sq2 := { h.sq2 with gate := h.sq2.gate.dacCheck (dacOnByte data) } }

/-- NR23, R334. -/
def hhNr23 : HhRule := fun _ _ => hhPlain id

/-- NR24, R335. -/
def hhNr24 (p : Params) : HhRule := fun data old h m =>
  .ok ({ h with sq2 := h.sq2.writeNrx4 p h.framePhase (h.reg 0x17) data old (h.squareTicks baseSq2) }, m, bit data 7)

/-- NR30, R373. -/
def hhNr30 : HhRule := fun data _ =>
  hhPlain fun h => { h with wave := { h.wave with gate := h.wave.gate.dacCheck (bit data 7) } }

/-- NR31, R374. -/
def hhNr31 : HhRule := fun data _ =>
  hhPlain fun h => { h with wave := { h.wave with gate := { h.wave.gate with lengthCtr := 256 - data.toNat } } }

/-- NR32, R375. -/
def hhNr32 : HhRule := fun _ _ => hhPlain id

/-- NR33, R376. -/
def hhNr33 : HhRule := fun _ _ => hhPlain id

/-- NR34, R377. A trigger neither reloads `latched` nor alters wave RAM (HH_WAVE_CORRUPTION = false, decision D22). -/
def hhNr34 (p : Params) : HhRule := fun data old h m =>
  let g := h.wave.gate.writeTrig p h.framePhase 256 data old
  let w := if bit data 7 then
      { gate := g.dacCheck h.waveDacOn
        position := 0
        latched := h.wave.latched
        osc := { h.wave.osc with delay := wrap32 (h.waveTicks + p.hhWaveTriggerDelay) } }
    else { h.wave with gate := g }
  .ok ({ h with wave := w }, m, bit data 7)

/-- NR41, R383. -/
def hhNr41 : HhRule := fun data _ =>
  hhPlain fun h =>
    { h with noise := { h.noise with gate := { h.noise.gate with lengthCtr := 64 - (data.extractLsb' 0 6).toNat } } }

/-- NR42, R384. -/
def hhNr42 : HhRule := fun data _ =>
  hhPlain fun h => { h with noise := { h.noise with gate := h.noise.gate.dacCheck (dacOnByte data) } }

/-- NR43, R385. -/
def hhNr43 : HhRule := fun _ _ => hhPlain id

/-- NR44, R386. -/
def hhNr44 (p : Params) : HhRule := fun data old h m =>
  let g := h.noise.gate.writeTrig p h.framePhase 64 data old
  let x := if bit data 7 then
      { gate := g.dacCheck (dacOnByte (h.reg 0x21))
        env := envStart h.framePhase (h.reg 0x21)
        lfsr := 0x7FFF
        osc := { h.noise.osc with delay := wrap32 h.noiseTicks } }
    else { h.noise with gate := g }
  .ok ({ h with noise := x }, m, bit data 7)

/-- Apply an oscillator protocol to the four oscillators in order, 42_osc_common.md R270 (DEDUCED: entry 12). -/
def Hh.mapOscs (f0 f1 f2 f3 : Osc → Mix → Res (Osc × Mix)) (h : Hh) (m : Mix) : Res (Hh × Mix) := do
  let (o0, m) ← f0 h.sq1.osc m
  let (o1, m) ← f1 h.sq2.osc m
  let (o2, m) ← f2 h.wave.osc m
  let (o3, m) ← f3 h.noise.osc m
  .ok ({ h with
          sq1 := { h.sq1 with osc := o0 }
          sq2 := { h.sq2 with osc := o1 }
          wave := { h.wave with osc := o2 }
          noise := { h.noise with osc := o3 } }, m)

/-- The HH delta scale of an NR50 value, R398. -/
def volScaleOf (p : Params) (nr50 : Byte) : Int :=
  p.unitHh * ((max (nr50.extractLsb' 4 3).toNat (nr50.extractLsb' 0 3).toNat + 1 : Nat) : Int)

/-- NR50, R398: where the scale changes, each oscillator goes through the protocol of R265 with its own route. -/
def hhNr50 (p : Params) (opc : Byte) (t : Int) : HhRule := fun data _ =>
  noRestart fun h m =>
    if volScaleOf p data = h.volScale then .ok (h, m)
    else
      let rescale : Osc → Mix → Res (Osc × Mix) := fun o m => changeRoute p opc t o.route o m
      Hh.mapOscs rescale rescale rescale rescale { h with volScale := volScaleOf p data } m

/-- NR51, R390. -/
def hhNr51 (p : Params) (opc : Byte) (t : Int) : HhRule := fun data _ =>
  noRestart fun h m =>
    let route (k : Nat) : Osc → Mix → Res (Osc × Mix) := setRoute p opc t (routeOf (bit data (k + 4)) (bit data k))
    Hh.mapOscs (route 0) (route 1) (route 2) (route 3) h m

/-- The write rule of a register 0x10..0x25; the unused 0x15 and 0x1F have none. -/
def hhRule (p : Params) (opc : Byte) (t : Int) (a : Nat) : HhRule :=
  match a with
  | 0x10 => hhNr10
  | 0x11 => hhNr11
  | 0x12 => hhNr12
  | 0x13 => hhNr13
  | 0x14 => hhNr14 p
  | 0x16 => hhNr21
  | 0x17 => hhNr22
  | 0x18 => hhNr23
  | 0x19 => hhNr24 p
  | 0x1A => hhNr30
  | 0x1B => hhNr31
  | 0x1C => hhNr32
  | 0x1D => hhNr33
  | 0x1E => hhNr34 p
  | 0x20 => hhNr41
  | 0x21 => hhNr42
  | 0x22 => hhNr43
  | 0x23 => hhNr44 p
  | 0x24 => hhNr50 p opc t
  | 0x25 => hhNr51 p opc t
  | _ => fun _ _ => hhPlain id

/-- The clearing loop of power off, R391: for the next `n` addresses from `a`, the register becomes 0 and its rule runs. -/
def hhClear (p : Params) (opc : Byte) (t : Int) : Nat → Nat → Hh → Mix → Res (Hh × Mix)
  | 0, _, h, m => .ok (h, m)
  | n + 1, a, h, m => do
    let (h', m', _) ← hhRule p opc t a 0 (h.reg a) (h.setReg a 0) m
    hhClear p opc t n (a + 1) h' m'

/-- NR52 with bit 7 clear, R391, R392: power off, or nothing while off. -/
def hhPowerOff (p : Params) (opc : Byte) (t : Int) (h : Hh) (m : Mix) : Res (Hh × Mix) :=
  if h.powered then do
    let (h', m') ← hhClear p opc t 22 0x10 h m
    .ok (h'.setReg 0x26 0, m')
  else .ok (h.setReg 0x26 0, m)

/-- NR52 with bit 7 set, R392: power on, or nothing while on. -/
def hhPowerOn (h : Hh) : Hh :=
  let h' := h.setReg 0x26 0x80
  if h.powered then h'
  else { h' with framePhase := 0, sq1 := { h.sq1 with phase := 0 }, sq2 := { h.sq2 with phase := 0 } }

/-- A write to a register 0x10..0x25, R394: ignored while powered off; else stored, and its rule runs. -/
def hhGated (a : Nat) (data : Byte) (rule : HhRule) (h : Hh) (m : Mix) : Res (Hh × Mix × Bool) :=
  if h.powered then rule data (h.reg a) (h.setReg a data) m else .ok (h, m, false)

/-- The byte a wave RAM access reaches, R378; `low` is ADDR[3:0]. -/
def Hh.waveRamAddr (h : Hh) (low : BitVec 4) : Nat :=
  0x30 + (if h.wave.gate.enabled then h.wave.position.extractLsb' 1 4 else low).toNat

/-- A wave RAM write, R378. -/
def Hh.writeWaveRam (low : BitVec 4) (data : Byte) (h : Hh) : Hh := h.setReg (h.waveRamAddr low) data

/-- An unused address, R395: accepted, nothing stored. -/
def hhIgnore (h : Hh) (m : Mix) : Res (Hh × Mix × Bool) := .ok (h, m, false)

/-- `Write_HH(addr, data)` for the addresses of the HH space; none outside it (R108). -/
def hhWriteRule (p : Params) (opc : Byte) (t : Int) (addr data : Byte) : Option (Hh → Mix → Res (Hh × Mix × Bool)) :=
  let a := addr.toNat
  if a < 0x10 ∨ 0x40 ≤ a then none
  else if a = 0x15 ∨ a = 0x1F then some hhIgnore
  else if a < 0x26 then some (hhGated a data (hhRule p opc t a))
  else if a = 0x26 then
    if bit data 7 then some (hhPlain hhPowerOn) else some (noRestart (hhPowerOff p opc t))
  else if a < 0x30 then some hhIgnore
  else some (hhPlain (Hh.writeWaveRam (addr.extractLsb' 0 4) data))

/-- The read masks of 0x10..0x25, R396. -/
def hhMasks : List Byte :=
  [0x80, 0x3F, 0x00, 0xFF, 0xBF, 0xFF, 0x3F, 0x00, 0xFF, 0xBF, 0x7F, 0xFF, 0x9F, 0xFF, 0xBF,
   0xFF, 0xFF, 0x00, 0x00, 0xBF, 0x00, 0x00]

/-- `Read_HH(a)` of wave RAM, R378. -/
def Hh.readWaveRam (h : Hh) (low : BitVec 4) : Byte := h.reg (h.waveRamAddr low)

/-- `Read_HH(a)`, R396; none outside the space (R108). -/
def Hh.read (h : Hh) (addr : Byte) : Option Byte :=
  let a := addr.toNat
  if a < 0x10 ∨ 0x40 ≤ a then none
  else if a < 0x26 then some (h.reg a ||| hhMasks.getD (a - 0x10) 0)
  else if a = 0x26 then some h.statusByte
  else if a < 0x30 then some 0xFF
  else some (h.readWaveRam (addr.extractLsb' 0 4))

end Sys2Proof.Machine
end

