-- ==== Sys2Proof/Machine/Psg.lean ====
section
/-! DEFINITION. The PSG group (spec 43_psg.md R290 to R298): its oscillators, its run, its register writes. -/

namespace Sys2Proof.Machine

/-- `PSG_VOL[a]`, R290. -/
def psgVolume (p : Params) (atten : BitVec 4) : Nat := p.psgVol.getD atten.toNat 0

/-- `Period(tone)`, R290. -/
def Tone.ticks (x : Tone) : Nat := 16 * max x.period.toNat 1

/-- `Level(tone)`, R290, by the phase. -/
def Tone.level (p : Params) (x : Tone) (phase : BitVec 1) : Int :=
  if x.period.toNat ≤ p.psgDcPeriod then psgVolume p x.atten
  else if phase = 1#1 then 2 * psgVolume p x.atten else 0

/-- `Audible(tone)`, R290. -/
def Tone.audible (p : Params) (x : Tone) : Bool :=
  decide (psgVolume p x.atten ≠ 0) && decide (p.psgDcPeriod < x.period.toNat)

/-- `Run(tone, start, stop)`. -/
def Tone.run (p : Params) (opc : Byte) (start stop : Int) (x : Tone) (m : Mix) : Res (Tone × Mix) := do
  let (phase, osc, m) ← runOsc p opc (fun ph => x.level p ph * p.unitPsg) (fun ph => ph ^^^ 1#1) (x.audible p) x.ticks
    start stop x.phase x.osc m
  .ok ({ x with phase := phase, osc := osc }, m)

/-- `Period(noise)`, R292, with tone2's period register. -/
def PsgNoise.ticks (x : PsgNoise) (period2 : BitVec 10) : Nat :=
  match x.ctrl.extractLsb' 0 2 with
  | 0#2 => 512
  | 1#2 => 1024
  | 2#2 => 2048
  | 3#2 => 32 * max period2.toNat 1

/-- The feedback mask, R293. -/
def PsgNoise.feedback (p : Params) (x : PsgNoise) : BitVec 16 :=
  if x.ctrl.extractLsb' 2 1 = 1#1 then p.psgFbWhite else p.psgFbPeriodic

/-- `Level(noise)`, R293, by the shifter. -/
def PsgNoise.level (p : Params) (x : PsgNoise) (shifter : BitVec 16) : Int :=
  if shifter.getLsbD 0 then 2 * psgVolume p x.atten else 0

/-- `Advance(noise)`, R293, on the shifter. -/
def PsgNoise.advance (p : Params) (x : PsgNoise) (shifter : BitVec 16) : BitVec 16 :=
  (if shifter.getLsbD 0 then x.feedback p else 0) ^^^ (shifter >>> 1)

/-- `Audible(noise)`, R293. -/
def PsgNoise.audible (p : Params) (x : PsgNoise) : Bool := decide (psgVolume p x.atten ≠ 0)

/-- `Run(noise, start, stop)`. -/
def PsgNoise.run (p : Params) (opc : Byte) (start stop : Int) (period2 : BitVec 10) (x : PsgNoise) (m : Mix) :
    Res (PsgNoise × Mix) := do
  let (shifter, osc, m) ← runOsc p opc (fun s => x.level p s * p.unitPsg) (x.advance p) (x.audible p) (x.ticks period2)
    start stop x.shifter x.osc m
  .ok ({ x with shifter := shifter, osc := osc }, m)

/-- The oscillators in order, 42_osc_common.md R270. -/
def Psg.runAll (p : Params) (opc : Byte) (start stop : Int) (g : Psg) (m : Mix) : Res (Psg × Mix) := do
  let (tone0, m) ← g.tone0.run p opc start stop m
  let (tone1, m) ← g.tone1.run p opc start stop m
  let (tone2, m) ← g.tone2.run p opc start stop m
  let (noise, m) ← g.noise.run p opc start stop g.tone2.period m
  .ok ({ g with tone0 := tone0, tone1 := tone1, tone2 := tone2, noise := noise }, m)

/-- `RunGroup(psg, t)`, R260: no frame sequencer. -/
def Psg.runGroup (p : Params) (opc : Byte) (t : Int) (g : Psg) (m : Mix) : Res (Psg × Mix) := do
  checkTime t g.lastTime
  let (g, m) ← g.runAll p opc (sext g.lastTime) t m
  .ok ({ g with lastTime := wrap32 t }, m)

/-- OSC_END_FRAME on a PSG group after its run, R268. -/
def Psg.endFrame (t : Int) (g : Psg) : Psg := { g with lastTime := wrap32 (sext g.lastTime - t) }

/-! ## Register writes. Each answers the group, the mix stage and the restart signal (R264). -/

/-- Set the attenuation of oscillator `ch`, R294. -/
def Psg.setAtten (g : Psg) (ch : BitVec 2) (v : BitVec 4) : Psg :=
  match ch with
  | 0#2 => { g with tone0 := { g.tone0 with atten := v } }
  | 1#2 => { g with tone1 := { g.tone1 with atten := v } }
  | 2#2 => { g with tone2 := { g.tone2 with atten := v } }
  | 3#2 => { g with noise := { g.noise with atten := v } }

/-- Apply `f` to the period of tone `ch`; channel 3 is not a tone. -/
def Psg.mapPeriod (g : Psg) (ch : BitVec 2) (f : BitVec 10 → BitVec 10) : Psg :=
  match ch with
  | 0#2 => { g with tone0 := { g.tone0 with period := f g.tone0.period } }
  | 1#2 => { g with tone1 := { g.tone1 with period := f g.tone1.period } }
  | 2#2 => { g with tone2 := { g.tone2 with period := f g.tone2.period } }
  | 3#2 => g

/-- Set the noise control, which resets the shifter, R294. -/
def Psg.setNoise (p : Params) (g : Psg) (ctrl : BitVec 3) : Psg :=
  { g with noise := { g.noise with ctrl := ctrl, shifter := p.psgNoiseInit } }

/-- The data-port write, latch form, R294. -/
def Psg.writeLatch (p : Params) (ch : BitVec 2) (ty : BitVec 1) (data : BitVec 4) (g : Psg) : Psg × Bool :=
  let g := { g with latch := 1#1 ++ ch ++ ty ++ data }
  if ty = 1#1 then (g.setAtten ch data, false)
  else if ch = 3#2 then (g.setNoise p (data.extractLsb' 0 3), true)
  else (g.mapPeriod ch (fun x => x.extractLsb' 4 6 ++ data), false)

/-- The data-port write, data form, R295: the channel and type are the latch's. Bit 6 is ignored (R150). -/
def Psg.writeData (p : Params) (d : BitVec 7) (g : Psg) : Psg × Bool :=
  let ch := g.latch.extractLsb' 5 2
  let ty := g.latch.extractLsb' 4 1
  if ty = 1#1 then (g.setAtten ch (d.extractLsb' 0 4), false)
  else if ch = 3#2 then (g.setNoise p (d.extractLsb' 0 3), true)
  else (g.mapPeriod ch (fun x => d.extractLsb' 0 6 ++ x.extractLsb' 0 4), false)

/-- The stereo-port write at time `t`, R296, oscillators in order. -/
def Psg.writeStereo (p : Params) (opc : Byte) (t : Int) (d : Byte) (g : Psg) (m : Mix) : Res (Psg × Mix) := do
  let (o0, m) ← setRoute p opc t (routeOf (bit d 4) (bit d 0)) g.tone0.osc m
  let (o1, m) ← setRoute p opc t (routeOf (bit d 5) (bit d 1)) g.tone1.osc m
  let (o2, m) ← setRoute p opc t (routeOf (bit d 6) (bit d 2)) g.tone2.osc m
  let (o3, m) ← setRoute p opc t (routeOf (bit d 7) (bit d 3)) g.noise.osc m
  .ok ({ g with
          stereo := d
          tone0 := { g.tone0 with osc := o0 }
          tone1 := { g.tone1 with osc := o1 }
          tone2 := { g.tone2 with osc := o2 }
          noise := { g.noise with osc := o3 } }, m)

/-- `Write_PSG(addr, data)` for the addresses of the PSG space, R149, R150; none outside it (R108). -/
def psgWriteRule (p : Params) (opc : Byte) (t : Int) (addr data : Byte) :
    Option (Psg → Mix → Res (Psg × Mix × Bool)) :=
  match addr with
  | 0x00#8 =>
    if data.extractLsb' 7 1 = 1#1 then
      some (pureWrite (Psg.writeLatch p (data.extractLsb' 5 2) (data.extractLsb' 4 1) (data.extractLsb' 0 4)))
    else some (pureWrite (Psg.writeData p (data.extractLsb' 0 7)))
  | 0x01#8 => some (noRestart (Psg.writeStereo p opc t data))
  | _ => none

end Sys2Proof.Machine
end

