-- ==== Sys2Proof/Machine/Tri.lean ====
section
/-! DEFINITION. The triangle group (spec 46_triangle.md R410 to R423): its run, its frame sequencer, its registers. Its route
is C and never changes (10_state.md R43). -/

namespace Sys2Proof.Machine

/-- `raw = {r400B[2:0], r400A}`, R410. -/
def Tri.raw (g : Tri) : BitVec 11 := g.r400B.extractLsb' 0 3 ++ g.r400A

/-- `Period(tri)`, R410. -/
def Tri.ticks (g : Tri) : Nat := g.raw.toNat + 1

/-- `TRI_SEQ[s]`, R411. -/
def triSeq (s : BitVec 5) : Nat := if s.toNat < 16 then 15 - s.toNat else s.toNat - 16

/-- The triangle is running, R413. -/
def Tri.running (p : Params) (g : Tri) : Bool :=
  decide (0 < g.lengthCtr) && decide (0 < g.linearCtr) && decide (p.triMinPeriod ≤ g.raw.toNat + 1)

/-- `Run(tri, start, stop)`, R413. -/
def Tri.run (p : Params) (opc : Byte) (start stop : Int) (g : Tri) (m : Mix) : Res (Tri × Mix) := do
  let level : BitVec 5 → Int := fun s => triSeq s * p.unitTri
  let (o, m) ← levelCheck p opc start (level g.step) g.osc m
  if g.running p then
    let t := start + sext o.delay
    let n := eventsBefore t stop g.ticks
    let (step, o, m) ← audibleLoop p opc level (fun s => s + 1) g.ticks n t g.step o m
    .ok ({ g with step := step, osc := { o with delay := delayAfter t stop n g.ticks } }, m)
  else .ok ({ g with osc := { o with delay := 0 } }, m)

/-- `FrameStep(tri)`, R417. -/
def Tri.stepFrame (g : Tri) : Tri :=
  let control := bit g.r4008 7
  { g with
    frameStep := g.frameStep + 1
    linearCtr := if g.linearReload then (g.r4008.extractLsb' 0 7).toNat else g.linearCtr - 1
    linearReload := control && g.linearReload
    lengthCtr := if g.frameStep.getLsbD 0 && !control then g.lengthCtr - 1 else g.lengthCtr }

/-- The triangle stays halted, whatever frame steps follow (R413, R417): its period is too short, or a counter is 0 that none of them
loads. -/
def Tri.halted (p : Params) (g : Tri) : Bool :=
  decide (g.lengthCtr = 0) || (decide (g.linearCtr = 0) && !g.linearReload) || decide (g.raw.toNat + 1 < p.triMinPeriod)

/-- No later pass of the group's loop can fail: every `Emit` is accepted, or the triangle stays halted and has emitted its level. -/
def Tri.quiet (p : Params) (g : Tri) (m : Mix) : Bool :=
  m.acceptsAll p || (g.halted p && decide ((triSeq g.step : Int) * p.unitTri = sext g.osc.lastAmp))

/-- `RunGroup(tri, t)`, 42_osc_common.md R260; `free` counts the free values. -/
def Tri.runGroup (p : Params) (opc : Byte) (t : Int) (free : Nat) (g : Tri) (m : Mix) : Res (Tri × Nat × Mix) := do
  checkTime t g.lastTime
  let (g', next, free', m) ← runFrames (fun a b g m => Tri.run p opc a b g m) Tri.stepFrame (Tri.quiet p)
    (framePeriod p.triFramePeriod) t g.lastTime g.nextFrameTime free g m
  .ok ({ g' with lastTime := wrap32 t, nextFrameTime := next }, free', m)

/-- OSC_END_FRAME on the TRI group after its run, R268. -/
def Tri.endFrame (t : Int) (g : Tri) : Tri :=
  { g with lastTime := wrap32 (sext g.lastTime - t), nextFrameTime := wrap32 (sext g.nextFrameTime - t) }

/-! ## Registers -/

/-- The shape of a register rule: what it makes of the group, and the restart signal. -/
abbrev TriRule := Tri → Res (Tri × Bool)

/-- 0x08, R414. -/
def tri08 (data : Byte) : TriRule := fun g => .ok ({ g with r4008 := data }, false)

/-- 0x09, R415: no effect. -/
def tri09 : TriRule := fun g => .ok (g, false)

/-- 0x0A, R415. -/
def tri0A (data : Byte) : TriRule := fun g => .ok ({ g with r400A := data }, false)

/-- 0x0B, R416. -/
def tri0B (p : Params) (data : Byte) : TriRule := fun g =>
  .ok ({ g with
          r400B := data
          lengthCtr := if g.chanEnable then p.triLen.getD (data.extractLsb' 3 5).toNat 0 else g.lengthCtr
          linearReload := true }, true)

/-- 0x15, R418. -/
def tri15 (data : Byte) : TriRule := fun g =>
  .ok ({ g with chanEnable := bit data 2, lengthCtr := if bit data 2 then g.lengthCtr else 0 }, false)

/-- 0x17 at time `t`, R420: the 5-step mode is refused by the spec's own fault. -/
def tri17 (p : Params) (t : Int) (data : Byte) : TriRule := fun g =>
  if bit data 7 then raise .unsupported (data.zeroExtend 32)
  else .ok ({ g with frameStep := 0, nextFrameTime := wrap32 (t + p.triFramePeriod) }, false)

/-- `Write_TRI(addr, data)` for the addresses of the TRI space; none outside it (R108). -/
def triWriteRule (p : Params) (t : Int) (addr data : Byte) : Option TriRule :=
  match addr with
  | 0x08#8 => some (tri08 data)
  | 0x09#8 => some tri09
  | 0x0A#8 => some (tri0A data)
  | 0x0B#8 => some (tri0B p data)
  | 0x15#8 => some (tri15 data)
  | 0x17#8 => some (tri17 p t data)
  | _ => none

/-- `Read_TRI(a)`, R421: only 0x15 is readable. -/
def Tri.read (g : Tri) (addr : Byte) : Option Byte := if addr = 0x15#8 then some g.statusByte else none

end Sys2Proof.Machine
end

