-- ==== Sys2Proof/Machine/OscCommands.lean ====
section
/-! DEFINITION. The oscillator group commands OSC_* on any unit and address (spec 42_osc_common.md R260 to R272), and the
shared operations behind the register forms of the other files of this folder. -/

namespace Sys2Proof.Machine

/-- `RunGroup(g, t)` in a command of opcode `opc`, R260. -/
def runGroup (opc : Byte) (g : GroupRef) (t : Int) (s : State) : Res State :=
  match g with
  | .psg i => do
    let (x, m) ← (s.psg.get i).runGroup s.params opc t s.mix
    .ok { s with psg := s.psg.set i x, mix := m }
  | .hh => do
    let (x, free, m) ← s.hh.runGroup s.params opc t s.freeCount s.mix
    .ok { s with hh := x, mix := m, freeCount := free }
  | .tri => do
    let (x, free, m) ← s.tri.runGroup s.params opc t s.freeCount s.mix
    .ok { s with tri := x, mix := m, freeCount := free }

/-- OSC_WRITE on PSG instance `i` by its register rule: run, then write, R262, R263. -/
def writePsg (i : BitVec 1) (time : Word) (rule : Psg → Mix → Res (Psg × Mix × Bool)) (s : State) : Res State := do
  let s ← runGroup 0x20 (.psg i) (timeOperand time) s
  let (g, m, restart) ← rule (s.psg.get i) s.mix
  .ok { s with psg := s.psg.set i g, mix := m, result := restartResult restart }

/-- OSC_WRITE on the HH group by its register rule, R262, R263. -/
def writeHh (time : Word) (rule : Hh → Mix → Res (Hh × Mix × Bool)) (s : State) : Res State := do
  let s ← runGroup 0x20 .hh (timeOperand time) s
  let (g, m, restart) ← rule s.hh s.mix
  .ok { s with hh := g, mix := m, result := restartResult restart }

/-- OSC_WRITE on the TRI group by its register rule, R262, R263. -/
def writeTri (time : Word) (rule : TriRule) (s : State) : Res State := do
  let s ← runGroup 0x20 .tri (timeOperand time) s
  let (g, restart) ← rule s.tri
  .ok { s with tri := g, result := restartResult restart }

/-- OSC_READ of an HH register, R266. -/
def readHh (time : Word) (value : Hh → Byte) (s : State) : Res State := do
  let s ← runGroup 0x21 .hh (timeOperand time) s
  .ok { s with result := (value s.hh).zeroExtend 32 }

/-- OSC_READ of a TRI register, R266. -/
def readTri (time : Word) (value : Tri → Byte) (s : State) : Res State := do
  let s ← runGroup 0x21 .tri (timeOperand time) s
  .ok { s with result := (value s.tri).zeroExtend 32 }

/-! The units of the register forms exist, or the command is ILLEGAL (30_encoding.md R144). -/

/-- A PSG register form. -/
def psgForm (i : Instr) (inst : BitVec 1) (time : Word) (rule : Psg → Mix → Res (Psg × Mix × Bool)) (s : State) :
    Host.Outcome State Fault Refusal :=
  runCommand (do
    let n ← orIllegal (encode i).w0 (instOperand s.params.nPsg (instNibble inst))
    writePsg n time rule s) s

/-- An HH register form. -/
def hhForm (i : Instr) (time : Word) (rule : Hh → Mix → Res (Hh × Mix × Bool)) (s : State) :
    Host.Outcome State Fault Refusal :=
  runCommand (do
    checkLegal (encode i).w0 s.params.hasHh
    writeHh time rule s) s

/-- A TRI register form. -/
def triForm (i : Instr) (time : Word) (rule : TriRule) (s : State) : Host.Outcome State Fault Refusal :=
  runCommand (do
    checkLegal (encode i).w0 s.params.hasTri
    writeTri time rule s) s

/-- An HH read form; ILLEGAL where the address is outside the space (20_memory.md R108). -/
def hhReadForm (i : Instr) (time : Word) (addr : Byte) (s : State) : Host.Outcome State Fault Refusal :=
  runCommand (do
    checkLegal (encode i).w0 (s.params.hasHh && (s.hh.read addr).isSome)
    readHh time (fun h => (h.read addr).getD 0) s) s

/-- A TRI read form. -/
def triReadForm (i : Instr) (time : Word) (value : Tri → Byte) (s : State) : Host.Outcome State Fault Refusal :=
  runCommand (do
    checkLegal (encode i).w0 s.params.hasTri
    readTri time value s) s

/-! ## The commands -/

/-- OSC_WRITE, R263: the unit (R144) and the address (R108) are checked before the run (R604). -/
def execOscWrite (inst sel : BitVec 4) (addr data : Byte) (time : Word) (s : State) :
    Host.Outcome State Fault Refusal :=
  let w0 := (encode (.oscWrite inst sel addr data time)).w0
  let t := timeOperand time
  runCommand (do
    match ← orIllegal w0 (groupOperand s.params inst sel) with
    | .psg i => writePsg i time (← orIllegal w0 (psgWriteRule s.params 0x20 t addr data)) s
    | .hh => writeHh time (← orIllegal w0 (hhWriteRule s.params 0x20 t addr data)) s
    | .tri => writeTri time (← orIllegal w0 (triWriteRule s.params t addr data)) s) s

/-- OSC_READ, R266: a PSG group has nothing to read (R144). Whether an address is readable does not depend on the group's
state. -/
def execOscRead (inst sel : BitVec 4) (addr : Byte) (time : Word) (s : State) : Host.Outcome State Fault Refusal :=
  let w0 := (encode (.oscRead inst sel addr time)).w0
  runCommand (do
    match ← orIllegal w0 (groupOperand s.params inst sel) with
    | .psg _ => illegal w0
    | .hh =>
      checkLegal w0 (s.hh.read addr).isSome
      readHh time (fun h => (h.read addr).getD 0) s
    | .tri =>
      checkLegal w0 (s.tri.read addr).isSome
      readTri time (fun g => (g.read addr).getD 0) s) s

/-- OSC_RUN, R267. -/
def execOscRun (inst sel : BitVec 4) (time : Word) (s : State) : Host.Outcome State Fault Refusal :=
  runCommand (do
    let g ← orIllegal (encode (.oscRun inst sel time)).w0 (groupOperand s.params inst sel)
    let s ← runGroup 0x22 g (timeOperand time) s
    .ok { s with result := 0 }) s

/-- The shift of a group's time origin, R268. -/
def endFrame (g : GroupRef) (t : Int) (s : State) : State :=
  match g with
  | .psg i => { s with psg := s.psg.set i ((s.psg.get i).endFrame t) }
  | .hh => { s with hh := s.hh.endFrame t }
  | .tri => { s with tri := s.tri.endFrame t }

/-- OSC_END_FRAME, R268. -/
def execOscEndFrame (inst sel : BitVec 4) (time : Word) (s : State) : Host.Outcome State Fault Refusal :=
  runCommand (do
    let g ← orIllegal (encode (.oscEndFrame inst sel time)).w0 (groupOperand s.params inst sel)
    let s ← runGroup 0x23 g (timeOperand time) s
    .ok { endFrame g (timeOperand time) s with result := 0 }) s

/-- Every field of a group at its reset value, R269. -/
def resetGroup (g : GroupRef) (s : State) : State :=
  match g with
  | .psg i => { s with psg := s.psg.set i (.reset s.params) }
  | .hh => { s with hh := .reset s.params }
  | .tri => { s with tri := .reset s.params }

/-- OSC_RESET, R269. -/
def execOscReset (inst sel : BitVec 4) (s : State) : Host.Outcome State Fault Refusal :=
  runCommand (do
    let g ← orIllegal (encode (.oscReset inst sel)).w0 (groupOperand s.params inst sel)
    .ok { resetGroup g s with result := 0 }) s

/-- OSC_WAVE_STATUS, R272. -/
def execOscWaveStatus (time : Word) (s : State) : Host.Outcome State Fault Refusal :=
  runCommand (do
    checkLegal (encode (.oscWaveStatus time)).w0 s.params.hasHh
    let s ← runGroup 0x25 .hh (timeOperand time) s
    .ok { s with result := s.hh.waveStatus }) s

end Sys2Proof.Machine
end

