-- ==== Sys2Proof/Machine/HhForms.lean ====
section
/-! DEFINITION. The handheld register forms of OSC_WRITE and OSC_READ (spec 44_hh_square.md R330 to R335,
45_hh_wave_noise_master.md R373 to R378, R383 to R398). -/

namespace Sys2Proof.Machine

/-- NR10, R330. -/
def execOscWriteHhNr10 (data : Byte) (time : Word) (s : State) : Host.Outcome State Fault Refusal :=
  hhForm (.oscWriteHhNr10 data time) time (hhGated 0x10 data hhNr10) s

/-- NR11, R332. -/
def execOscWriteHhNr11 (data : Byte) (time : Word) (s : State) : Host.Outcome State Fault Refusal :=
  hhForm (.oscWriteHhNr11 data time) time (hhGated 0x11 data hhNr11) s

/-- NR12, R333. -/
def execOscWriteHhNr12 (data : Byte) (time : Word) (s : State) : Host.Outcome State Fault Refusal :=
  hhForm (.oscWriteHhNr12 data time) time (hhGated 0x12 data hhNr12) s

/-- NR13, R334. -/
def execOscWriteHhNr13 (data : Byte) (time : Word) (s : State) : Host.Outcome State Fault Refusal :=
  hhForm (.oscWriteHhNr13 data time) time (hhGated 0x13 data hhNr13) s

/-- NR14, R335. -/
def execOscWriteHhNr14 (data : Byte) (time : Word) (s : State) : Host.Outcome State Fault Refusal :=
  hhForm (.oscWriteHhNr14 data time) time (hhGated 0x14 data (hhNr14 s.params)) s

/-- The unused address 0x15, R395. -/
def execOscWriteHhUnused15 (data : Byte) (time : Word) (s : State) : Host.Outcome State Fault Refusal :=
  hhForm (.oscWriteHhUnused15 data time) time hhIgnore s

/-- NR21, R332. -/
def execOscWriteHhNr21 (data : Byte) (time : Word) (s : State) : Host.Outcome State Fault Refusal :=
  hhForm (.oscWriteHhNr21 data time) time (hhGated 0x16 data hhNr21) s

/-- NR22, R333. -/
def execOscWriteHhNr22 (data : Byte) (time : Word) (s : State) : Host.Outcome State Fault Refusal :=
  hhForm (.oscWriteHhNr22 data time) time (hhGated 0x17 data hhNr22) s

/-- NR23, R334. -/
def execOscWriteHhNr23 (data : Byte) (time : Word) (s : State) : Host.Outcome State Fault Refusal :=
  hhForm (.oscWriteHhNr23 data time) time (hhGated 0x18 data hhNr23) s

/-- NR24, R335. -/
def execOscWriteHhNr24 (data : Byte) (time : Word) (s : State) : Host.Outcome State Fault Refusal :=
  hhForm (.oscWriteHhNr24 data time) time (hhGated 0x19 data (hhNr24 s.params)) s

/-- NR30, R373. -/
def execOscWriteHhNr30 (data : Byte) (time : Word) (s : State) : Host.Outcome State Fault Refusal :=
  hhForm (.oscWriteHhNr30 data time) time (hhGated 0x1A data hhNr30) s

/-- NR31, R374. -/
def execOscWriteHhNr31 (data : Byte) (time : Word) (s : State) : Host.Outcome State Fault Refusal :=
  hhForm (.oscWriteHhNr31 data time) time (hhGated 0x1B data hhNr31) s

/-- NR32, R375. -/
def execOscWriteHhNr32 (data : Byte) (time : Word) (s : State) : Host.Outcome State Fault Refusal :=
  hhForm (.oscWriteHhNr32 data time) time (hhGated 0x1C data hhNr32) s

/-- NR33, R376. -/
def execOscWriteHhNr33 (data : Byte) (time : Word) (s : State) : Host.Outcome State Fault Refusal :=
  hhForm (.oscWriteHhNr33 data time) time (hhGated 0x1D data hhNr33) s

/-- NR34, R377. -/
def execOscWriteHhNr34 (data : Byte) (time : Word) (s : State) : Host.Outcome State Fault Refusal :=
  hhForm (.oscWriteHhNr34 data time) time (hhGated 0x1E data (hhNr34 s.params)) s

/-- The unused address 0x1F, R395. -/
def execOscWriteHhUnused1F (data : Byte) (time : Word) (s : State) : Host.Outcome State Fault Refusal :=
  hhForm (.oscWriteHhUnused1F data time) time hhIgnore s

/-- NR41, R383. -/
def execOscWriteHhNr41 (data : Byte) (time : Word) (s : State) : Host.Outcome State Fault Refusal :=
  hhForm (.oscWriteHhNr41 data time) time (hhGated 0x20 data hhNr41) s

/-- NR42, R384. -/
def execOscWriteHhNr42 (data : Byte) (time : Word) (s : State) : Host.Outcome State Fault Refusal :=
  hhForm (.oscWriteHhNr42 data time) time (hhGated 0x21 data hhNr42) s

/-- NR43, R385. -/
def execOscWriteHhNr43 (data : Byte) (time : Word) (s : State) : Host.Outcome State Fault Refusal :=
  hhForm (.oscWriteHhNr43 data time) time (hhGated 0x22 data hhNr43) s

/-- NR44, R386. -/
def execOscWriteHhNr44 (data : Byte) (time : Word) (s : State) : Host.Outcome State Fault Refusal :=
  hhForm (.oscWriteHhNr44 data time) time (hhGated 0x23 data (hhNr44 s.params)) s

/-- NR50, R398. -/
def execOscWriteHhNr50 (data : Byte) (time : Word) (s : State) : Host.Outcome State Fault Refusal :=
  hhForm (.oscWriteHhNr50 data time) time (hhGated 0x24 data (hhNr50 s.params 0x20 (timeOperand time))) s

/-- NR51, R390. -/
def execOscWriteHhNr51 (data : Byte) (time : Word) (s : State) : Host.Outcome State Fault Refusal :=
  hhForm (.oscWriteHhNr51 data time) time (hhGated 0x25 data (hhNr51 s.params 0x20 (timeOperand time))) s

/-- The unused address 0x27, R395. -/
def execOscWriteHhUnused27 (data : Byte) (time : Word) (s : State) : Host.Outcome State Fault Refusal :=
  hhForm (.oscWriteHhUnused27 data time) time hhIgnore s

/-- NR52 with bit 7 clear, R391, R392; bits 6..0 are ignored. -/
def execOscWriteHhNr52Off (data : BitVec 7) (time : Word) (s : State) : Host.Outcome State Fault Refusal :=
  hhForm (.oscWriteHhNr52Off data time) time (noRestart (hhPowerOff s.params 0x20 (timeOperand time))) s

/-- NR52 with bit 7 set, R392; bits 6..0 are ignored. -/
def execOscWriteHhNr52On (data : BitVec 7) (time : Word) (s : State) : Host.Outcome State Fault Refusal :=
  hhForm (.oscWriteHhNr52On data time) time (hhPlain hhPowerOn) s

/-- The unused addresses 0x28..0x2F, R395. -/
def execOscWriteHhUnused28 (low : BitVec 3) (data : Byte) (time : Word) (s : State) :
    Host.Outcome State Fault Refusal :=
  hhForm (.oscWriteHhUnused28 low data time) time hhIgnore s

/-- Wave RAM, R378, powered or not (R394). -/
def execOscWriteHhWaveRam (low : BitVec 4) (data : Byte) (time : Word) (s : State) :
    Host.Outcome State Fault Refusal :=
  hhForm (.oscWriteHhWaveRam low data time) time (hhPlain (Hh.writeWaveRam low data)) s

/-- A read of an HH register, R396; ILLEGAL outside 0x10..0x3F (R108). -/
def execOscReadHhReg (addr : Byte) (time : Word) (s : State) : Host.Outcome State Fault Refusal :=
  hhReadForm (.oscReadHhReg addr time) time addr s

/-- A read of wave RAM, R378. -/
def execOscReadHhWaveRam (low : BitVec 4) (time : Word) (s : State) : Host.Outcome State Fault Refusal :=
  hhReadForm (.oscReadHhWaveRam low time) time (3#4 ++ low) s

end Sys2Proof.Machine
end

