-- ==== Sys2Proof/Machine/PsgForms.lean ====
section
/-! DEFINITION. The PSG register forms of OSC_WRITE (spec 43_psg.md R294 to R296). -/

namespace Sys2Proof.Machine

/-- The latch byte, R294. -/
def execOscWritePsgLatch (inst : BitVec 1) (ch : BitVec 2) (ty : BitVec 1) (data : BitVec 4) (time : Word) (s : State) :
    Host.Outcome State Fault Refusal :=
  psgForm (.oscWritePsgLatch inst ch ty data time) inst time (pureWrite (Psg.writeLatch s.params ch ty data)) s

/-- The data byte, R295. -/
def execOscWritePsgData (inst : BitVec 1) (data : BitVec 7) (time : Word) (s : State) :
    Host.Outcome State Fault Refusal :=
  psgForm (.oscWritePsgData inst data time) inst time (pureWrite (Psg.writeData s.params data)) s

/-- The stereo port, R296. -/
def execOscWritePsgStereo (inst : BitVec 1) (data : Byte) (time : Word) (s : State) :
    Host.Outcome State Fault Refusal :=
  psgForm (.oscWritePsgStereo inst data time) inst time
    (noRestart (Psg.writeStereo s.params 0x20 (timeOperand time) data)) s

end Sys2Proof.Machine
end

