-- ==== Sys2Proof/Machine/TriForms.lean ====
section
/-! DEFINITION. The triangle register forms of OSC_WRITE and OSC_READ (spec 46_triangle.md R414 to R421). -/

namespace Sys2Proof.Machine

/-- 0x08, R414. -/
def execOscWriteTri08 (data : Byte) (time : Word) (s : State) : Host.Outcome State Fault Refusal :=
  triForm (.oscWriteTri08 data time) time (tri08 data) s

/-- 0x09, R415: no effect beyond the run. -/
def execOscWriteTri09 (data : Byte) (time : Word) (s : State) : Host.Outcome State Fault Refusal :=
  triForm (.oscWriteTri09 data time) time tri09 s

/-- 0x0A, R415. -/
def execOscWriteTri0A (data : Byte) (time : Word) (s : State) : Host.Outcome State Fault Refusal :=
  triForm (.oscWriteTri0A data time) time (tri0A data) s

/-- 0x0B, R416. -/
def execOscWriteTri0B (data : Byte) (time : Word) (s : State) : Host.Outcome State Fault Refusal :=
  triForm (.oscWriteTri0B data time) time (tri0B s.params data) s

/-- 0x15, R418. -/
def execOscWriteTri15 (data : Byte) (time : Word) (s : State) : Host.Outcome State Fault Refusal :=
  triForm (.oscWriteTri15 data time) time (tri15 data) s

/-- 0x17, R420. -/
def execOscWriteTri17 (data : Byte) (time : Word) (s : State) : Host.Outcome State Fault Refusal :=
  triForm (.oscWriteTri17 data time) time (tri17 s.params (timeOperand time) data) s

/-- A read of 0x15, R421. -/
def execOscReadTri15 (time : Word) (s : State) : Host.Outcome State Fault Refusal :=
  triReadForm (.oscReadTri15 time) time Tri.statusByte s

end Sys2Proof.Machine
end

