-- ==== Sys2Proof/Machine/Dispatch.lean ====
section
/-! DEFINITION. One arm per instruction, each one call of its meaning. -/

namespace Sys2Proof.Machine

def exec (i : Instr) (s : State) : Host.Outcome State Fault Refusal :=
  match i with
  | .nop => Sys2Proof.Machine.execNop s
  | .blockReset => Sys2Proof.Machine.execBlockReset s
  | .bufSetSampleRate rate msec => Sys2Proof.Machine.execBufSetSampleRate rate msec s
  | .bufSetClockRate clock => Sys2Proof.Machine.execBufSetClockRate clock s
  | .bufClear => Sys2Proof.Machine.execBufClear s
  | .bufAddDelta sel time delta => Sys2Proof.Machine.execBufAddDelta sel time delta s
  | .bufEndFrame time => Sys2Proof.Machine.execBufEndFrame time s
  | .bufSamplesAvail => Sys2Proof.Machine.execBufSamplesAvail s
  | .bufReadStereo count => Sys2Proof.Machine.execBufReadStereo count s
  | .bufRemoveSamples n => Sys2Proof.Machine.execBufRemoveSamples n s
  | .oscWrite inst sel addr data time => Sys2Proof.Machine.execOscWrite inst sel addr data time s
  | .oscRead inst sel addr time => Sys2Proof.Machine.execOscRead inst sel addr time s
  | .oscRun inst sel time => Sys2Proof.Machine.execOscRun inst sel time s
  | .oscEndFrame inst sel time => Sys2Proof.Machine.execOscEndFrame inst sel time s
  | .oscReset inst sel => Sys2Proof.Machine.execOscReset inst sel s
  | .oscWaveStatus time => Sys2Proof.Machine.execOscWaveStatus time s
  | .fmWrite inst sel addr data => Sys2Proof.Machine.execFmWrite inst sel addr data s
  | .fmRender inst n => Sys2Proof.Machine.execFmRender inst n s
  | .fmReset inst => Sys2Proof.Machine.execFmReset inst s
  | .fmSetRate inst clock rate => Sys2Proof.Machine.execFmSetRate inst clock rate s
  | .oscWritePsgLatch inst ch ty data time => Sys2Proof.Machine.execOscWritePsgLatch inst ch ty data time s
  | .oscWritePsgData inst data time => Sys2Proof.Machine.execOscWritePsgData inst data time s
  | .oscWritePsgStereo inst data time => Sys2Proof.Machine.execOscWritePsgStereo inst data time s
  | .oscWriteHhNr10 data time => Sys2Proof.Machine.execOscWriteHhNr10 data time s
  | .oscWriteHhNr11 data time => Sys2Proof.Machine.execOscWriteHhNr11 data time s
  | .oscWriteHhNr12 data time => Sys2Proof.Machine.execOscWriteHhNr12 data time s
  | .oscWriteHhNr13 data time => Sys2Proof.Machine.execOscWriteHhNr13 data time s
  | .oscWriteHhNr14 data time => Sys2Proof.Machine.execOscWriteHhNr14 data time s
  | .oscWriteHhUnused15 data time => Sys2Proof.Machine.execOscWriteHhUnused15 data time s
  | .oscWriteHhNr21 data time => Sys2Proof.Machine.execOscWriteHhNr21 data time s
  | .oscWriteHhNr22 data time => Sys2Proof.Machine.execOscWriteHhNr22 data time s
  | .oscWriteHhNr23 data time => Sys2Proof.Machine.execOscWriteHhNr23 data time s
  | .oscWriteHhNr24 data time => Sys2Proof.Machine.execOscWriteHhNr24 data time s
  | .oscWriteHhNr30 data time => Sys2Proof.Machine.execOscWriteHhNr30 data time s
  | .oscWriteHhNr31 data time => Sys2Proof.Machine.execOscWriteHhNr31 data time s
  | .oscWriteHhNr32 data time => Sys2Proof.Machine.execOscWriteHhNr32 data time s
  | .oscWriteHhNr33 data time => Sys2Proof.Machine.execOscWriteHhNr33 data time s
  | .oscWriteHhNr34 data time => Sys2Proof.Machine.execOscWriteHhNr34 data time s
  | .oscWriteHhUnused1F data time => Sys2Proof.Machine.execOscWriteHhUnused1F data time s
  | .oscWriteHhNr41 data time => Sys2Proof.Machine.execOscWriteHhNr41 data time s
  | .oscWriteHhNr42 data time => Sys2Proof.Machine.execOscWriteHhNr42 data time s
  | .oscWriteHhNr43 data time => Sys2Proof.Machine.execOscWriteHhNr43 data time s
  | .oscWriteHhNr44 data time => Sys2Proof.Machine.execOscWriteHhNr44 data time s
  | .oscWriteHhNr50 data time => Sys2Proof.Machine.execOscWriteHhNr50 data time s
  | .oscWriteHhNr51 data time => Sys2Proof.Machine.execOscWriteHhNr51 data time s
  | .oscWriteHhUnused27 data time => Sys2Proof.Machine.execOscWriteHhUnused27 data time s
  | .oscWriteHhNr52Off data time => Sys2Proof.Machine.execOscWriteHhNr52Off data time s
  | .oscWriteHhNr52On data time => Sys2Proof.Machine.execOscWriteHhNr52On data time s
  | .oscWriteHhUnused28 low data time => Sys2Proof.Machine.execOscWriteHhUnused28 low data time s
  | .oscWriteHhWaveRam low data time => Sys2Proof.Machine.execOscWriteHhWaveRam low data time s
  | .oscWriteTri08 data time => Sys2Proof.Machine.execOscWriteTri08 data time s
  | .oscWriteTri09 data time => Sys2Proof.Machine.execOscWriteTri09 data time s
  | .oscWriteTri0A data time => Sys2Proof.Machine.execOscWriteTri0A data time s
  | .oscWriteTri0B data time => Sys2Proof.Machine.execOscWriteTri0B data time s
  | .oscWriteTri15 data time => Sys2Proof.Machine.execOscWriteTri15 data time s
  | .oscWriteTri17 data time => Sys2Proof.Machine.execOscWriteTri17 data time s
  | .oscReadHhReg addr time => Sys2Proof.Machine.execOscReadHhReg addr time s
  | .oscReadHhWaveRam low time => Sys2Proof.Machine.execOscReadHhWaveRam low time s
  | .oscReadTri15 time => Sys2Proof.Machine.execOscReadTri15 time s
  | .fmWriteLfo inst data => Sys2Proof.Machine.execFmWriteLfo inst data s
  | .fmWriteTimer24 inst data => Sys2Proof.Machine.execFmWriteTimer24 inst data s
  | .fmWriteTimer25 inst data => Sys2Proof.Machine.execFmWriteTimer25 inst data s
  | .fmWriteTimer26 inst data => Sys2Proof.Machine.execFmWriteTimer26 inst data s
  | .fmWriteMode27 inst data => Sys2Proof.Machine.execFmWriteMode27 inst data s
  | .fmWriteKey inst data => Sys2Proof.Machine.execFmWriteKey inst data s
  | .fmWriteDacData inst data => Sys2Proof.Machine.execFmWriteDacData inst data s
  | .fmWriteDacEnable inst data => Sys2Proof.Machine.execFmWriteDacEnable inst data s
  | .fmWriteDtMul inst port slot ch data => Sys2Proof.Machine.execFmWriteDtMul inst port slot ch data s
  | .fmWriteTl inst port slot ch data => Sys2Proof.Machine.execFmWriteTl inst port slot ch data s
  | .fmWriteKsAr inst port slot ch data => Sys2Proof.Machine.execFmWriteKsAr inst port slot ch data s
  | .fmWriteAmD1r inst port slot ch data => Sys2Proof.Machine.execFmWriteAmD1r inst port slot ch data s
  | .fmWriteD2r inst port slot ch data => Sys2Proof.Machine.execFmWriteD2r inst port slot ch data s
  | .fmWriteSlRr inst port slot ch data => Sys2Proof.Machine.execFmWriteSlRr inst port slot ch data s
  | .fmWriteSsgEg inst port slot ch data => Sys2Proof.Machine.execFmWriteSsgEg inst port slot ch data s
  | .fmWriteFnumLow inst port ch data => Sys2Proof.Machine.execFmWriteFnumLow inst port ch data s
  | .fmWriteFnumHigh inst port ch data => Sys2Proof.Machine.execFmWriteFnumHigh inst port ch data s
  | .fmWriteSplitLow inst j data => Sys2Proof.Machine.execFmWriteSplitLow inst j data s
  | .fmWriteSplitHigh inst j data => Sys2Proof.Machine.execFmWriteSplitHigh inst j data s
  | .fmWriteFbAlgo inst port ch data => Sys2Proof.Machine.execFmWriteFbAlgo inst port ch data s
  | .fmWritePan inst port ch data => Sys2Proof.Machine.execFmWritePan inst port ch data s
  | .fmWriteNoEffect inst port addr data => Sys2Proof.Machine.execFmWriteNoEffect inst port addr data s

end Sys2Proof.Machine
end

