-- ==== Sys2Proof/Machine/Fetch.lean ====
section
/-! DEFINITION. Taking a command from the command port (spec 20_memory.md R100, R110): the commands the host has issued and the
block has not taken, in order. The block has no memory that holds commands (R113). (DESIGN CHOICE: entry 4 of the log.) -/

namespace Sys2Proof.Machine

/-- The next command, and the state with it taken; none while the host has issued none. -/
def fetch (s : State) : Option (Command × State) :=
  match s.port with
  | [] => none
  | c :: rest => some (c, { s with port := rest })

/-- A command that does not decode, 30_encoding.md R141, R145: ILLEGAL, or refused like any other while faulted (R603). -/
def rejectCommand (c : Command) (s : State) : Host.Outcome State Fault Refusal := runCommand (illegal c.w0) s

/-- A command put before those still waiting on the port. -/
def placeCommand (c : Command) (s : State) : State := { s with port := c :: s.port }

end Sys2Proof.Machine
end

