-- ==== Sys2Proof/Machine/Step.lean ====
section
/-! DEFINITION. One step: the block takes one command from the port and executes it to completion (spec 20_memory.md R110,
30_encoding.md R141). With no command issued it does nothing. -/

namespace Sys2Proof.Machine

/-- A taken command: its instruction, or its rejection. -/
def executeCommand (c : Command) (s : State) : Host.Outcome State Fault Refusal :=
  match decode c with
  | .ok i => exec i s
  | .error _ => rejectCommand c s

/-- One step of the block. -/
def step (s : State) : Host.Outcome State Fault Refusal :=
  match fetch s with
  | none => .next s
  | some (c, s') => executeCommand c s'

/-- The host issues the instruction of an opcode-table word as the next command. -/
def State.withFetchWord (s : State) (nbits w : Nat) : State := placeCommand (tableCommand nbits w) s

end Sys2Proof.Machine
end

