-- ==== Sys2Proof/Safety.lean ====
section
/-! DEFINITION. The terms statements use: what a mix stage accepts, when a group can run, and the invariants of the block at a
command boundary. -/

namespace Sys2Proof.Machine

/-- Every delta at a time from `lo` to `hi` can be placed: the mix stage is configured (spec 40_delta_buffer.md R203), and the
build clamps or both ends are in range (R206). -/
def Mix.accepts (p : Params) (m : Mix) (lo hi : Int) : Prop :=
  m.configured = true ∧ (p.buildMode = .release ∨ (0 ≤ m.pos lo ∧ m.idx hi ≤ m.cap.toNat))

/-- An oscillator's pending transition is not in the past, 42_osc_common.md R271. -/
def Osc.pending (o : Osc) : Prop := 0 ≤ sext o.delay

/-- No pending transition of a PSG group is in the past. -/
def Psg.pending (g : Psg) : Prop :=
  g.tone0.osc.pending ∧ g.tone1.osc.pending ∧ g.tone2.osc.pending ∧ g.noise.osc.pending

/-- No pending transition of the HH group is in the past. -/
def Hh.pending (h : Hh) : Prop := h.sq1.osc.pending ∧ h.sq2.osc.pending ∧ h.wave.osc.pending ∧ h.noise.osc.pending

/-- A PSG group can run to `t`: time does not go back (R260) and every delta of the run can be placed. -/
def Psg.ready (p : Params) (m : Mix) (t : Int) (g : Psg) : Prop :=
  sext g.lastTime ≤ t ∧ g.pending ∧ m.accepts p (sext g.lastTime) t

/-- No run to `t` goes back in time: the frame times that its loop of R260 stores stay in s32 (00_scope.md R11), the first one that
is not before `t` too; or they never reach `t` and no pass can fail (entry 8 of the log). -/
def framesInOrder (next : Word) (period : Nat) (t : Int) (quiet : Bool) : Prop :=
  sext next + eventsBefore (sext next) t period * period < 2 ^ 31 ∨ (frameTimesReach next period t = false ∧ quiet = true)

/-- The first `n` passes of the loop of R260 where none of them ends it: a run to each stored frame time, an s32 (00_scope.md R11),
and the frame step there. The first `Emit` that fails is the outcome (60_exceptions.md R604). -/
def loopPasses {γ : Type} (run : Int → Int → γ → Mix → Res (γ × Mix)) (frame : γ → γ) (period : Nat) :
    Nat → Int → Word → γ → Mix → Res (γ × Mix)
  | 0, _, _, g, m => .ok (g, m)
  | n + 1, last, next, g, m => do
    let (g', m') ← run last (sext next) g m
    loopPasses run frame period n (sext next) (next + BitVec.ofNat 32 period) (frame g') m'

/-- The HH group can run to `t`: time does not go back (R260), and every delta of the run can be placed. -/
def Hh.ready (p : Params) (m : Mix) (t : Int) (h : Hh) : Prop :=
  sext h.lastTime ≤ t ∧ sext h.lastTime ≤ sext h.nextFrameTime ∧ h.pending ∧ m.accepts p (sext h.lastTime) t ∧
  framesInOrder h.nextFrameTime (framePeriod p.hhFramePeriod) t (h.quiet p m)

/-- The TRI group can run to `t`. -/
def Tri.ready (p : Params) (m : Mix) (t : Int) (g : Tri) : Prop :=
  sext g.lastTime ≤ t ∧ sext g.lastTime ≤ sext g.nextFrameTime ∧ g.osc.pending ∧ m.accepts p (sext g.lastTime) t ∧
  framesInOrder g.nextFrameTime (framePeriod p.triFramePeriod) t (g.quiet p m)

/-- A group can run to `t`. -/
def State.ready (s : State) (g : GroupRef) (t : Int) : Prop :=
  match g with
  | .psg i => (s.psg.get i).ready s.params s.mix t
  | .hh => s.hh.ready s.params s.mix t
  | .tri => s.tri.ready s.params s.mix t

/-- What deltas leave of a mix stage: everything but cells and `dirty` (40_delta_buffer.md R207). -/
def Mix.sameFrame (m m' : Mix) : Prop :=
  m'.sampleRate = m.sampleRate ∧ m'.clockRate = m.clockRate ∧ m'.factor = m.factor ∧ m'.cap = m.cap ∧
  (∀ u, (m'.dsb u).offset = (m.dsb u).offset) ∧ (∀ u, (m'.dsb u).accum = (m.dsb u).accum)

/-- What a run leaves of a PSG group: its registers and its routes (43_psg.md R290 to R297). -/
def Psg.sameRegs (g g' : Psg) : Prop :=
  g'.latch = g.latch ∧ g'.stereo = g.stereo ∧
  (g'.tone0.period = g.tone0.period ∧ g'.tone0.atten = g.tone0.atten ∧ g'.tone0.osc.route = g.tone0.osc.route) ∧
  (g'.tone1.period = g.tone1.period ∧ g'.tone1.atten = g.tone1.atten ∧ g'.tone1.osc.route = g.tone1.osc.route) ∧
  (g'.tone2.period = g.tone2.period ∧ g'.tone2.atten = g.tone2.atten ∧ g'.tone2.osc.route = g.tone2.osc.route) ∧
  (g'.noise.ctrl = g.noise.ctrl ∧ g'.noise.atten = g.noise.atten ∧ g'.noise.osc.route = g.noise.osc.route)

/-- What a run leaves of the HH group: its registers but the two a sweep writes (44_hh_square.md R326), its routes and its
scale. -/
def Hh.sameRegs (h h' : Hh) : Prop :=
  (∀ a, a ≠ 0x13 → a ≠ 0x14 → h'.reg a = h.reg a) ∧ h'.volScale = h.volScale ∧
  h'.sq1.osc.route = h.sq1.osc.route ∧ h'.sq2.osc.route = h.sq2.osc.route ∧
  h'.wave.osc.route = h.wave.osc.route ∧ h'.noise.osc.route = h.noise.osc.route

/-- What a run leaves of the TRI group: its registers and its route (46_triangle.md R413, R417). -/
def Tri.sameRegs (g g' : Tri) : Prop :=
  g'.r4008 = g.r4008 ∧ g'.r400A = g.r400A ∧ g'.r400B = g.r400B ∧ g'.chanEnable = g.chanEnable ∧
  g'.osc.route = g.osc.route

/-- The lock-step invariant, 10_state.md R35. -/
def Mix.lockStep (m : Mix) : Prop :=
  (∀ u, (m.dsb u).offset = m.offset) ∧ m.available ≤ m.cap.toNat

/-- Every store of the block is in canonical form and inside its space: the DSB cells below `cap + KW` (R33), the HH registers
at 0x10..0x3F (R39), the FM images below 0x100 (R44). -/
def State.storesWf (s : State) : Prop :=
  (∀ u, Store.wf (s.mix.dsb u).cells = true ∧ Store.below (s.mix.dsb u).cells (s.mix.cap.toNat + s.params.kw) = true) ∧
  Store.wf s.hh.regs = true ∧ Store.below s.hh.regs 0x40 = true ∧ (∀ a, a < 0x10 → Store.get s.hh.regs a = 0) ∧
  (∀ i p, Store.wf ((s.fm.get i).image p) = true ∧ Store.below ((s.fm.get i).image p) 0x100 = true)

/-! ## How a command ends -/

/-- A completed command: its result word, and `cmd_count` advanced (10_state.md R30, R31); nothing else of `t` changes. -/
def State.done (t : State) (result : Word) : State := { t with result := result, cmdCount := t.cmdCount + 1 }

/-- A command that ended in a fault (60_exceptions.md R601): the record with the index of the command, and `cmd_count`
advanced; nothing else changes (R602, R607; that the pre-command state is kept also by OSC_* is entry 6 of the log). -/
def State.faulted (s : State) (code : FaultCode) (info : Word) : State :=
  { s with fault := some ⟨code, s.cmdCount, info⟩, cmdCount := s.cmdCount + 1 }

/-- INST and SEL name a group that exists, 30_encoding.md R144. -/
def GroupRef.named (p : Params) (inst sel : BitVec 4) (g : GroupRef) : Prop :=
  match g with
  | .psg i => sel = 0 ∧ inst.toNat = i.toNat ∧ i.toNat < p.nPsg
  | .hh => sel = 1 ∧ inst = 0 ∧ p.hasHh = true
  | .tri => sel = 2 ∧ inst = 0 ∧ p.hasTri = true

/-- The time a group has been run to, 10_state.md R37. -/
def State.lastTime (s : State) (g : GroupRef) : Word :=
  match g with
  | .psg i => (s.psg.get i).lastTime
  | .hh => s.hh.lastTime
  | .tri => s.tri.lastTime

/-! A register form does what its rule says: for every state without a fault, with the unit present, `exec` answers a next
state wherever the run to the command's time (42_osc_common.md R262) meets no fault, and it meets none where the group is ready:
the state after the run, with the group replaced by `after` and the result. -/

/-- An OSC_WRITE on a PSG instance. -/
def writesPsg (i : Instr) (inst : BitVec 1) (time : Word) (after : Params → Psg → Psg) (result : Psg → Word) : Prop :=
  ∀ s : State, s.fault = none → inst.toNat < s.params.nPsg →
    let done (r : State) : State :=
      { r with psg := r.psg.set inst (after s.params (r.psg.get inst)) }.done (result (r.psg.get inst))
    (s.ready (.psg inst) (sext time) →
      ∃ r, runGroup 0x20 (.psg inst) (sext time) s = .ok r ∧ exec i s = .next (done r)) ∧
    ∀ r, runGroup 0x20 (.psg inst) (sext time) s = .ok r → exec i s = .next (done r)

/-- An OSC_WRITE on the HH group, powered on or off (45_hh_wave_noise_master.md R394) as `on` says. -/
def writesHh (i : Instr) (time : Word) (on : Bool) (after : Params → Hh → Hh) (result : Word) : Prop :=
  ∀ s : State, s.fault = none → s.params.hasHh = true → bit (s.hh.reg 0x26) 7 = on →
    let done (r : State) : State := { r with hh := after s.params r.hh }.done result
    (s.ready .hh (sext time) → ∃ r, runGroup 0x20 .hh (sext time) s = .ok r ∧ exec i s = .next (done r)) ∧
    ∀ r, runGroup 0x20 .hh (sext time) s = .ok r → exec i s = .next (done r)

/-- An OSC_WRITE on the TRI group. -/
def writesTri (i : Instr) (time : Word) (after : Params → Tri → Tri) (result : Word) : Prop :=
  ∀ s : State, s.fault = none → s.params.hasTri = true →
    let done (r : State) : State := { r with tri := after s.params r.tri }.done result
    (s.ready .tri (sext time) → ∃ r, runGroup 0x20 .tri (sext time) s = .ok r ∧ exec i s = .next (done r)) ∧
    ∀ r, runGroup 0x20 .tri (sext time) s = .ok r → exec i s = .next (done r)

/-- An FM_WRITE: the register image is stored (47_fm_registers.md R430), then the instance becomes `after` of it. -/
def writesFm (i : Instr) (inst : BitVec 1) (port : FmPort) (addr data : Byte) (after : Params → Fm → Fm) : Prop :=
  ∀ s : State, s.fault = none → inst.toNat < s.params.nFm →
    exec i s = .next (({ s with fm := s.fm.set inst (after s.params ((s.fm.get inst).setReg port addr data)) }).done 0)

/-! ## Stereo output, 40_delta_buffer.md R213, 41_stereo_mix.md R240, R241 -/

/-- The integrator before cell `n` of a DSB. -/
def integral (cells : Store 32) (accum : Word) : Nat → Word
  | 0 => accum
  | n + 1 =>
    let a := integral cells accum n
    a + cells.get n - a.sshiftRight 9

/-- A 32-bit value clamped to a sample. -/
def clampSample (v : Word) : BitVec 16 :=
  if 32767 < v.toInt then 0x7FFF else if v.toInt < -32768 then 0x8000 else v.setWidth 16

/-- The four bytes of frame `k` of a read: left then right, each most significant byte first. -/
def stereoFrame (m : Mix) (k : Nat) : List Byte :=
  let side (d : Dsb) : BitVec 16 :=
    clampSample ((integral d.cells d.accum k + integral m.center.cells m.center.accum k).sshiftRight 15)
  [(side m.left).extractLsb' 8 8, (side m.left).extractLsb' 0 8,
   (side m.right).extractLsb' 8 8, (side m.right).extractLsb' 0 8]

/-! ## Invariants -/

/-- The HH power state, 45_hh_wave_noise_master.md R391 to R397: NR52 holds its power bit only, the unused registers hold 0,
and while the power is off so does every register 0x10..0x25. -/
def Hh.powerOk (h : Hh) : Prop :=
  (h.reg 0x26 = 0 ∨ h.reg 0x26 = 0x80) ∧ h.reg 0x15 = 0 ∧ h.reg 0x1F = 0 ∧
  (∀ a, 0x27 ≤ a → a ≤ 0x2F → h.reg a = 0) ∧
  (h.reg 0x26 = 0 → ∀ a, 0x10 ≤ a → a ≤ 0x25 → h.reg a = 0)

/-- The counters of the HH group are in their ranges, 10_state.md R40 to R42. -/
def Hh.rangesOk (h : Hh) : Prop :=
  (h.sq1.gate.lengthCtr ≤ 64 ∧ h.sq1.env.delay ≤ 9) ∧ (h.sq2.gate.lengthCtr ≤ 64 ∧ h.sq2.env.delay ≤ 9) ∧
  h.sweep.delay ≤ 8 ∧ h.wave.gate.lengthCtr ≤ 256 ∧ h.noise.gate.lengthCtr ≤ 64 ∧ h.noise.env.delay ≤ 9

/-- The fields of an FM instance that its rules keep in range or in step: 10_state.md R45, R46, 48_fm_operator.md R480, R491. -/
def Fm.rangesOk (p : Params) (f : Fm) : Prop :=
  (f.lfoEn = false → f.lfoCnt = 0) ∧
  (∀ c k, ((f.chans.get c).ops.get k).egLvl ≤ p.fmEnvMax) ∧
  (∀ c s, let x := (f.chans.get c).freqs.get s
    x.kc.toNat = 4 * x.block.toNat + (fkey (x.fnum.extractLsb' 7 4)).toNat)

/-- Every counter of the block is in the range 10_state.md gives it, and the PSG latch holds 0 or a latch byte (R38). -/
def State.rangesOk (s : State) : Prop :=
  (∀ i, (s.psg.get i).latch = 0 ∨ bit (s.psg.get i).latch 7 = true) ∧ s.hh.rangesOk ∧
  s.tri.lengthCtr ≤ 254 ∧ s.tri.linearCtr ≤ 127 ∧ ∀ i, (s.fm.get i).rangesOk s.params

/-- The fields of an FM operator agree with the register images (slot and channel of R154), 47_fm_registers.md R440 to R447. -/
def Fm.opAgrees (f : Fm) (port : FmPort) (slot ch : BitVec 2) (o : Operator) : Prop :=
  let r (group : BitVec 4) : Byte := f.reg port (group ++ slot ++ ch)
  o.dt = (r 3).extractLsb' 4 3 ∧ o.mul = (r 3).extractLsb' 0 4 ∧ o.tl = (r 4).extractLsb' 0 7 ∧
  o.ks = (r 5).extractLsb' 6 2 ∧ o.ar = (r 5).extractLsb' 0 5 ∧ o.amEn = (r 6).extractLsb' 7 1 ∧
  o.d1r = (r 6).extractLsb' 0 5 ∧ o.d2r = (r 7).extractLsb' 0 5 ∧ o.sl = (r 8).extractLsb' 4 4 ∧
  o.rr = (r 8).extractLsb' 0 4 ∧ o.ssg = (r 9).extractLsb' 0 4

/-- The fields of an FM instance agree with its register images, but for the F-numbers, whose order of writes matters
(47_fm_registers.md R452), and what a frame advances. -/
def Fm.imageAgrees (p : Params) (f : Fm) : Prop :=
  f.lfoEn = bit (f.reg .p0 0x22) 3 ∧ f.lfoFreq = (f.reg .p0 0x22).extractLsb' 0 3 ∧ f.mode27 = f.reg .p0 0x27 ∧
  f.dacEn = bit (f.reg .p0 0x2B) 7 ∧
  f.dacData = wrap32 ((((f.reg .p0 0x2A).toNat : Int) - 128) * 2 ^ p.fmDacShift) ∧
  ∀ port ch c, fmChannel port ch = some c →
    let x := f.chans.get c
    let b0 := f.reg port (0b101100#6 ++ ch)
    let b4 := f.reg port (0b101101#6 ++ ch)
    x.fb = b0.extractLsb' 3 3 ∧ x.algo = b0.extractLsb' 0 3 ∧ x.panL = bit b4 7 ∧ x.panR = bit b4 6 ∧
    x.ams = b4.extractLsb' 4 2 ∧ x.fms = b4.extractLsb' 0 3 ∧
    ∀ slot, f.opAgrees port slot ch (x.ops.get (fmSlot slot))

/-- What an oscillator last emitted is its level times its unit, 42_osc_common.md R261: tones and noise of a PSG group. -/
def Psg.settled (p : Params) (g : Psg) : Prop :=
  g.tone0.osc.lastAmp = wrap32 (g.tone0.level p g.tone0.phase * p.unitPsg) ∧
  g.tone1.osc.lastAmp = wrap32 (g.tone1.level p g.tone1.phase * p.unitPsg) ∧
  g.tone2.osc.lastAmp = wrap32 (g.tone2.level p g.tone2.phase * p.unitPsg) ∧
  g.noise.osc.lastAmp = wrap32 (g.noise.level p g.noise.shifter * p.unitPsg)

/-- The same of the HH group, with `hh.vol_scale` (R273). -/
def Hh.settled (p : Params) (h : Hh) : Prop :=
  h.sq1.osc.lastAmp = wrap32 (h.squareLevel p baseSq1 h.sq1 h.sq1.phase * h.volScale) ∧
  h.sq2.osc.lastAmp = wrap32 (h.squareLevel p baseSq2 h.sq2 h.sq2.phase * h.volScale) ∧
  h.wave.osc.lastAmp = wrap32 (h.waveLevel p h.wave h.wave.latched * h.volScale) ∧
  h.noise.osc.lastAmp = wrap32 (h.noiseLevel p h.noise h.noise.lfsr * h.volScale)

/-- The same of the triangle. -/
def Tri.settled (p : Params) (g : Tri) : Prop := g.osc.lastAmp = wrap32 ((triSeq g.step : Int) * p.unitTri)

/-! ## What the DSBs hold of the oscillators -/

/-- The sum of the cells of a DSB, modulo 2^32. -/
def cellSum (cells : Store 32) : Word := (cells.map (fun e => e.2)).sum

/-- The amplitude an oscillator has put into DSB `u`. -/
def Osc.share (u : DsbName) (o : Osc) : Word := if o.route.dsb = some u then o.lastAmp else 0

/-- The amplitudes every oscillator of the block has put into DSB `u`. -/
def State.shares (s : State) (u : DsbName) : Word :=
  let psg (g : Psg) : Word := g.tone0.osc.share u + g.tone1.osc.share u + g.tone2.osc.share u + g.noise.osc.share u
  psg s.psg.i0 + psg s.psg.i1 +
    (s.hh.sq1.osc.share u + s.hh.sq2.osc.share u + s.hh.wave.osc.share u + s.hh.noise.osc.share u) + s.tri.osc.share u

end Sys2Proof.Machine
end

