-- ==== Sys2Proof/Certificates/Slice0/Obligations.lean ====
section
/-! DEFINITION. The statements about the model, from the numbered rules of spec/ (OBLIGATIONS.json lists them). -/

open Sys2Proof Sys2Proof.Machine

/-! ## Decoding and one step -/

/-- A step takes the next command from the port and executes the instruction it decodes to; with no command issued the block
waits (entry 4 of the log). -/
def Obligations.StepRunsDecodedCommand : Prop :=
  ∀ s : State,
    (∀ c rest i, s.port = c :: rest → decode c = .ok i → step s = exec i { s with port := rest }) ∧
    (s.port = [] → step s = .next s)

/-- The rows of the opcode map R143: the value and the mask of W0 (its must-be-zero fields are in the mask), and whether the
row uses A and B. -/
def commandRows : List (Word × Word × Bool × Bool) :=
  [(0x00000000, 0xFFFFFFFF, false, false), (0x01000000, 0xFFFFFFFF, false, false), (0x10000000, 0xFFFFFFFF, true, true),
   (0x11000000, 0xFFFFFFFF, true, false), (0x12000000, 0xFFFFFFFF, false, false), (0x13000000, 0xFFF0FFFF, true, true),
   (0x14000000, 0xFFFFFFFF, true, false), (0x15000000, 0xFFFFFFFF, false, false), (0x16000000, 0xFFFFFFFF, true, false),
   (0x17000000, 0xFFFFFFFF, true, false)] ++
  [(0x20000000, 0xFF000000, true, false), (0x21000000, 0xFF0000FF, true, false), (0x22000000, 0xFF00FFFF, true, false),
   (0x23000000, 0xFF00FFFF, true, false), (0x24000000, 0xFF00FFFF, false, false), (0x25010000, 0xFFFFFFFF, true, false),
   (0x30000000, 0xFF000000, false, false), (0x31000000, 0xFF0FFFFF, true, false), (0x32000000, 0xFF0FFFFF, false, false),
   (0x33000000, 0xFF0FFFFF, true, true)]

/-- A command is of a row of the map, with its must-be-zero fields zero. -/
def inCommandRows (c : Command) : Bool :=
  commandRows.any fun (value, mask, usesA, usesB) =>
    (c.w0 &&& mask == value) && (usesA || c.w1 == 0) && (usesB || c.w2 == 0)

/-- R141, R143, R145: exactly the commands of the map with zero must-be-zero fields decode; any other raises ILLEGAL with W0 and
changes nothing else. That a command whose SEL or INST names no unit still decodes is the model's split of R141, entry 5 of the
log (DEDUCED): its step 3 is checked at execution, `MissingUnitsAreIllegal`. -/
def Obligations.UndecodableCommandsAreIllegal : Prop :=
  ∀ c : Command,
    (inCommandRows c = true → ∃ i, decode c = .ok i) ∧
    (inCommandRows c = false → ∀ s rest, s.port = c :: rest → s.fault = none →
      step s = .next (State.faulted { s with port := rest } .illegal c.w0))

/-- Decoding the command of a well-formed instruction gives it back. -/
def Obligations.DecodeOfEncode : Prop := ∀ i : Instr, i.wf = true → decode (encode i) = .ok i

/-- A command that decodes is the command of what it decodes to, which is well formed: no bit of it is dropped. -/
def Obligations.EncodeOfDecode : Prop :=
  ∀ (c : Command) (i : Instr), decode c = .ok i → i.wf = true ∧ encode i = c

/-- A word of each kind, written out from R140, R143 and the register maps R150 to R155, decodes to its instruction. -/
def Obligations.SampleWordsDecode : Prop :=
  decode ⟨0x00000000, 0, 0⟩ = .ok .nop ∧
  decode ⟨0x13010000, 3, 0xFFFFFFFF⟩ = .ok (.bufAddDelta 1 3 0xFFFFFFFF) ∧
  decode ⟨0x201000E5, 7, 0⟩ = .ok (.oscWritePsgLatch 1 3 0 5 7) ∧
  decode ⟨0x20011487, 100, 0⟩ = .ok (.oscWriteHhNr14 0x87 100) ∧
  decode ⟨0x20020B08, 0, 0⟩ = .ok (.oscWriteTri0B 0x08 0) ∧
  decode ⟨0x21013A00, 9, 0⟩ = .ok (.oscReadHhWaveRam 0xA 9) ∧
  decode ⟨0x3001464F, 0, 0⟩ = .ok (.fmWriteTl 0 .p1 1 2 0x4F) ∧
  decode ⟨0x331F0000, 1, 2⟩ = .error .nonZeroField ∧
  decode ⟨0x33100000, 1, 2⟩ = .ok (.fmSetRate 1 1 2)

/-- R102: a command as bytes is word 0 first, each word least significant byte first, and reads back from a byte stream. -/
def Obligations.CommandByteOrder : Prop :=
  ∀ (c : Command) (rest : List Byte),
    c.toBytes =
      [c.w0.extractLsb' 0 8, c.w0.extractLsb' 8 8, c.w0.extractLsb' 16 8, c.w0.extractLsb' 24 8,
       c.w1.extractLsb' 0 8, c.w1.extractLsb' 8 8, c.w1.extractLsb' 16 8, c.w1.extractLsb' 24 8,
       c.w2.extractLsb' 0 8, c.w2.extractLsb' 8 8, c.w2.extractLsb' 16 8, c.w2.extractLsb' 24 8] ∧
    takeCommand (c.toBytes ++ rest) = some (c, rest)

/-! ## Faults, reset, control -/

/-- R603: while a fault is recorded every command but BLOCK_RESET is refused with no effect at all, a command that does not
decode too (the step only takes it from the port); BLOCK_RESET is executed as without the fault, and clears it. -/
def Obligations.RecordedFaultIsSticky : Prop :=
  ∀ s : State, s.fault ≠ none →
    (∀ i, i ≠ .blockReset → exec i s = .next s) ∧
    (∀ c rest e, s.port = c :: rest → decode c = .error e → step s = .next { s with port := rest }) ∧
    ∃ t, exec .blockReset s = .next t ∧ exec .blockReset { s with fault := none } = .next t ∧ t.fault = none

/-- R31, R601, R607, R106: every command answers a next state; an executed one advances `cmd_count` by 1 and either records no
fault or changes nothing but the record (with its own index) and `cmd_count`. That a faulting OSC_* command keeps the pre-command
state is the choice R602 leaves (entry 6). -/
def Obligations.EveryCommandAnswersAndCounts : Prop :=
  ∀ (i : Instr) (s : State), ∃ t, exec i s = .next t ∧
    (s.fault = none → i ≠ .blockReset →
      t.cmdCount = s.cmdCount + 1 ∧ (t.fault = none ∨ ∃ code info, t = s.faulted code info))

/-- R621: BLOCK_RESET puts every field at its power-on value (`ResetValues` says which) and keeps the output ports, in every
state, with a fault recorded or not. (Of the model's own fields it keeps `port`, entry 4 of the log, and `freeCount`, entry 8.) -/
def Obligations.BlockResetRestoresPowerOn : Prop :=
  ∀ s : State, exec .blockReset s =
    .next { State.powerOn s.params with port := s.port, pcmOut := s.pcmOut, fmOut := s.fmOut, freeCount := s.freeCount }

/-- R701, R705: the reset values of every unit, for every choice of the parameters, and the ports a BLOCK_RESET keeps. (What
an envelope's trigger latches is the model's, entry 20 of the log, and not said here.) -/
def Obligations.ResetValues : Prop :=
  (∀ s t : State, exec .blockReset s = .next t → t.pcmOut = s.pcmOut ∧ t.fmOut = s.fmOut) ∧
  ∀ p : Params, let s := State.powerOn p
    (s.cmdCount = 0 ∧ s.fault = none ∧ s.result = 0 ∧ s.pcmOut = [] ∧ s.fmOut = ⟨[], []⟩) ∧
    (s.mix.sampleRate = 0 ∧ s.mix.clockRate = 0 ∧ s.mix.factor = 0 ∧ s.mix.cap = 0 ∧ s.mix.dirty = false ∧
      ∀ u, (∀ a, (s.mix.dsb u).cells.get a = 0) ∧ (s.mix.dsb u).offset = 0 ∧ (s.mix.dsb u).accum = 0) ∧
    (∀ n, let g := s.psg.get n
      g.latch = 0 ∧ g.stereo = 0xFF ∧ g.lastTime = 0 ∧
      (∀ x, x = g.tone0 ∨ x = g.tone1 ∨ x = g.tone2 →
        x.period = 0 ∧ x.atten = 15 ∧ x.phase = 0 ∧ x.osc = ⟨0, 0, .center⟩) ∧
      g.noise = ⟨0, 15, p.psgNoiseInit, ⟨0, 0, .center⟩⟩) ∧
    ((∀ a, s.hh.reg a = 0) ∧ s.hh.framePhase = 0 ∧ s.hh.nextFrameTime = 0 ∧ s.hh.volScale = p.unitHh ∧
      s.hh.lastTime = 0 ∧ (∀ x, x = s.hh.sq1 ∨ x = s.hh.sq2 →
        x = ⟨⟨false, 0⟩, { x.env with volume := 0, delay := 0, enabled := false }, 0, ⟨0, 0, .none⟩⟩) ∧
      s.hh.sweep = ⟨0, 0, false, false⟩ ∧ s.hh.wave = ⟨⟨false, 0⟩, 0, 0, ⟨0, 0, .none⟩⟩ ∧
      s.hh.noise =
        ⟨⟨false, 0⟩, { s.hh.noise.env with volume := 0, delay := 0, enabled := false }, 0x7FFF, ⟨0, 0, .none⟩⟩) ∧
    s.tri = ⟨0, 0, 0, false, 0, 0, false, 0, 0, BitVec.ofNat 32 p.triFramePeriod, 0, ⟨0, 0, .center⟩⟩ ∧
    (∀ n, let f := s.fm.get n
      (∀ a, f.reg .p0 a =
        if a = 0xB4 ∨ a = 0xB5 ∨ a = 0xB6 then 0xC0 else if a = 0x2A then 0x80 else 0) ∧
      (∀ a, f.reg .p1 a = if a = 0xB4 ∨ a = 0xB5 ∨ a = 0xB6 then 0xC0 else 0) ∧
      f.clock = 0 ∧ f.rate = 0 ∧ f.lfoEn = false ∧ f.lfoFreq = 0 ∧ f.lfoCnt = 0 ∧ f.mode27 = 0 ∧ f.dacEn = false ∧
      f.dacData = 0 ∧
      ∀ c, let x := f.chans.get c
        (∀ j, x.freqs.get j = ⟨0, 0, 0⟩) ∧ x.algo = 0 ∧ x.fb = 0 ∧ x.ams = 0 ∧ x.fms = 0 ∧ x.panL = true ∧
        x.panR = true ∧ x.fbH1 = 0 ∧ x.fbH2 = 0 ∧
        ∀ k, x.ops.get k = ⟨0, 0, 0, 0, 0, 0, 0, 0, 0, 0, 0, 0, 0, .release, p.fmEnvMax, false⟩)

/-- R620, R212: NOP and BUF_SAMPLES_AVAIL change only the result and `cmd_count`. -/
def Obligations.NopAndSamplesAvailComplete : Prop :=
  ∀ s : State, s.fault = none →
    exec .nop s = .next (s.done 0) ∧
    exec .bufSamplesAvail s = .next (s.done (BitVec.ofNat 32 (s.mix.offset / 2 ^ 16)))

/-! ## Delta buffers -/

/-- R200: a factor outside 1 .. 2^32 - 1 is not valid. -/
def factorFits (rate clock : Word) : Prop :=
  1 ≤ (rate.toNat * 2 ^ 17 + clock.toNat) / (2 * clock.toNat) ∧
  (rate.toNat * 2 ^ 17 + clock.toNat) / (2 * clock.toNat) < 2 ^ 32

/-- R201: BUF_SET_SAMPLE_RATE on a clean block with acceptable rates. -/
def Obligations.SetSampleRateCompletes : Prop :=
  ∀ (rate msec : Word) (s : State), let cap := (rate.toNat * msec.toNat + 999) / 1000
    s.fault = none → s.mix.dirty = false → rate ≠ 0 → msec ≠ 0 → cap ≤ s.params.capMax →
    (s.mix.clockRate ≠ 0 → factorFits rate s.mix.clockRate) →
    exec (.bufSetSampleRate rate msec) s = .next (State.done
      { s with mix := { s.mix with
          sampleRate := rate
          cap := BitVec.ofNat 32 cap
          factor := if s.mix.clockRate = 0 then s.mix.factor
            else BitVec.ofNat 32 ((rate.toNat * 2 ^ 17 + s.mix.clockRate.toNat) / (2 * s.mix.clockRate.toNat))
          center := ⟨[], 0, 0⟩
          left := ⟨[], 0, 0⟩
          right := ⟨[], 0, 0⟩ } } (BitVec.ofNat 32 cap))

/-- R202: BUF_SET_CLOCK_RATE on a clean block with acceptable rates; the buffers are kept. -/
def Obligations.SetClockRateCompletes : Prop :=
  ∀ (clock : Word) (s : State), s.fault = none → s.mix.dirty = false → clock ≠ 0 →
    (s.mix.sampleRate ≠ 0 → factorFits s.mix.sampleRate clock) →
    let factor := if s.mix.sampleRate = 0 then s.mix.factor
      else BitVec.ofNat 32 ((s.mix.sampleRate.toNat * 2 ^ 17 + clock.toNat) / (2 * clock.toNat))
    exec (.bufSetClockRate clock) s =
      .next (State.done { s with mix := { s.mix with clockRate := clock, factor := factor } } factor)

/-- R211: BUF_CLEAR. -/
def Obligations.BufferClearCompletes : Prop :=
  ∀ s : State, s.fault = none →
    exec .bufClear s = .next (State.done
      { s with mix := { s.mix with
          dirty := false, center := ⟨[], 0, 0⟩, left := ⟨[], 0, 0⟩, right := ⟨[], 0, 0⟩ } } 0)

/-- R144: the DSB that SEL names. -/
def selNames (sel : BitVec 4) (u : DsbName) : Prop :=
  (sel = 0 ∧ u = .center) ∨ (sel = 1 ∧ u = .left) ∨ (sel = 2 ∧ u = .right)

/-- R204, R206, R207, R208: BUF_ADD_DELTA adds the kernel row of the sub-sample phase, times the delta, to the KW cells from the
tick's cell on; a release build clamps the position. Only that DSB and `dirty` change. -/
def Obligations.AddDeltaCompletes : Prop :=
  ∀ (sel : BitVec 4) (u : DsbName) (time delta : Word) (s : State),
    let pos : Int := time.toInt * s.mix.factor.toNat + s.mix.offset
    let idx : Int := pos / 2 ^ 16
    let ph : Nat := (pos / 2 ^ (16 - s.params.phaseBits) % 2 ^ s.params.phaseBits).toNat
    let i : Nat := if pos < 0 then 0 else if s.mix.cap.toNat < idx then s.mix.cap.toNat else idx.toNat
    let row : List Word := s.params.kernel.getD (if pos < 0 then 0 else ph) []
    s.fault = none → selNames sel u → s.mix.sampleRate ≠ 0 → s.mix.clockRate ≠ 0 →
    (s.params.buildMode = .release ∨ (0 ≤ pos ∧ idx ≤ s.mix.cap.toNat)) →
    ∃ cells, exec (.bufAddDelta sel time delta) s = .next (State.done
        { s with mix := { s.mix.setDsb u { s.mix.dsb u with cells := cells } with dirty := true } } 0) ∧
      ∀ a, cells.get a =
        if i ≤ a ∧ a < i + s.params.kw then (s.mix.dsb u).cells.get a + delta * row.getD (a - i) 0
        else (s.mix.dsb u).cells.get a

/-- R203, R206, R605: a delta faults where the mix stage is not configured, and in a debug build where its position is before
the origin or past the horizon; a release build never raises these two. -/
def Obligations.DeltaRangeIsChecked : Prop :=
  ∀ (sel : BitVec 4) (u : DsbName) (time delta : Word) (s : State),
    let pos : Int := time.toInt * s.mix.factor.toNat + s.mix.offset
    s.fault = none → selNames sel u →
    ((s.mix.sampleRate = 0 ∨ s.mix.clockRate = 0) →
      exec (.bufAddDelta sel time delta) s = .next (s.faulted .notConfigured 0x13)) ∧
    (s.mix.sampleRate ≠ 0 → s.mix.clockRate ≠ 0 →
      (s.params.buildMode = .debug → pos < 0 →
        exec (.bufAddDelta sel time delta) s = .next (s.faulted .deltaBeforeOrigin time)) ∧
      (s.params.buildMode = .debug → 0 ≤ pos → s.mix.cap.toNat < pos / 2 ^ 16 →
        exec (.bufAddDelta sel time delta) s = .next (s.faulted .deltaPastHorizon time)) ∧
      (s.params.buildMode = .release →
        ∃ t, exec (.bufAddDelta sel time delta) s = .next t ∧ t.fault = none))

/-- BUF_ADD_DELTA commands, each its SEL, time and delta, one after the other. -/
def addDeltas : List (BitVec 4 × Word × Word) → State → Option State
  | [], s => some s
  | (sel, time, delta) :: rest, s =>
    match exec (.bufAddDelta sel time delta) s with
    | .next t => addDeltas rest t
    | .fault _ => none
    | .refused _ => none

/-- R209: the content of every DSB after a set of deltas does not depend on their order. -/
def Obligations.DeltasCommute : Prop :=
  ∀ (list list' : List (BitVec 4 × Word × Word)) (s t t' : State), list.Perm list' →
    addDeltas list s = some t → addDeltas list' s = some t' → t.fault = none → t'.fault = none →
    ∀ u c, (t.mix.dsb u).cells.get c = (t'.mix.dsb u).cells.get c

/-- R210: BUF_END_FRAME moves the common origin of the three DSBs. -/
def Obligations.BufferEndFrameCompletes : Prop :=
  ∀ (time : Word) (s : State), let n : Nat := s.mix.offset + time.toNat * s.mix.factor.toNat
    s.fault = none → s.mix.sampleRate ≠ 0 → s.mix.clockRate ≠ 0 → 0 ≤ time.toInt → n / 2 ^ 16 ≤ s.mix.cap.toNat →
    exec (.bufEndFrame time) s = .next (State.done
      { s with mix := { s.mix with
          dirty := true
          center := { s.mix.center with offset := n }
          left := { s.mix.left with offset := n }
          right := { s.mix.right with offset := n } } } (BitVec.ofNat 32 (n / 2 ^ 16)))

/-- R214, R215: BUF_REMOVE_SAMPLES moves every cell down by `n` in each DSB, with zeros at the end, and takes `n` samples off
each offset; the integrators are kept. -/
def Obligations.RemoveSamplesCompletes : Prop :=
  ∀ (n : Word) (s : State), s.fault = none → n.toNat ≤ s.mix.offset / 2 ^ 16 →
    ∃ center left right : Store 32,
      exec (.bufRemoveSamples n) s = .next (State.done
        { s with mix := { s.mix with
            center := ⟨center, s.mix.center.offset - n.toNat * 2 ^ 16, s.mix.center.accum⟩
            left := ⟨left, s.mix.left.offset - n.toNat * 2 ^ 16, s.mix.left.accum⟩
            right := ⟨right, s.mix.right.offset - n.toNat * 2 ^ 16, s.mix.right.accum⟩ } } n) ∧
      (∀ a, center.get a = s.mix.center.cells.get (a + n.toNat) ∧ left.get a = s.mix.left.cells.get (a + n.toNat) ∧
        right.get a = s.mix.right.cells.get (a + n.toNat)) ∧
      (s.storesWf → ∀ a, s.mix.cap.toNat + s.params.kw ≤ a + n.toNat →
        center.get a = 0 ∧ left.get a = 0 ∧ right.get a = 0)

/-- R201, R202, R210, R214, R242: where a buffer command faults, in the order its rule writes its checks. -/
def Obligations.BufferFaults : Prop :=
  ∀ (a b : Word) (s : State), s.fault = none →
    (s.mix.dirty = true →
      exec (.bufSetSampleRate a b) s = .next (s.faulted .rateMidtrack 0x10) ∧
      exec (.bufSetClockRate a) s = .next (s.faulted .rateMidtrack 0x11)) ∧
    (s.mix.dirty = false →
      (a = 0 ∨ b = 0 ∨ s.params.capMax < (a.toNat * b.toNat + 999) / 1000 ∨
        (s.mix.clockRate ≠ 0 ∧ ¬ factorFits a s.mix.clockRate) →
        exec (.bufSetSampleRate a b) s = .next (s.faulted .badRate a)) ∧
      (a = 0 ∨ (s.mix.sampleRate ≠ 0 ∧ ¬ factorFits s.mix.sampleRate a) →
        exec (.bufSetClockRate a) s = .next (s.faulted .badRate a))) ∧
    ((s.mix.sampleRate = 0 ∨ s.mix.clockRate = 0) →
      exec (.bufEndFrame a) s = .next (s.faulted .notConfigured 0x14)) ∧
    (s.mix.sampleRate ≠ 0 → s.mix.clockRate ≠ 0 →
      (a.toInt < 0 → exec (.bufEndFrame a) s = .next (s.faulted .badTime a)) ∧
      (0 ≤ a.toInt → s.mix.cap.toNat < (s.mix.offset + a.toNat * s.mix.factor.toNat) / 2 ^ 16 →
        exec (.bufEndFrame a) s = .next (s.faulted .frameOverflow a))) ∧
    (s.mix.offset / 2 ^ 16 < a.toNat → exec (.bufRemoveSamples a) s = .next (s.faulted .removeTooMany a)) ∧
    (a.toNat % 2 = 1 → exec (.bufReadStereo a) s = .next (s.faulted .oddCount a))

/-- R240, R242: BUF_READ_STEREO puts out the frames of the first cells, advances the three integrators, and removes the cells
it read. -/
def Obligations.ReadStereoCompletes : Prop :=
  ∀ (count : Word) (s : State), s.fault = none → count.toNat % 2 = 0 →
    let frames := min (count.toNat / 2) (s.mix.offset / 2 ^ 16)
    ∃ center left right : Store 32,
      exec (.bufReadStereo count) s = .next (State.done
        { s with
          pcmOut := s.pcmOut ++ (List.range frames).flatMap (stereoFrame s.mix)
          mix := { s.mix with
            center := ⟨center, s.mix.center.offset - frames * 2 ^ 16, integral s.mix.center.cells s.mix.center.accum frames⟩
            left := ⟨left, s.mix.left.offset - frames * 2 ^ 16, integral s.mix.left.cells s.mix.left.accum frames⟩
            right := ⟨right, s.mix.right.offset - frames * 2 ^ 16,
              integral s.mix.right.cells s.mix.right.accum frames⟩ } } (BitVec.ofNat 32 (2 * frames))) ∧
      ∀ a, center.get a = s.mix.center.cells.get (a + frames) ∧ left.get a = s.mix.left.cells.get (a + frames) ∧
        right.get a = s.mix.right.cells.get (a + frames)

/-- R213, R218, R241, R243: the integrator step and its corners, the range of a mixed value, and what saturation makes of it. -/
def Obligations.OutputArithmetic : Prop :=
  (∀ a c : Word, integrate a c = wrap32 (sext a + sext c - sext a / 2 ^ 9)) ∧
  (∀ a : Word, (0 ≤ sext a → sext a < 512 → integrate a 0 = a) ∧
    (-512 ≤ sext a → sext a < 0 → integrate a 0 = a + 1) ∧
    (512 ≤ sext a → 0 < sext (integrate a 0) ∧ sext (integrate a 0) < sext a) ∧
    (sext a < -512 → sext a < sext (integrate a 0) ∧ sext (integrate a 0) < 0)) ∧
  (∀ v : Int, -65536 ≤ asr (sext (wrap32 v)) 15 ∧ asr (sext (wrap32 v)) 15 ≤ 65535) ∧
  (∀ v : Int, -65536 ≤ v → v ≤ 65535 →
    (32767 < v → asr v 24 = 0 ∧ sat16 v = 0x7FFF) ∧ (v < -32768 → asr v 24 = -1 ∧ sat16 v = 0x8000) ∧
    (-32768 ≤ v → v ≤ 32767 → sat16 v = BitVec.ofInt 16 v))

/-- R245: with equal left and right DSBs the two samples of every frame put out are equal. -/
def Obligations.EqualSidesReadEqual : Prop :=
  ∀ (count : Word) (s t : State), s.mix.left.cells = s.mix.right.cells → s.mix.left.accum = s.mix.right.accum →
    exec (.bufReadStereo count) s = .next t →
    ∃ samples : List (BitVec 16), t.pcmOut = s.pcmOut ++ samples.flatMap fun v =>
      [v.extractLsb' 8 8, v.extractLsb' 0 8, v.extractLsb' 8 8, v.extractLsb' 0 8]

/-! ## Invariants -/

/-- R35, R217: the three offsets stay equal and the samples available never exceed the capacity. -/
def Obligations.BuffersStayInLockStep : Prop :=
  ∀ s t : State, s.mix.lockStep → step s = .next t → t.mix.lockStep

/-- Every store keeps its canonical form and its bounds (entry 10 of the log). -/
def Obligations.StoresStayCanonical : Prop :=
  ∀ s t : State, s.storesWf → step s = .next t → t.storesWf

/-- R47, R115, and entry 4 of the log: a step changes no parameter, only appends to the output ports, and takes one command from
the command port. -/
def Obligations.ParamsAndPortsKept : Prop :=
  ∀ s t : State, step s = .next t →
    t.params = s.params ∧ (∃ bytes, t.pcmOut = s.pcmOut ++ bytes) ∧
    (∀ n, ∃ frames, t.fmOut.get n = s.fmOut.get n ++ frames) ∧ t.port = s.port.tail

/-- R391 to R397: NR52 holds its power bit only, and while it is 0 every register 0x10..0x25 holds 0. -/
def Obligations.HhPowerOffRegistersStayZero : Prop :=
  ∀ s t : State, s.hh.powerOk → step s = .next t → t.hh.powerOk

/-- R38 to R46: every counter stays in its range, for a triangle length table within the counter's range (R43). -/
def Obligations.FieldsStayInRange : Prop :=
  ∀ s t : State, (∀ n ∈ s.params.triLen, n ≤ 254) → s.rangesOk → step s = .next t → t.rangesOk

/-- R430 to R452, R705: the FM fields go on agreeing with the register images. -/
def Obligations.FmImageAgreesWithFields : Prop :=
  ∀ s t : State, (∀ n, (s.fm.get n).imageAgrees s.params) → step s = .next t →
    ∀ n, (t.fm.get n).imageAgrees t.params

/-- Every invariant above holds at power-on, for every choice of the parameters, and so at the reset state (whose
parameters are entry 2 of the log). -/
def Obligations.InvariantsHoldAtReset : Prop :=
  (∀ p : Params, (State.powerOn p).mix.lockStep ∧ (State.powerOn p).storesWf ∧ (State.powerOn p).hh.powerOk ∧
    (State.powerOn p).rangesOk ∧ ∀ n, ((State.powerOn p).fm.get n).imageAgrees p) ∧
  State.reset = State.powerOn defaultParams

/-! ## Oscillator groups -/

/-- What a run of group `g` to `time` leaves (R260, R207): the group's registers and routes, everything but cells and `dirty` of
the mix stage, and every other field of the block; the group's time is `time`, and its next frame step is not before it. (The
model's count of free values goes on by at most one: entry 8 of the log.) -/
def runLeaves (g : GroupRef) (time : Word) (s r : State) : Prop :=
  ∃ m n, s.mix.sameFrame m ∧ (n = s.freeCount ∨ n = s.freeCount + 1) ∧
    match g with
    | .psg i => ∃ x, r = { s with psg := s.psg.set i x, mix := m } ∧ (s.psg.get i).sameRegs x ∧ x.lastTime = time
    | .hh => ∃ x, r = { s with hh := x, mix := m, freeCount := n } ∧ s.hh.sameRegs x ∧ x.lastTime = time ∧
        sext time ≤ sext x.nextFrameTime
    | .tri => ∃ x, r = { s with tri := x, mix := m, freeCount := n } ∧ s.tri.sameRegs x ∧ x.lastTime = time ∧
        sext time ≤ sext x.nextFrameTime

/-! What a run does, written from the rules alone: R261 with the four functions of each variant (R290, R292, R293, R328, R371,
R380, R410 to R413), and R260. -/

/-- A variant of oscillator with a state `α`, R261: its level times its unit, its period, its internal transition, and whether it
is audible. -/
structure Voice (α : Type) where
  level : α → Int
  period : Nat
  advance : α → α
  audible : Bool

/-- R261: the transitions at `first`, `first + period`, ... that are before `stop`. -/
def transitions (first stop : Int) (period : Nat) : Nat :=
  if first < stop then ((stop - first + period - 1) / period).toNat else 0

/-- R261: the calls of `Emit` of a run in order, each its tick and its amplitude change (one of 0 does nothing). -/
def Voice.emits {α : Type} (v : Voice α) (start stop : Int) (a : α) (o : Osc) : List (Int × Int) :=
  let first := start + sext o.delay
  (start, v.level a - sext o.lastAmp) ::
    if v.audible then
      (List.range (transitions first stop v.period)).map fun (k : Nat) =>
        (first + (k : Int) * v.period, v.level (Nat.repeat v.advance (k + 1) a) - sext (wrap32 (v.level (Nat.repeat v.advance k a))))
    else []

/-- The calls of `Emit` of a list, into one route; the first that fails is the outcome (R604). -/
def emitAll (p : Params) (opc : Byte) (route : Route) : List (Int × Int) → Mix → Res Mix
  | [], m => .ok m
  | (t, d) :: rest, m => do
    let m' ← emit p opc route t d m
    emitAll p opc route rest m'

/-- R261: a run. The state advances once per transition, audible or not; the delay is that of the next transition; the last
amplitude is the level last looked at. -/
def Voice.run {α : Type} (v : Voice α) (p : Params) (opc : Byte) (start stop : Int) (a : α) (o : Osc) (m : Mix) :
    Res (α × Osc × Mix) := do
  let n := transitions (start + sext o.delay) stop v.period
  let a' := Nat.repeat v.advance n a
  let m' ← emitAll p opc o.route (v.emits start stop a o) m
  .ok (a', { o with
    delay := BitVec.ofInt 32 (start + sext o.delay + n * v.period - stop)
    lastAmp := BitVec.ofInt 32 (if v.audible then v.level a' else v.level a) }, m')

/-- R290: a tone. -/
def toneVoice (p : Params) (x : Tone) : Voice (BitVec 1) :=
  let v : Int := p.psgVol.getD x.atten.toNat 0
  { level := fun ph => (if x.period.toNat ≤ p.psgDcPeriod then v else if ph = 1 then 2 * v else 0) * p.unitPsg
    period := 16 * (if x.period = 0 then 1 else x.period.toNat)
    advance := fun ph => if ph = 0 then 1 else 0
    audible := decide (v ≠ 0 ∧ p.psgDcPeriod < x.period.toNat) }

/-- R292, R293: the PSG noise; `period2` is tone2's period register. -/
def psgNoiseVoice (p : Params) (x : PsgNoise) (period2 : BitVec 10) : Voice (BitVec 16) :=
  let v : Int := p.psgVol.getD x.atten.toNat 0
  let rate := x.ctrl.toNat % 4
  let fb : Nat := if 4 ≤ x.ctrl.toNat then p.psgFbWhite.toNat else p.psgFbPeriodic.toNat
  { level := fun sh => (if sh.toNat % 2 = 1 then 2 * v else 0) * p.unitPsg
    period := if rate = 3 then 32 * (if period2 = 0 then 1 else period2.toNat) else [512, 1024, 2048].getD rate 0
    advance := fun sh => BitVec.ofNat 16 ((if sh.toNat % 2 = 1 then fb else 0) ^^^ (sh.toNat / 2))
    audible := decide (v ≠ 0) }

/-- R328, R371: the 11-bit frequency of NRx3 and NRx4. -/
def freqOfRegs (nrx3 nrx4 : Byte) : Nat := nrx4.toNat % 8 * 256 + nrx3.toNat

/-- R328: the duty patterns, phases 0 to 7. -/
def dutyPatterns : List (List Nat) :=
  [[0, 0, 0, 0, 0, 0, 0, 1], [1, 0, 0, 0, 0, 0, 0, 1], [1, 0, 0, 0, 0, 1, 1, 1], [0, 1, 1, 1, 1, 1, 1, 0]]

/-- R322, R328, R273: a square whose registers NRx1 to NRx4 are `nr1` to `nr4`. -/
def squareVoice (p : Params) (scale : Int) (nr1 nr2 nr3 nr4 : Byte) (q : Square) : Voice (BitVec 3) :=
  let f := freqOfRegs nr3 nr4
  let duty := nr1.toNat / 64
  let dac : Prop := 8 ≤ nr2.toNat
  let vol : Nat := if q.gate.enabled then q.env.volume.toNat else 0
  { level := fun ph => scale *
      (if ¬ dac then p.hhDacOffLevel
        else if p.hhSqDcFreq ≤ f then (vol * [1, 2, 4, 6].getD duty 0 / 8 : Nat) - p.hhDacBias
        else (vol * (dutyPatterns.getD duty []).getD ph.toNat 0 : Nat) - p.hhDacBias)
    period := (2048 - f) * 4
    advance := fun ph => BitVec.ofNat 3 (ph.toNat + 1)
    audible := decide (dac ∧ vol ≠ 0 ∧ f < p.hhSqDcFreq) }

/-- R370: entry `e` of the wave table. -/
def waveEntry (h : Hh) (e : Nat) : Nat :=
  let b := (h.reg (0x30 + e / 2)).toNat
  if e % 2 = 0 then b / 16 else b % 16

/-- R322, R371, R273: the wave, on (position, latched). -/
def waveVoice (p : Params) (h : Hh) : Voice (BitVec 5 × BitVec 4) :=
  let f := freqOfRegs (h.reg 0x1D) (h.reg 0x1E)
  let code := (h.reg 0x1C).toNat / 32 % 4
  let dac : Bool := bit (h.reg 0x1A) 7
  { level := fun a => h.volScale *
      (if dac = false then p.hhDacOffLevel
        else (if h.wave.gate.enabled then a.2.toNat / 2 ^ [4, 0, 1, 2].getD code 0 else 0 : Nat) - p.hhDacBias)
    period := (2048 - f) * 2
    advance := fun a =>
      let position := (a.1.toNat + 1) % 32
      (BitVec.ofNat 5 position, BitVec.ofNat 4 (waveEntry h position))
    audible := dac && h.wave.gate.enabled && decide (code ≠ 0) }

/-- R380: the LFSR after a transition, by the bits of its number. -/
def lfsrAfter (narrow : Bool) (l : Nat) : Nat :=
  let fb := (l % 2 + l / 2 % 2) % 2
  let l' := l / 2 + fb * 2 ^ 14
  if narrow then l' - l' / 64 % 2 * 64 + fb * 64 else l'

/-- R322, R380, R273: the HH noise. -/
def hhNoiseVoice (p : Params) (h : Hh) : Voice (BitVec 15) :=
  let nr43 := (h.reg 0x22).toNat
  let dac : Prop := 8 ≤ (h.reg 0x21).toNat
  let x := h.noise
  { level := fun l => h.volScale *
      (if ¬ dac then p.hhDacOffLevel
        else (if x.gate.enabled = true ∧ l.toNat % 2 = 0 then x.env.volume.toNat else 0 : Nat) - p.hhDacBias)
    period := [8, 16, 32, 48, 64, 80, 96, 112].getD (nr43 % 8) 0 * 2 ^ (nr43 / 16)
    advance := fun l => if 14 ≤ nr43 / 16 then l else BitVec.ofNat 15 (lfsrAfter (decide (nr43 / 8 % 2 = 1)) l.toNat)
    audible := decide (dac ∧ x.gate.enabled = true ∧ x.env.volume ≠ 0 ∧ nr43 / 16 < 14) }

/-- R410, R411: the triangle while it runs. -/
def triVoice (p : Params) (g : Tri) : Voice (BitVec 5) :=
  { level := fun s => (if s.toNat < 16 then 15 - (s.toNat : Int) else s.toNat - 16) * p.unitTri
    period := g.r400B.toNat % 8 * 256 + g.r400A.toNat + 1
    advance := fun s => BitVec.ofNat 5 (s.toNat + 1)
    audible := true }

/-- R261, R270: the run of a PSG group's oscillators. -/
def psgRun (p : Params) (opc : Byte) (start stop : Int) (g : Psg) (m : Mix) : Res (Psg × Mix) := do
  let (a0, o0, m) ← (toneVoice p g.tone0).run p opc start stop g.tone0.phase g.tone0.osc m
  let (a1, o1, m) ← (toneVoice p g.tone1).run p opc start stop g.tone1.phase g.tone1.osc m
  let (a2, o2, m) ← (toneVoice p g.tone2).run p opc start stop g.tone2.phase g.tone2.osc m
  let (a3, o3, m) ← (psgNoiseVoice p g.noise g.tone2.period).run p opc start stop g.noise.shifter g.noise.osc m
  .ok ({ g with
          tone0 := { g.tone0 with phase := a0, osc := o0 }
          tone1 := { g.tone1 with phase := a1, osc := o1 }
          tone2 := { g.tone2 with phase := a2, osc := o2 }
          noise := { g.noise with shifter := a3, osc := o3 } }, m)

/-- R261, R270: the run of the HH group's oscillators. -/
def hhRun (p : Params) (opc : Byte) (start stop : Int) (h : Hh) (m : Mix) : Res (Hh × Mix) := do
  let square1 := squareVoice p h.volScale (h.reg 0x11) (h.reg 0x12) (h.reg 0x13) (h.reg 0x14) h.sq1
  let square2 := squareVoice p h.volScale (h.reg 0x16) (h.reg 0x17) (h.reg 0x18) (h.reg 0x19) h.sq2
  let (a0, o0, m) ← square1.run p opc start stop h.sq1.phase h.sq1.osc m
  let (a1, o1, m) ← square2.run p opc start stop h.sq2.phase h.sq2.osc m
  let (a2, o2, m) ← (waveVoice p h).run p opc start stop (h.wave.position, h.wave.latched) h.wave.osc m
  let (a3, o3, m) ← (hhNoiseVoice p h).run p opc start stop h.noise.lfsr h.noise.osc m
  .ok ({ h with
          sq1 := { h.sq1 with phase := a0, osc := o0 }
          sq2 := { h.sq2 with phase := a1, osc := o1 }
          wave := { h.wave with position := a2.1, latched := a2.2, osc := o2 }
          noise := { h.noise with lfsr := a3, osc := o3 } }, m)

/-- R413: the run of the triangle; halted, it holds its step and its level. -/
def triRun (p : Params) (opc : Byte) (start stop : Int) (g : Tri) (m : Mix) : Res (Tri × Mix) := do
  let v := triVoice p g
  if 0 < g.lengthCtr ∧ 0 < g.linearCtr ∧ p.triMinPeriod ≤ v.period then
    let (a, o, m) ← v.run p opc start stop g.step g.osc m
    .ok ({ g with step := a, osc := o }, m)
  else
    let m ← emit p opc g.osc.route start (v.level g.step - sext g.osc.lastAmp) m
    .ok ({ g with osc := { g.osc with delay := 0, lastAmp := BitVec.ofInt 32 (v.level g.step) } }, m)

/-- R260 with `n` frame steps: a run up to each of the frame times `next`, `next + period`, ... and the step at it, then a run to
`t`. Frame times are stored as s32 (R11). -/
def framedRun {γ : Type} (run : Int → Int → γ → Mix → Res (γ × Mix)) (frame : γ → γ) (period : Nat) (t : Int) :
    Nat → Int → Word → γ → Mix → Res (γ × Mix)
  | 0, last, _, g, m => run last t g m
  | n + 1, last, next, g, m => do
    let (g', m') ← run last (sext next) g m
    framedRun run frame period t n (sext next) (next + BitVec.ofNat 32 period) (frame g') m'

/-- R260, R11: the frame time that the loop reads after `k` frame steps, an s32. -/
def frameTimeAt (next : Word) (period k : Nat) : Int := sext (next + BitVec.ofNat 32 (k * period))

/-- R260: a run to `t` takes `n` frame steps: the frame times up to the `n`-th are before `t`, and that one is not. -/
def framesTaken (next : Word) (period : Nat) (t : Word) (n : Nat) : Prop :=
  (∀ k : Nat, k < n → frameTimeAt next period k < sext t) ∧ sext t ≤ frameTimeAt next period n

/-- R260: no stored frame time ends the loop of a run to `t`. -/
def framesEndless (next : Word) (period : Nat) (t : Word) : Prop := ∀ k : Nat, frameTimeAt next period k < sext t

/-- The `n` frame times before `t`, taken exactly. -/
def framesBefore (next : Word) (period : Nat) (t : Word) (n : Nat) : Prop :=
  (∀ k : Nat, k < n → sext next + (k * period : Nat) < sext t) ∧ sext t ≤ sext next + (n * period : Nat)

/-- R260, R11: `next_frame_time` after a run to `t` with `n` frame steps, and the count of free values: the frame time stored last;
where the loop never ends, the model's free value, of which only is known that it is not before `t`: entry 8 of the log. -/
def frameTimeAfter (next : Word) (period : Nat) (t : Word) (n free : Nat) : Word × Nat :=
  if sext t ≤ frameTimeAt next period n then (next + BitVec.ofNat 32 (n * period), free)
  else (wrap32 (max (sext t) (sext (Config.freeFrameTime free))), free + 1)

/-- R260: the run of a group to `time` with `n` frame steps; `Hh.frameStep` and `Tri.stepFrame` are what `FrameSequencerSteps`
says. -/
def groupRun (opc : Byte) (g : GroupRef) (time : Word) (n : Nat) (s : State) : Res State :=
  let p := s.params
  match g with
  | .psg i => do
    let (x, m) ← psgRun p opc (sext (s.psg.get i).lastTime) (sext time) (s.psg.get i) s.mix
    .ok { s with psg := s.psg.set i { x with lastTime := time }, mix := m }
  | .hh => do
    let period := max p.hhFramePeriod 1
    let after := frameTimeAfter s.hh.nextFrameTime period time n s.freeCount
    let (x, m) ← framedRun (hhRun p opc) Hh.frameStep period (sext time) n (sext s.hh.lastTime) s.hh.nextFrameTime s.hh
      s.mix
    .ok { s with hh := { x with lastTime := time, nextFrameTime := after.1 }, mix := m, freeCount := after.2 }
  | .tri => do
    let period := max p.triFramePeriod 1
    let after := frameTimeAfter s.tri.nextFrameTime period time n s.freeCount
    let (x, m) ← framedRun (triRun p opc) Tri.stepFrame period (sext time) n (sext s.tri.lastTime) s.tri.nextFrameTime
      s.tri s.mix
    .ok { s with tri := { x with lastTime := time, nextFrameTime := after.1 }, mix := m, freeCount := after.2 }

/-- R260, R604: what comes of a loop that no stored frame time ends: its first 2^256 passes. They tell whether one ever fails, since
an oscillator with its frame sequencer has fewer states: entry 8 of the log. -/
def endlessLoop (opc : Byte) (g : GroupRef) (s : State) : Res Unit :=
  let p := s.params
  match g with
  | .psg _ => .ok ()
  | .hh => do
    let _ ← loopPasses (hhRun p opc) Hh.frameStep (max p.hhFramePeriod 1) (2 ^ 256) (sext s.hh.lastTime) s.hh.nextFrameTime
      s.hh s.mix
    .ok ()
  | .tri => do
    let _ ← loopPasses (triRun p opc) Tri.stepFrame (max p.triFramePeriod 1) (2 ^ 256) (sext s.tri.lastTime)
      s.tri.nextFrameTime s.tri s.mix
    .ok ()

/-- The frame time and period of a group that has a frame sequencer (`max` reads a period of 0 as 1, entry 9 of the log). -/
def frameSequencer (g : GroupRef) (s : State) : Option (Word × Nat) :=
  match g with
  | .psg _ => none
  | .hh => some (s.hh.nextFrameTime, max s.params.hhFramePeriod 1)
  | .tri => some (s.tri.nextFrameTime, max s.params.triFramePeriod 1)

/-- R260: `x` is the outcome of the run of a group to `time`. A PSG group takes no frame step. Another takes them up to the stored
frame time that ends its loop. A loop that none ends has the fault of its first failing `Emit` for its outcome (R604); without one,
the run takes the steps before `time` that the exact frame times give, the model's choice within R740, entry 8 of the log. -/
def runOutcome (opc : Byte) (g : GroupRef) (time : Word) (s : State) (x : Res State) : Prop :=
  match frameSequencer g s with
  | none => x = groupRun opc g time 0 s
  | some (next, period) =>
    (∃ n, framesTaken next period time n ∧ x = groupRun opc g time n s) ∨
    (framesEndless next period time ∧
      ((∃ r, endlessLoop opc g s = .error r ∧ x = .error r) ∨
        (endlessLoop opc g s = .ok () ∧ ∃ n, framesBefore next period time n ∧ x = groupRun opc g time n s)))

/-- R260, R261, R267: OSC_RUN on any group that exists and is ready: the run, result 0. And the run of any OSC_* command is that
of R260 and R261 with the variant functions of R290 to R293, R328, R371, R380 and R410 to R413: every transition and every delta,
every frame step before the command's time and none at it, and where a delta cannot be placed, its fault; for every state and time
(where no stored frame time ends the written loop: the first fault of its passes, else entry 8 of the log). -/
def Obligations.OscRunCompletes : Prop :=
  (∀ (inst sel : BitVec 4) (g : GroupRef) (time : Word) (s : State),
    s.fault = none → g.named s.params inst sel → s.ready g (sext time) →
    ∃ r, runGroup 0x22 g (sext time) s = .ok r ∧ runLeaves g time s r ∧
      exec (.oscRun inst sel time) s = .next (r.done 0)) ∧
  ∀ (opc : Byte) (g : GroupRef) (time : Word) (s : State), sext (s.lastTime g) ≤ sext time →
    runOutcome opc g time s (runGroup opc g (sext time) s)

/-- R261: after a run every oscillator of the group has emitted its present level, and (R271) no transition is left in the
past. -/
def Obligations.LevelsSettleAfterRun : Prop :=
  ∀ (inst sel : BitVec 4) (g : GroupRef) (time : Word) (s : State),
    s.fault = none → g.named s.params inst sel → s.ready g (sext time) →
    ∃ r, exec (.oscRun inst sel time) s = .next r ∧
      match g with
      | .psg i => (r.psg.get i).settled s.params ∧ (r.psg.get i).pending
      | .hh => r.hh.settled s.params ∧ r.hh.pending
      | .tri => r.tri.settled s.params ∧ r.tri.osc.pending

/-- R268: OSC_END_FRAME runs the group and makes `time` its new time 0. -/
def Obligations.OscEndFrameCompletes : Prop :=
  ∀ (inst sel : BitVec 4) (g : GroupRef) (time : Word) (s : State),
    s.fault = none → g.named s.params inst sel → s.ready g (sext time) →
    ∃ r, runGroup 0x23 g (sext time) s = .ok r ∧
      exec (.oscEndFrame inst sel time) s = .next (State.done
        (match g with
          | .psg i => { r with psg := r.psg.set i { r.psg.get i with lastTime := 0 } }
          | .hh => { r with hh := { r.hh with lastTime := 0, nextFrameTime := r.hh.nextFrameTime - time } }
          | .tri => { r with tri := { r.tri with lastTime := 0, nextFrameTime := r.tri.nextFrameTime - time } }) 0)

/-- R269: OSC_RESET puts the group at its reset values (those of a powered-on block, `ResetValues`) and changes nothing else. -/
def Obligations.OscResetCompletes : Prop :=
  ∀ (inst sel : BitVec 4) (g : GroupRef) (s : State), s.fault = none → g.named s.params inst sel →
    exec (.oscReset inst sel) s = .next (State.done
      (match g with
        | .psg i => { s with psg := s.psg.set i ((State.powerOn s.params).psg.get i) }
        | .hh => { s with hh := (State.powerOn s.params).hh }
        | .tri => { s with tri := (State.powerOn s.params).tri }) 0)

/-- `MASK` and `Read_HH(a)` of R396, R378, for an address of the HH space. -/
def hhReadValue (h : Hh) (a : Nat) : Byte :=
  let mask : List Byte :=
    [0x80, 0x3F, 0x00, 0xFF, 0xBF, 0xFF, 0x3F, 0x00, 0xFF, 0xBF, 0x7F, 0xFF, 0x9F, 0xFF, 0xBF, 0xFF, 0xFF, 0x00, 0x00, 0xBF,
     0x00, 0x00, 0x70]
  if a < 0x26 then h.reg a ||| mask.getD (a - 0x10) 0
  else if a = 0x26 then
    BitVec.ofBool (bit (h.reg 0x26) 7) ++ 0b111#3 ++ BitVec.ofBool h.noise.gate.enabled ++
      BitVec.ofBool h.wave.gate.enabled ++ BitVec.ofBool h.sq2.gate.enabled ++ BitVec.ofBool h.sq1.gate.enabled
  else if a < 0x30 then 0xFF
  else h.reg (0x30 + if h.wave.gate.enabled = true then h.wave.position.toNat / 2 else a - 0x30)

/-- R266, R272, R396, R378, R421: the reads run their group first and change nothing else but the result. -/
def Obligations.OscReadsComplete : Prop :=
  ∀ (addr : Byte) (low : BitVec 4) (time : Word) (s : State), s.fault = none →
    (s.params.hasHh = true → s.ready .hh (sext time) →
      (∃ r, runGroup 0x25 .hh (sext time) s = .ok r ∧
        exec (.oscWaveStatus time) s = .next (r.done
          (0#15 ++ BitVec.ofBool r.hh.wave.gate.enabled ++ 0#4 ++ r.hh.wave.latched ++ 0#3 ++ r.hh.wave.position))) ∧
      ∃ r, runGroup 0x21 .hh (sext time) s = .ok r ∧
        (0x10 ≤ addr.toNat → addr.toNat ≤ 0x3F →
          exec (.oscReadHhReg addr time) s = .next (r.done (0#24 ++ hhReadValue r.hh addr.toNat)) ∧
          exec (.oscRead 0 1 addr time) s = .next (r.done (0#24 ++ hhReadValue r.hh addr.toNat))) ∧
        exec (.oscReadHhWaveRam low time) s = .next (r.done (0#24 ++ hhReadValue r.hh (0x30 + low.toNat)))) ∧
    (s.params.hasTri = true → s.ready .tri (sext time) →
      ∃ r, runGroup 0x21 .tri (sext time) s = .ok r ∧
        let value : Word := if 0 < r.tri.lengthCtr then 4 else 0
        exec (.oscReadTri15 time) s = .next (r.done value) ∧ exec (.oscRead 0 2 0x15 time) s = .next (r.done value))

/-- The addresses each register space accepts a write at (R108), but TRI 0x17 with its mode bit set, which R420 refuses. -/
def writeAccepted (g : GroupRef) (addr data : Byte) : Prop :=
  match g with
  | .psg _ => addr.toNat ≤ 1
  | .hh => 0x10 ≤ addr.toNat ∧ addr.toNat ≤ 0x3F
  | .tri => addr = 0x08 ∨ addr = 0x09 ∨ addr = 0x0A ∨ addr = 0x0B ∨ addr = 0x15 ∨ (addr = 0x17 ∧ bit data 7 = false)

/-- R264: whether a write restarts a voice; `r` is the state after the run. -/
def restarts (g : GroupRef) (addr data : Byte) (r : State) : Prop :=
  match g with
  | .psg i =>
    let byte := if bit data 7 then data else (r.psg.get i).latch
    addr = 0 ∧ byte.extractLsb' 5 2 = 3#2 ∧ byte.extractLsb' 4 1 = 0#1
  | .hh => bit (r.hh.reg 0x26) 7 = true ∧ bit data 7 = true ∧ (addr = 0x14 ∨ addr = 0x19 ∨ addr = 0x1E ∨ addr = 0x23)
  | .tri => addr = 0x0B

/-- R262, R263, R264: OSC_WRITE on any group and any address that accepts the write runs the group and answers the restart
signal; other groups, the FM instances and the ports are as before. (The effect of each address is that of its register form:
`FormsAgreeWithPlainCommands`.) -/
def Obligations.OscWriteRestartSignal : Prop :=
  ∀ (inst sel : BitVec 4) (g : GroupRef) (addr data : Byte) (time : Word) (s : State),
    s.fault = none → g.named s.params inst sel → s.ready g (sext time) → writeAccepted g addr data →
    ∃ r t, runGroup 0x20 g (sext time) s = .ok r ∧ exec (.oscWrite inst sel addr data time) s = .next t ∧
      t.fault = none ∧ t.cmdCount = s.cmdCount + 1 ∧ (restarts g addr data r → t.result = 1) ∧
      (¬ restarts g addr data r → t.result = 0) ∧
      t.fm = s.fm ∧ t.pcmOut = s.pcmOut ∧ t.fmOut = s.fmOut ∧ s.mix.sameFrame t.mix ∧
      match g with
      | .psg i => t.hh = s.hh ∧ t.tri = s.tri ∧ t.psg.get (~~~i) = s.psg.get (~~~i) ∧ (t.psg.get i).lastTime = time
      | .hh => t.psg = s.psg ∧ t.tri = s.tri ∧ t.hh.lastTime = time
      | .tri => t.psg = s.psg ∧ t.hh = s.hh ∧ t.tri.lastTime = time

/-- R203, R206, R604: where one `Emit` into a DSB fails, and with what. -/
def emitFails (p : Params) (opc : Byte) (m : Mix) (t : Int) (r : Raise) : Prop :=
  let pos : Int := t * m.factor.toNat + m.offset
  if m.sampleRate = 0 ∨ m.clockRate = 0 then r = ⟨.notConfigured, 0#24 ++ opc⟩
  else p.buildMode = .debug ∧
    ((pos < 0 ∧ r = ⟨.deltaBeforeOrigin, BitVec.ofInt 32 t⟩) ∨
      (0 ≤ pos ∧ m.cap.toNat < pos / 2 ^ 16 ∧ r = ⟨.deltaPastHorizon, BitVec.ofInt 32 t⟩))

/-- R266: the addresses a group can be read at. -/
def readAccepted (g : GroupRef) (addr : Byte) : Prop :=
  match g with
  | .psg _ => False
  | .hh => 0x10 ≤ addr.toNat ∧ addr.toNat ≤ 0x3F
  | .tri => addr = 0x15

/-- The OSC_* commands that run group `g` to `time`, each with its opcode; a write or a read of an address of the group. -/
def runsGroup (inst sel : BitVec 4) (g : GroupRef) (addr data : Byte) (time : Word) (opc : Byte) (i : Instr) : Prop :=
  (opc = 0x20 ∧ i = .oscWrite inst sel addr data time ∧ (writeAccepted g addr data ∨ (g = .tri ∧ addr = 0x17))) ∨
  (opc = 0x21 ∧ readAccepted g addr ∧ (i = .oscRead inst sel addr time ∨ (g = .hh ∧ i = .oscReadHhReg addr time) ∨
    (g = .hh ∧ ∃ low, i = .oscReadHhWaveRam low time) ∨ (g = .tri ∧ i = .oscReadTri15 time))) ∨
  (opc = 0x22 ∧ i = .oscRun inst sel time) ∨ (opc = 0x23 ∧ i = .oscEndFrame inst sel time) ∨
  (opc = 0x25 ∧ g = .hh ∧ i = .oscWaveStatus time)

/-- R260, R604, R108, R203, R206, R420: a command that runs a group to a time before the group's own faults; so does a run with an
`Emit` that fails, with the fault of the first one (`OscRunCompletes` says in what order a run emits; a loop that no stored frame
time ends may have it in any of its passes, entry 8 of the log); an address outside the space faults before the run; the triangle's
5-step mode is refused after it. That each of these keeps the whole pre-command state, a completed run before UNSUPPORTED too, is
the choice of entry 6 of the log within R602. (The other register forms: `FormsAgreeWithPlainCommands`.) -/
def Obligations.OscFaults : Prop :=
  (∀ (inst sel : BitVec 4) (g : GroupRef) (addr data : Byte) (time : Word) (s : State),
    s.fault = none → g.named s.params inst sel →
    (∀ opc i, runsGroup inst sel g addr data time opc i →
      (sext time < sext (s.lastTime g) → exec i s = .next (s.faulted .timeBackwards time)) ∧
      ∀ r, sext (s.lastTime g) ≤ sext time → runOutcome opc g time s (.error r) →
        exec i s = .next (s.faulted r.code r.info)) ∧
    (¬ writeAccepted g addr data → ¬ (g = .tri ∧ addr = 0x17) →
      exec (.oscWrite inst sel addr data time) s =
        .next (s.faulted .illegal (encode (.oscWrite inst sel addr data time)).w0)) ∧
    (g = .hh → ¬ (0x10 ≤ addr.toNat ∧ addr.toNat ≤ 0x3F) →
      exec (.oscReadHhReg addr time) s = .next (s.faulted .illegal (encode (.oscReadHhReg addr time)).w0) ∧
      exec (.oscRead inst sel addr time) s = .next (s.faulted .illegal (encode (.oscRead inst sel addr time)).w0)) ∧
    (g = .tri → addr ≠ 0x15 →
      exec (.oscRead inst sel addr time) s = .next (s.faulted .illegal (encode (.oscRead inst sel addr time)).w0)) ∧
    (g = .tri → bit data 7 = true → s.ready .tri (sext time) →
      exec (.oscWriteTri17 data time) s = .next (s.faulted .unsupported (0#24 ++ data)))) ∧
  ∀ (p : Params) (opc : Byte) (route : Route) (t d : Int) (m : Mix) (r : Raise),
    emit p opc route t d m = .error r ↔ route ≠ .none ∧ d ≠ 0 ∧ emitFails p opc m t r

/-- R144, R272: the command names no unit that exists. -/
def unitMissing (p : Params) (c : Command) : Prop :=
  (c.opc = 0x13 ∧ 2 < c.sel.toNat) ∨
  ((c.opc = 0x20 ∨ c.opc = 0x21 ∨ c.opc = 0x22 ∨ c.opc = 0x23 ∨ c.opc = 0x24) ∧
    ¬ (c.sel = 0 ∧ c.inst.toNat < p.nPsg) ∧ ¬ (c.sel = 1 ∧ c.inst = 0 ∧ p.hasHh = true) ∧
    ¬ (c.sel = 2 ∧ c.inst = 0 ∧ p.hasTri = true)) ∨
  (c.opc = 0x21 ∧ c.sel = 0) ∨
  (c.opc = 0x25 ∧ p.hasHh = false) ∨
  ((c.opc = 0x30 ∨ c.opc = 0x31 ∨ c.opc = 0x32 ∨ c.opc = 0x33) ∧ p.nFm ≤ c.inst.toNat) ∨
  (c.opc = 0x30 ∧ 1 < c.sel.toNat)

/-- R144: an instruction whose command names no unit that exists is ILLEGAL and changes nothing else. -/
def Obligations.MissingUnitsAreIllegal : Prop :=
  ∀ (i : Instr) (s : State), s.fault = none → unitMissing s.params (encode i) →
    exec i s = .next (s.faulted .illegal (encode i).w0)

/-- A register form does exactly what the plain OSC_WRITE, OSC_READ or FM_WRITE of the same command word does. -/
def Obligations.FormsAgreeWithPlainCommands : Prop :=
  ∀ (i : Instr) (s : State), i.wf = true →
    (∀ inst sel addr data time, encode i = encode (.oscWrite inst sel addr data time) →
      exec i s = exec (.oscWrite inst sel addr data time) s) ∧
    (∀ inst sel addr time, encode i = encode (.oscRead inst sel addr time) →
      exec i s = exec (.oscRead inst sel addr time) s) ∧
    (∀ inst sel addr data, encode i = encode (.fmWrite inst sel addr data) →
      exec i s = exec (.fmWrite inst sel addr data) s)

/-! ## PSG registers -/

/-- R294, R295: attenuation `v` into oscillator `ch`. -/
def psgAtten (ch : BitVec 2) (v : BitVec 4) (g : Psg) : Psg :=
  if ch = 0 then { g with tone0 := { g.tone0 with atten := v } }
  else if ch = 1 then { g with tone1 := { g.tone1 with atten := v } }
  else if ch = 2 then { g with tone2 := { g.tone2 with atten := v } }
  else { g with noise := { g.noise with atten := v } }

/-- R294, R295: a tone's period, or the noise control, which resets the shifter. -/
def psgPeriod (p : Params) (ch : BitVec 2) (period : BitVec 10 → BitVec 10) (ctrl : BitVec 3) (g : Psg) : Psg :=
  if ch = 0 then { g with tone0 := { g.tone0 with period := period g.tone0.period } }
  else if ch = 1 then { g with tone1 := { g.tone1 with period := period g.tone1.period } }
  else if ch = 2 then { g with tone2 := { g.tone2 with period := period g.tone2.period } }
  else { g with noise := { g.noise with ctrl := ctrl, shifter := p.psgNoiseInit } }

/-- R294, R295: the two forms of the data-port byte. -/
def Obligations.PsgDataPortWrites : Prop :=
  ∀ (inst : BitVec 1) (time : Word),
    (∀ (ch : BitVec 2) (ty : BitVec 1) (data : BitVec 4),
      writesPsg (.oscWritePsgLatch inst ch ty data time) inst time
        (fun p g =>
          let g := { g with latch := 1#1 ++ ch ++ ty ++ data }
          if ty = 1 then psgAtten ch data g
          else psgPeriod p ch (fun x => (x &&& 0x3F0) ||| data.setWidth 10) (data.setWidth 3) g)
        (fun _ => if ty = 0 ∧ ch = 3 then 1 else 0)) ∧
    (∀ data : BitVec 7,
      writesPsg (.oscWritePsgData inst data time) inst time
        (fun p g =>
          let ch := g.latch.extractLsb' 5 2
          if bit g.latch 4 then psgAtten ch (data.setWidth 4) g
          else psgPeriod p ch (fun x => ((data.setWidth 6).setWidth 10 <<< 4) ||| (x &&& 0x00F)) (data.setWidth 3) g)
        (fun g => if bit g.latch 4 = false ∧ g.latch.extractLsb' 5 2 = 3 then 1 else 0))

/-- R296: the route of oscillator `k` in a stereo byte. -/
def stereoRoute (d : Byte) (k : Nat) : Route :=
  if bit d (k + 4) ∧ bit d k then .center else if bit d (k + 4) then .left else if bit d k then .right else .none

/-- R265: an oscillator whose route changes restarts its amplitude at 0; another is untouched. -/
def rerouted (o : Osc) (route : Route) : Osc :=
  if route = o.route then o else { o with lastAmp := 0, route := route }

/-- R265: the delta of a route change, into the old route: the amplitude taken back. -/
def rerouteDelta (o : Osc) (route : Route) : Int := if route = o.route then 0 else -sext o.lastAmp

/-- R296, R265: the stereo port. -/
def Obligations.PsgStereoWrite : Prop :=
  ∀ (inst : BitVec 1) (data : Byte) (time : Word) (s : State), s.fault = none → inst.toNat < s.params.nPsg →
    s.ready (.psg inst) (sext time) →
    ∃ r m0 m1 m2 m3, runGroup 0x20 (.psg inst) (sext time) s = .ok r ∧
      let g := r.psg.get inst
      let back (o : Osc) (k : Nat) (m : Mix) : Res Mix :=
        emit s.params 0x20 o.route (sext time) (rerouteDelta o (stereoRoute data k)) m
      back g.tone0.osc 0 r.mix = .ok m0 ∧ back g.tone1.osc 1 m0 = .ok m1 ∧ back g.tone2.osc 2 m1 = .ok m2 ∧
      back g.noise.osc 3 m2 = .ok m3 ∧
      exec (.oscWritePsgStereo inst data time) s = .next (State.done
        { r with
          mix := m3
          psg := r.psg.set inst { g with
            stereo := data
            tone0 := { g.tone0 with osc := rerouted g.tone0.osc (stereoRoute data 0) }
            tone1 := { g.tone1 with osc := rerouted g.tone1.osc (stereoRoute data 1) }
            tone2 := { g.tone2 with osc := rerouted g.tone2.osc (stereoRoute data 2) }
            noise := { g.noise with osc := rerouted g.noise.osc (stereoRoute data 3) } } } 0)

/-! ## HH registers -/

/-- R334, R375, R376, R385 store only; R395 stores nothing; R394: while powered off every write to 0x10..0x25 is ignored;
R378: wave RAM takes writes powered or not, at the playing byte while the wave channel is enabled. -/
def Obligations.HhStoredAndIgnoredWrites : Prop :=
  ∀ (data : Byte) (time : Word),
    (∀ e ∈ [(0x13, Instr.oscWriteHhNr13 data time), (0x18, .oscWriteHhNr23 data time), (0x1C, .oscWriteHhNr32 data time),
        (0x1D, .oscWriteHhNr33 data time), (0x22, .oscWriteHhNr43 data time)],
      writesHh e.2 time true (fun _ h => h.setReg e.1 data) 0) ∧
    (∀ i ∈ [Instr.oscWriteHhNr10 data time, .oscWriteHhNr11 data time, .oscWriteHhNr12 data time, .oscWriteHhNr13 data time,
        .oscWriteHhNr14 data time, .oscWriteHhNr21 data time, .oscWriteHhNr22 data time, .oscWriteHhNr23 data time,
        .oscWriteHhNr24 data time, .oscWriteHhNr30 data time, .oscWriteHhNr31 data time, .oscWriteHhNr32 data time,
        .oscWriteHhNr33 data time, .oscWriteHhNr34 data time, .oscWriteHhNr41 data time, .oscWriteHhNr42 data time,
        .oscWriteHhNr43 data time, .oscWriteHhNr44 data time, .oscWriteHhNr50 data time, .oscWriteHhNr51 data time],
      writesHh i time false (fun _ h => h) 0) ∧
    (∀ on low, ∀ i ∈ [Instr.oscWriteHhUnused15 data time, .oscWriteHhUnused1F data time, .oscWriteHhUnused27 data time,
        .oscWriteHhUnused28 low data time],
      writesHh i time on (fun _ h => h) 0) ∧
    (∀ on low, writesHh (.oscWriteHhWaveRam low data time) time on
      (fun _ h => h.setReg (0x30 + if h.wave.gate.enabled = true then h.wave.position.toNat / 2 else low.toNat) data) 0)

/-- R330, R332, R333, R373, R374, R383, R384, while powered on. -/
def Obligations.HhLengthAndDacWrites : Prop :=
  ∀ (data : Byte) (time : Word), let len := 64 - data.toNat % 64
    writesHh (.oscWriteHhNr10 data time) time true
      (fun _ h => { h.setReg 0x10 data with sq1 := { h.sq1 with gate := { h.sq1.gate with
        enabled := h.sq1.gate.enabled && !(h.sweep.enabled && h.sweep.neg && !bit data 3) } } }) 0 ∧
    writesHh (.oscWriteHhNr11 data time) time true
      (fun _ h => { h.setReg 0x11 data with sq1 := { h.sq1 with gate := { h.sq1.gate with lengthCtr := len } } }) 0 ∧
    writesHh (.oscWriteHhNr21 data time) time true
      (fun _ h => { h.setReg 0x16 data with sq2 := { h.sq2 with gate := { h.sq2.gate with lengthCtr := len } } }) 0 ∧
    writesHh (.oscWriteHhNr31 data time) time true
      (fun _ h => { h.setReg 0x1B data with
        wave := { h.wave with gate := { h.wave.gate with lengthCtr := 256 - data.toNat } } }) 0 ∧
    writesHh (.oscWriteHhNr41 data time) time true
      (fun _ h => { h.setReg 0x20 data with noise := { h.noise with gate := { h.noise.gate with lengthCtr := len } } }) 0 ∧
    writesHh (.oscWriteHhNr12 data time) time true
      (fun _ h => { h.setReg 0x12 data with sq1 := { h.sq1 with gate := { h.sq1.gate with
        enabled := h.sq1.gate.enabled && decide (8 ≤ data.toNat) } } }) 0 ∧
    writesHh (.oscWriteHhNr22 data time) time true
      (fun _ h => { h.setReg 0x17 data with sq2 := { h.sq2 with gate := { h.sq2.gate with
        enabled := h.sq2.gate.enabled && decide (8 ≤ data.toNat) } } }) 0 ∧
    writesHh (.oscWriteHhNr42 data time) time true
      (fun _ h => { h.setReg 0x21 data with noise := { h.noise with gate := { h.noise.gate with
        enabled := h.noise.gate.enabled && decide (8 ≤ data.toNat) } } }) 0 ∧
    writesHh (.oscWriteHhNr30 data time) time true
      (fun _ h => { h.setReg 0x1A data with wave := { h.wave with gate := { h.wave.gate with
        enabled := h.wave.gate.enabled && bit data 7 } } }) 0

/-- R331: the length counter after WriteTrig; `old` and `data` are the two values of NRx4. -/
def trigLength (p : Params) (framePhase : BitVec 3) (maxLen : Nat) (old data : Byte) (len : Nat) : Nat :=
  let quirk : Bool := p.hhLengthQuirk && decide (framePhase.toNat % 2 = 1) && bit data 6
  let len1 := if quirk = true ∧ bit old 6 = false then len - 1 else len
  if bit data 7 = true ∧ len1 = 0 then (if quirk = true then maxLen - 1 else maxLen) else len1

/-- R331, R325: `enabled` after a trigger write on an oscillator whose DAC is on as `dac` says. -/
def trigEnabled (data : Byte) (dac : Bool) (len : Nat) (enabled : Bool) : Bool :=
  if bit data 7 then dac else enabled && decide (len ≠ 0)

/-- R325: the envelope a trigger starts; `nrx2` holds its register, whose period and direction the trigger latches (R333). -/
def trigEnv (framePhase : BitVec 3) (nrx2 : Byte) : Env :=
  { volume := nrx2.extractLsb' 4 4
    delay := (if nrx2.toNat % 8 = 0 then 8 else nrx2.toNat % 8) + (if framePhase = 7 then 1 else 0)
    enabled := true
    period := BitVec.ofNat 3 (nrx2.toNat % 8)
    rising := bit nrx2 3 }

/-- R326, R335: whether the sweep calculation at a trigger exceeds the range; `nr10` holds the sweep register. -/
def sweepOverflows (nr10 : Byte) (f : Nat) : Bool :=
  decide (nr10.toNat % 8 ≠ 0) && !bit nr10 3 && decide (0x7FF < f + f / 2 ^ (nr10.toNat % 8))

/-- R335 with R331, R325 and R326: NR14 and NR24, powered on. Without bit 7 only the length counter and `enabled` may change.
(That the trigger latches the envelope's period and direction in fields of their own is the model's reading of R333: entry 20 of
the log.) -/
def Obligations.HhSquareTriggers : Prop :=
  ∀ (data : Byte) (time : Word),
    writesHh (.oscWriteHhNr14 data time) time true
      (fun p h =>
        let nr10 := h.reg 0x10
        let f := freqOfRegs (h.reg 0x13) data
        let len := trigLength p h.framePhase 64 (h.reg 0x14) data h.sq1.gate.lengthCtr
        let dac := decide (8 ≤ (h.reg 0x12).toNat) && !sweepOverflows nr10 f
        let trig := bit data 7
        { h.setReg 0x14 data with
          sq1 := { h.sq1 with
            gate := ⟨trigEnabled data dac len h.sq1.gate.enabled, len⟩
            env := if trig then trigEnv h.framePhase (h.reg 0x12) else h.sq1.env
            osc := if trig then { h.sq1.osc with delay := (h.sq1.osc.delay &&& 3) + BitVec.ofNat 32 ((2048 - f) * 4) }
              else h.sq1.osc }
          sweep := if trig then
              { freq := BitVec.ofNat 11 f
                delay := if nr10.toNat / 16 % 8 = 0 then 8 else nr10.toNat / 16 % 8
                enabled := decide (nr10.toNat / 16 % 8 ≠ 0) || decide (nr10.toNat % 8 ≠ 0)
                neg := decide (nr10.toNat % 8 ≠ 0) && bit nr10 3 }
            else h.sweep })
      (if bit data 7 then 1 else 0) ∧
    writesHh (.oscWriteHhNr24 data time) time true
      (fun p h =>
        let f := freqOfRegs (h.reg 0x18) data
        let len := trigLength p h.framePhase 64 (h.reg 0x19) data h.sq2.gate.lengthCtr
        let trig := bit data 7
        { h.setReg 0x19 data with
          sq2 := { h.sq2 with
            gate := ⟨trigEnabled data (decide (8 ≤ (h.reg 0x17).toNat)) len h.sq2.gate.enabled, len⟩
            env := if trig then trigEnv h.framePhase (h.reg 0x17) else h.sq2.env
            osc := if trig then { h.sq2.osc with delay := (h.sq2.osc.delay &&& 3) + BitVec.ofNat 32 ((2048 - f) * 4) }
              else h.sq2.osc } })
      (if bit data 7 then 1 else 0)

/-- R377, R386 with R331 and R325: NR34 and NR44, powered on. A trigger keeps the latched nibble and wave RAM. (What a noise
trigger latches of NR42: entry 20 of the log.) -/
def Obligations.HhWaveAndNoiseTriggers : Prop :=
  ∀ (data : Byte) (time : Word),
    writesHh (.oscWriteHhNr34 data time) time true
      (fun p h =>
        let f := freqOfRegs (h.reg 0x1D) data
        let len := trigLength p h.framePhase 256 (h.reg 0x1E) data h.wave.gate.lengthCtr
        { h.setReg 0x1E data with
          wave := { h.wave with
            gate := ⟨trigEnabled data (bit (h.reg 0x1A) 7) len h.wave.gate.enabled, len⟩
            position := if bit data 7 then 0 else h.wave.position
            osc := if bit data 7 then { h.wave.osc with delay := BitVec.ofNat 32 ((2048 - f) * 2 + p.hhWaveTriggerDelay) }
              else h.wave.osc } })
      (if bit data 7 then 1 else 0) ∧
    writesHh (.oscWriteHhNr44 data time) time true
      (fun p h =>
        let len := trigLength p h.framePhase 64 (h.reg 0x23) data h.noise.gate.lengthCtr
        let code := (h.reg 0x22).toNat % 8
        let period := (if code = 0 then 8 else 16 * code) * 2 ^ ((h.reg 0x22).toNat / 16)
        { h.setReg 0x23 data with
          noise := { h.noise with
            gate := ⟨trigEnabled data (decide (8 ≤ (h.reg 0x21).toNat)) len h.noise.gate.enabled, len⟩
            env := if bit data 7 then trigEnv h.framePhase (h.reg 0x21) else h.noise.env
            lfsr := if bit data 7 then 0x7FFF else h.noise.lfsr
            osc := if bit data 7 then { h.noise.osc with delay := BitVec.ofNat 32 period } else h.noise.osc } })
      (if bit data 7 then 1 else 0)

/-- Four oscillators of the HH group replaced. -/
def withOscs (h : Hh) (f : Osc → Nat → Osc) : Hh :=
  { h with
    sq1 := { h.sq1 with osc := f h.sq1.osc 0 }
    sq2 := { h.sq2 with osc := f h.sq2.osc 1 }
    wave := { h.wave with osc := f h.wave.osc 2 }
    noise := { h.noise with osc := f h.noise.osc 3 } }

/-- The four deltas of an HH master write, in the order of R270. -/
def backDeltas (p : Params) (time : Word) (h : Hh) (delta : Osc → Nat → Int) (m m' : Mix) : Prop :=
  ∃ m0 m1 m2,
    emit p 0x20 h.sq1.osc.route (sext time) (delta h.sq1.osc 0) m = .ok m0 ∧
    emit p 0x20 h.sq2.osc.route (sext time) (delta h.sq2.osc 1) m0 = .ok m1 ∧
    emit p 0x20 h.wave.osc.route (sext time) (delta h.wave.osc 2) m1 = .ok m2 ∧
    emit p 0x20 h.noise.osc.route (sext time) (delta h.noise.osc 3) m2 = .ok m'

/-- R398, R390, R265: NR50 and NR51, powered on. (The order of the deltas of NR50: entry 12 of the log.) -/
def Obligations.HhVolumeAndRouteWrites : Prop :=
  ∀ (data : Byte) (time : Word) (s : State), s.fault = none → s.params.hasHh = true → s.ready .hh (sext time) →
    bit (s.hh.reg 0x26) 7 = true →
    ∃ r, runGroup 0x20 .hh (sext time) s = .ok r ∧
      (let scale : Int := s.params.unitHh * ((max (data.toNat / 16 % 8) (data.toNat % 8) : Nat) + 1)
       let stored := r.hh.setReg 0x24 data
       (scale = r.hh.volScale → exec (.oscWriteHhNr50 data time) s = .next (State.done { r with hh := stored } 0)) ∧
       (scale ≠ r.hh.volScale → ∃ m, backDeltas s.params time r.hh (fun o _ => -sext o.lastAmp) r.mix m ∧
         exec (.oscWriteHhNr50 data time) s = .next (State.done
           { r with mix := m, hh := { withOscs stored (fun o _ => { o with lastAmp := 0 }) with volScale := scale } } 0))) ∧
      ∃ m, backDeltas s.params time r.hh (fun o k => rerouteDelta o (stereoRoute data k)) r.mix m ∧
        exec (.oscWriteHhNr51 data time) s = .next (State.done
          { r with mix := m, hh := withOscs (r.hh.setReg 0x25 data) (fun o k => rerouted o (stereoRoute data k)) } 0)

/-- R265: an oscillator after power off: no route, and its amplitude taken back where a delta took it (where its route or the
scale changed). -/
def poweredOff (rescaled : Bool) (o : Osc) : Osc :=
  { o with route := .none, lastAmp := if rescaled = true ∨ o.route ≠ .none then 0 else o.lastAmp }

/-- R391, R392: NR52. Power off clears the registers 0x10..0x26 and no other, disables every channel, takes every amplitude back
out of its DSB, routes every oscillator to `none`, sets the scale to UNIT_HH and leaves the lengths full; power on restarts the
frame phase and the duty phases; a write that does not change the power bit stores only that bit (entry 13 of the log). (The order
of the deltas: entry 12.) -/
def Obligations.HhPowerWrites : Prop :=
  ∀ (data : BitVec 7) (time : Word),
    writesHh (.oscWriteHhNr52On data time) time true (fun _ h => h.setReg 0x26 0x80) 0 ∧
    writesHh (.oscWriteHhNr52On data time) time false
      (fun _ h => { h.setReg 0x26 0x80 with
        framePhase := 0, sq1 := { h.sq1 with phase := 0 }, sq2 := { h.sq2 with phase := 0 } }) 0 ∧
    writesHh (.oscWriteHhNr52Off data time) time false (fun _ h => h.setReg 0x26 0) 0 ∧
    ∀ s : State, s.fault = none → s.params.hasHh = true → s.ready .hh (sext time) → bit (s.hh.reg 0x26) 7 = true →
      ∃ r m regs, runGroup 0x20 .hh (sext time) s = .ok r ∧
        backDeltas s.params time r.hh (fun o _ => -sext o.lastAmp) r.mix m ∧
        (∀ a, Store.get regs a = if 0x10 ≤ a ∧ a ≤ 0x26 then 0 else r.hh.reg a) ∧
        let off := poweredOff (decide (r.hh.volScale ≠ s.params.unitHh))
        exec (.oscWriteHhNr52Off data time) s = .next (State.done
          { r with
            mix := m
            hh := { r.hh with
              regs := regs
              volScale := s.params.unitHh
              sq1 := { r.hh.sq1 with gate := ⟨false, 64⟩, osc := off r.hh.sq1.osc }
              sq2 := { r.hh.sq2 with gate := ⟨false, 64⟩, osc := off r.hh.sq2.osc }
              wave := { r.hh.wave with gate := ⟨false, 256⟩, osc := off r.hh.wave.osc }
              noise := { r.hh.noise with gate := ⟨false, 64⟩, osc := off r.hh.noise.osc } } } 0)

/-- R321: a length counter clocked; `nrx4` holds its enable. -/
def lengthClocked (clocked : Bool) (nrx4 : Byte) (g : Gate) : Gate :=
  if clocked = true ∧ bit nrx4 6 = true ∧ 0 < g.lengthCtr then ⟨g.enabled && decide (g.lengthCtr ≠ 1), g.lengthCtr - 1⟩
  else g

/-- R324: an envelope clocked, by the direction and the period of its last trigger (R333; entry 20 of the log). -/
def envClocked (clocked : Bool) (e : Env) : Env :=
  let period := e.period.toNat
  if clocked = true ∧ e.enabled = true then
    if 1 < e.delay then { e with delay := e.delay - 1 }
    else if period = 0 then { e with delay := 8 }
    else if e.rising = true then
      (if e.volume = 15 then { e with delay := period, enabled := false }
        else { e with delay := period, volume := e.volume + 1 })
    else (if e.volume = 0 then { e with delay := period, enabled := false }
      else { e with delay := period, volume := e.volume - 1 })
  else e

/-- R326: the swept frequency; `nr10` holds shift and direction. -/
def sweptFrom (nr10 : Byte) (f : Nat) : Nat :=
  if bit nr10 3 then f - f / 2 ^ (nr10.toNat % 8) else f + f / 2 ^ (nr10.toNat % 8)

/-- R320, R321, R324, R326, R327, R417: what a frame step of the HH group and of the triangle clocks, and what it leaves. (When
a run takes these steps: `OscRunCompletes`. That an envelope clocks by what its trigger latched: entry 20 of the log.) -/
def Obligations.FrameSequencerSteps : Prop :=
  (∀ h : Hh,
    let ph := h.framePhase.toNat
    let h' := h.frameStep
    let nr10 := h.reg 0x10
    let period := nr10.toNat / 16 % 8
    let due : Bool := decide (ph = 2 ∨ ph = 6) && decide (h.sweep.delay ≤ 1)
    let swept : Bool := due && h.sweep.enabled && decide (period ≠ 0)
    let f1 := sweptFrom nr10 h.sweep.freq.toNat
    let update : Bool := swept && decide (f1 ≤ 0x7FF) && decide (nr10.toNat % 8 ≠ 0)
    let f2 := if update then sweptFrom nr10 f1 else f1
    let even : Bool := decide (ph % 2 = 0)
    h'.framePhase = h.framePhase + 1 ∧
    h'.sweep.delay = (if due then (if period = 0 then 8 else period)
      else if ph = 2 ∨ ph = 6 then h.sweep.delay - 1 else h.sweep.delay) ∧
    h'.sweep.freq = (if update then BitVec.ofNat 11 f1 else h.sweep.freq) ∧
    h'.sweep.enabled = h.sweep.enabled ∧ h'.sweep.neg = (if swept then bit nr10 3 else h.sweep.neg) ∧
    (∀ a, h'.reg a =
      if update = true ∧ a = 0x13 then BitVec.ofNat 8 f1
      else if update = true ∧ a = 0x14 then (h.reg 0x14 &&& 0xF8) ||| BitVec.ofNat 8 (f1 / 256) else h.reg a) ∧
    h'.sq1.gate = lengthClocked even (h.reg 0x14)
      { h.sq1.gate with enabled := h.sq1.gate.enabled && !(swept && decide (0x7FF < f1 ∨ 0x7FF < f2)) } ∧
    h'.sq2.gate = lengthClocked even (h.reg 0x19) h.sq2.gate ∧
    h'.wave.gate = lengthClocked even (h.reg 0x1E) h.wave.gate ∧
    h'.noise.gate = lengthClocked even (h.reg 0x23) h.noise.gate ∧
    h'.sq1.env = envClocked (decide (ph = 7)) h.sq1.env ∧
    h'.sq2.env = envClocked (decide (ph = 7)) h.sq2.env ∧
    h'.noise.env = envClocked (decide (ph = 7)) h.noise.env ∧
    (h'.sq1.phase = h.sq1.phase ∧ h'.sq2.phase = h.sq2.phase ∧ h'.wave.position = h.wave.position ∧
      h'.wave.latched = h.wave.latched ∧ h'.noise.lfsr = h.noise.lfsr) ∧
    (h'.sq1.osc = h.sq1.osc ∧ h'.sq2.osc = h.sq2.osc ∧ h'.wave.osc = h.wave.osc ∧ h'.noise.osc = h.noise.osc) ∧
    h'.volScale = h.volScale ∧ h'.lastTime = h.lastTime ∧ h'.nextFrameTime = h.nextFrameTime) ∧
  (∀ g : Tri,
    let fs := g.frameStep.toNat
    let control := bit g.r4008 7
    g.stepFrame = { g with
      frameStep := g.frameStep + 1
      linearCtr := if g.linearReload = true then g.r4008.toNat % 128 else if 0 < g.linearCtr then g.linearCtr - 1 else 0
      linearReload := if control = true then g.linearReload else false
      lengthCtr := if (fs = 1 ∨ fs = 3) ∧ control = false ∧ 0 < g.lengthCtr then g.lengthCtr - 1 else g.lengthCtr })

/-! ## TRI registers -/

/-- R414 to R416, R418, R420, for the values R420 accepts. -/
def Obligations.TriWritesComplete : Prop :=
  ∀ (data : Byte) (time : Word),
    writesTri (.oscWriteTri08 data time) time (fun _ g => { g with r4008 := data }) 0 ∧
    writesTri (.oscWriteTri09 data time) time (fun _ g => g) 0 ∧
    writesTri (.oscWriteTri0A data time) time (fun _ g => { g with r400A := data }) 0 ∧
    writesTri (.oscWriteTri0B data time) time
      (fun p g => { g with
        r400B := data
        lengthCtr := if g.chanEnable = true then p.triLen.getD (data.toNat / 8) 0 else g.lengthCtr
        linearReload := true }) 1 ∧
    writesTri (.oscWriteTri15 data time) time
      (fun _ g => { g with chanEnable := bit data 2, lengthCtr := if bit data 2 = true then g.lengthCtr else 0 }) 0 ∧
    (bit data 7 = false → writesTri (.oscWriteTri17 data time) time
      (fun p g => { g with frameStep := 0, nextFrameTime := time + BitVec.ofNat 32 p.triFramePeriod }) 0)

/-! ## FM -/

/-- R434 to R436, R438, R439: the global registers; CSM mode is refused before any effect. -/
def Obligations.FmGlobalWrites : Prop :=
  ∀ (inst : BitVec 1) (data : Byte),
    writesFm (.fmWriteLfo inst data) inst .p0 0x22 data (fun _ f => { f with
      lfoEn := bit data 3, lfoFreq := data.extractLsb' 0 3, lfoCnt := if bit data 3 = true then f.lfoCnt else 0 }) ∧
    writesFm (.fmWriteTimer24 inst data) inst .p0 0x24 data (fun _ f => f) ∧
    writesFm (.fmWriteTimer25 inst data) inst .p0 0x25 data (fun _ f => f) ∧
    writesFm (.fmWriteTimer26 inst data) inst .p0 0x26 data (fun _ f => f) ∧
    (bit data 7 = false → writesFm (.fmWriteMode27 inst data) inst .p0 0x27 data (fun _ f => { f with mode27 := data })) ∧
    writesFm (.fmWriteDacData inst data) inst .p0 0x2A data (fun p f => { f with
      dacData := wrap32 (((data.toNat : Int) - 128) * 2 ^ p.fmDacShift) }) ∧
    writesFm (.fmWriteDacEnable inst data) inst .p0 0x2B data (fun _ f => { f with dacEn := bit data 7 }) ∧
    (bit data 7 = true → ∀ s : State, s.fault = none → inst.toNat < s.params.nFm →
      exec (.fmWriteMode27 inst data) s = .next (s.faulted .unsupported (0#24 ++ data)))

/-- R437, R485: an operator after its key bit. -/
def keyed (p : Params) (b : Bool) (o : Operator) : Operator :=
  if b = true ∧ o.key = false then
    { o with
      key := true, egPhase := .attack, phaseCnt := 0, egLvl := if p.fmKeyonEnvReset = true then p.fmEnvMax else o.egLvl }
  else if b = false ∧ o.key = true then { o with key := false, egPhase := .release }
  else o

/-- R437: the channel a key code names. -/
def keyCodeNames (code : Nat) (c : ChNum) : Prop :=
  (code = 0 ∧ c = .ch0) ∨ (code = 1 ∧ c = .ch1) ∨ (code = 2 ∧ c = .ch2) ∨
  (code = 4 ∧ c = .ch3) ∨ (code = 5 ∧ c = .ch4) ∨ (code = 6 ∧ c = .ch5)

/-- R437, R485: key on and off, edge-triggered, each operator by its own bit; codes 3 and 7 name no channel. A repeated mask
changes nothing. -/
def Obligations.FmKeyWrite : Prop :=
  ∀ (inst : BitVec 1) (data : Byte),
    (∀ c, keyCodeNames (data.toNat % 8) c → writesFm (.fmWriteKey inst data) inst .p0 0x28 data (fun p f =>
      let x := f.chans.get c
      { f with chans := f.chans.set c { x with ops :=
        ⟨keyed p (bit data 4) x.ops.o1, keyed p (bit data 5) x.ops.o2, keyed p (bit data 6) x.ops.o3,
          keyed p (bit data 7) x.ops.o4⟩ } })) ∧
    (data.toNat % 8 = 3 ∨ data.toNat % 8 = 7 → writesFm (.fmWriteKey inst data) inst .p0 0x28 data (fun _ f => f)) ∧
    ∀ (p : Params) (b : Bool) (o : Operator), keyed p b (keyed p b o) = keyed p b o

/-- R154: the channel a port and ADDR[1:0] name; ADDR[1:0] = 3 names none. -/
def chanOf (port : FmPort) (ch : BitVec 2) (c : ChNum) : Prop :=
  (port = .p0 ∧ ((ch = 0 ∧ c = .ch0) ∨ (ch = 1 ∧ c = .ch1) ∨ (ch = 2 ∧ c = .ch2))) ∨
  (port = .p1 ∧ ((ch = 0 ∧ c = .ch3) ∨ (ch = 1 ∧ c = .ch4) ∨ (ch = 2 ∧ c = .ch5)))

/-- R154: OPMAP, the operator ADDR[3:2] chooses. -/
def opOf (slot : BitVec 2) : OpNum :=
  if slot = 0 then .op1 else if slot = 1 then .op3 else if slot = 2 then .op2 else .op4

/-- A write of an operator register: the named operator of the named channel changes as `field` says; with ADDR[1:0] = 3
nothing but the register image does (R432). -/
def writesOp (i : Instr) (inst : BitVec 1) (port : FmPort) (group : BitVec 4) (slot ch : BitVec 2) (data : Byte)
    (field : Operator → Operator) : Prop :=
  (∀ c, chanOf port ch c → writesFm i inst port (group ++ slot ++ ch) data (fun _ f =>
    let x := f.chans.get c
    { f with chans := f.chans.set c { x with ops := x.ops.set (opOf slot) (field (x.ops.get (opOf slot))) } })) ∧
  (ch = 3 → writesFm i inst port (group ++ slot ++ ch) data (fun _ f => f))

/-- R440 to R445, R447, R154: the operator registers; SSG-EG enabled on an operator is refused before any effect. (That an
address with a & 3 = 3 is stored also with d[3] = 1 is a choice, entry 11 of the log: `FmWritesStayInTheirPort` states it.) -/
def Obligations.FmOperatorWrites : Prop :=
  ∀ (inst : BitVec 1) (port : FmPort) (slot ch : BitVec 2) (d : Byte),
    writesOp (.fmWriteDtMul inst port slot ch d) inst port 3 slot ch d
      (fun o => { o with dt := d.extractLsb' 4 3, mul := d.extractLsb' 0 4 }) ∧
    writesOp (.fmWriteTl inst port slot ch d) inst port 4 slot ch d (fun o => { o with tl := d.extractLsb' 0 7 }) ∧
    writesOp (.fmWriteKsAr inst port slot ch d) inst port 5 slot ch d
      (fun o => { o with ks := d.extractLsb' 6 2, ar := d.extractLsb' 0 5 }) ∧
    writesOp (.fmWriteAmD1r inst port slot ch d) inst port 6 slot ch d
      (fun o => { o with amEn := d.extractLsb' 7 1, d1r := d.extractLsb' 0 5 }) ∧
    writesOp (.fmWriteD2r inst port slot ch d) inst port 7 slot ch d (fun o => { o with d2r := d.extractLsb' 0 5 }) ∧
    writesOp (.fmWriteSlRr inst port slot ch d) inst port 8 slot ch d
      (fun o => { o with sl := d.extractLsb' 4 4, rr := d.extractLsb' 0 4 }) ∧
    (bit d 3 = false → writesOp (.fmWriteSsgEg inst port slot ch d) inst port 9 slot ch d
      (fun o => { o with ssg := d.extractLsb' 0 4 })) ∧
    (bit d 3 = true → ch ≠ 3 → ∀ s : State, s.fault = none → inst.toNat < s.params.nFm →
      exec (.fmWriteSsgEg inst port slot ch d) s = .next (s.faulted .unsupported (0#24 ++ d)))

/-- R448, R480: a frequency from its high byte and its low byte, with its key code. -/
def freqFrom (high low : Byte) : Freq :=
  let fnum : BitVec 11 := high.extractLsb' 0 3 ++ low
  let n := fnum.toNat / 128
  let fkey : BitVec 2 := if n < 7 then 0 else if n = 7 then 1 else if n = 8 then 2 else 3
  ⟨fnum, high.extractLsb' 3 3, high.extractLsb' 3 3 ++ fkey⟩

/-- R446, R448 to R451, R432: the channel registers. A low F-number byte takes the high byte last stored; the high bytes and
the addresses without a meaning are stored only. -/
def Obligations.FmChannelWrites : Prop :=
  ∀ (inst : BitVec 1) (port : FmPort) (ch : BitVec 2) (addr d : Byte),
    (∀ c, chanOf port ch c →
      writesFm (.fmWriteFnumLow inst port ch d) inst port (0xA0 + ch.setWidth 8) d (fun _ f =>
        let x := f.chans.get c
        let high := f.reg port (0xA4 + ch.setWidth 8)
        { f with chans := f.chans.set c { x with freqs := { x.freqs with f0 := freqFrom high d } } }) ∧
      writesFm (.fmWriteFbAlgo inst port ch d) inst port (0xB0 + ch.setWidth 8) d (fun _ f =>
        { f with chans := f.chans.set c { f.chans.get c with fb := d.extractLsb' 3 3, algo := d.extractLsb' 0 3 } }) ∧
      writesFm (.fmWritePan inst port ch d) inst port (0xB4 + ch.setWidth 8) d (fun _ f =>
        let x := f.chans.get c
        let pan := { x with panL := bit d 7, panR := bit d 6, ams := d.extractLsb' 4 2, fms := d.extractLsb' 0 3 }
        { f with chans := f.chans.set c pan })) ∧
    (ch = 3 →
      writesFm (.fmWriteFnumLow inst port ch d) inst port 0xA3 d (fun _ f => f) ∧
      writesFm (.fmWriteFbAlgo inst port ch d) inst port 0xB3 d (fun _ f => f) ∧
      writesFm (.fmWritePan inst port ch d) inst port 0xB7 d (fun _ f => f) ∧
      writesFm (.fmWriteSplitLow inst ch d) inst .p0 0xAB d (fun _ f => f)) ∧
    (ch ≠ 3 → writesFm (.fmWriteSplitLow inst ch d) inst .p0 (0xA8 + ch.setWidth 8) d (fun _ f =>
      let freqs := f.chans.c2.freqs.set (ch + 1) (freqFrom (f.reg .p0 (0xAC + ch.setWidth 8)) d)
      { f with chans := { f.chans with c2 := { f.chans.c2 with freqs := freqs } } })) ∧
    writesFm (.fmWriteFnumHigh inst port ch d) inst port (0xA4 + ch.setWidth 8) d (fun _ f => f) ∧
    writesFm (.fmWriteSplitHigh inst ch d) inst .p0 (0xAC + ch.setWidth 8) d (fun _ f => f) ∧
    writesFm (.fmWriteNoEffect inst port addr d) inst port addr d (fun _ f => f)

/-- R430, R431: FM_WRITE at any address of either port that is not refused completes with result 0, stores its byte in the
image of its port, and leaves the other image, the other instance, and the channels of the other port as before. (A key write,
port 0 address 0x28, reaches the channels of both ports, R437: entry 17 of the log. An address 0x93, 0x97, 0x9B or 0x9F names no
operator, so it is not refused: entry 11.) -/
def Obligations.FmWritesStayInTheirPort : Prop :=
  ∀ (inst sel : BitVec 4) (n : BitVec 1) (addr data : Byte) (s : State),
    s.fault = none → inst.toNat = n.toNat → n.toNat < s.params.nFm → sel = 0 ∨ sel = 1 →
    ¬ (sel = 0 ∧ addr = 0x27 ∧ bit data 7 = true) →
    ¬ (addr.extractLsb' 4 4 = 9 ∧ addr.extractLsb' 0 2 ≠ 3 ∧ bit data 3 = true) →
    ∃ f, exec (.fmWrite inst sel addr data) s = .next (State.done { s with fm := s.fm.set n f } 0) ∧
      let g := s.fm.get n
      let port : FmPort := if sel = 0 then .p0 else .p1
      (∀ a, f.reg port a = if a = addr then data else g.reg port a) ∧
      (sel = 0 → f.reg1 = g.reg1 ∧
        (addr ≠ 0x28 → f.chans.c3 = g.chans.c3 ∧ f.chans.c4 = g.chans.c4 ∧ f.chans.c5 = g.chans.c5)) ∧
      (sel = 1 → f = { g with reg1 := f.reg1, chans := f.chans } ∧ f.chans.c0 = g.chans.c0 ∧ f.chans.c1 = g.chans.c1 ∧
        f.chans.c2 = g.chans.c2) ∧
      f.clock = g.clock ∧ f.rate = g.rate

/-- R533, R534: FM_RESET keeps the rates and the ports; FM_SET_RATE sets the rates and nothing else, and refuses a zero. -/
def Obligations.FmSetRateAndResetComplete : Prop :=
  ∀ (inst : BitVec 4) (n : BitVec 1) (clock rate : Word) (s : State),
    s.fault = none → inst.toNat = n.toNat → n.toNat < s.params.nFm →
    (let fresh := { (State.powerOn s.params).fm.get n with clock := (s.fm.get n).clock, rate := (s.fm.get n).rate }
     exec (.fmReset inst) s = .next (State.done { s with fm := s.fm.set n fresh } 0)) ∧
    (let f := { s.fm.get n with clock := clock, rate := rate }
     clock ≠ 0 → rate ≠ 0 → exec (.fmSetRate inst clock rate) s = .next (State.done { s with fm := s.fm.set n f } 0)) ∧
    (clock = 0 ∨ rate = 0 →
      exec (.fmSetRate inst clock rate) s = .next (s.faulted .badRate (n.setWidth 32)))

/-- R530, R535: FM_RENDER on a configured instance completes for every count and changes only that instance and its port; no
frame changes nothing, and rendering `a + b` frames is rendering `a` and then `b`. An instance without rates faults. -/
def Obligations.FmRenderCompletes : Prop :=
  ∀ (inst : BitVec 4) (n : BitVec 1) (s : State), s.fault = none → inst.toNat = n.toNat → n.toNat < s.params.nFm →
    ((s.fm.get n).clock = 0 ∨ (s.fm.get n).rate = 0 → ∀ count,
      exec (.fmRender inst count) s = .next (s.faulted .notConfigured (n.setWidth 32))) ∧
    ((s.fm.get n).clock ≠ 0 → (s.fm.get n).rate ≠ 0 →
      exec (.fmRender inst 0) s = .next (s.done 0) ∧
      (∀ count, ∃ f frames, frames.length = count.toNat ∧
        exec (.fmRender inst count) s = .next (State.done
          { s with fm := s.fm.set n f, fmOut := s.fmOut.set n (s.fmOut.get n ++ frames) } count) ∧
        f.clock = (s.fm.get n).clock ∧ f.rate = (s.fm.get n).rate) ∧
      ∀ a b : Word, a.toNat + b.toNat < 2 ^ 32 →
        ∃ t u v, exec (.fmRender inst a) s = .next t ∧ exec (.fmRender inst b) t = .next u ∧
          exec (.fmRender inst (a + b)) s = .next v ∧ u.fm = v.fm ∧ u.fmOut = v.fmOut)

/-- R521: for an algorithm, the operators whose outputs modulate operators 2, 3 and 4, and the carriers. -/
def algorithmRow (algo : BitVec 3) : List OpNum × List OpNum × List OpNum × List OpNum :=
  let o1 := OpNum.op1; let o2 := OpNum.op2; let o3 := OpNum.op3; let o4 := OpNum.op4
  if algo = 0 then ([o1], [o2], [o3], [o4])
  else if algo = 1 then ([], [o1, o2], [o3], [o4])
  else if algo = 2 then ([], [o2], [o1, o3], [o4])
  else if algo = 3 then ([o1], [], [o2, o3], [o4])
  else if algo = 4 then ([o1], [], [o3], [o2, o4])
  else if algo = 5 then ([o1], [o1], [o1], [o2, o3, o4])
  else if algo = 6 then ([o1], [], [], [o2, o3, o4])
  else ([], [], [], [o1, o2, o3, o4])

/-- R482: the phase increment of operator `k` of channel `c` in a frame that starts at `f`. -/
def framePhaseInc (f : Fm) (c : ChNum) (k : OpNum) : Word :=
  let x := f.chans.get c
  let o := x.ops.get k
  let split : Bool := decide (c = .ch2) && decide (f.mode27.extractLsb' 6 2 = 1#2)
  let fr := if split then (match k with
      | .op1 => x.freqs.f2
      | .op2 => x.freqs.f3
      | .op3 => x.freqs.f1
      | .op4 => x.freqs.f0) else x.freqs.f0
  let fn : BitVec 11 := if f.lfoEn = true ∧ x.fms ≠ 0 then
    BitVec.ofInt 11 ((fr.fnum.toNat : Int) + fmLfoPm f.lfoCnt x.fms fr.fnum) else fr.fnum
  let base : Int := ((Config.fmFreq f.clock f.rate fn / 2 ^ (7 - fr.block.toNat) : Nat) : Int) +
    Config.fmDt f.clock f.rate o.dt fr.kc
  BitVec.ofNat 32 ((base % 2 ^ 32).toNat * (if o.mul = 0 then 1 else 2 * o.mul.toNat) / 2)

/-- R483, R489, R491: the output of operator `k` with phase offset `off`. -/
def frameOpOut (p : Params) (f : Fm) (c : ChNum) (k : OpNum) (off : Int) : Int :=
  let x := f.chans.get c
  let o := x.ops.get k
  let am := if f.lfoEn = true ∧ o.amEn = 1 then fmLfoAm f.lfoCnt x.ams else 0
  fmOpOut p (BitVec.ofInt 12 ((o.phaseCnt.toNat / 2 ^ p.fmPhaseShift : Nat) + off)) (o.egLvl + fmTl p o.tl + am)

/-- R521, R522, R523: `v` are operator outputs of channel `c` in a frame that starts at `f`. -/
def frameOutputs (p : Params) (f : Fm) (c : ChNum) (v : OpNum → Int) : Prop :=
  let x := f.chans.get c
  let row := algorithmRow x.algo
  let offset (l : List OpNum) : Int := (l.map v).sum / 2 ^ p.fmModShift
  v .op1 = frameOpOut p f c .op1
    (if x.fb = 0 then 0 else (sext x.fbH1 + sext x.fbH2) / 2 ^ p.fmFbShift.getD x.fb.toNat 0) ∧
  v .op2 = frameOpOut p f c .op2 (offset row.1) ∧ v .op3 = frameOpOut p f c .op3 (offset row.2.1) ∧
  v .op4 = frameOpOut p f c .op4 (offset row.2.2.1)

/-- R521 to R526: the frame an instance puts out. Each channel's carriers are summed, shifted and clamped; in DAC mode channel 5
is the clamped DAC value; the pan bits choose the sides. -/
def Obligations.FmFrameOutput : Prop :=
  ∀ (inst : BitVec 4) (n : BitVec 1) (s : State), s.fault = none → inst.toNat = n.toNat → n.toNat < s.params.nFm →
    (s.fm.get n).clock ≠ 0 → (s.fm.get n).rate ≠ 0 →
    let f := s.fm.get n
    let lim : Int := s.params.fmChLimit
    ∃ (v : ChNum → OpNum → Int) (out : ChNum → Int) (t : State),
      (∀ c, frameOutputs s.params f c (v c)) ∧
      (∀ c, out c =
        if c = .ch5 ∧ f.dacEn = true then min (max (sext f.dacData) (-lim)) lim
        else min (max (((algorithmRow (f.chans.get c).algo).2.2.2.map (v c)).sum / 2 ^ s.params.fmOutShift) (-lim)) lim) ∧
      (∀ c, -lim ≤ out c ∧ out c ≤ lim) ∧
      exec (.fmRender inst 1) s = .next t ∧
      t.fmOut.get n = s.fmOut.get n ++
        [(wrap32 (([ChNum.ch0, .ch1, .ch2, .ch3, .ch4, .ch5].map fun c => if (f.chans.get c).panL then out c else 0).sum),
          wrap32 (([ChNum.ch0, .ch1, .ch2, .ch3, .ch4, .ch5].map fun c => if (f.chans.get c).panR then out c else 0).sum))]

/-- R486, R487: the envelope of an operator with key code `kc` after a frame. -/
def frameEnvelope (p : Params) (f : Fm) (kc : BitVec 5) (o : Operator) (lvl : Nat) (phase : EgPhase) : Prop :=
  let er (r : Nat) : Nat := if r = 0 then 0 else min 63 (2 * r + kc.toNat / 2 ^ (3 - o.ks.toNat))
  let inc (r : Nat) : Nat := fmRate f.clock f.rate o.egPhase (er r)
  match o.egPhase with
  | .attack => lvl = fmAttCurve o.egLvl (inc o.ar.toNat) ∧ phase = if lvl = 0 then .decay else .attack
  | .decay => lvl = min p.fmEnvMax (o.egLvl + inc o.d1r.toNat) ∧ phase = if fmSl p o.sl ≤ lvl then .sustain else .decay
  | .sustain => lvl = min p.fmEnvMax (o.egLvl + inc o.d2r.toNat) ∧ phase = .sustain
  | .release => lvl = min p.fmEnvMax (o.egLvl + inc (2 * o.rr.toNat + 1)) ∧ phase = .release

/-- R482, R483, R487, R491, R522, R524: what one frame advances. Every operator gets its phase increment, its phase and its
envelope; the feedback history takes operator 1's output; in DAC mode channel 5 keeps all of its state; the LFO runs while
enabled; registers stay. -/
def Obligations.FmFrameAdvances : Prop :=
  ∀ (inst : BitVec 4) (n : BitVec 1) (s : State), s.fault = none → inst.toNat = n.toNat → n.toNat < s.params.nFm →
    (s.fm.get n).clock ≠ 0 → (s.fm.get n).rate ≠ 0 →
    let f := s.fm.get n
    ∃ t, exec (.fmRender inst 1) s = .next t ∧
      let f' := t.fm.get n
      f' = { f with chans := f'.chans, lfoCnt := f'.lfoCnt } ∧
      f'.lfoCnt = (if f.lfoEn = true then f.lfoCnt + BitVec.ofNat 32 (Config.fmLfoInc f.clock f.rate f.lfoFreq)
        else f.lfoCnt) ∧
      (f.dacEn = true → f'.chans.c5 = f.chans.c5) ∧
      ∀ c, ¬ (c = .ch5 ∧ f.dacEn = true) →
        let x := f.chans.get c
        let x' := f'.chans.get c
        (∃ v, frameOutputs s.params f c v ∧ x' = { x with fbH1 := wrap32 (v .op1), fbH2 := x.fbH1, ops := x'.ops }) ∧
        ∀ k, let o := x.ops.get k
          let o' := x'.ops.get k
          o' = { o with phaseInc := framePhaseInc f c k, phaseCnt := o.phaseCnt + framePhaseInc f c k,
                        egPhase := o'.egPhase, egLvl := o'.egLvl } ∧
          frameEnvelope s.params f (f.opFreq c k).kc o o'.egLvl o'.egPhase

/-- The order of the envelope phases but for a key-on, R490: attack, decay, sustain, and release from any. -/
def phaseFollows (a b : EgPhase) : Prop :=
  a = b ∨ b = .release ∨ (a = .attack ∧ (b = .decay ∨ b = .sustain)) ∨ (a = .decay ∧ b = .sustain)

/-- R490, with the table constraints R488 and R489 that hold of every choice of the tables (entry 3 of the log): over any
command but a reset, an operator that is not keyed on has its envelope phase only go forward, and its level never rises in
attack nor falls in the other phases; FM_OPOUT is 0 from FM_ENV_MAX on. -/
def Obligations.EnvelopesAreMonotonic : Prop :=
  (∀ (i : Instr) (s t : State), (encode i).opc ≠ 0x01 → (encode i).opc ≠ 0x32 → (∀ n, (s.fm.get n).rangesOk s.params) →
    exec i s = .next t → ∀ n c k,
      let o := ((s.fm.get n).chans.get c).ops.get k
      let o' := ((t.fm.get n).chans.get c).ops.get k
      ¬ (o.key = false ∧ o'.key = true) →
      phaseFollows o.egPhase o'.egPhase ∧
      (o'.egPhase = .attack → o'.egLvl ≤ o.egLvl) ∧ (o.egPhase ≠ .attack → o.egLvl ≤ o'.egLvl)) ∧
  (∀ (p : Params) (clock rate : Word) (ph : EgPhase) (e inc : Nat),
    fmRate clock rate ph 0 = 0 ∧ fmAttCurve e 0 = e ∧ fmAttCurve e inc ≤ e ∧ fmSl p 0 = 0 ∧ fmTl p 0 = 0 ∧
    fmSl p 15 ≤ p.fmEnvMax ∧ fmTl p 127 ≤ p.fmEnvMax) ∧
  (∀ (p : Params) (a b : BitVec 4) (x y : BitVec 7),
    (a.toNat ≤ b.toNat → fmSl p a ≤ fmSl p b) ∧ (x.toNat ≤ y.toNat → fmTl p x ≤ fmTl p y)) ∧
  ∀ (p : Params) (i : BitVec 12) (att att' : Nat),
    (p.fmEnvMax ≤ att → fmOpOut p i att = 0) ∧ fmOpOut p (i + 2048) att = -fmOpOut p i att ∧
    (att ≤ att' → (fmOpOut p i att').natAbs ≤ (fmOpOut p i att).natAbs)

/-! ## Deltas and levels together -/

/-- R205, R207, R261, R265: for every OSC_* command but OSC_RESET, what a DSB holds changes by exactly 2^15 times what the
oscillators routed to it have emitted: no level is lost or put in twice, over runs, route changes and scale changes alike. -/
def Obligations.BufferContentFollowsLevels : Prop :=
  ∀ (i : Instr) (s t : State) (u : DsbName), s.params.wf = true → s.storesWf →
    (encode i).opc ∈ ([0x20, 0x21, 0x22, 0x23, 0x25] : List Byte) → exec i s = .next t →
    cellSum (t.mix.dsb u).cells - cellSum (s.mix.dsb u).cells = 0x8000 * (t.shares u - s.shares u)
end

