-- ==== Sys2Proof/Laws/Encoding.lean ====
section
/-! SUPPORT. The fields of W0 (spec 30_encoding.md R140): a word is its five fields put together, and each field reads back. -/

namespace Sys2Proof

/-- A word is the word of its fields. -/
theorem word0_fields (c : Command) : word0 c.opc c.inst c.sel c.addr c.data = c.w0 := by
  unfold word0 Command.opc Command.inst Command.sel Command.addr Command.data
  apply BitVec.eq_of_getLsbD_eq
  intro i hi
  simp only [BitVec.getLsbD_append, BitVec.getLsbD_extractLsb']
  have : i < 32 := hi
  interval_cases i <;> simp

/-- A field is the bits it has. -/
theorem extract_eq_of_bits {n w : Nat} {v : BitVec 32} {u : BitVec w}
    (h : ∀ j, j < w → v.getLsbD (n + j) = u.getLsbD j) : v.extractLsb' n w = u := by
  apply BitVec.eq_of_getLsbD_eq
  intro j hj
  simp only [BitVec.getLsbD_extractLsb', hj, decide_true, Bool.true_and]
  exact h j hj

/-- The fields of a word put together are those it was put together from. -/
theorem fields_word0 (opc : Byte) (inst sel : BitVec 4) (addr data : Byte) (a b : Word) :
    let c : Command := ⟨word0 opc inst sel addr data, a, b⟩
    c.opc = opc ∧ c.inst = inst ∧ c.sel = sel ∧ c.addr = addr ∧ c.data = data := by
  refine ⟨?_, ?_, ?_, ?_, ?_⟩ <;> apply extract_eq_of_bits <;> intro j hj <;> unfold word0 <;>
    simp only [BitVec.getLsbD_append] <;> interval_cases j <;> simp

end Sys2Proof
end

