-- ==== Sys2Proof/Laws/State.lean ====
section
/-! SUPPORT. What each named update of the state leaves of every field. -/

namespace Sys2Proof.Machine

/-! ## `takeFault`, `blockReset`, `placeCommand` -/

@[simp] theorem takeFault_params (r : Raise) (s : State) : (takeFault r s).params = s.params := rfl
@[simp] theorem takeFault_port (r : Raise) (s : State) : (takeFault r s).port = s.port := rfl
@[simp] theorem takeFault_cmdCount (r : Raise) (s : State) : (takeFault r s).cmdCount = s.cmdCount + 1 := rfl
@[simp] theorem takeFault_fault (r : Raise) (s : State) : (takeFault r s).fault = some ⟨r.code, s.cmdCount, r.info⟩ := rfl
@[simp] theorem takeFault_result (r : Raise) (s : State) : (takeFault r s).result = s.result := rfl
@[simp] theorem takeFault_pcmOut (r : Raise) (s : State) : (takeFault r s).pcmOut = s.pcmOut := rfl
@[simp] theorem takeFault_fmOut (r : Raise) (s : State) : (takeFault r s).fmOut = s.fmOut := rfl
@[simp] theorem takeFault_mix (r : Raise) (s : State) : (takeFault r s).mix = s.mix := rfl
@[simp] theorem takeFault_psg (r : Raise) (s : State) : (takeFault r s).psg = s.psg := rfl
@[simp] theorem takeFault_hh (r : Raise) (s : State) : (takeFault r s).hh = s.hh := rfl
@[simp] theorem takeFault_tri (r : Raise) (s : State) : (takeFault r s).tri = s.tri := rfl
@[simp] theorem takeFault_fm (r : Raise) (s : State) : (takeFault r s).fm = s.fm := rfl
@[simp] theorem takeFault_freeCount (r : Raise) (s : State) : (takeFault r s).freeCount = s.freeCount := rfl

@[simp] theorem blockReset_params (s : State) : (blockReset s).params = s.params := rfl
@[simp] theorem blockReset_port (s : State) : (blockReset s).port = s.port := rfl
@[simp] theorem blockReset_cmdCount (s : State) : (blockReset s).cmdCount = 0 := rfl
@[simp] theorem blockReset_fault (s : State) : (blockReset s).fault = none := rfl
@[simp] theorem blockReset_result (s : State) : (blockReset s).result = 0 := rfl
@[simp] theorem blockReset_pcmOut (s : State) : (blockReset s).pcmOut = s.pcmOut := rfl
@[simp] theorem blockReset_fmOut (s : State) : (blockReset s).fmOut = s.fmOut := rfl
@[simp] theorem blockReset_mix (s : State) : (blockReset s).mix = .reset := rfl
@[simp] theorem blockReset_psg (s : State) : (blockReset s).psg = ⟨.reset s.params, .reset s.params⟩ := rfl
@[simp] theorem blockReset_hh (s : State) : (blockReset s).hh = .reset s.params := rfl
@[simp] theorem blockReset_tri (s : State) : (blockReset s).tri = .reset s.params := rfl
@[simp] theorem blockReset_fm (s : State) : (blockReset s).fm = ⟨.reset s.params 0 0, .reset s.params 0 0⟩ := rfl
@[simp] theorem blockReset_freeCount (s : State) : (blockReset s).freeCount = s.freeCount := rfl

@[simp] theorem placeCommand_params (c : Command) (s : State) : (placeCommand c s).params = s.params := rfl
@[simp] theorem placeCommand_port (c : Command) (s : State) : (placeCommand c s).port = c :: s.port := rfl
@[simp] theorem placeCommand_cmdCount (c : Command) (s : State) : (placeCommand c s).cmdCount = s.cmdCount := rfl
@[simp] theorem placeCommand_fault (c : Command) (s : State) : (placeCommand c s).fault = s.fault := rfl
@[simp] theorem placeCommand_result (c : Command) (s : State) : (placeCommand c s).result = s.result := rfl
@[simp] theorem placeCommand_pcmOut (c : Command) (s : State) : (placeCommand c s).pcmOut = s.pcmOut := rfl
@[simp] theorem placeCommand_fmOut (c : Command) (s : State) : (placeCommand c s).fmOut = s.fmOut := rfl
@[simp] theorem placeCommand_mix (c : Command) (s : State) : (placeCommand c s).mix = s.mix := rfl
@[simp] theorem placeCommand_psg (c : Command) (s : State) : (placeCommand c s).psg = s.psg := rfl
@[simp] theorem placeCommand_hh (c : Command) (s : State) : (placeCommand c s).hh = s.hh := rfl
@[simp] theorem placeCommand_tri (c : Command) (s : State) : (placeCommand c s).tri = s.tri := rfl
@[simp] theorem placeCommand_fm (c : Command) (s : State) : (placeCommand c s).fm = s.fm := rfl
@[simp] theorem placeCommand_freeCount (c : Command) (s : State) : (placeCommand c s).freeCount = s.freeCount := rfl

/-! ## The mix stage -/

@[simp] theorem mapDsbs_sampleRate (m : Mix) (f : Dsb → Dsb) : (m.mapDsbs f).sampleRate = m.sampleRate := rfl
@[simp] theorem mapDsbs_clockRate (m : Mix) (f : Dsb → Dsb) : (m.mapDsbs f).clockRate = m.clockRate := rfl
@[simp] theorem mapDsbs_factor (m : Mix) (f : Dsb → Dsb) : (m.mapDsbs f).factor = m.factor := rfl
@[simp] theorem mapDsbs_cap (m : Mix) (f : Dsb → Dsb) : (m.mapDsbs f).cap = m.cap := rfl
@[simp] theorem mapDsbs_dirty (m : Mix) (f : Dsb → Dsb) : (m.mapDsbs f).dirty = m.dirty := rfl
@[simp] theorem mapDsbs_center (m : Mix) (f : Dsb → Dsb) : (m.mapDsbs f).center = f m.center := rfl
@[simp] theorem mapDsbs_left (m : Mix) (f : Dsb → Dsb) : (m.mapDsbs f).left = f m.left := rfl
@[simp] theorem mapDsbs_right (m : Mix) (f : Dsb → Dsb) : (m.mapDsbs f).right = f m.right := rfl

@[simp] theorem setDsb_sampleRate (m : Mix) (u : DsbName) (d : Dsb) : (m.setDsb u d).sampleRate = m.sampleRate := by cases u <;> rfl
@[simp] theorem setDsb_clockRate (m : Mix) (u : DsbName) (d : Dsb) : (m.setDsb u d).clockRate = m.clockRate := by cases u <;> rfl
@[simp] theorem setDsb_factor (m : Mix) (u : DsbName) (d : Dsb) : (m.setDsb u d).factor = m.factor := by cases u <;> rfl
@[simp] theorem setDsb_cap (m : Mix) (u : DsbName) (d : Dsb) : (m.setDsb u d).cap = m.cap := by cases u <;> rfl
@[simp] theorem setDsb_dirty (m : Mix) (u : DsbName) (d : Dsb) : (m.setDsb u d).dirty = m.dirty := by cases u <;> rfl
@[simp] theorem setDsb_dsb_self (m : Mix) (u : DsbName) (d : Dsb) : (m.setDsb u d).dsb u = d := by cases u <;> rfl
theorem setDsb_dsb_ne (m : Mix) {u v : DsbName} (d : Dsb) (h : v ≠ u) : (m.setDsb u d).dsb v = m.dsb v := by
  cases u <;> cases v <;> first | rfl | exact absurd rfl h

@[simp] theorem setAccums_sampleRate (m : Mix) (a : Accums) : (m.setAccums a).sampleRate = m.sampleRate := rfl
@[simp] theorem setAccums_clockRate (m : Mix) (a : Accums) : (m.setAccums a).clockRate = m.clockRate := rfl
@[simp] theorem setAccums_factor (m : Mix) (a : Accums) : (m.setAccums a).factor = m.factor := rfl
@[simp] theorem setAccums_cap (m : Mix) (a : Accums) : (m.setAccums a).cap = m.cap := rfl
@[simp] theorem setAccums_dirty (m : Mix) (a : Accums) : (m.setAccums a).dirty = m.dirty := rfl
@[simp] theorem setAccums_center (m : Mix) (a : Accums) : (m.setAccums a).center = { m.center with accum := a.center } := rfl
@[simp] theorem setAccums_left (m : Mix) (a : Accums) : (m.setAccums a).left = { m.left with accum := a.left } := rfl
@[simp] theorem setAccums_right (m : Mix) (a : Accums) : (m.setAccums a).right = { m.right with accum := a.right } := rfl

@[simp] theorem removeSamples_sampleRate (m : Mix) (n : Nat) : (m.removeSamples n).sampleRate = m.sampleRate := rfl
@[simp] theorem removeSamples_clockRate (m : Mix) (n : Nat) : (m.removeSamples n).clockRate = m.clockRate := rfl
@[simp] theorem removeSamples_factor (m : Mix) (n : Nat) : (m.removeSamples n).factor = m.factor := rfl
@[simp] theorem removeSamples_cap (m : Mix) (n : Nat) : (m.removeSamples n).cap = m.cap := rfl
@[simp] theorem removeSamples_dirty (m : Mix) (n : Nat) : (m.removeSamples n).dirty = m.dirty := rfl
@[simp] theorem removeSamples_center (m : Mix) (n : Nat) : (m.removeSamples n).center = 
    { m.center with cells := Store.shift m.center.cells n, offset := m.center.offset - n * 2 ^ Config.timeBits } := rfl
@[simp] theorem removeSamples_left (m : Mix) (n : Nat) : (m.removeSamples n).left = 
    { m.left with cells := Store.shift m.left.cells n, offset := m.left.offset - n * 2 ^ Config.timeBits } := rfl
@[simp] theorem removeSamples_right (m : Mix) (n : Nat) : (m.removeSamples n).right = 
    { m.right with cells := Store.shift m.right.cells n, offset := m.right.offset - n * 2 ^ Config.timeBits } := rfl
@[simp] theorem clearDsbs_sampleRate (m : Mix) : m.clearDsbs.sampleRate = m.sampleRate := rfl
@[simp] theorem clearDsbs_clockRate (m : Mix) : m.clearDsbs.clockRate = m.clockRate := rfl
@[simp] theorem clearDsbs_factor (m : Mix) : m.clearDsbs.factor = m.factor := rfl
@[simp] theorem clearDsbs_cap (m : Mix) : m.clearDsbs.cap = m.cap := rfl
@[simp] theorem clearDsbs_dirty (m : Mix) : m.clearDsbs.dirty = m.dirty := rfl
@[simp] theorem clearDsbs_center (m : Mix) : m.clearDsbs.center = .reset := rfl
@[simp] theorem clearDsbs_left (m : Mix) : m.clearDsbs.left = .reset := rfl
@[simp] theorem clearDsbs_right (m : Mix) : m.clearDsbs.right = .reset := rfl

/-! ## The HH group -/

@[simp] theorem setReg_regs (h : Hh) (a : Nat) (v : Byte) : (h.setReg a v).regs = Store.set h.regs a v := rfl
@[simp] theorem setReg_framePhase (h : Hh) (a : Nat) (v : Byte) : (h.setReg a v).framePhase = h.framePhase := rfl
@[simp] theorem setReg_nextFrameTime (h : Hh) (a : Nat) (v : Byte) : (h.setReg a v).nextFrameTime = h.nextFrameTime := rfl
@[simp] theorem setReg_volScale (h : Hh) (a : Nat) (v : Byte) : (h.setReg a v).volScale = h.volScale := rfl
@[simp] theorem setReg_lastTime (h : Hh) (a : Nat) (v : Byte) : (h.setReg a v).lastTime = h.lastTime := rfl
@[simp] theorem setReg_sq1 (h : Hh) (a : Nat) (v : Byte) : (h.setReg a v).sq1 = h.sq1 := rfl
@[simp] theorem setReg_sweep (h : Hh) (a : Nat) (v : Byte) : (h.setReg a v).sweep = h.sweep := rfl
@[simp] theorem setReg_sq2 (h : Hh) (a : Nat) (v : Byte) : (h.setReg a v).sq2 = h.sq2 := rfl
@[simp] theorem setReg_wave (h : Hh) (a : Nat) (v : Byte) : (h.setReg a v).wave = h.wave := rfl
@[simp] theorem setReg_noise (h : Hh) (a : Nat) (v : Byte) : (h.setReg a v).noise = h.noise := rfl

@[simp] theorem disableSq1_regs (h : Hh) : h.disableSq1.regs = h.regs := rfl
@[simp] theorem disableSq1_framePhase (h : Hh) : h.disableSq1.framePhase = h.framePhase := rfl
@[simp] theorem disableSq1_nextFrameTime (h : Hh) : h.disableSq1.nextFrameTime = h.nextFrameTime := rfl
@[simp] theorem disableSq1_volScale (h : Hh) : h.disableSq1.volScale = h.volScale := rfl
@[simp] theorem disableSq1_lastTime (h : Hh) : h.disableSq1.lastTime = h.lastTime := rfl
@[simp] theorem disableSq1_sweep (h : Hh) : h.disableSq1.sweep = h.sweep := rfl
@[simp] theorem disableSq1_sq2 (h : Hh) : h.disableSq1.sq2 = h.sq2 := rfl
@[simp] theorem disableSq1_wave (h : Hh) : h.disableSq1.wave = h.wave := rfl
@[simp] theorem disableSq1_noise (h : Hh) : h.disableSq1.noise = h.noise := rfl
@[simp] theorem reloadSweep_regs (h : Hh) : h.reloadSweep.regs = h.regs := rfl
@[simp] theorem reloadSweep_framePhase (h : Hh) : h.reloadSweep.framePhase = h.framePhase := rfl
@[simp] theorem reloadSweep_nextFrameTime (h : Hh) : h.reloadSweep.nextFrameTime = h.nextFrameTime := rfl
@[simp] theorem reloadSweep_volScale (h : Hh) : h.reloadSweep.volScale = h.volScale := rfl
@[simp] theorem reloadSweep_lastTime (h : Hh) : h.reloadSweep.lastTime = h.lastTime := rfl
@[simp] theorem reloadSweep_sq1 (h : Hh) : h.reloadSweep.sq1 = h.sq1 := rfl
@[simp] theorem reloadSweep_sq2 (h : Hh) : h.reloadSweep.sq2 = h.sq2 := rfl
@[simp] theorem reloadSweep_wave (h : Hh) : h.reloadSweep.wave = h.wave := rfl
@[simp] theorem reloadSweep_noise (h : Hh) : h.reloadSweep.noise = h.noise := rfl

/-! ## An FM instance -/

@[simp] theorem fmSetReg_clock (f : Fm) (p : FmPort) (a d : Byte) : (f.setReg p a d).clock = f.clock := by cases p <;> rfl
@[simp] theorem fmSetReg_rate (f : Fm) (p : FmPort) (a d : Byte) : (f.setReg p a d).rate = f.rate := by cases p <;> rfl
@[simp] theorem fmSetReg_lfoEn (f : Fm) (p : FmPort) (a d : Byte) : (f.setReg p a d).lfoEn = f.lfoEn := by cases p <;> rfl
@[simp] theorem fmSetReg_lfoFreq (f : Fm) (p : FmPort) (a d : Byte) : (f.setReg p a d).lfoFreq = f.lfoFreq := by cases p <;> rfl
@[simp] theorem fmSetReg_lfoCnt (f : Fm) (p : FmPort) (a d : Byte) : (f.setReg p a d).lfoCnt = f.lfoCnt := by cases p <;> rfl
@[simp] theorem fmSetReg_mode27 (f : Fm) (p : FmPort) (a d : Byte) : (f.setReg p a d).mode27 = f.mode27 := by cases p <;> rfl
@[simp] theorem fmSetReg_dacEn (f : Fm) (p : FmPort) (a d : Byte) : (f.setReg p a d).dacEn = f.dacEn := by cases p <;> rfl
@[simp] theorem fmSetReg_dacData (f : Fm) (p : FmPort) (a d : Byte) : (f.setReg p a d).dacData = f.dacData := by cases p <;> rfl
@[simp] theorem fmSetReg_chans (f : Fm) (p : FmPort) (a d : Byte) : (f.setReg p a d).chans = f.chans := by cases p <;> rfl

@[simp] theorem mapChan_reg0 (f : Fm) (c : ChNum) (g : Channel → Channel) : (f.mapChan c g).reg0 = f.reg0 := rfl
@[simp] theorem mapChan_reg1 (f : Fm) (c : ChNum) (g : Channel → Channel) : (f.mapChan c g).reg1 = f.reg1 := rfl
@[simp] theorem mapChan_clock (f : Fm) (c : ChNum) (g : Channel → Channel) : (f.mapChan c g).clock = f.clock := rfl
@[simp] theorem mapChan_rate (f : Fm) (c : ChNum) (g : Channel → Channel) : (f.mapChan c g).rate = f.rate := rfl
@[simp] theorem mapChan_lfoEn (f : Fm) (c : ChNum) (g : Channel → Channel) : (f.mapChan c g).lfoEn = f.lfoEn := rfl
@[simp] theorem mapChan_lfoFreq (f : Fm) (c : ChNum) (g : Channel → Channel) : (f.mapChan c g).lfoFreq = f.lfoFreq := rfl
@[simp] theorem mapChan_lfoCnt (f : Fm) (c : ChNum) (g : Channel → Channel) : (f.mapChan c g).lfoCnt = f.lfoCnt := rfl
@[simp] theorem mapChan_mode27 (f : Fm) (c : ChNum) (g : Channel → Channel) : (f.mapChan c g).mode27 = f.mode27 := rfl
@[simp] theorem mapChan_dacEn (f : Fm) (c : ChNum) (g : Channel → Channel) : (f.mapChan c g).dacEn = f.dacEn := rfl
@[simp] theorem mapChan_dacData (f : Fm) (c : ChNum) (g : Channel → Channel) : (f.mapChan c g).dacData = f.dacData := rfl
@[simp] theorem mapChanOpt_reg0 (f : Fm) (c : Option ChNum) (g : Channel → Channel) : (f.mapChan? c g).reg0 = f.reg0 := by cases c <;> rfl
@[simp] theorem mapChanOpt_reg1 (f : Fm) (c : Option ChNum) (g : Channel → Channel) : (f.mapChan? c g).reg1 = f.reg1 := by cases c <;> rfl
@[simp] theorem mapChanOpt_clock (f : Fm) (c : Option ChNum) (g : Channel → Channel) : (f.mapChan? c g).clock = f.clock := by cases c <;> rfl
@[simp] theorem mapChanOpt_rate (f : Fm) (c : Option ChNum) (g : Channel → Channel) : (f.mapChan? c g).rate = f.rate := by cases c <;> rfl
@[simp] theorem mapChanOpt_lfoEn (f : Fm) (c : Option ChNum) (g : Channel → Channel) : (f.mapChan? c g).lfoEn = f.lfoEn := by cases c <;> rfl
@[simp] theorem mapChanOpt_lfoFreq (f : Fm) (c : Option ChNum) (g : Channel → Channel) : (f.mapChan? c g).lfoFreq = f.lfoFreq := by cases c <;> rfl
@[simp] theorem mapChanOpt_lfoCnt (f : Fm) (c : Option ChNum) (g : Channel → Channel) : (f.mapChan? c g).lfoCnt = f.lfoCnt := by cases c <;> rfl
@[simp] theorem mapChanOpt_mode27 (f : Fm) (c : Option ChNum) (g : Channel → Channel) : (f.mapChan? c g).mode27 = f.mode27 := by cases c <;> rfl
@[simp] theorem mapChanOpt_dacEn (f : Fm) (c : Option ChNum) (g : Channel → Channel) : (f.mapChan? c g).dacEn = f.dacEn := by cases c <;> rfl
@[simp] theorem mapChanOpt_dacData (f : Fm) (c : Option ChNum) (g : Channel → Channel) : (f.mapChan? c g).dacData = f.dacData := by cases c <;> rfl

/-! ## The fixed groups -/

@[simp] theorem two_get_set_self {α : Type} (v : Two α) (i : BitVec 1) (x : α) : (v.set i x).get i = x := by
  unfold Two.get Two.set; split <;> rfl
theorem two_get_set_ne {α : Type} (v : Two α) {i j : BitVec 1} (x : α) (h : j ≠ i) : (v.set i x).get j = v.get j := by
  have e : ∀ k : BitVec 1, k = 0#1 ∨ k = 1#1 := by decide
  rcases e i with rfl | rfl <;> rcases e j with rfl | rfl <;> first | rfl | exact absurd rfl h
@[simp] theorem two_set_get {α : Type} (v : Two α) (i : BitVec 1) : v.set i (v.get i) = v := by
  unfold Two.get Two.set; split <;> rfl
@[simp] theorem chans_get_set_self {α : Type} (v : Chans α) (c : ChNum) (x : α) : (v.set c x).get c = x := by
  cases c <;> rfl
theorem chans_get_set_ne {α : Type} (v : Chans α) {c d : ChNum} (x : α) (h : d ≠ c) : (v.set c x).get d = v.get d := by
  cases c <;> cases d <;> first | rfl | exact absurd rfl h
@[simp] theorem ops_get_set_self {α : Type} (v : Ops4 α) (k : OpNum) (x : α) : (v.set k x).get k = x := by
  cases k <;> rfl
theorem ops_get_set_ne {α : Type} (v : Ops4 α) {k l : OpNum} (x : α) (h : l ≠ k) : (v.set k x).get l = v.get l := by
  cases k <;> cases l <;> first | rfl | exact absurd rfl h

/-! ## What an envelope's trigger latches, entry 20 of the log -/

@[simp] theorem Env.reload_volume (e : Env) : e.reload.volume = e.volume := rfl
@[simp] theorem Env.reload_enabled (e : Env) : e.reload.enabled = e.enabled := rfl
@[simp] theorem Env.reload_period (e : Env) : e.reload.period = e.period := rfl
@[simp] theorem Env.reload_rising (e : Env) : e.reload.rising = e.rising := rfl

@[simp] theorem Env.clock_period (e : Env) : e.clock.period = e.period := by
  unfold Env.clock; repeat' split
  all_goals rfl

@[simp] theorem Env.clock_rising (e : Env) : e.clock.rising = e.rising := by
  unfold Env.clock; repeat' split
  all_goals rfl

@[simp] theorem envStart_volume (ph : BitVec 3) (d : Byte) : (envStart ph d).volume = d.extractLsb' 4 4 := by
  unfold envStart; split <;> rfl

@[simp] theorem envStart_enabled (ph : BitVec 3) (d : Byte) : (envStart ph d).enabled = true := by
  unfold envStart; split <;> rfl

@[simp] theorem envStart_period (ph : BitVec 3) (d : Byte) : (envStart ph d).period = d.extractLsb' 0 3 := by
  unfold envStart; split <;> rfl

@[simp] theorem envStart_rising (ph : BitVec 3) (d : Byte) : (envStart ph d).rising = bit d 3 := by
  unfold envStart; split <;> rfl

end Sys2Proof.Machine
end

