-- ==== Sys2Proof/Laws/Store.lean ====
section
/-! SUPPORT. Stores: reading after a write, the canonical form, and equality of canonical stores that read the same. -/

namespace Sys2Proof.Machine

variable {w : Nat}

/-- Reading after an insertion. -/
theorem store_get_put (s : Store w) (a b : Nat) (v : BitVec w) :
    Store.get (Store.put s a v) b = if b = a then v else Store.get s b := by
  induction s with
  | nil => simp [Store.put, Store.get]
  | cons e s ih =>
    obtain ⟨c, x⟩ := e
    simp only [Store.put]
    by_cases h1 : a < c
    · simp [h1, Store.get]
    · rw [if_neg h1]
      by_cases h2 : a = c
      · subst h2; by_cases h : b = a <;> simp [Store.get, h]
      · rw [if_neg h2]; simp only [Store.get, ih]
        by_cases h : b = c
        · subst h; rw [if_pos rfl, if_neg (fun e => h2 e.symm), if_pos rfl]
        · rw [if_neg h, if_neg h]

/-- Reading after the cell at `a` is removed. -/
theorem store_get_remove (s : Store w) (a b : Nat) :
    Store.get (s.filter fun e => decide (e.1 ≠ a)) b = if b = a then 0 else Store.get s b := by
  induction s with
  | nil => simp [Store.get]
  | cons e s ih =>
    obtain ⟨c, x⟩ := e
    by_cases h1 : c = a
    · subst h1
      rw [List.filter_cons_of_neg (by simp), ih]
      by_cases h : b = c <;> simp [Store.get, h]
    · rw [List.filter_cons_of_pos (by simp [h1])]
      simp only [Store.get, ih]
      by_cases h : b = c
      · subst h; rw [if_pos rfl, if_neg h1, if_pos rfl]
      · rw [if_neg h, if_neg h]

/-- Reading after a write gives the value written at its address, and what was there at any other. -/
theorem store_get_set (s : Store w) (a b : Nat) (v : BitVec w) :
    Store.get (Store.set s a v) b = if b = a then v else Store.get s b := by
  unfold Store.set
  split
  · next h => rw [store_get_remove, h]
  · exact store_get_put s a b v

/-- Reading the cell written. -/
theorem store_get_set_self (s : Store w) (a : Nat) (v : BitVec w) : Store.get (Store.set s a v) a = v := by
  rw [store_get_set, if_pos rfl]

/-- Reading another cell. -/
theorem store_get_set_ne (s : Store w) {a b : Nat} (v : BitVec w) (h : b ≠ a) :
    Store.get (Store.set s a v) b = Store.get s b := by
  rw [store_get_set, if_neg h]

/-! ## The canonical form -/

/-- The canonical form from a lower bound is one from any smaller bound. -/
theorem store_wfFrom_mono {s : Store w} {lo lo' : Nat} (h : Store.wfFrom lo s = true) (hl : lo' ≤ lo) :
    Store.wfFrom lo' s = true := by
  cases s with
  | nil => rfl
  | cons e s =>
    simp only [Store.wfFrom, Bool.and_eq_true, decide_eq_true_eq] at h ⊢
    exact ⟨⟨by omega, h.1.2⟩, h.2⟩

/-- Below its first address a canonical store reads 0. -/
theorem store_get_below {s : Store w} {lo a : Nat} (h : Store.wfFrom lo s = true) (ha : a < lo) : Store.get s a = 0 := by
  induction s generalizing lo with
  | nil => rfl
  | cons e s ih =>
    simp only [Store.wfFrom, Bool.and_eq_true, decide_eq_true_eq] at h
    simp only [Store.get]
    rw [if_neg (by omega)]
    exact ih h.2 (by omega)

/-- Insertion keeps the canonical form. -/
theorem store_wfFrom_put {s : Store w} {lo a : Nat} {v : BitVec w} (h : Store.wfFrom lo s = true) (hl : lo ≤ a)
    (hv : v ≠ 0) : Store.wfFrom lo (Store.put s a v) = true := by
  induction s generalizing lo with
  | nil =>
    simp only [Store.put, Store.wfFrom, Bool.and_eq_true, decide_eq_true_eq, and_true]
    exact ⟨hl, hv⟩
  | cons e s ih =>
    simp only [Store.wfFrom, Bool.and_eq_true, decide_eq_true_eq] at h
    simp only [Store.put]
    split
    · simp only [Store.wfFrom, Bool.and_eq_true, decide_eq_true_eq]
      exact ⟨⟨hl, hv⟩, ⟨by omega, h.1.2⟩, h.2⟩
    · split
      · next h2 => subst h2; simp only [Store.wfFrom, Bool.and_eq_true, decide_eq_true_eq]; exact ⟨⟨hl, hv⟩, h.2⟩
      · simp only [Store.wfFrom, Bool.and_eq_true, decide_eq_true_eq]
        exact ⟨h.1, ih h.2 (by omega)⟩

/-- Dropping cells keeps the canonical form. -/
theorem store_wfFrom_filter {s : Store w} {lo : Nat} (p : Nat × BitVec w → Bool) (h : Store.wfFrom lo s = true) :
    Store.wfFrom lo (s.filter p) = true := by
  induction s generalizing lo with
  | nil => rfl
  | cons e s ih =>
    simp only [Store.wfFrom, Bool.and_eq_true, decide_eq_true_eq] at h
    by_cases hp : p e = true
    · rw [List.filter_cons_of_pos hp]
      simp only [Store.wfFrom, Bool.and_eq_true, decide_eq_true_eq]
      exact ⟨h.1, ih h.2⟩
    · rw [List.filter_cons_of_neg hp]
      exact ih (store_wfFrom_mono h.2 (by omega))

/-- A write keeps the canonical form. -/
theorem store_wf_set {s : Store w} (a : Nat) (v : BitVec w) (h : Store.wf s = true) : Store.wf (Store.set s a v) = true := by
  unfold Store.set
  split
  · exact store_wfFrom_filter _ h
  · next hv => exact store_wfFrom_put h (Nat.zero_le a) hv

/-- Moving the cells of a canonical store from `n` on down by `n` keeps the canonical form. -/
theorem store_wfFrom_sub {s : Store w} {lo n : Nat} (h : Store.wfFrom lo s = true) (hl : n ≤ lo) :
    Store.wfFrom (lo - n) (s.map fun e => (e.1 - n, e.2)) = true := by
  induction s generalizing lo with
  | nil => rfl
  | cons e s ih =>
    simp only [Store.wfFrom, Bool.and_eq_true, decide_eq_true_eq] at h
    simp only [List.map_cons, Store.wfFrom, Bool.and_eq_true, decide_eq_true_eq]
    refine ⟨⟨by omega, h.1.2⟩, ?_⟩
    have := ih (lo := e.1 + 1) h.2 (by omega)
    rwa [show e.1 + 1 - n = e.1 - n + 1 by omega] at this

/-- The cells from `n` on of a canonical store stand above `n`. -/
theorem store_wfFrom_above {s : Store w} {lo n : Nat} (h : Store.wfFrom lo s = true) :
    Store.wfFrom n (s.filter fun e => decide (n ≤ e.1)) = true := by
  induction s generalizing lo with
  | nil => rfl
  | cons e s ih =>
    simp only [Store.wfFrom, Bool.and_eq_true, decide_eq_true_eq] at h
    by_cases hp : n ≤ e.1
    · rw [List.filter_cons_of_pos (by simpa using hp)]
      simp only [Store.wfFrom, Bool.and_eq_true, decide_eq_true_eq]
      exact ⟨⟨hp, h.1.2⟩, store_wfFrom_filter _ h.2⟩
    · rw [List.filter_cons_of_neg (by simpa using hp)]
      exact ih h.2

/-- A shift keeps the canonical form. -/
theorem store_wf_shift {s : Store w} (n : Nat) (h : Store.wf s = true) : Store.wf (Store.shift s n) = true := by
  have := store_wfFrom_sub (n := n) (store_wfFrom_above (n := n) h) (Nat.le_refl n)
  rwa [Nat.sub_self] at this

/-- Reading after a shift reads `n` cells further on before it (40_delta_buffer.md R215). -/
theorem store_get_shift (s : Store w) (n a : Nat) : Store.get (Store.shift s n) a = Store.get s (a + n) := by
  induction s with
  | nil => rfl
  | cons e s ih =>
    obtain ⟨c, x⟩ := e
    unfold Store.shift at ih ⊢
    by_cases hp : n ≤ c
    · rw [List.filter_cons_of_pos (by simpa using hp), List.map_cons]
      simp only [Store.get, ih]
      by_cases h : a = c - n
      · rw [if_pos h, if_pos (by omega)]
      · rw [if_neg h, if_neg (by omega)]
    · rw [List.filter_cons_of_neg (by simpa using hp)]
      simp only [Store.get, ih]
      rw [if_neg (by omega)]

/-- Canonical stores that read the same everywhere are equal. -/
theorem store_ext {s t : Store w} {lo : Nat} (hs : Store.wfFrom lo s = true) (ht : Store.wfFrom lo t = true)
    (h : ∀ a, Store.get s a = Store.get t a) : s = t := by
  induction s generalizing t lo with
  | nil =>
    cases t with
    | nil => rfl
    | cons e t =>
      simp only [Store.wfFrom, Bool.and_eq_true, decide_eq_true_eq] at ht
      have := h e.1
      simp only [Store.get, ↓reduceIte] at this
      exact absurd this.symm ht.1.2
  | cons d s ih =>
    simp only [Store.wfFrom, Bool.and_eq_true, decide_eq_true_eq] at hs
    cases t with
    | nil =>
      have := h d.1
      simp only [Store.get, ↓reduceIte] at this
      exact absurd this hs.1.2
    | cons e t =>
      simp only [Store.wfFrom, Bool.and_eq_true, decide_eq_true_eq] at ht
      have hd := h d.1
      have he := h e.1
      simp only [Store.get, ↓reduceIte] at hd he
      have hde : d.1 = e.1 := by
        by_contra hne
        rcases Nat.lt_or_gt_of_ne hne with hlt | hgt
        · rw [if_neg hne, store_get_below ht.2 (by omega)] at hd
          exact hs.1.2 hd
        · rw [if_neg (fun x => hne x.symm), store_get_below hs.2 (by omega)] at he
          exact ht.1.2 he.symm
      rw [if_pos hde] at hd
      have : d = e := Prod.ext hde hd
      subst this
      congr 1
      refine ih hs.2 ht.2 (fun a => ?_)
      have ha := h a
      simp only [Store.get] at ha
      by_cases hlt : a ≤ d.1
      · rw [store_get_below hs.2 (by omega), store_get_below ht.2 (by omega)]
      · rwa [if_neg (by omega), if_neg (by omega)] at ha

/-! ## The bound on addresses -/

/-- A write below the bound keeps it. -/
theorem store_below_set {s : Store w} {n a : Nat} (v : BitVec w) (h : Store.below s n = true) (ha : a < n) :
    Store.below (Store.set s a v) n = true := by
  have hput : ∀ s : Store w, Store.below s n = true → Store.below (Store.put s a v) n = true := by
    intro s hs
    induction s with
    | nil => simpa [Store.put, Store.below] using ha
    | cons e s ih =>
      simp only [Store.below, List.all_cons, Bool.and_eq_true, decide_eq_true_eq] at hs ih ⊢
      simp only [Store.put]
      split
      · simp only [List.all_cons, Bool.and_eq_true, decide_eq_true_eq]; exact ⟨ha, hs⟩
      · split
        · simp only [List.all_cons, Bool.and_eq_true, decide_eq_true_eq]; exact ⟨ha, hs.2⟩
        · simp only [List.all_cons, Bool.and_eq_true, decide_eq_true_eq]; exact ⟨hs.1, ih hs.2⟩
  unfold Store.set
  split
  · simp only [Store.below, List.all_eq_true, List.mem_filter] at h ⊢
    exact fun e he => h e he.1
  · exact hput s h

/-- A shift keeps the bound. -/
theorem store_below_shift {s : Store w} {n : Nat} (k : Nat) (h : Store.below s n = true) :
    Store.below (Store.shift s k) n = true := by
  simp only [Store.below, Store.shift, List.all_eq_true, List.mem_map, List.mem_filter, decide_eq_true_eq] at h ⊢
  rintro e ⟨d, ⟨hd, _⟩, rfl⟩
  have := h d hd
  simp only
  omega

end Sys2Proof.Machine
end

