-- ==== Sys2Proof/Laws/Ops.lean ====
section
/-! SUPPORT. What the shared operations of `Machine/Ops.lean` do: the command shell, the placing of deltas. -/

namespace Sys2Proof.Machine

/-! ## The result monad -/

/-- A bind succeeds exactly where both parts do. -/
theorem res_bind_ok {α β : Type} {x : Res α} {f : α → Res β} {b : β} :
    (x >>= f) = .ok b ↔ ∃ a, x = .ok a ∧ f a = .ok b := by
  cases x with
  | error e => simp [Bind.bind, Except.bind]
  | ok a => simp [Bind.bind, Except.bind]

/-- A bind after a success. -/
theorem res_bind_of_ok {α β : Type} {x : Res α} {a : α} (f : α → Res β) (h : x = .ok a) : (x >>= f) = f a := by
  rw [h]; rfl

/-! ## The command shell -/

/-- A command while a fault is recorded is refused, R603. -/
theorem runCommand_refused {s : State} {r : FaultRecord} (body : Res State) (h : s.fault = some r) :
    runCommand body s = .next s := by
  unfold runCommand; rw [h]

/-- A command that completes. -/
theorem runCommand_ok {s t : State} {body : Res State} (h : s.fault = none) (hb : body = .ok t) :
    runCommand body s = .next { t with cmdCount := s.cmdCount + 1 } := by
  unfold runCommand; rw [h, hb]

/-- A command that faults. -/
theorem runCommand_error {s : State} {r : Raise} {body : Res State} (h : s.fault = none) (hb : body = .error r) :
    runCommand body s = .next (takeFault r s) := by
  unfold runCommand; rw [h, hb]

/-- Everything a command other than BLOCK_RESET can do: be refused, complete, or fault. -/
theorem runCommand_cases {s t : State} {body : Res State} (h : runCommand body s = .next t) :
    ((∃ r, s.fault = some r) ∧ t = s) ∨
    (s.fault = none ∧ ∃ u, body = .ok u ∧ t = { u with cmdCount := s.cmdCount + 1 }) ∨
    (s.fault = none ∧ ∃ r, body = .error r ∧ t = takeFault r s) := by
  unfold runCommand at h
  split at h
  · next r hf => cases h; exact .inl ⟨⟨r, hf⟩, rfl⟩
  · next hf =>
    split at h
    · next u => cases h; exact .inr (.inl ⟨hf, u, rfl, rfl⟩)
    · next r => cases h; exact .inr (.inr ⟨hf, r, rfl, rfl⟩)

/-- A command always goes on. -/
theorem runCommand_next (body : Res State) (s : State) : ∃ t, runCommand body s = .next t := by
  unfold runCommand
  split
  · exact ⟨_, rfl⟩
  · split <;> exact ⟨_, rfl⟩

/-! ## Taps -/

/-- Reading a cell after the taps of a delta, R207. -/
theorem addTaps_get (p : Params) (ph i : Nat) (d : Int) (n : Nat) (c : Store 32) (a : Nat) :
    Store.get (addTaps p ph i d n c) a =
      if i ≤ a ∧ a < i + n then wrap32 (sext (Store.get c a) + d * sext (kernelTap p ph (a - i))) else Store.get c a := by
  induction n with
  | zero => rw [if_neg (by omega)]; rfl
  | succ n ih =>
    simp only [addTaps]
    rw [store_get_set]
    by_cases h : a = i + n
    · subst h
      rw [if_pos rfl, if_pos (by omega), ih, if_neg (by omega), Nat.add_sub_cancel_left]
    · rw [if_neg h, ih]
      by_cases h2 : i ≤ a ∧ a < i + n
      · rw [if_pos h2, if_pos (by omega)]
      · rw [if_neg h2, if_neg (by omega)]

/-- Taps keep the canonical form. -/
theorem addTaps_wf (p : Params) (ph i : Nat) (d : Int) (n : Nat) {c : Store 32} (h : Store.wf c = true) :
    Store.wf (addTaps p ph i d n c) = true := by
  induction n with
  | zero => exact h
  | succ n ih => exact store_wf_set _ _ ih

/-- Taps stay below any bound their last one is below. -/
theorem addTaps_below (p : Params) (ph i : Nat) (d : Int) (n : Nat) {c : Store 32} {b : Nat} (h : Store.below c b = true)
    (hb : i + n ≤ b) : Store.below (addTaps p ph i d n c) b = true := by
  induction n with
  | zero => exact h
  | succ n ih => exact store_below_set _ (ih (by omega)) (by omega)

/-! ## Placing a delta -/

/-- `pos` depends only on the factor and the offset, and does not fall as time goes on. -/
theorem pos_mono (m : Mix) {t t' : Int} (h : t ≤ t') : m.pos t ≤ m.pos t' := by
  unfold Mix.pos
  have := Int.mul_le_mul_of_nonneg_right h (Int.natCast_nonneg m.factor.toNat)
  omega

/-- An arithmetic shift keeps order. -/
theorem asr_mono {a b : Int} (n : Nat) (h : a ≤ b) : asr a n ≤ asr b n :=
  Int.ediv_le_ediv (by positivity) h

/-- `idx` does not fall as time goes on. -/
theorem idx_mono (m : Mix) {t t' : Int} (h : t ≤ t') : m.idx t ≤ m.idx t' := asr_mono _ (pos_mono m h)

/-- A placed delta stands at or below the horizon, R206. -/
theorem place_le_cap {p : Params} {m : Mix} {t : Int} {i ph : Nat} (h : m.place p t = .ok (i, ph)) :
    i ≤ m.cap.toNat := by
  unfold Mix.place at h
  split at h
  · split at h
    · cases h
    · cases h; omega
  · split at h
    · split at h
      · cases h
      · cases h; omega
    · cases h; omega

/-- In range, a delta is placed where it falls, R204, R206. -/
theorem place_in_range (p : Params) {m : Mix} {t : Int} (h0 : 0 ≤ m.pos t) (h1 : m.idx t ≤ m.cap.toNat) :
    m.place p t = .ok ((m.idx t).toNat, m.ph p t) := by
  unfold Mix.place
  rw [if_neg (by omega), if_neg (by omega)]

/-- A mix stage that accepts an interval places every delta in it. -/
theorem accepts_place {p : Params} {m : Mix} {lo hi t : Int} (h : m.accepts p lo hi) (h0 : lo ≤ t) (h1 : t ≤ hi) :
    ∃ i ph, m.place p t = .ok (i, ph) := by
  rcases h.2 with hr | ⟨hlo, hhi⟩
  · unfold Mix.place
    rw [hr]
    split
    · exact ⟨_, _, rfl⟩
    · split <;> exact ⟨_, _, rfl⟩
  · exact ⟨_, _, place_in_range p (le_trans hlo (pos_mono m h0)) (le_trans (idx_mono m h1) hhi)⟩

/-- A smaller interval is accepted too. -/
theorem accepts_sub {p : Params} {m : Mix} {lo hi lo' hi' : Int} (h : m.accepts p lo hi) (h0 : lo ≤ lo') (h1 : hi' ≤ hi) :
    m.accepts p lo' hi' := by
  refine ⟨h.1, ?_⟩
  rcases h.2 with hr | ⟨hlo, hhi⟩
  · exact .inl hr
  · exact .inr ⟨le_trans hlo (pos_mono m h0), le_trans (idx_mono m h1) hhi⟩

/-- Everything `AddDelta` can do when it succeeds, R207. -/
theorem addDelta_ok {p : Params} {opc : Byte} {u : DsbName} {t d : Int} {m m' : Mix}
    (h : addDelta p opc u t d m = .ok m') :
    m.configured = true ∧ ∃ i ph, m.place p t = .ok (i, ph) ∧
      m' = { m.setDsb u { m.dsb u with cells := addTaps p ph i d p.kw (m.dsb u).cells } with dirty := true } := by
  unfold addDelta at h
  split at h
  · next hc =>
    obtain ⟨⟨i, ph⟩, h1, h2⟩ := res_bind_ok.1 h
    cases h2
    exact ⟨hc, i, ph, h1, rfl⟩
  · cases h

/-- `AddDelta` succeeds where the mix stage accepts its time. -/
theorem addDelta_succeeds {p : Params} {opc : Byte} {u : DsbName} {t d lo hi : Int} {m : Mix} (h : m.accepts p lo hi)
    (h0 : lo ≤ t) (h1 : t ≤ hi) : ∃ m', addDelta p opc u t d m = .ok m' := by
  obtain ⟨i, ph, hp⟩ := accepts_place h h0 h1
  unfold addDelta
  rw [if_pos h.1, res_bind_of_ok _ hp]
  exact ⟨_, rfl⟩

/-! ## Sequences of deltas -/

/-- A mix stage after any number of deltas: what a run and a register write can do to it. -/
inductive Adds (p : Params) : Mix → Mix → Prop where
  | refl (m : Mix) : Adds p m m
  | add {m m' m'' : Mix} {opc : Byte} {u : DsbName} {t d : Int} (h : Adds p m m')
      (ha : addDelta p opc u t d m' = .ok m'') : Adds p m m''

/-- Deltas after deltas. -/
theorem adds_trans {p : Params} {a b c : Mix} (h1 : Adds p a b) (h2 : Adds p b c) : Adds p a c := by
  induction h2 with
  | refl => exact h1
  | add _ ha ih => exact .add ih ha

/-- A property of the mix stage that every delta keeps is kept by any number of them. -/
theorem adds_induct {p : Params} {m m' : Mix} (P : Mix → Prop)
    (step : ∀ {a b : Mix} {opc : Byte} {u : DsbName} {t d : Int}, P a → addDelta p opc u t d a = .ok b → P b)
    (h : Adds p m m') (h0 : P m) : P m' := by
  induction h with
  | refl => exact h0
  | add _ ha ih => exact step ih ha

/-- Deltas change only cells and `dirty`, R207. -/
theorem adds_sameFrame {p : Params} {m m' : Mix} (h : Adds p m m') : m.sameFrame m' := by
  refine adds_induct (fun x => m.sameFrame x) ?_ h ⟨rfl, rfl, rfl, rfl, fun _ => rfl, fun _ => rfl⟩
  intro a b opc u t d ⟨h1, h2, h3, h4, h5, h6⟩ ha
  obtain ⟨_, i, ph, _, rfl⟩ := addDelta_ok ha
  refine ⟨by simpa using h1, by simpa using h2, by simpa using h3, by simpa using h4, fun v => ?_, fun v => ?_⟩
  · rw [← h5 v]; cases u <;> cases v <;> rfl
  · rw [← h6 v]; cases u <;> cases v <;> rfl

/-- What a mix stage accepts depends only on what deltas keep. -/
theorem sameFrame_accepts {p : Params} {m m' : Mix} {lo hi : Int} (h : m.sameFrame m') (ha : m.accepts p lo hi) :
    m'.accepts p lo hi := by
  obtain ⟨h1, h2, h3, h4, h5, _⟩ := h
  have hoff : m'.offset = m.offset := h5 .center
  have hpos : ∀ t, m'.pos t = m.pos t := fun t => by unfold Mix.pos; rw [h3, hoff]
  refine ⟨by unfold Mix.configured; rw [h1, h2]; exact ha.1, ?_⟩
  unfold Mix.idx
  rw [hpos, hpos, h4]
  exact ha.2

/-- Deltas keep the DSBs' stores canonical and inside their array. -/
theorem adds_cells {p : Params} {m m' : Mix} (h : Adds p m m')
    (h0 : ∀ u, Store.wf (m.dsb u).cells = true ∧ Store.below (m.dsb u).cells (m.cap.toNat + p.kw) = true) :
    ∀ u, Store.wf (m'.dsb u).cells = true ∧ Store.below (m'.dsb u).cells (m'.cap.toNat + p.kw) = true := by
  refine adds_induct (fun x => ∀ u, Store.wf (x.dsb u).cells = true ∧
    Store.below (x.dsb u).cells (x.cap.toNat + p.kw) = true) ?_ h h0
  intro a b opc u t d hx ha v
  obtain ⟨_, i, ph, hp, rfl⟩ := addDelta_ok ha
  have hi := place_le_cap hp
  show Store.wf ((a.setDsb u _).dsb v).cells = true ∧
    Store.below ((a.setDsb u _).dsb v).cells ((a.setDsb u _).cap.toNat + p.kw) = true
  rw [setDsb_cap]
  by_cases hv : v = u
  · subst hv
    rw [setDsb_dsb_self]
    exact ⟨addTaps_wf _ _ _ _ _ (hx v).1, addTaps_below _ _ _ _ _ (hx v).2 (by omega)⟩
  · rw [setDsb_dsb_ne _ _ hv]
    exact hx v

/-- `Emit` adds at most one delta. -/
theorem emit_adds {p : Params} {opc : Byte} {r : Route} {t d : Int} {m m' : Mix} (h : emit p opc r t d m = .ok m') :
    Adds p m m' := by
  unfold emit at h
  split at h
  · cases h; exact .refl _
  · split at h
    · cases h; exact .refl _
    · exact .add (.refl _) h

/-- `Emit` succeeds where the mix stage accepts its time. -/
theorem emit_succeeds {p : Params} {opc : Byte} {r : Route} {t d lo hi : Int} {m : Mix} (h : m.accepts p lo hi)
    (h0 : lo ≤ t) (h1 : t ≤ hi) : ∃ m', emit p opc r t d m = .ok m' := by
  unfold emit
  split
  · exact ⟨_, rfl⟩
  · split
    · exact ⟨_, rfl⟩
    · exact addDelta_succeeds h h0 h1

end Sys2Proof.Machine
end

