-- ==== Sys2Proof/Laws/Run.lean ====
section
/-! SUPPORT. What a run of one oscillator does, whatever its variant (spec 42_osc_common.md R261, R265, R271). -/

namespace Sys2Proof.Machine

/-- The level check, R261: it changes no field but `lastAmp`, and the mix stage by at most one delta. -/
theorem levelCheck_ok {p : Params} {opc : Byte} {t amp : Int} {o o' : Osc} {m m' : Mix}
    (h : levelCheck p opc t amp o m = .ok (o', m')) :
    Adds p m m' ∧ o'.delay = o.delay ∧ o'.route = o.route ∧ o'.lastAmp = wrap32 amp := by
  unfold levelCheck at h
  split at h
  · next he => cases h; exact ⟨.refl _, rfl, rfl, by rw [he, wrap32, sext, BitVec.ofInt_toInt]⟩
  · obtain ⟨x, h1, h2⟩ := res_bind_ok.1 h
    cases h2
    exact ⟨emit_adds h1, rfl, rfl, rfl⟩

/-- The level check succeeds where the mix stage accepts its time. -/
theorem levelCheck_succeeds {p : Params} {opc : Byte} {t amp lo hi : Int} (o : Osc) {m : Mix} (h : m.accepts p lo hi)
    (h0 : lo ≤ t) (h1 : t ≤ hi) : ∃ o' m', levelCheck p opc t amp o m = .ok (o', m') := by
  unfold levelCheck
  split
  · exact ⟨_, _, rfl⟩
  · obtain ⟨x, hx⟩ := emit_succeeds (opc := opc) (r := o.route) (d := amp - sext o.lastAmp) h h0 h1
    rw [res_bind_of_ok _ hx]
    exact ⟨_, _, rfl⟩

/-- The audible branch: as many advances as transitions, and only deltas on the mix stage. -/
theorem audibleLoop_ok {α : Type} {p : Params} {opc : Byte} {level : α → Int} {advance : α → α} {period n : Nat}
    {t : Int} {a a' : α} {o o' : Osc} {m m' : Mix}
    (h : audibleLoop p opc level advance period n t a o m = .ok (a', o', m')) :
    Adds p m m' ∧ a' = iterate advance n a ∧ o'.delay = o.delay ∧ o'.route = o.route := by
  induction n generalizing t a o m with
  | zero => cases h; exact ⟨.refl _, rfl, rfl, rfl⟩
  | succ n ih =>
    obtain ⟨⟨o1, m1⟩, h1, h2⟩ := res_bind_ok.1 h
    obtain ⟨k1, k2, k3, _⟩ := levelCheck_ok h1
    obtain ⟨j1, j2, j3, j4⟩ := ih h2
    exact ⟨adds_trans k1 j1, j2, j3.trans k2, j4.trans k3⟩

/-- The audible branch succeeds where the mix stage accepts the times of its transitions. -/
theorem audibleLoop_succeeds {α : Type} {p : Params} {opc : Byte} {level : α → Int} {advance : α → α}
    {period n : Nat} {t lo hi : Int} (a : α) (o : Osc) {m : Mix} (h : m.accepts p lo hi) (h0 : lo ≤ t)
    (h1 : ∀ k, k < n → t + k * period ≤ hi) :
    ∃ a' o' m', audibleLoop p opc level advance period n t a o m = .ok (a', o', m') := by
  induction n generalizing t a o m with
  | zero => exact ⟨_, _, _, rfl⟩
  | succ n ih =>
    have ht : t ≤ hi := by have := h1 0 (by omega); simpa using this
    obtain ⟨o1, m1, h2⟩ := levelCheck_succeeds (opc := opc) (amp := level (advance a)) o h h0 ht
    have hm := sameFrame_accepts (adds_sameFrame (levelCheck_ok h2).1) h
    have := ih (t := t + period) (advance a) o1 hm (by omega) (fun k hk => by
      have := h1 (k + 1) (by omega)
      push_cast at this ⊢
      linarith)
    unfold audibleLoop
    rw [res_bind_of_ok _ h2]
    exact this

/-- `ceil(n / d)` bounds. -/
theorem ceilDiv_mul_ge (n : Nat) {d : Nat} (hd : 1 ≤ d) : n ≤ ceilDiv n d * d := by
  unfold ceilDiv
  have := Nat.div_add_mod (n + (d - 1)) d
  have := Nat.mod_lt (n + (d - 1)) hd
  rw [Nat.mul_comm]; omega

/-- `ceil(n / d)` bounds. -/
theorem ceilDiv_mul_lt (n : Nat) {d k : Nat} (hk : k < ceilDiv n d) : k * d < n := by
  unfold ceilDiv at hk
  rcases Nat.eq_zero_or_pos d with rfl | hd
  · simp at hk
  have h1 := Nat.div_mul_le_self (n + (d - 1)) d
  have h2 : (k + 1) * d ≤ (n + (d - 1)) / d * d := Nat.mul_le_mul_right d hk
  have h3 : (k + 1) * d = k * d + d := by ring
  omega

/-- The events before `stop` are before it. -/
theorem event_lt {t stop : Int} {period k : Nat} (h : k < eventsBefore t stop period) : t + k * period < stop := by
  have := ceilDiv_mul_lt _ h
  have h2 : ((k * period : Nat) : Int) < ((stop - t).toNat : Int) := by exact_mod_cast this
  have h3 : (0 : Int) ≤ ((k * period : Nat) : Int) := by positivity
  push_cast at h2 h3 ⊢
  omega

/-- The next event after those before `stop` is not before it, for a period of at least 1. -/
theorem event_ge {t stop : Int} {period : Nat} (hp : 1 ≤ period) :
    stop ≤ t + eventsBefore t stop period * period := by
  have := ceilDiv_mul_ge (stop - t).toNat hp
  have h2 : ((stop - t).toNat : Int) ≤ ((ceilDiv (stop - t).toNat period * period : Nat) : Int) := by exact_mod_cast this
  unfold eventsBefore
  push_cast at h2 ⊢
  omega

/-- The next event after those before `stop` is less than a period after it, if there was one before. -/
theorem event_next_lt {t stop : Int} {period : Nat} (h : t < stop) (hp : 1 ≤ period) :
    t + eventsBefore t stop period * period < stop + period := by
  have hpos : 0 < eventsBefore t stop period := by
    by_contra hc
    have h0 : eventsBefore t stop period = 0 := by omega
    have := event_ge (t := t) (stop := stop) hp
    rw [h0] at this
    push_cast at this
    omega
  have := event_lt (t := t) (stop := stop) (period := period) (k := eventsBefore t stop period - 1) (by omega)
  rw [Nat.cast_sub (by omega)] at this
  push_cast at this
  linarith

/-- One event before `stop`, and then those after it. -/
theorem eventsBefore_succ {t stop : Int} {period : Nat} (h : t < stop) (hp : 1 ≤ period) :
    eventsBefore t stop period = eventsBefore (t + period) stop period + 1 := by
  unfold eventsBefore ceilDiv
  by_cases hc : t + period ≤ stop
  · have : (stop - t).toNat + (period - 1) = (stop - (t + period)).toNat + (period - 1) + period := by omega
    rw [this, Nat.add_div_right _ (by omega)]
  · have h0 : (stop - (t + period)).toNat = 0 := by omega
    rw [h0, Nat.div_eq_of_lt (show 0 + (period - 1) < period by omega)]
    exact Nat.div_eq_of_lt_le (by omega) (by omega)

/-- A run, R261: the variant's state advances once per transition before `stop`, audible or not (43_psg.md R291, 44_hh_square.md
R329, 45_hh_wave_noise_master.md R372, R381); the oscillator keeps its route; the mix stage takes only deltas. -/
theorem runOsc_ok {α : Type} {p : Params} {opc : Byte} {level : α → Int} {advance : α → α} {audible : Bool} {period : Nat}
    {start stop : Int} {a a' : α} {o o' : Osc} {m m' : Mix}
    (h : runOsc p opc level advance audible period start stop a o m = .ok (a', o', m')) :
    Adds p m m' ∧ a' = iterate advance (eventsBefore (start + sext o.delay) stop period) a ∧ o'.route = o.route ∧
    o'.delay = delayAfter (start + sext o.delay) stop (eventsBefore (start + sext o.delay) stop period) period := by
  unfold runOsc at h
  obtain ⟨⟨o1, m1⟩, h1, h2⟩ := res_bind_ok.1 h
  obtain ⟨k1, k2, k3, _⟩ := levelCheck_ok h1
  simp only [k2] at h2
  split at h2
  · obtain ⟨⟨a2, o2, m2⟩, h3, h4⟩ := res_bind_ok.1 h2
    obtain ⟨j1, j2, j3, j4⟩ := audibleLoop_ok h3
    cases h4
    exact ⟨adds_trans k1 j1, j2, j4.trans k3, rfl⟩
  · cases h2
    exact ⟨k1, rfl, k3, rfl⟩

/-- A run succeeds where the mix stage accepts its interval and the time of the pending transition. -/
theorem runOsc_succeeds_from {α : Type} {p : Params} {opc : Byte} {level : α → Int} {advance : α → α} {audible : Bool}
    {period : Nat} {start stop lo hi : Int} (a : α) {o : Osc} {m : Mix} (h : m.accepts p lo hi) (h0 : lo ≤ start)
    (h1 : start ≤ hi) (h2 : stop ≤ hi) (hd : lo ≤ start + sext o.delay) :
    ∃ a' o' m', runOsc p opc level advance audible period start stop a o m = .ok (a', o', m') := by
  obtain ⟨o1, m1, h3⟩ := levelCheck_succeeds (opc := opc) (amp := level a) o h h0 h1
  obtain ⟨k1, k2, k3, _⟩ := levelCheck_ok h3
  unfold runOsc
  rw [res_bind_of_ok _ h3]
  simp only [k2]
  split
  · have hm := sameFrame_accepts (adds_sameFrame k1) h
    obtain ⟨a2, o2, m2, h4⟩ := audibleLoop_succeeds (p := p) (opc := opc) (level := level) (advance := advance)
      (period := period) (n := eventsBefore (start + sext o.delay) stop period) (t := start + sext o.delay) a o1 hm
      (by omega) (fun k hk => by have := event_lt hk; omega)
    rw [res_bind_of_ok _ h4]
    exact ⟨_, _, _, rfl⟩
  · exact ⟨_, _, _, rfl⟩

/-- A run succeeds where the mix stage accepts its interval and the pending transition is not in the past. -/
theorem runOsc_succeeds {α : Type} {p : Params} {opc : Byte} {level : α → Int} {advance : α → α} {audible : Bool}
    {period : Nat} {start stop lo hi : Int} (a : α) {o : Osc} {m : Mix} (h : m.accepts p lo hi) (h0 : lo ≤ start)
    (h1 : start ≤ hi) (h2 : stop ≤ hi) (hd : o.pending) :
    ∃ a' o' m', runOsc p opc level advance audible period start stop a o m = .ok (a', o', m') :=
  runOsc_succeeds_from a h h0 h1 h2 (by unfold Osc.pending at hd; omega)

/-- Into no route nothing is emitted, 00_scope.md R10. -/
theorem emit_none {p : Params} {opc : Byte} {t d : Int} {m : Mix} : emit p opc .none t d m = .ok m := rfl

/-- A level check that cannot fail: its oscillator has no route. -/
theorem levelCheck_none {p : Params} {opc : Byte} {t amp : Int} {o : Osc} (m : Mix) (h : o.route = .none) :
    ∃ o', levelCheck p opc t amp o m = .ok (o', m) ∧ o'.route = .none ∧ o'.delay = o.delay := by
  unfold levelCheck
  split
  · exact ⟨_, rfl, h, rfl⟩
  · rw [h, emit_none]
    exact ⟨_, rfl, rfl, rfl⟩

/-- The audible branch of an oscillator without a route. -/
theorem audibleLoop_none {α : Type} {p : Params} {opc : Byte} {level : α → Int} {advance : α → α} {period n : Nat}
    {t : Int} {a : α} {o : Osc} (m : Mix) (h : o.route = .none) :
    ∃ a' o', audibleLoop p opc level advance period n t a o m = .ok (a', o', m) := by
  induction n generalizing t a o with
  | zero => exact ⟨_, _, rfl⟩
  | succ n ih =>
    obtain ⟨o1, h1, h2, _⟩ := levelCheck_none (p := p) (opc := opc) (t := t) (amp := level (advance a)) m h
    unfold audibleLoop
    rw [res_bind_of_ok _ h1]
    exact ih h2

/-- A mix stage that accepts every time accepts those of an oscillator's run between s32 times. -/
theorem acceptsAll_accepts {p : Params} {m : Mix} (h : m.acceptsAll p = true) : m.accepts p (-2 ^ 32) (2 ^ 31) := by
  unfold Mix.acceptsAll at h
  obtain ⟨h1, h2⟩ := Bool.and_eq_true_iff.1 h
  refine ⟨h1, ?_⟩
  cases hb : p.buildMode with
  | release => exact .inl rfl
  | debug =>
    rw [hb] at h2
    obtain ⟨h3, h4⟩ := Bool.and_eq_true_iff.1 h2
    exact .inr ⟨of_decide_eq_true h3, of_decide_eq_true h4⟩

/-- Deltas do not change whether a mix stage accepts every time. -/
theorem sameFrame_acceptsAll {p : Params} {m m' : Mix} (h : m.sameFrame m') : m'.acceptsAll p = m.acceptsAll p := by
  obtain ⟨h1, h2, h3, h4, h5, _⟩ := h
  have hoff : m'.offset = m.offset := h5 .center
  unfold Mix.acceptsAll Mix.idx Mix.pos Mix.configured
  rw [h1, h2, h3, h4, hoff]

/-- A run between s32 times cannot fail where the mix stage accepts every time, or the oscillator has no route, or it is inaudible
and has emitted its level; this then stays what it last emitted. -/
theorem runOsc_quiet {α : Type} {p : Params} {opc : Byte} {level : α → Int} {advance : α → α} {audible : Bool} {period : Nat}
    {start stop : Int} (a : α) {o : Osc} {m : Mix} (h0 : -2 ^ 31 ≤ start) (h1 : start < 2 ^ 31) (h2 : stop < 2 ^ 31)
    (h : m.acceptsAll p = true ∨ o.route = .none ∨ (audible = false ∧ level a = sext o.lastAmp)) :
    ∃ a' o' m', runOsc p opc level advance audible period start stop a o m = .ok (a', o', m') ∧ o'.route = o.route ∧
      (audible = false → level a = sext o.lastAmp → o'.lastAmp = o.lastAmp) := by
  have key : ∃ a' o' m', runOsc p opc level advance audible period start stop a o m = .ok (a', o', m') := by
    obtain h | h | ⟨rfl, h⟩ := h
    · have := BitVec.le_toInt o.delay
      exact runOsc_succeeds_from a (acceptsAll_accepts h) (by omega) (by omega) (by omega) (by unfold sext; omega)
    · obtain ⟨o1, k1, k2, k3⟩ := levelCheck_none (p := p) (opc := opc) (t := start) (amp := level a) m h
      unfold runOsc
      rw [res_bind_of_ok _ k1]
      dsimp only
      split
      · obtain ⟨a2, o2, k4⟩ := audibleLoop_none (p := p) (opc := opc) (level := level) (advance := advance) (period := period)
          (n := eventsBefore (start + sext o1.delay) stop period) (t := start + sext o1.delay) (a := a) m k2
        rw [res_bind_of_ok _ k4]
        exact ⟨_, _, _, rfl⟩
      · exact ⟨_, _, _, rfl⟩
    · unfold runOsc levelCheck
      rw [if_pos h]
      exact ⟨_, _, _, rfl⟩
  obtain ⟨a', o', m', k⟩ := key
  refine ⟨a', o', m', k, (runOsc_ok k).2.2.1, fun ha hl => ?_⟩
  subst ha
  unfold runOsc levelCheck at k
  rw [if_pos hl] at k
  cases k
  rfl

/-- The delay after a run does not wrap and is not negative, R271. -/
theorem delayAfter_pending {o o' : Osc} {start stop : Int} {period : Nat} (hp : 1 ≤ period) (hp' : period < 2 ^ 31)
    (hs : start ≤ stop)
    (h : o'.delay = delayAfter (start + sext o.delay) stop (eventsBefore (start + sext o.delay) stop period) period) :
    o'.pending := by
  have hb : sext o.delay < 2 ^ 31 := by
    have := BitVec.toInt_lt (x := o.delay)
    unfold sext; simpa using this
  unfold Osc.pending
  rw [h, delayAfter]
  have hge := event_ge (t := start + sext o.delay) (stop := stop) hp
  have hlt : start + sext o.delay + (eventsBefore (start + sext o.delay) stop period : Int) * period - stop < 2 ^ 31 := by
    by_cases hc : start + sext o.delay < stop
    · have := event_next_lt hc hp
      have : (period : Int) < 2 ^ 31 := by exact_mod_cast hp'
      omega
    · have h0 : eventsBefore (start + sext o.delay) stop period = 0 := by
        unfold eventsBefore ceilDiv
        rw [show (stop - (start + sext o.delay)).toNat = 0 by omega]
        exact Nat.div_eq_of_lt (by omega)
      rw [h0]
      push_cast
      omega
  have hv : sext (wrap32 (start + sext o.delay + (eventsBefore (start + sext o.delay) stop period : Int) * period - stop)) =
      start + sext o.delay + (eventsBefore (start + sext o.delay) stop period : Int) * period - stop := by
    unfold sext wrap32 at *
    rw [BitVec.toInt_ofInt]
    exact Int.bmod_eq_of_le (by omega) (by omega)
  rw [hv]
  omega

/-- A route change, R265, changes the mix stage by at most one delta, and of the oscillator only `lastAmp` and `route`. -/
theorem changeRoute_ok {p : Params} {opc : Byte} {t : Int} {r : Route} {o o' : Osc} {m m' : Mix}
    (h : changeRoute p opc t r o m = .ok (o', m')) :
    Adds p m m' ∧ o' = { o with lastAmp := 0, route := r } := by
  unfold changeRoute at h
  obtain ⟨x, h1, h2⟩ := res_bind_ok.1 h
  cases h2
  exact ⟨emit_adds h1, rfl⟩

/-- A route change succeeds where the mix stage accepts its time. -/
theorem changeRoute_succeeds {p : Params} {opc : Byte} {t lo hi : Int} {r : Route} (o : Osc) {m : Mix}
    (h : m.accepts p lo hi) (h0 : lo ≤ t) (h1 : t ≤ hi) : ∃ o' m', changeRoute p opc t r o m = .ok (o', m') := by
  unfold changeRoute
  obtain ⟨x, hx⟩ := emit_succeeds (opc := opc) (r := o.route) (d := -sext o.lastAmp) h h0 h1
  rw [res_bind_of_ok _ hx]
  exact ⟨_, _, rfl⟩

/-- Setting a route, 43_psg.md R296, 45_hh_wave_noise_master.md R390. -/
theorem setRoute_ok {p : Params} {opc : Byte} {t : Int} {r : Route} {o o' : Osc} {m m' : Mix}
    (h : setRoute p opc t r o m = .ok (o', m')) :
    Adds p m m' ∧ o' = if r = o.route then o else { o with lastAmp := 0, route := r } := by
  unfold setRoute at h
  split at h
  · next hr => cases h; exact ⟨.refl _, (if_pos hr).symm⟩
  · next hr => rw [if_neg hr]; exact changeRoute_ok h

/-- Setting a route succeeds where the mix stage accepts its time. -/
theorem setRoute_succeeds {p : Params} {opc : Byte} {t lo hi : Int} {r : Route} (o : Osc) {m : Mix}
    (h : m.accepts p lo hi) (h0 : lo ≤ t) (h1 : t ≤ hi) : ∃ o' m', setRoute p opc t r o m = .ok (o', m') := by
  unfold setRoute
  split
  · exact ⟨_, _, rfl⟩
  · exact changeRoute_succeeds o h h0 h1

/-- The loop of R260 keeps what every run and every frame step keep. -/
theorem frameLoop_induct {γ : Type} {run : Int → Int → γ → Mix → Res (γ × Mix)} {frame : γ → γ} {period : Nat} {t : Int}
    (P : γ → Mix → Prop)
    (hrun : ∀ {a b : Int} {g g' : γ} {m m' : Mix}, P g m → run a b g m = .ok (g', m') → P g' m')
    (hframe : ∀ {g : γ} {m : Mix}, P g m → P (frame g) m) :
    ∀ {n : Nat} {last : Int} {next : Word} {next' : Option Word} {g g' : γ} {m m' : Mix}, P g m →
      frameLoop run frame period t n last next g m = .ok (g', next', m') → P g' m' := by
  intro n
  induction n with
  | zero =>
    intro last next next' g g' m m' h0 h
    obtain ⟨⟨g1, m1⟩, h1, h2⟩ := res_bind_ok.1 h
    cases h2
    exact hrun h0 h1
  | succ n ih =>
    intro last next next' g g' m m' h0 h
    unfold frameLoop at h
    split at h
    · obtain ⟨⟨g1, m1⟩, h1, h2⟩ := res_bind_ok.1 h
      cases h2
      exact hrun h0 h1
    · obtain ⟨⟨g1, m1⟩, h1, h2⟩ := res_bind_ok.1 h
      exact ih (hframe (hrun h0 h1)) h2

/-- Adding a period to a stored time that stays an s32. -/
theorem nextTime_fits {next : Word} {period : Nat} (h : sext next + period < 2 ^ 31) :
    sext (wrap32 (sext next + period)) = sext next + period := by
  have := BitVec.le_toInt (x := next)
  have hn : (0 : Int) ≤ (period : Int) := Int.natCast_nonneg _
  unfold sext wrap32 at *
  rw [BitVec.toInt_ofInt]
  exact Int.bmod_eq_of_le (by omega) (by omega)

/-- There is an event before `stop` exactly where the first one is. -/
theorem eventsBefore_pos {t stop : Int} {period n : Nat} (h : eventsBefore t stop period = n + 1) : t < stop := by
  have := event_lt (t := t) (stop := stop) (period := period) (k := 0) (by omega)
  simpa using this

/-- The loop of R260 succeeds where each of its runs does; `Q` is what makes a run succeed, which runs and frame steps keep. The
passes are no more than the frame times before `hi`, or these stay in s32. -/
theorem frameLoop_succeeds {γ : Type} {run : Int → Int → γ → Mix → Res (γ × Mix)} {frame : γ → γ} {period : Nat}
    {lo hi : Int} (Q : γ → Mix → Prop) (hp : 1 ≤ period) (hhi : hi < 2 ^ 31)
    (hrun : ∀ {a b : Int} {g : γ} {m : Mix}, Q g m → lo ≤ a → a ≤ b → b ≤ hi → ∃ g' m', run a b g m = .ok (g', m'))
    (hkeep : ∀ {a b : Int} {g g' : γ} {m m' : Mix}, Q g m → a ≤ b → run a b g m = .ok (g', m') → Q g' m')
    (hframe : ∀ {g : γ} {m : Mix}, Q g m → Q (frame g) m) :
    ∀ {n : Nat} {last : Int} {next : Word} {g : γ} {m : Mix}, Q g m → lo ≤ last → last ≤ hi →
      (n = 0 ∨ (last ≤ sext next ∧ (n ≤ eventsBefore (sext next) hi period ∨
        sext next + eventsBefore (sext next) hi period * period < 2 ^ 31))) →
      ∃ g' next' m', frameLoop run frame period hi n last next g m = .ok (g', next', m') := by
  intro n
  induction n with
  | zero =>
    intro last next g m hq h0 h1 _
    obtain ⟨g1, m1, h5⟩ := hrun hq h0 h1 (le_refl hi)
    unfold frameLoop
    rw [res_bind_of_ok _ h5]
    exact ⟨_, _, _, rfl⟩
  | succ n ih =>
    intro last next g m hq h0 h1 h2
    obtain h2 | ⟨hl, hn⟩ := h2
    · cases h2
    unfold frameLoop
    split
    · obtain ⟨g1, m1, h5⟩ := hrun hq h0 h1 (le_refl hi)
      rw [res_bind_of_ok _ h5]
      exact ⟨_, _, _, rfl⟩
    · next hlt =>
      obtain ⟨g1, m1, h5⟩ := hrun hq h0 hl (by omega)
      rw [res_bind_of_ok _ h5]
      have hcount : eventsBefore (sext next) hi period = eventsBefore (sext next + period) hi period + 1 :=
        eventsBefore_succ (by omega) hp
      refine ih (hframe (hkeep hq hl h5)) (by omega) (by omega) ?_
      rcases Nat.eq_zero_or_pos n with h | h
      · exact .inl h
      refine .inr ?_
      rw [hcount] at hn
      obtain hn | hn := hn
      · have hb := eventsBefore_pos (t := sext next + period) (stop := hi) (period := period)
          (n := eventsBefore (sext next + period) hi period - 1) (by omega)
        rw [nextTime_fits (by omega)]
        exact ⟨by omega, .inl (by omega)⟩
      · push_cast at hn
        have hk : (0 : Int) ≤ (eventsBefore (sext next + period) hi period : Int) * period := by positivity
        rw [nextTime_fits (by nlinarith)]
        exact ⟨by omega, .inr (by nlinarith)⟩

/-- A multiple of the common divisor of `p` and `m` is a multiple of `p` modulo `m`, by Bezout. -/
theorem exists_mul_emod {p m : Nat} (hm : 0 < m) {d : Int} (hd : (Nat.gcd p m : Int) ∣ d) :
    ∃ k : Nat, k < m ∧ (m : Int) ∣ (k * p : Nat) - d := by
  obtain ⟨c, rfl⟩ := hd
  have hm' : (0 : Int) < m := by exact_mod_cast hm
  have h0 := Int.emod_nonneg (Nat.gcdA p m * c) (ne_of_gt hm')
  have h1 := Int.emod_lt_of_pos (Nat.gcdA p m * c) hm'
  have h2 := Int.emod_add_mul_ediv (Nat.gcdA p m * c) m
  refine ⟨(Nat.gcdA p m * c % m).toNat, by omega, ?_⟩
  push_cast
  rw [Int.toNat_of_nonneg h0, Nat.gcd_eq_gcd_ab]
  refine ⟨-(Nat.gcdA p m * c / m * p) - Nat.gcdB p m * c, ?_⟩
  linear_combination (p : Int) * h2

/-- A frame time `k` periods on is what is congruent to it modulo 2^32 and is an s32. -/
theorem frameTime_dvd (next : Word) (n : Nat) : (2 ^ 32 : Int) ∣ sext (next + BitVec.ofNat 32 n) - (sext next + n) := by
  unfold sext
  rw [BitVec.toInt_add, BitVec.toInt_ofNat', Int.add_bmod_bmod]
  exact Int.dvd_bmod_sub_self

/-- The frame times that the loop of R260 stores reach `t` exactly where one of the first 2^32 does. -/
theorem frameTimesReach_iff {next : Word} {period : Nat} {t : Int} :
    frameTimesReach next period t = true ↔ ∃ k : Nat, k < 2 ^ 32 ∧ t ≤ sext (next + BitVec.ofNat 32 (k * period)) := by
  have hg : 0 < (Nat.gcd period (2 ^ 32) : Int) := by exact_mod_cast Nat.gcd_pos_of_pos_right _ (by norm_num)
  have hgm : (Nat.gcd period (2 ^ 32) : Int) ∣ 2 ^ 32 := by exact_mod_cast Nat.gcd_dvd_right period (2 ^ 32)
  have hgp : (Nat.gcd period (2 ^ 32) : Int) ∣ period := by exact_mod_cast Nat.gcd_dvd_left period (2 ^ 32)
  have hlo := fun w : Word => BitVec.le_toInt w
  have hhi := fun w : Word => BitVec.toInt_lt (x := w)
  unfold frameTimesReach
  generalize hgg : (Nat.gcd period (2 ^ 32) : Int) = g at *
  have hn := hhi next
  have hn' := hlo next
  change next.toInt < 2147483648 at hn
  change -2147483648 ≤ next.toInt at hn'
  have hr0 := Int.emod_nonneg (2147483647 - sext next) (ne_of_gt hg)
  have hr1 : (2147483647 - sext next) % g ≤ 2147483647 - sext next := by
    by_cases h : 2147483647 - sext next < g
    · rw [Int.emod_eq_of_lt (by unfold sext; omega) h]
    · have := Int.emod_lt_of_pos (2147483647 - sext next) hg; omega
  have hgd : g ∣ (2147483647 - (2147483647 - sext next) % g) - sext next := by
    have := Int.dvd_self_sub_emod (x := 2147483647 - sext next) (m := g)
    convert this using 1; ring
  rw [decide_eq_true_iff]
  change t ≤ 2147483647 - (2147483647 - sext next) % g ↔ _
  generalize hw : 2147483647 - (2147483647 - sext next) % g = w at *
  constructor
  · intro h
    obtain ⟨k, hk, q⟩ := exists_mul_emod (p := period) (m := 2 ^ 32) (by norm_num) (hgg ▸ hgd)
    refine ⟨k, hk, ?_⟩
    have q2 := frameTime_dvd next (k * period)
    have b0 := hlo (next + BitVec.ofNat 32 (k * period))
    have b1 := hhi (next + BitVec.ofNat 32 (k * period))
    change -2147483648 ≤ sext (next + BitVec.ofNat 32 (k * period)) at b0
    change sext (next + BitVec.ofNat 32 (k * period)) < 2147483648 at b1
    have hs : sext next = next.toInt := rfl
    have q3 := dvd_add q2 q
    push_cast at q2 q q3
    obtain ⟨c, hc⟩ := q3
    have : c = 0 := by omega
    subst this
    omega
  · rintro ⟨k, _, h⟩
    have q2 := dvd_trans hgm (frameTime_dvd next (k * period))
    have b1 := hhi (next + BitVec.ofNat 32 (k * period))
    change sext (next + BitVec.ofNat 32 (k * period)) < 2147483648 at b1
    have q4 : g ∣ (2147483647 - sext next) - (2147483647 - sext (next + BitVec.ofNat 32 (k * period))) := by
      have := dvd_add q2 (Dvd.dvd.mul_left hgp (k : Int))
      have e : (2147483647 - sext next) - (2147483647 - sext (next + BitVec.ofNat 32 (k * period))) =
          sext (next + BitVec.ofNat 32 (k * period)) - (sext next + (k * period : Nat)) + k * period := by push_cast; ring
      rw [e]
      exact this
    have q6 : (2147483647 - sext next) % g = (2147483647 - sext (next + BitVec.ofNat 32 (k * period))) % g :=
      Int.emod_eq_emod_iff_emod_sub_eq_zero.2 (Int.emod_eq_zero_of_dvd q4)
    have q7 : (2147483647 - sext (next + BitVec.ofNat 32 (k * period))) % g ≤
        2147483647 - sext (next + BitVec.ofNat 32 (k * period)) := by
      by_cases h : 2147483647 - sext (next + BitVec.ofNat 32 (k * period)) < g
      · rw [Int.emod_eq_of_lt (by omega) h]
      · have := Int.emod_lt_of_pos (2147483647 - sext (next + BitVec.ofNat 32 (k * period))) hg; omega
    omega

/-- The outcome of a run with frame steps is that of its loop: with 2^32 passes where that reaches `t`, else with those before `t`. -/
theorem frameOutcome_ok {γ : Type} {run : Int → Int → γ → Mix → Res (γ × Mix)} {frame : γ → γ} {quiet : γ → Mix → Bool}
    {period : Nat} {t last : Int} {next : Word} {g : γ} {m : Mix} {x : γ × Option Word × Mix}
    (h : frameOutcome run frame quiet period t last next g m = .ok x) :
    ∃ n, frameLoop run frame period t n last next g m = .ok x := by
  unfold frameOutcome at h
  split at h
  · exact ⟨_, h⟩
  · split at h
    · cases h
    · exact ⟨_, h⟩

/-- A run with frame steps answers what its loop does, with the next frame time settled. -/
theorem runFrames_ok {γ : Type} {run : Int → Int → γ → Mix → Res (γ × Mix)} {frame : γ → γ} {quiet : γ → Mix → Bool}
    {period : Nat} {t : Int} {last next next' : Word} {free free' : Nat} {g g' : γ} {m m' : Mix}
    (h : runFrames run frame quiet period t last next free g m = .ok (g', next', free', m')) :
    ∃ n stored, frameLoop run frame period t n (sext last) next g m = .ok (g', stored, m') ∧
      settleFrameTime t free stored = (next', free') := by
  obtain ⟨⟨g1, stored, m1⟩, h1, h2⟩ := res_bind_ok.1 h
  obtain ⟨n, h3⟩ := frameOutcome_ok h1
  cases h2
  exact ⟨n, stored, h3, rfl⟩

/-- What a run with frame steps keeps, as the loop does. -/
theorem runFrames_induct {γ : Type} {run : Int → Int → γ → Mix → Res (γ × Mix)} {frame : γ → γ} {quiet : γ → Mix → Bool}
    {period : Nat} {t : Int} (P : γ → Mix → Prop)
    (hrun : ∀ {a b : Int} {g g' : γ} {m m' : Mix}, P g m → run a b g m = .ok (g', m') → P g' m')
    (hframe : ∀ {g : γ} {m : Mix}, P g m → P (frame g) m) {last next next' : Word} {free free' : Nat} {g g' : γ}
    {m m' : Mix} (h0 : P g m) (h : runFrames run frame quiet period t last next free g m = .ok (g', next', free', m')) :
    P g' m' ∧ (free' = free ∨ free' = free + 1) := by
  obtain ⟨n, stored, h1, h2⟩ := runFrames_ok h
  have hP := frameLoop_induct P hrun hframe h0 h1
  cases stored <;> cases h2
  · exact ⟨hP, .inr rfl⟩
  · exact ⟨hP, .inl rfl⟩

/-- The loop of R260 ends with a frame time that is not before `t`. -/
theorem frameLoop_next {γ : Type} {run : Int → Int → γ → Mix → Res (γ × Mix)} {frame : γ → γ} {period : Nat} {t : Int} :
    ∀ {n : Nat} {last : Int} {next w : Word} {g g' : γ} {m m' : Mix},
      frameLoop run frame period t n last next g m = .ok (g', some w, m') → t ≤ sext w := by
  intro n
  induction n with
  | zero =>
    intro last next w g g' m m' h
    obtain ⟨⟨g1, m1⟩, h1, h2⟩ := res_bind_ok.1 h
    cases h2
  | succ n ih =>
    intro last next w g g' m m' h
    unfold frameLoop at h
    split at h
    · next ht =>
      obtain ⟨⟨g1, m1⟩, h1, h2⟩ := res_bind_ok.1 h
      cases h2
      exact ht
    · obtain ⟨⟨g1, m1⟩, h1, h2⟩ := res_bind_ok.1 h
      exact ih h2

/-- A free frame time is not before the run's time, an s32. -/
theorem settleFrameTime_none {t : Int} (free : Nat) (h0 : -2 ^ 31 ≤ t) (h1 : t < 2 ^ 31) :
    t ≤ sext (settleFrameTime t free none).1 ∧ (settleFrameTime t free none).2 = free + 1 := by
  refine ⟨?_, rfl⟩
  have b0 := BitVec.le_toInt (Config.freeFrameTime free)
  have b1 := BitVec.toInt_lt (x := Config.freeFrameTime free)
  show t ≤ sext (wrap32 (max t (sext (Config.freeFrameTime free))))
  unfold sext wrap32 at *
  rw [BitVec.toInt_ofInt, Int.bmod_eq_of_le (by omega) (by omega)]
  exact le_max_left _ _

/-- After a run to `t`, an s32, the next frame time is not before `t`. -/
theorem runFrames_next {γ : Type} {run : Int → Int → γ → Mix → Res (γ × Mix)} {frame : γ → γ} {quiet : γ → Mix → Bool}
    {period : Nat} {t : Int} {last next next' : Word} {free free' : Nat} {g g' : γ} {m m' : Mix} (h0 : -2 ^ 31 ≤ t)
    (h1 : t < 2 ^ 31) (h : runFrames run frame quiet period t last next free g m = .ok (g', next', free', m')) :
    t ≤ sext next' := by
  obtain ⟨n, stored, h2, h3⟩ := runFrames_ok h
  cases stored with
  | none => cases h3; exact (settleFrameTime_none free h0 h1).1
  | some w => cases h3; exact frameLoop_next h2

/-- A word is an s32. -/
theorem sext_range (w : Word) : -2 ^ 31 ≤ sext w ∧ sext w < 2 ^ 31 := by
  have h0 := BitVec.le_toInt w
  have h1 := BitVec.toInt_lt (x := w)
  unfold sext
  exact ⟨h0, h1⟩

/-- Adding a period to a stored time, R11. -/
theorem wrap32_add_period (next : Word) (period : Nat) : wrap32 (sext next + period) = next + BitVec.ofNat 32 period := by
  unfold wrap32 sext
  rw [BitVec.ofInt_add, BitVec.ofInt_toInt, BitVec.ofInt_natCast]

/-- A loop in which no later pass can fail has no fault. -/
theorem firstFault_stops {γ : Type} {run : Int → Int → γ → Mix → Res (γ × Mix)} {frame : γ → γ} {quiet : γ → Mix → Bool}
    {period n : Nat} {last : Int} {next : Word} {g : γ} {m : Mix} (h : quiet g m = true) :
    firstFault run frame quiet period n last next g m = none := by
  cases n with
  | zero => rfl
  | succ n => unfold firstFault; rw [if_pos h]

/-- Where `quiet` tells right that no later pass can fail, no pass fails. -/
theorem loopPasses_quiet {γ : Type} {run : Int → Int → γ → Mix → Res (γ × Mix)} {frame : γ → γ} {quiet : γ → Mix → Bool}
    {period : Nat} (hq : ∀ {a b : Int} {g : γ} {m : Mix}, quiet g m = true → -2 ^ 31 ≤ a → a < 2 ^ 31 → b < 2 ^ 31 →
      ∃ g' m', run a b g m = .ok (g', m') ∧ quiet (frame g') m' = true) :
    ∀ {n : Nat} {last : Int} {next : Word} {g : γ} {m : Mix}, quiet g m = true → -2 ^ 31 ≤ last → last < 2 ^ 31 →
      ∃ g' m', loopPasses run frame period n last next g m = .ok (g', m') := by
  intro n
  induction n with
  | zero => intro last next g m _ _ _; exact ⟨_, _, rfl⟩
  | succ n ih =>
    intro last next g m h h0 h1
    obtain ⟨g1, m1, h2, h3⟩ := hq (b := sext next) h h0 h1 (sext_range next).2
    unfold loopPasses
    rw [res_bind_of_ok _ h2]
    exact ih h3 (sext_range next).1 (sext_range next).2

/-- The fault of an outcome. -/
def raised {α : Type} : Res α → Option Raise
  | .error r => some r
  | .ok _ => none

/-- `firstFault` is the fault of the first `n` passes of the loop of R260. -/
theorem firstFault_eq {γ : Type} {run : Int → Int → γ → Mix → Res (γ × Mix)} {frame : γ → γ} {quiet : γ → Mix → Bool}
    {period : Nat} (hq : ∀ {a b : Int} {g : γ} {m : Mix}, quiet g m = true → -2 ^ 31 ≤ a → a < 2 ^ 31 → b < 2 ^ 31 →
      ∃ g' m', run a b g m = .ok (g', m') ∧ quiet (frame g') m' = true) :
    ∀ {n : Nat} {last : Int} {next : Word} {g : γ} {m : Mix}, -2 ^ 31 ≤ last → last < 2 ^ 31 →
      firstFault run frame quiet period n last next g m = raised (loopPasses run frame period n last next g m) := by
  intro n
  induction n with
  | zero => intro last next g m _ _; rfl
  | succ n ih =>
    intro last next g m h0 h1
    unfold firstFault
    split
    · next h =>
      obtain ⟨g1, m1, k⟩ := loopPasses_quiet hq (n := n + 1) (next := next) (period := period) h h0 h1
      rw [k]
      rfl
    · unfold loopPasses
      cases hr : run last (sext next) g m with
      | error r => rfl
      | ok x =>
        rw [res_bind_of_ok _ rfl]
        show firstFault run frame quiet period n (sext next) (wrap32 (sext next + period)) (frame x.1) x.2 = _
        rw [wrap32_add_period]
        exact ih (sext_range next).1 (sext_range next).2

/-- Where the first frame time not before `t` fits an s32, the loop reaches it. -/
theorem fits_reach {next : Word} {period : Nat} {t : Int} (hp : 1 ≤ period)
    (h : sext next + eventsBefore (sext next) t period * period < 2 ^ 31) : frameTimesReach next period t = true := by
  have hge := event_ge (t := sext next) (stop := t) hp
  have h0 := (sext_range next).1
  have hn : (eventsBefore (sext next) t period : Int) ≤ eventsBefore (sext next) t period * period := by
    have : (1 : Int) ≤ period := by exact_mod_cast hp
    nlinarith [Int.natCast_nonneg (eventsBefore (sext next) t period)]
  refine frameTimesReach_iff.2 ⟨eventsBefore (sext next) t period, by omega, ?_⟩
  have hk := nextTime_fits (next := next) (period := eventsBefore (sext next) t period * period) (by push_cast; omega)
  rw [← wrap32_add_period, hk]
  push_cast
  exact hge

/-- A run with frame steps to an s32 time succeeds where each of its runs does. -/
theorem runFrames_succeeds {γ : Type} {run : Int → Int → γ → Mix → Res (γ × Mix)} {frame : γ → γ} {quiet : γ → Mix → Bool}
    {period : Nat} {hi : Int} {last next : Word} {free : Nat} {g : γ} {m : Mix} (Q : γ → Mix → Prop) (hp : 1 ≤ period)
    (hhi : hi < 2 ^ 31)
    (hrun : ∀ {a b : Int} {g : γ} {m : Mix}, Q g m → sext last ≤ a → a ≤ b → b ≤ hi → ∃ g' m', run a b g m = .ok (g', m'))
    (hkeep : ∀ {a b : Int} {g g' : γ} {m m' : Mix}, Q g m → a ≤ b → run a b g m = .ok (g', m') → Q g' m')
    (hframe : ∀ {g : γ} {m : Mix}, Q g m → Q (frame g) m) (hq : Q g m) (h0 : sext last ≤ hi) (h1 : sext last ≤ sext next)
    (h2 : framesInOrder next period hi (quiet g m)) :
    ∃ g' next' free' m', runFrames run frame quiet period hi last next free g m = .ok (g', next', free', m') := by
  have key : ∀ n, n ≤ eventsBefore (sext next) hi period ∨ sext next + eventsBefore (sext next) hi period * period < 2 ^ 31 →
      ∃ g' stored m', frameLoop run frame period hi n (sext last) next g m = .ok (g', stored, m') := fun n hn =>
    frameLoop_succeeds Q hp hhi hrun hkeep hframe hq (le_refl _) h0 (.inr ⟨h1, hn⟩)
  have hpick : ∃ g' stored m', frameOutcome run frame quiet period hi (sext last) next g m = .ok (g', stored, m') := by
    unfold frameOutcome
    obtain h2 | ⟨hr, h2⟩ := h2
    · rw [if_pos (fits_reach hp h2)]
      exact key _ (.inr h2)
    · rw [hr, if_neg (by simp), firstFault_stops h2]
      exact key _ (.inl (le_refl _))
  obtain ⟨g1, stored, m1, k⟩ := hpick
  unfold runFrames
  rw [res_bind_of_ok _ k]
  exact ⟨_, _, _, _, rfl⟩

/-- A group run that does not go back passes the time check, R260. -/
theorem checkTime_ok {t : Int} {w : Word} (h : sext w ≤ t) : checkTime t w = .ok () := by
  unfold checkTime; rw [if_neg (by omega)]

/-- A group run that goes back fails it, R260. -/
theorem checkTime_back {t : Int} {w : Word} (h : t < sext w) : checkTime t w = .error ⟨.timeBackwards, wrap32 t⟩ := by
  unfold checkTime; rw [if_pos h]; rfl

end Sys2Proof.Machine
end

