-- ==== Sys2Proof/Laws/Groups.lean ====
section
/-! SUPPORT. What a group's run does (spec 42_osc_common.md R260): what it leaves, and when it succeeds. -/

namespace Sys2Proof.Machine

/-! ## PSG -/

/-- A tone's run. -/
theorem toneRun_ok {p : Params} {opc : Byte} {start stop : Int} {x x' : Tone} {m m' : Mix}
    (h : Tone.run p opc start stop x m = .ok (x', m')) :
    Adds p m m' ∧ x'.period = x.period ∧ x'.atten = x.atten ∧ x'.osc.route = x.osc.route ∧
    (start ≤ stop → x'.osc.pending) := by
  obtain ⟨⟨ph, o, m1⟩, h1, h2⟩ := res_bind_ok.1 h
  cases h2
  obtain ⟨k1, k2, k3, k4⟩ := runOsc_ok h1
  refine ⟨k1, rfl, rfl, k3, fun hs => delayAfter_pending ?_ ?_ hs k4⟩
  · unfold Tone.ticks; omega
  · unfold Tone.ticks; have := x.period.isLt; omega

/-- A noise run. -/
theorem psgNoiseRun_ok {p : Params} {opc : Byte} {start stop : Int} {per : BitVec 10} {x x' : PsgNoise} {m m' : Mix}
    (h : PsgNoise.run p opc start stop per x m = .ok (x', m')) :
    Adds p m m' ∧ x'.ctrl = x.ctrl ∧ x'.atten = x.atten ∧ x'.osc.route = x.osc.route ∧
    (start ≤ stop → x'.osc.pending) := by
  obtain ⟨⟨sh, o, m1⟩, h1, h2⟩ := res_bind_ok.1 h
  cases h2
  obtain ⟨k1, k2, k3, k4⟩ := runOsc_ok h1
  refine ⟨k1, rfl, rfl, k3, fun hs => delayAfter_pending ?_ ?_ hs k4⟩
  · unfold PsgNoise.ticks; split <;> omega
  · unfold PsgNoise.ticks; have := per.isLt; split <;> omega

/-- A tone's run succeeds where the mix stage accepts its interval. -/
theorem toneRun_succeeds {p : Params} {opc : Byte} {start stop lo hi : Int} {x : Tone} {m : Mix} (h : m.accepts p lo hi)
    (h0 : lo ≤ start) (h1 : start ≤ hi) (h2 : stop ≤ hi) (hd : x.osc.pending) :
    ∃ x' m', Tone.run p opc start stop x m = .ok (x', m') := by
  unfold Tone.run
  obtain ⟨a, o, m', hr⟩ := runOsc_succeeds (p := p) (opc := opc) (level := fun ph => x.level p ph * p.unitPsg)
    (advance := fun ph => ph ^^^ 1#1) (audible := x.audible p) (period := x.ticks) x.phase h h0 h1 h2 hd
  rw [res_bind_of_ok _ hr]
  exact ⟨_, _, rfl⟩

/-- A noise run succeeds where the mix stage accepts its interval. -/
theorem psgNoiseRun_succeeds {p : Params} {opc : Byte} {start stop lo hi : Int} {per : BitVec 10} {x : PsgNoise} {m : Mix}
    (h : m.accepts p lo hi) (h0 : lo ≤ start) (h1 : start ≤ hi) (h2 : stop ≤ hi) (hd : x.osc.pending) :
    ∃ x' m', PsgNoise.run p opc start stop per x m = .ok (x', m') := by
  unfold PsgNoise.run
  obtain ⟨a, o, m', hr⟩ := runOsc_succeeds (p := p) (opc := opc) (level := fun s => x.level p s * p.unitPsg)
    (advance := x.advance p) (audible := x.audible p) (period := x.ticks per) x.shifter h h0 h1 h2 hd
  rw [res_bind_of_ok _ hr]
  exact ⟨_, _, rfl⟩

/-- The run of a PSG group's oscillators, R270. -/
theorem psgRunAll_ok {p : Params} {opc : Byte} {start stop : Int} {g g' : Psg} {m m' : Mix}
    (h : Psg.runAll p opc start stop g m = .ok (g', m')) :
    Adds p m m' ∧ g.sameRegs g' ∧ g'.lastTime = g.lastTime ∧ (start ≤ stop → g'.pending) := by
  unfold Psg.runAll at h
  obtain ⟨⟨x0, m0⟩, h0, h⟩ := res_bind_ok.1 h
  obtain ⟨⟨x1, m1⟩, h1, h⟩ := res_bind_ok.1 h
  obtain ⟨⟨x2, m2⟩, h2, h⟩ := res_bind_ok.1 h
  obtain ⟨⟨x3, m3⟩, h3, h⟩ := res_bind_ok.1 h
  cases h
  obtain ⟨a0, b0, c0, d0, e0⟩ := toneRun_ok h0
  obtain ⟨a1, b1, c1, d1, e1⟩ := toneRun_ok h1
  obtain ⟨a2, b2, c2, d2, e2⟩ := toneRun_ok h2
  obtain ⟨a3, b3, c3, d3, e3⟩ := psgNoiseRun_ok h3
  exact ⟨adds_trans a0 (adds_trans a1 (adds_trans a2 a3)),
    ⟨rfl, rfl, ⟨b0, c0, d0⟩, ⟨b1, c1, d1⟩, ⟨b2, c2, d2⟩, b3, c3, d3⟩, rfl, fun hs => ⟨e0 hs, e1 hs, e2 hs, e3 hs⟩⟩

/-- The run of a PSG group's oscillators succeeds where the mix stage accepts its interval. -/
theorem psgRunAll_succeeds {p : Params} {opc : Byte} {start stop lo hi : Int} {g : Psg} {m : Mix} (h : m.accepts p lo hi)
    (h0 : lo ≤ start) (h1 : start ≤ hi) (h2 : stop ≤ hi) (hd : g.pending) :
    ∃ g' m', Psg.runAll p opc start stop g m = .ok (g', m') := by
  obtain ⟨d0, d1, d2, d3⟩ := hd
  unfold Psg.runAll
  obtain ⟨x0, m0, k0⟩ := toneRun_succeeds (opc := opc) h h0 h1 h2 d0
  rw [res_bind_of_ok _ k0]
  have hm0 := sameFrame_accepts (adds_sameFrame (toneRun_ok k0).1) h
  obtain ⟨x1, m1, k1⟩ := toneRun_succeeds (opc := opc) hm0 h0 h1 h2 d1
  simp only [res_bind_of_ok _ k1]
  have hm1 := sameFrame_accepts (adds_sameFrame (toneRun_ok k1).1) hm0
  obtain ⟨x2, m2, k2⟩ := toneRun_succeeds (opc := opc) hm1 h0 h1 h2 d2
  simp only [res_bind_of_ok _ k2]
  have hm2 := sameFrame_accepts (adds_sameFrame (toneRun_ok k2).1) hm1
  obtain ⟨x3, m3, k3⟩ := psgNoiseRun_succeeds (opc := opc) (per := g.tone2.period) hm2 h0 h1 h2 d3
  simp only [res_bind_of_ok _ k3]
  exact ⟨_, _, rfl⟩

/-- A PSG group's run, R260. -/
theorem psgRunGroup_ok {p : Params} {opc : Byte} {t : Int} {g g' : Psg} {m m' : Mix}
    (h : Psg.runGroup p opc t g m = .ok (g', m')) :
    Adds p m m' ∧ g.sameRegs g' ∧ g'.lastTime = wrap32 t ∧ g'.pending := by
  unfold Psg.runGroup at h
  obtain ⟨_, h0, h⟩ := res_bind_ok.1 h
  obtain ⟨⟨g1, m1⟩, h1, h⟩ := res_bind_ok.1 h
  cases h
  have ht : sext g.lastTime ≤ t := by
    unfold checkTime at h0
    split at h0
    · cases h0
    · omega
  obtain ⟨a, b, c, d⟩ := psgRunAll_ok h1
  exact ⟨a, b, rfl, d ht⟩

/-- A PSG group's run succeeds where the group is ready. -/
theorem psgRunGroup_succeeds {p : Params} {t : Int} {g : Psg} {m : Mix} (opc : Byte) (h : g.ready p m t) :
    ∃ g' m', Psg.runGroup p opc t g m = .ok (g', m') := by
  obtain ⟨ht, hd, hm⟩ := h
  unfold Psg.runGroup
  rw [checkTime_ok ht]
  obtain ⟨g1, m1, k⟩ := psgRunAll_succeeds (opc := opc) hm (le_refl _) ht (le_refl _) hd
  show ∃ g' m', (Psg.runAll p opc (sext g.lastTime) t g m >>= _) = _
  rw [res_bind_of_ok _ k]
  exact ⟨_, _, rfl⟩

/-! ## HH -/

/-- A square's run. -/
theorem squareRun_ok {p : Params} {opc : Byte} {h : Hh} {base : Nat} {start stop : Int} {x x' : Square} {m m' : Mix}
    (k : Hh.runSquare p opc h base start stop x m = .ok (x', m')) :
    Adds p m m' ∧ x'.gate = x.gate ∧ x'.env = x.env ∧ x'.osc.route = x.osc.route ∧ (start ≤ stop → x'.osc.pending) := by
  obtain ⟨⟨ph, o, m1⟩, h1, h2⟩ := res_bind_ok.1 k
  cases h2
  obtain ⟨k1, k2, k3, k4⟩ := runOsc_ok h1
  refine ⟨k1, rfl, rfl, k3, fun hs => delayAfter_pending ?_ ?_ hs k4⟩
  · unfold Hh.squareTicks; have := (h.freq base).isLt; omega
  · unfold Hh.squareTicks; omega

/-- The wave's run. -/
theorem waveRun_ok {p : Params} {opc : Byte} {h : Hh} {start stop : Int} {x x' : Wave} {m m' : Mix}
    (k : Hh.runWave p opc h start stop x m = .ok (x', m')) :
    Adds p m m' ∧ x'.gate = x.gate ∧ x'.osc.route = x.osc.route ∧ (start ≤ stop → x'.osc.pending) := by
  obtain ⟨⟨ph, o, m1⟩, h1, h2⟩ := res_bind_ok.1 k
  cases h2
  obtain ⟨k1, k2, k3, k4⟩ := runOsc_ok h1
  refine ⟨k1, rfl, k3, fun hs => delayAfter_pending ?_ ?_ hs k4⟩
  · unfold Hh.waveTicks; have := (h.freq baseWave).isLt; omega
  · unfold Hh.waveTicks; omega

/-- The noise divisor is between 8 and 112, and the clock shift at most 15, 45_hh_wave_noise_master.md R380. -/
theorem noiseTicks_range (h : Hh) : 1 ≤ h.noiseTicks ∧ h.noiseTicks < 2 ^ 31 := by
  unfold Hh.noiseTicks
  have h1 : 8 ≤ noiseDivisor ((h.reg 0x22).extractLsb' 0 3) ∧ noiseDivisor ((h.reg 0x22).extractLsb' 0 3) ≤ 112 := by
    generalize (h.reg 0x22).extractLsb' 0 3 = c
    revert c; decide
  have h2 : h.noiseShift ≤ 15 := by unfold Hh.noiseShift; have := ((h.reg 0x22).extractLsb' 4 4).isLt; omega
  have h3 : 2 ^ h.noiseShift ≤ 2 ^ 15 := Nat.pow_le_pow_right (by omega) h2
  have h4 : 1 ≤ 2 ^ h.noiseShift := Nat.one_le_two_pow
  constructor
  · exact le_trans (by omega) (Nat.mul_le_mul h1.1 h4)
  · exact lt_of_le_of_lt (Nat.mul_le_mul h1.2 h3) (by norm_num)

/-- The noise's run. -/
theorem noiseRun_ok {p : Params} {opc : Byte} {h : Hh} {start stop : Int} {x x' : HhNoise} {m m' : Mix}
    (k : Hh.runNoise p opc h start stop x m = .ok (x', m')) :
    Adds p m m' ∧ x'.gate = x.gate ∧ x'.env = x.env ∧ x'.osc.route = x.osc.route ∧ (start ≤ stop → x'.osc.pending) := by
  obtain ⟨⟨ph, o, m1⟩, h1, h2⟩ := res_bind_ok.1 k
  cases h2
  obtain ⟨k1, k2, k3, k4⟩ := runOsc_ok h1
  exact ⟨k1, rfl, rfl, k3, fun hs => delayAfter_pending (noiseTicks_range h).1 (noiseTicks_range h).2 hs k4⟩

/-- A square's run succeeds where the mix stage accepts its interval. -/
theorem squareRun_succeeds {p : Params} {opc : Byte} {start stop lo hi : Int} (h : Hh) (base : Nat) {x : Square} {m : Mix}
    (ha : m.accepts p lo hi) (h0 : lo ≤ start) (h1 : start ≤ hi) (h2 : stop ≤ hi) (hd : x.osc.pending) :
    ∃ x' m', Hh.runSquare p opc h base start stop x m = .ok (x', m') := by
  unfold Hh.runSquare
  obtain ⟨a, o, m', hr⟩ := runOsc_succeeds (p := p) (opc := opc)
    (level := fun ph => h.squareLevel p base x ph * h.volScale) (advance := fun ph => ph + 1)
    (audible := h.squareAudible p base x) (period := h.squareTicks base) x.phase ha h0 h1 h2 hd
  rw [res_bind_of_ok _ hr]
  exact ⟨_, _, rfl⟩

/-- The wave's run succeeds where the mix stage accepts its interval. -/
theorem waveRun_succeeds {p : Params} {opc : Byte} {start stop lo hi : Int} (h : Hh) {x : Wave} {m : Mix}
    (ha : m.accepts p lo hi) (h0 : lo ≤ start) (h1 : start ≤ hi) (h2 : stop ≤ hi) (hd : x.osc.pending) :
    ∃ x' m', Hh.runWave p opc h start stop x m = .ok (x', m') := by
  unfold Hh.runWave
  obtain ⟨a, o, m', hr⟩ := runOsc_succeeds (p := p) (opc := opc)
    (level := fun a : BitVec 5 × BitVec 4 => h.waveLevel p x a.2 * h.volScale) (advance := h.waveAdvance)
    (audible := h.waveAudible x) (period := h.waveTicks) (x.position, x.latched) ha h0 h1 h2 hd
  rw [res_bind_of_ok _ hr]
  exact ⟨_, _, rfl⟩

/-- The noise's run succeeds where the mix stage accepts its interval. -/
theorem noiseRun_succeeds {p : Params} {opc : Byte} {start stop lo hi : Int} (h : Hh) {x : HhNoise} {m : Mix}
    (ha : m.accepts p lo hi) (h0 : lo ≤ start) (h1 : start ≤ hi) (h2 : stop ≤ hi) (hd : x.osc.pending) :
    ∃ x' m', Hh.runNoise p opc h start stop x m = .ok (x', m') := by
  unfold Hh.runNoise
  obtain ⟨a, o, m', hr⟩ := runOsc_succeeds (p := p) (opc := opc)
    (level := fun l => h.noiseLevel p x l * h.volScale) (advance := h.noiseAdvance)
    (audible := h.noiseAudible x) (period := h.noiseTicks) x.lfsr ha h0 h1 h2 hd
  rw [res_bind_of_ok _ hr]
  exact ⟨_, _, rfl⟩

/-- What the run of the HH oscillators leaves: everything but phases, positions, delays and levels. -/
theorem hhRunAll_ok {p : Params} {opc : Byte} {start stop : Int} {h h' : Hh} {m m' : Mix}
    (k : Hh.runAll p opc start stop h m = .ok (h', m')) :
    Adds p m m' ∧ h'.regs = h.regs ∧ h'.framePhase = h.framePhase ∧ h'.nextFrameTime = h.nextFrameTime ∧
    h'.volScale = h.volScale ∧ h'.lastTime = h.lastTime ∧ h'.sweep = h.sweep ∧
    (h'.sq1.gate = h.sq1.gate ∧ h'.sq1.env = h.sq1.env ∧ h'.sq1.osc.route = h.sq1.osc.route) ∧
    (h'.sq2.gate = h.sq2.gate ∧ h'.sq2.env = h.sq2.env ∧ h'.sq2.osc.route = h.sq2.osc.route) ∧
    (h'.wave.gate = h.wave.gate ∧ h'.wave.osc.route = h.wave.osc.route) ∧
    (h'.noise.gate = h.noise.gate ∧ h'.noise.env = h.noise.env ∧ h'.noise.osc.route = h.noise.osc.route) ∧
    (start ≤ stop → h'.pending) := by
  unfold Hh.runAll at k
  obtain ⟨⟨x0, m0⟩, h0, k⟩ := res_bind_ok.1 k
  obtain ⟨⟨x1, m1⟩, h1, k⟩ := res_bind_ok.1 k
  obtain ⟨⟨x2, m2⟩, h2, k⟩ := res_bind_ok.1 k
  obtain ⟨⟨x3, m3⟩, h3, k⟩ := res_bind_ok.1 k
  cases k
  obtain ⟨a0, b0, c0, d0, e0⟩ := squareRun_ok h0
  obtain ⟨a1, b1, c1, d1, e1⟩ := squareRun_ok h1
  obtain ⟨a2, b2, c2, d2⟩ := waveRun_ok h2
  obtain ⟨a3, b3, c3, d3, e3⟩ := noiseRun_ok h3
  exact ⟨adds_trans a0 (adds_trans a1 (adds_trans a2 a3)), rfl, rfl, rfl, rfl, rfl, rfl,
    ⟨b0, c0, d0⟩, ⟨b1, c1, d1⟩, ⟨b2, c2⟩, ⟨b3, c3, d3⟩, fun hs => ⟨e0 hs, e1 hs, d2 hs, e3 hs⟩⟩

/-- The run of the HH oscillators succeeds where the mix stage accepts its interval. -/
theorem hhRunAll_succeeds {p : Params} {opc : Byte} {start stop lo hi : Int} {h : Hh} {m : Mix} (ha : m.accepts p lo hi)
    (h0 : lo ≤ start) (h1 : start ≤ hi) (h2 : stop ≤ hi) (hd : h.pending) :
    ∃ h' m', Hh.runAll p opc start stop h m = .ok (h', m') := by
  obtain ⟨d0, d1, d2, d3⟩ := hd
  unfold Hh.runAll
  obtain ⟨x0, m0, k0⟩ := squareRun_succeeds (opc := opc) h baseSq1 ha h0 h1 h2 d0
  rw [res_bind_of_ok _ k0]
  have hm0 := sameFrame_accepts (adds_sameFrame (squareRun_ok k0).1) ha
  obtain ⟨x1, m1, k1⟩ := squareRun_succeeds (opc := opc) h baseSq2 hm0 h0 h1 h2 d1
  simp only [res_bind_of_ok _ k1]
  have hm1 := sameFrame_accepts (adds_sameFrame (squareRun_ok k1).1) hm0
  obtain ⟨x2, m2, k2⟩ := waveRun_succeeds (opc := opc) h hm1 h0 h1 h2 d2
  simp only [res_bind_of_ok _ k2]
  have hm2 := sameFrame_accepts (adds_sameFrame (waveRun_ok k2).1) hm1
  obtain ⟨x3, m3, k3⟩ := noiseRun_succeeds (opc := opc) h hm2 h0 h1 h2 d3
  simp only [res_bind_of_ok _ k3]
  exact ⟨_, _, rfl⟩

/-- What a sweep calculation leaves, 44_hh_square.md R326. -/
theorem calcSweep_frame (u : Bool) (h : Hh) :
    (∀ a, a ≠ 0x13 → a ≠ 0x14 → (h.calcSweep u).reg a = h.reg a) ∧ (h.calcSweep u).volScale = h.volScale ∧
    (h.calcSweep u).framePhase = h.framePhase ∧ (h.calcSweep u).nextFrameTime = h.nextFrameTime ∧
    (h.calcSweep u).lastTime = h.lastTime ∧ (h.calcSweep u).sq1.osc = h.sq1.osc ∧ (h.calcSweep u).sq2 = h.sq2 ∧
    (h.calcSweep u).wave = h.wave ∧ (h.calcSweep u).noise = h.noise ∧ (h.calcSweep u).sq1.env = h.sq1.env ∧
    (h.calcSweep u).sq1.phase = h.sq1.phase ∧ (h.calcSweep u).sq1.gate.lengthCtr = h.sq1.gate.lengthCtr := by
  unfold Hh.calcSweep
  dsimp only
  split
  · exact ⟨fun _ _ _ => rfl, rfl, rfl, rfl, rfl, rfl, rfl, rfl, rfl, rfl, rfl, rfl⟩
  · split
    · refine ⟨fun a h1 h2 => ?_, rfl, rfl, rfl, rfl, rfl, rfl, rfl, rfl, rfl, rfl, rfl⟩
      unfold Hh.reg
      simp only [setReg_regs]
      rw [store_get_set_ne _ _ h2, store_get_set_ne _ _ h1]
    · exact ⟨fun _ _ _ => rfl, rfl, rfl, rfl, rfl, rfl, rfl, rfl, rfl, rfl, rfl, rfl⟩

/-- What a sweep clock leaves, R327. -/
theorem clockSweep_frame (h : Hh) :
    (∀ a, a ≠ 0x13 → a ≠ 0x14 → h.clockSweep.reg a = h.reg a) ∧ h.clockSweep.volScale = h.volScale ∧
    h.clockSweep.framePhase = h.framePhase ∧ h.clockSweep.nextFrameTime = h.nextFrameTime ∧
    h.clockSweep.lastTime = h.lastTime ∧ h.clockSweep.sq1.osc = h.sq1.osc ∧ h.clockSweep.sq2 = h.sq2 ∧
    h.clockSweep.wave = h.wave ∧ h.clockSweep.noise = h.noise ∧ h.clockSweep.sq1.env = h.sq1.env ∧
    h.clockSweep.sq1.phase = h.sq1.phase ∧ h.clockSweep.sq1.gate.lengthCtr = h.sq1.gate.lengthCtr := by
  unfold Hh.clockSweep
  dsimp only
  split
  · split
    · obtain ⟨a1, b1, c1, d1, e1, f1, g1, i1, j1, k1, l1, n1⟩ := calcSweep_frame true h.reloadSweep
      obtain ⟨a2, b2, c2, d2, e2, f2, g2, i2, j2, k2, l2, n2⟩ := calcSweep_frame false (h.reloadSweep.calcSweep true)
      exact ⟨fun a x y => (a2 a x y).trans (a1 a x y), b2.trans b1, c2.trans c1, d2.trans d1, e2.trans e1, f2.trans f1,
        g2.trans g1, i2.trans i1, j2.trans j1, k2.trans k1, l2.trans l1, n2.trans n1⟩
    · exact ⟨fun _ _ _ => rfl, rfl, rfl, rfl, rfl, rfl, rfl, rfl, rfl, rfl, rfl, rfl⟩
  · exact ⟨fun _ _ _ => rfl, rfl, rfl, rfl, rfl, rfl, rfl, rfl, rfl, rfl, rfl, rfl⟩

/-- What every unit clock of a frame step keeps. -/
def Hh.clockKeeps (h h' : Hh) : Prop :=
  h.sameRegs h' ∧ h'.framePhase = h.framePhase ∧ h'.nextFrameTime = h.nextFrameTime ∧ h'.lastTime = h.lastTime ∧
  h'.sq1.osc = h.sq1.osc ∧ h'.sq2.osc = h.sq2.osc ∧ h'.wave.osc = h.wave.osc ∧ h'.noise.osc = h.noise.osc

/-- Unit clocks after unit clocks. -/
theorem clockKeeps_trans {a b c : Hh} (h1 : a.clockKeeps b) (h2 : b.clockKeeps c) : a.clockKeeps c := by
  obtain ⟨⟨p1, p2, p3, p4, p5, p6⟩, p7, p8, p9, p10, p11, p12, p13⟩ := h1
  obtain ⟨⟨q1, q2, q3, q4, q5, q6⟩, q7, q8, q9, q10, q11, q12, q13⟩ := h2
  exact ⟨⟨fun x hx hy => (q1 x hx hy).trans (p1 x hx hy), q2.trans p2, q3.trans p3, q4.trans p4, q5.trans p5,
    q6.trans p6⟩, q7.trans p7, q8.trans p8, q9.trans p9, q10.trans p10, q11.trans p11, q12.trans p12, q13.trans p13⟩

/-- Nothing is clocked. -/
theorem clockKeeps_refl (h : Hh) : h.clockKeeps h :=
  ⟨⟨fun _ _ _ => rfl, rfl, rfl, rfl, rfl, rfl⟩, rfl, rfl, rfl, rfl, rfl, rfl, rfl⟩

/-- The sweep clock. -/
theorem clockSweep_keeps (h : Hh) : h.clockKeeps h.clockSweep := by
  obtain ⟨a, b, c, d, e, f, g, i, j, _, _, _⟩ := clockSweep_frame h
  exact ⟨⟨a, b, by rw [f], by rw [g], by rw [i], by rw [j]⟩, c, d, e, f, by rw [g], by rw [i], by rw [j]⟩

/-- What a frame step leaves of the HH group, R320: every oscillator's common fields, the scale, the times, and the registers
but the two a sweep writes. -/
theorem hhFrameStep_frame (h : Hh) :
    h.sameRegs h.frameStep ∧ h.frameStep.framePhase = h.framePhase + 1 ∧
    h.frameStep.nextFrameTime = h.nextFrameTime ∧ h.frameStep.lastTime = h.lastTime ∧
    h.frameStep.sq1.osc = h.sq1.osc ∧ h.frameStep.sq2.osc = h.sq2.osc ∧ h.frameStep.wave.osc = h.wave.osc ∧
    h.frameStep.noise.osc = h.noise.osc := by
  have key : ({ h with framePhase := h.framePhase + 1 } : Hh).clockKeeps h.frameStep := by
    unfold Hh.frameStep
    dsimp only
    have h1 := clockSweep_keeps { h with framePhase := h.framePhase + 1 }
    have h2 : ∀ g : Hh, g.clockKeeps g.clockLengths := fun g =>
      ⟨⟨fun _ _ _ => rfl, rfl, rfl, rfl, rfl, rfl⟩, rfl, rfl, rfl, rfl, rfl, rfl, rfl⟩
    have h3 : ∀ g : Hh, g.clockKeeps g.clockEnvs := fun g =>
      ⟨⟨fun _ _ _ => rfl, rfl, rfl, rfl, rfl, rfl⟩, rfl, rfl, rfl, rfl, rfl, rfl, rfl⟩
    split <;> split <;> split <;>
      first
        | exact clockKeeps_trans h1 (clockKeeps_trans (h2 _) (h3 _))
        | exact clockKeeps_trans h1 (h2 _)
        | exact clockKeeps_trans h1 (h3 _)
        | exact h1
        | exact clockKeeps_trans (h2 _) (h3 _)
        | exact h2 _
        | exact h3 _
        | exact clockKeeps_refl _
  exact key

/-- A run of the HH group keeps its registers, its routes and its scale. -/
theorem hhRunGroup_ok {p : Params} {opc : Byte} {t : Int} {n n' : Nat} {h h' : Hh} {m m' : Mix}
    (k : Hh.runGroup p opc t n h m = .ok (h', n', m')) :
    Adds p m m' ∧ h.sameRegs h' ∧ h'.lastTime = wrap32 t ∧
    (n' = n ∨ n' = n + 1) := by
  unfold Hh.runGroup at k
  obtain ⟨_, h0, k⟩ := res_bind_ok.1 k
  obtain ⟨⟨g1, next, n1, m1⟩, h1, k⟩ := res_bind_ok.1 k
  cases k
  have := runFrames_induct (fun (g : Hh) (x : Mix) => Adds p m x ∧ h.sameRegs g)
    (fun {a b g g' x x'} hp hr => by
      obtain ⟨q1, q2, q3, q4, q5, q6, q7, q8, q9, q10, q11, q12⟩ := hhRunAll_ok hr
      obtain ⟨p1, p2, p3, p4, p5, p6, p7⟩ := hp
      exact ⟨adds_trans p1 q1, fun a ha hb => by unfold Hh.reg; rw [q2]; exact p2 a ha hb, q5.trans p3,
        q8.2.2.trans p4, q9.2.2.trans p5, q10.2.trans p6, q11.2.2.trans p7⟩)
    (fun {g x} hp => by
      obtain ⟨p1, p2, p3, p4, p5, p6, p7⟩ := hp
      obtain ⟨⟨q1, q2, q3, q4, q5, q6⟩, _⟩ := hhFrameStep_frame g
      exact ⟨p1, fun a ha hb => (q1 a ha hb).trans (p2 a ha hb), q2.trans p3, q3.trans p4, q4.trans p5, q5.trans p6,
        q6.trans p7⟩)
    ⟨.refl _, fun _ _ _ => rfl, rfl, rfl, rfl, rfl, rfl⟩ h1
  exact ⟨this.1.1, this.1.2, rfl, this.2⟩

/-- A frame period is at least one tick. -/
theorem framePeriod_pos (n : Nat) : 1 ≤ framePeriod n := by unfold framePeriod; omega

/-- The HH group's run succeeds where the group is ready. -/
theorem hhRunGroup_succeeds {p : Params} {t : Int} {h : Hh} {m : Mix} (opc : Byte) (n : Nat) (htt : t < 2 ^ 31) (hr : h.ready p m t) :
    ∃ h' n' m', Hh.runGroup p opc t n h m = .ok (h', n', m') := by
  obtain ⟨ht, hn, hd, hm, hf⟩ := hr
  unfold Hh.runGroup
  rw [checkTime_ok ht]
  obtain ⟨g1, next, n1, m1, k⟩ := runFrames_succeeds (run := fun a b g m => Hh.runAll p opc a b g m) (frame := Hh.frameStep)
    (period := framePeriod p.hhFramePeriod) (hi := t)
    (fun g x => g.pending ∧ x.accepts p (sext h.lastTime) t) (framePeriod_pos _) htt
    (fun {a b g x} hq h0 h1 h2 => hhRunAll_succeeds hq.2 h0 (by omega) h2 hq.1)
    (fun {a b g g' x x'} hq hab hk => by
      have := hhRunAll_ok hk
      exact ⟨this.2.2.2.2.2.2.2.2.2.2.2 hab, sameFrame_accepts (adds_sameFrame this.1) hq.2⟩)
    (fun {g x} hq => by
      obtain ⟨_, _, _, _, q1, q2, q3, q4⟩ := hhFrameStep_frame g
      obtain ⟨⟨d0, d1, d2, d3⟩, hx⟩ := hq
      refine ⟨⟨?_, ?_, ?_, ?_⟩, hx⟩
      · rw [q1]; exact d0
      · rw [q2]; exact d1
      · rw [q3]; exact d2
      · rw [q4]; exact d3)
    (last := h.lastTime) (next := h.nextFrameTime) (free := n) (g := h) (m := m) ⟨hd, hm⟩ ht hn hf
  show ∃ h' n' m', (runFrames _ _ _ _ _ _ _ _ _ _ >>= _) = _
  rw [res_bind_of_ok _ k]
  exact ⟨_, _, _, rfl⟩

/-! ### Where no later pass can fail (`Hh.quiet`) -/

/-- What cannot sound cannot after an envelope clock. -/
theorem canSound_clockEnv {g : Gate} {e : Env} (h : canSound g e = false) : canSound g e.clock = false := by
  unfold canSound at *
  rcases Bool.and_eq_false_iff.1 h with h | h
  · rw [h]; rfl
  obtain ⟨h1, h2⟩ := Bool.or_eq_false_iff.1 h
  have hv : e.volume = 0#4 := by simpa using h1
  have : e.clock.volume = 0#4 ∧ e.clock.rising = false := by
    unfold Env.clock Env.reload
    split
    · split
      · dsimp only
        rw [h2, hv]
        split <;> exact ⟨by simp, by simp⟩
      · exact ⟨hv, h2⟩
    · exact ⟨hv, h2⟩
  rw [this.1, this.2]
  simp

/-- What cannot sound cannot after a length clock. -/
theorem canSound_clockLength {g : Gate} {e : Env} (r : Byte) (h : canSound g e = false) :
    canSound (g.clockLength r) e = false := by
  unfold Gate.clockLength
  split
  · unfold canSound at *
    dsimp only
    split
    · rfl
    · exact h
  · exact h

/-- A disabled oscillator stays so after a length clock. -/
theorem enabled_clockLength {g : Gate} (r : Byte) (h : g.enabled = false) : (g.clockLength r).enabled = false := by
  unfold Gate.clockLength
  split
  · dsimp only
    split
    · rfl
    · exact h
  · exact h

/-- The level of a square that does not sound. -/
theorem squareLevel_silent {p : Params} {h : Hh} {base : Nat} {q : Square} {ph : BitVec 3}
    (k : (h.dacOn base && canSound q.gate q.env) = false) :
    h.squareLevel p base q ph = (if h.dacOn base = false then p.hhDacOffLevel else -p.hhDacBias) ∧
    h.squareAudible p base q = false := by
  unfold Hh.squareLevel Hh.squareAudible
  rcases Bool.and_eq_false_iff.1 k with k | k
  · simp [k]
  have hv : q.vol = 0 := by
    unfold canSound at k
    unfold Square.vol
    rcases Bool.and_eq_false_iff.1 k with k | k
    · simp [k]
    · obtain ⟨k1, _⟩ := Bool.or_eq_false_iff.1 k
      have : q.env.volume = 0#4 := by simpa using k1
      simp [this]
  rw [hv]
  simp

/-- The level of a wave that does not sound. -/
theorem waveLevel_silent {p : Params} {h : Hh} {w : Wave} {l : BitVec 4} (k : (h.waveDacOn && w.gate.enabled) = false) :
    h.waveLevel p w l = (if h.waveDacOn = false then p.hhDacOffLevel else -p.hhDacBias) ∧ h.waveAudible w = false := by
  unfold Hh.waveLevel Hh.waveAudible
  rcases Bool.and_eq_false_iff.1 k with k | k <;> simp [k]

/-- The level of a noise that does not sound. -/
theorem noiseLevel_silent {p : Params} {h : Hh} {x : HhNoise} {l : BitVec 15}
    (k : (h.dacOn baseNoise && canSound x.gate x.env) = false) :
    h.noiseLevel p x l = (if h.dacOn baseNoise = false then p.hhDacOffLevel else -p.hhDacBias) ∧
    h.noiseAudible x = false := by
  unfold Hh.noiseLevel Hh.noiseAudible
  rcases Bool.and_eq_false_iff.1 k with k | k
  · simp [k]
  unfold canSound at k
  rcases Bool.and_eq_false_iff.1 k with k | k
  · simp [k]
  · obtain ⟨k1, _⟩ := Bool.or_eq_false_iff.1 k
    have : x.env.volume = 0#4 := by simpa using k1
    simp [this]

/-- An oscillator is quiet where it has no route, or cannot sound and has emitted its level. -/
theorem oscQuiet_iff {o : Osc} {sounds : Bool} {level : Int} :
    o.quiet sounds level = true ↔ o.route = .none ∨ (sounds = false ∧ level = sext o.lastAmp) := by
  unfold Osc.quiet
  simp

/-- A run of an oscillator that is quiet does not fail and leaves it quiet. -/
theorem runOsc_oscQuiet {α : Type} {p : Params} {opc : Byte} {level : α → Int} {advance : α → α} {audible sounds : Bool}
    {period : Nat} {start stop : Int} {a : α} {o : Osc} {m : Mix} (h0 : -2 ^ 31 ≤ start) (h1 : start < 2 ^ 31)
    (h2 : stop < 2 ^ 31) (hs : sounds = false → audible = false ∧ ∀ b, level b = level a)
    (h : m.acceptsAll p = true ∨ o.quiet sounds (level a) = true) :
    ∃ a' o' m', runOsc p opc level advance audible period start stop a o m = .ok (a', o', m') ∧
      (o.quiet sounds (level a) = true → o'.quiet sounds (level a') = true) := by
  have hk : m.acceptsAll p = true ∨ o.route = .none ∨ (audible = false ∧ level a = sext o.lastAmp) :=
    h.imp id fun h => (oscQuiet_iff.1 h).imp id fun h => ⟨(hs h.1).1, h.2⟩
  obtain ⟨a', o', m', k, kr, kl⟩ := runOsc_quiet (opc := opc) (period := period) (advance := advance) a h0 h1 h2 hk
  refine ⟨a', o', m', k, fun h => oscQuiet_iff.2 ?_⟩
  rw [kr]
  refine (oscQuiet_iff.1 h).imp id fun h => ⟨h.1, ?_⟩
  obtain ⟨ha, hl⟩ := hs h.1
  rw [hl a', h.2, kl ha h.2]

/-- A square's run between s32 times, where it is quiet or every time is accepted. -/
theorem squareRun_quiet {p : Params} {opc : Byte} {h : Hh} {base : Nat} {start stop : Int} {q : Square} {m : Mix}
    (h0 : -2 ^ 31 ≤ start) (h1 : start < 2 ^ 31) (h2 : stop < 2 ^ 31)
    (k : m.acceptsAll p = true ∨
      q.osc.quiet (h.dacOn base && canSound q.gate q.env) (h.squareLevel p base q q.phase * h.volScale) = true) :
    ∃ q' m', Hh.runSquare p opc h base start stop q m = .ok (q', m') ∧
      (q.osc.quiet (h.dacOn base && canSound q.gate q.env) (h.squareLevel p base q q.phase * h.volScale) = true →
        q'.osc.quiet (h.dacOn base && canSound q'.gate q'.env) (h.squareLevel p base q' q'.phase * h.volScale) = true) := by
  obtain ⟨a, o, m', hr, hq⟩ := runOsc_oscQuiet (opc := opc) (level := fun ph => h.squareLevel p base q ph * h.volScale)
    (advance := fun ph => ph + 1) (audible := h.squareAudible p base q) (period := h.squareTicks base) h0 h1 h2
    (fun hs => ⟨(squareLevel_silent (ph := 0) hs).2, fun b => by
      rw [(squareLevel_silent hs).1, (squareLevel_silent hs).1]⟩) k
  unfold Hh.runSquare
  rw [res_bind_of_ok _ hr]
  exact ⟨_, _, rfl, hq⟩

/-- The wave's run. -/
theorem waveRun_quiet {p : Params} {opc : Byte} {h : Hh} {start stop : Int} {w : Wave} {m : Mix}
    (h0 : -2 ^ 31 ≤ start) (h1 : start < 2 ^ 31) (h2 : stop < 2 ^ 31)
    (k : m.acceptsAll p = true ∨
      w.osc.quiet (h.waveDacOn && w.gate.enabled) (h.waveLevel p w w.latched * h.volScale) = true) :
    ∃ w' m', Hh.runWave p opc h start stop w m = .ok (w', m') ∧
      (w.osc.quiet (h.waveDacOn && w.gate.enabled) (h.waveLevel p w w.latched * h.volScale) = true →
        w'.osc.quiet (h.waveDacOn && w'.gate.enabled) (h.waveLevel p w' w'.latched * h.volScale) = true) := by
  obtain ⟨a, o, m', hr, hq⟩ := runOsc_oscQuiet (opc := opc)
    (level := fun a : BitVec 5 × BitVec 4 => h.waveLevel p w a.2 * h.volScale) (advance := h.waveAdvance)
    (audible := h.waveAudible w) (period := h.waveTicks) (a := (w.position, w.latched)) h0 h1 h2
    (fun hs => ⟨(waveLevel_silent (p := p) (l := 0) hs).2, fun b => by
      rw [(waveLevel_silent hs).1, (waveLevel_silent hs).1]⟩) k
  unfold Hh.runWave
  rw [res_bind_of_ok _ hr]
  exact ⟨_, _, rfl, hq⟩

/-- The noise's run. -/
theorem noiseRun_quiet {p : Params} {opc : Byte} {h : Hh} {start stop : Int} {x : HhNoise} {m : Mix}
    (h0 : -2 ^ 31 ≤ start) (h1 : start < 2 ^ 31) (h2 : stop < 2 ^ 31)
    (k : m.acceptsAll p = true ∨
      x.osc.quiet (h.dacOn baseNoise && canSound x.gate x.env) (h.noiseLevel p x x.lfsr * h.volScale) = true) :
    ∃ x' m', Hh.runNoise p opc h start stop x m = .ok (x', m') ∧
      (x.osc.quiet (h.dacOn baseNoise && canSound x.gate x.env) (h.noiseLevel p x x.lfsr * h.volScale) = true →
        x'.osc.quiet (h.dacOn baseNoise && canSound x'.gate x'.env) (h.noiseLevel p x' x'.lfsr * h.volScale) = true) := by
  obtain ⟨a, o, m', hr, hq⟩ := runOsc_oscQuiet (opc := opc) (level := fun l => h.noiseLevel p x l * h.volScale)
    (advance := h.noiseAdvance) (audible := h.noiseAudible x) (period := h.noiseTicks) h0 h1 h2
    (fun hs => ⟨(noiseLevel_silent (p := p) (l := 0) hs).2, fun b => by
      rw [(noiseLevel_silent hs).1, (noiseLevel_silent hs).1]⟩) k
  unfold Hh.runNoise
  rw [res_bind_of_ok _ hr]
  exact ⟨_, _, rfl, hq⟩

/-- A group is quiet where every `Emit` is accepted, or each oscillator is quiet. -/
theorem hhQuiet_iff {p : Params} {h : Hh} {m : Mix} :
    h.quiet p m = true ↔ m.acceptsAll p = true ∨
      (h.sq1.osc.quiet (h.dacOn baseSq1 && canSound h.sq1.gate h.sq1.env)
        (h.squareLevel p baseSq1 h.sq1 h.sq1.phase * h.volScale) = true ∧
      h.sq2.osc.quiet (h.dacOn baseSq2 && canSound h.sq2.gate h.sq2.env)
        (h.squareLevel p baseSq2 h.sq2 h.sq2.phase * h.volScale) = true ∧
      h.wave.osc.quiet (h.waveDacOn && h.wave.gate.enabled) (h.waveLevel p h.wave h.wave.latched * h.volScale) = true ∧
      h.noise.osc.quiet (h.dacOn baseNoise && canSound h.noise.gate h.noise.env)
        (h.noiseLevel p h.noise h.noise.lfsr * h.volScale) = true) := by
  unfold Hh.quiet
  simp only [Bool.or_eq_true, Bool.and_eq_true]
  tauto

/-- A run of a quiet group between s32 times does not fail and leaves it quiet. -/
theorem hhRunAll_quiet {p : Params} {opc : Byte} {start stop : Int} {h : Hh} {m : Mix} (h0 : -2 ^ 31 ≤ start)
    (h1 : start < 2 ^ 31) (h2 : stop < 2 ^ 31) (k : h.quiet p m = true) :
    ∃ h' m', Hh.runAll p opc start stop h m = .ok (h', m') ∧ h'.quiet p m' = true := by
  have k' := hhQuiet_iff.1 k
  unfold Hh.runAll
  obtain ⟨x0, m0, r0, q0⟩ := squareRun_quiet (opc := opc) (base := baseSq1) h0 h1 h2 (k'.imp id fun k => k.1)
  have e0 := sameFrame_acceptsAll (p := p) (adds_sameFrame (squareRun_ok r0).1)
  obtain ⟨x1, m1, r1, q1⟩ := squareRun_quiet (opc := opc) (base := baseSq2) (m := m0) h0 h1 h2
    (k'.imp (fun k => e0.trans k) fun k => k.2.1)
  have e1 := (sameFrame_acceptsAll (p := p) (adds_sameFrame (squareRun_ok r1).1)).trans e0
  obtain ⟨x2, m2, r2, q2⟩ := waveRun_quiet (opc := opc) (m := m1) h0 h1 h2
    (k'.imp (fun k => e1.trans k) fun k => k.2.2.1)
  have e2 := (sameFrame_acceptsAll (p := p) (adds_sameFrame (waveRun_ok r2).1)).trans e1
  obtain ⟨x3, m3, r3, q3⟩ := noiseRun_quiet (opc := opc) (m := m2) h0 h1 h2
    (k'.imp (fun k => e2.trans k) fun k => k.2.2.2)
  have e3 := (sameFrame_acceptsAll (p := p) (adds_sameFrame (noiseRun_ok r3).1)).trans e2
  rw [res_bind_of_ok _ r0]
  simp only [res_bind_of_ok _ r1, res_bind_of_ok _ r2, res_bind_of_ok _ r3]
  refine ⟨_, _, rfl, hhQuiet_iff.2 (k'.imp (fun k => e3.trans k) fun k => ⟨q0 k.1, q1 k.2.1, q2 k.2.2.1, q3 k.2.2.2⟩)⟩

/-- What a unit clock or a frame step keeps of an HH group that is quiet: no oscillator gets a sound. -/
def Hh.clockQuiet (h h' : Hh) : Prop :=
  h.clockKeeps h' ∧ (canSound h.sq1.gate h.sq1.env = false → canSound h'.sq1.gate h'.sq1.env = false) ∧
  (canSound h.sq2.gate h.sq2.env = false → canSound h'.sq2.gate h'.sq2.env = false) ∧
  (h.wave.gate.enabled = false → h'.wave.gate.enabled = false) ∧
  (canSound h.noise.gate h.noise.env = false → canSound h'.noise.gate h'.noise.env = false)

/-- Unit clocks after unit clocks. -/
theorem clockQuiet_trans {a b c : Hh} (h1 : a.clockQuiet b) (h2 : b.clockQuiet c) : a.clockQuiet c :=
  ⟨clockKeeps_trans h1.1 h2.1, h2.2.1 ∘ h1.2.1, h2.2.2.1 ∘ h1.2.2.1, h2.2.2.2.1 ∘ h1.2.2.2.1, h2.2.2.2.2 ∘ h1.2.2.2.2⟩

/-- Nothing is clocked. -/
theorem clockQuiet_refl (h : Hh) : h.clockQuiet h := ⟨clockKeeps_refl h, id, id, id, id⟩

/-- The length clocks. -/
theorem clockLengths_quiet (h : Hh) : h.clockQuiet h.clockLengths :=
  ⟨⟨⟨fun _ _ _ => rfl, rfl, rfl, rfl, rfl, rfl⟩, rfl, rfl, rfl, rfl, rfl, rfl, rfl⟩, canSound_clockLength _,
    canSound_clockLength _, enabled_clockLength _, canSound_clockLength _⟩

/-- The envelope clocks. -/
theorem clockEnvs_quiet (h : Hh) : h.clockQuiet h.clockEnvs :=
  ⟨⟨⟨fun _ _ _ => rfl, rfl, rfl, rfl, rfl, rfl⟩, rfl, rfl, rfl, rfl, rfl, rfl, rfl⟩, canSound_clockEnv,
    canSound_clockEnv, id, canSound_clockEnv⟩

/-- A sweep calculation never enables sq1. -/
theorem calcSweep_enabled (u : Bool) {h : Hh} (k : h.sq1.gate.enabled = false) : (h.calcSweep u).sq1.gate.enabled = false := by
  unfold Hh.calcSweep
  dsimp only
  split
  · rfl
  · split <;> exact k

/-- The sweep clock. -/
theorem clockSweep_quiet (h : Hh) : h.clockQuiet h.clockSweep := by
  obtain ⟨_, _, _, _, _, _, g, i, j, e, _, _⟩ := clockSweep_frame h
  refine ⟨clockSweep_keeps h, fun k => ?_, fun k => by rw [g]; exact k, fun k => by rw [i]; exact k, fun k => by rw [j]; exact k⟩
  unfold canSound at *
  rw [e]
  rcases Bool.and_eq_false_iff.1 k with k | k
  · have : h.clockSweep.sq1.gate.enabled = false := by
      unfold Hh.clockSweep
      dsimp only
      split
      · split
        · exact calcSweep_enabled false (calcSweep_enabled true k)
        · exact k
      · exact k
    rw [this]; rfl
  · rw [k, Bool.and_false]

/-- A frame step, R320, lets no oscillator sound that did not. -/
theorem hhFrameStep_clockQuiet (h : Hh) : ({ h with framePhase := h.framePhase + 1 } : Hh).clockQuiet h.frameStep := by
  unfold Hh.frameStep
  dsimp only
  have h1 := clockSweep_quiet { h with framePhase := h.framePhase + 1 }
  split <;> split <;> split <;>
    first
      | exact clockQuiet_trans h1 (clockQuiet_trans (clockLengths_quiet _) (clockEnvs_quiet _))
      | exact clockQuiet_trans h1 (clockLengths_quiet _)
      | exact clockQuiet_trans h1 (clockEnvs_quiet _)
      | exact h1
      | exact clockQuiet_trans (clockLengths_quiet _) (clockEnvs_quiet _)
      | exact clockLengths_quiet _
      | exact clockEnvs_quiet _
      | exact clockQuiet_refl _

/-- An oscillator with the same common fields, which cannot sound where it could not, is quiet where it was. -/
theorem oscQuiet_mono {o o' : Osc} {dac a b : Bool} {level level' off on : Int} (ho : o' = o) (hab : a = false → b = false)
    (hl : (dac && a) = false → level = if dac = false then off else on)
    (hl' : (dac && b) = false → level' = if dac = false then off else on) (h : o.quiet (dac && a) level = true) :
    o'.quiet (dac && b) level' = true := by
  subst ho
  refine oscQuiet_iff.2 ((oscQuiet_iff.1 h).imp id fun h => ?_)
  have hb : (dac && b) = false := by
    rcases Bool.and_eq_false_iff.1 h.1 with k | k
    · rw [k]; rfl
    · rw [hab k, Bool.and_false]
  exact ⟨hb, (hl' hb).trans ((hl h.1).symm.trans h.2)⟩

/-- A frame step of a quiet group leaves it quiet. -/
theorem hhFrameStep_quiet {p : Params} {h : Hh} {m : Mix} (k : h.quiet p m = true) : h.frameStep.quiet p m = true := by
  obtain ⟨⟨⟨r, v, _⟩, _, _, _, o1, o2, o3, o4⟩, c1, c2, c3, c4⟩ := hhFrameStep_clockQuiet h
  have hd : ∀ b, b + 2 ≠ 0x13 → b + 2 ≠ 0x14 → h.frameStep.dacOn b = h.dacOn b := fun b h1 h2 => by
    unfold Hh.dacOn; rw [r (b + 2) h1 h2]; rfl
  have hw : h.frameStep.waveDacOn = h.waveDacOn := by unfold Hh.waveDacOn; rw [r 0x1A (by decide) (by decide)]; rfl
  have hv : h.frameStep.volScale = h.volScale := v
  refine hhQuiet_iff.2 ((hhQuiet_iff.1 k).imp id fun ⟨k1, k2, k3, k4⟩ => ?_)
  rw [hd baseSq1 (by decide) (by decide), hd baseSq2 (by decide) (by decide), hd baseNoise (by decide) (by decide), hw, hv]
  have e1 := hd baseSq1 (by decide) (by decide)
  have e2 := hd baseSq2 (by decide) (by decide)
  have e4 := hd baseNoise (by decide) (by decide)
  refine ⟨oscQuiet_mono (off := p.hhDacOffLevel * h.volScale) (on := -p.hhDacBias * h.volScale) o1 c1
      (fun q => ?_) (fun q => ?_) k1,
    oscQuiet_mono (off := p.hhDacOffLevel * h.volScale) (on := -p.hhDacBias * h.volScale) o2 c2
      (fun q => ?_) (fun q => ?_) k2,
    oscQuiet_mono (off := p.hhDacOffLevel * h.volScale) (on := -p.hhDacBias * h.volScale) o3 c3
      (fun q => ?_) (fun q => ?_) k3,
    oscQuiet_mono (off := p.hhDacOffLevel * h.volScale) (on := -p.hhDacBias * h.volScale) o4 c4
      (fun q => ?_) (fun q => ?_) k4⟩
  · rw [(squareLevel_silent q).1]; split <;> rfl
  · rw [(squareLevel_silent (by rw [e1]; exact q)).1, e1]; split <;> rfl
  · rw [(squareLevel_silent q).1]; split <;> rfl
  · rw [(squareLevel_silent (by rw [e2]; exact q)).1, e2]; split <;> rfl
  · rw [(waveLevel_silent q).1]; split <;> rfl
  · rw [(waveLevel_silent (by rw [hw]; exact q)).1, hw]; split <;> rfl
  · rw [(noiseLevel_silent q).1]; split <;> rfl
  · rw [(noiseLevel_silent (by rw [e4]; exact q)).1, e4]; split <;> rfl

/-- The HH group's `firstFault` is the fault of the passes of the loop of R260. -/
theorem hhFirstFault_eq {p : Params} {opc : Byte} {period n : Nat} {last : Int} {next : Word} {h : Hh} {m : Mix}
    (h0 : -2 ^ 31 ≤ last) (h1 : last < 2 ^ 31) :
    firstFault (fun a b g m => Hh.runAll p opc a b g m) Hh.frameStep (Hh.quiet p) period n last next h m =
      raised (loopPasses (fun a b g m => Hh.runAll p opc a b g m) Hh.frameStep period n last next h m) :=
  firstFault_eq (fun {a b g m} k a0 a1 b1 => by
    obtain ⟨g', m', q1, q2⟩ := hhRunAll_quiet (opc := opc) (start := a) (stop := b) a0 a1 b1 k
    exact ⟨g', m', q1, hhFrameStep_quiet q2⟩) h0 h1

/-! ## TRI -/

/-- The triangle's run, 46_triangle.md R413. -/
theorem triRun_ok {p : Params} {opc : Byte} {start stop : Int} {g g' : Tri} {m m' : Mix}
    (h : Tri.run p opc start stop g m = .ok (g', m')) :
    Adds p m m' ∧ (∃ step osc, g' = { g with step := step, osc := osc } ∧ osc.route = g.osc.route ∧
      (start ≤ stop → osc.pending)) := by
  unfold Tri.run at h
  obtain ⟨⟨o1, m1⟩, h1, h2⟩ := res_bind_ok.1 h
  obtain ⟨k1, k2, k3, _⟩ := levelCheck_ok h1
  simp only [k2] at h2
  split at h2
  · obtain ⟨⟨a2, o2, m2⟩, h3, h4⟩ := res_bind_ok.1 h2
    obtain ⟨j1, j2, j3, j4⟩ := audibleLoop_ok h3
    cases h4
    refine ⟨adds_trans k1 j1, _, _, rfl, j4.trans k3, fun hs => ?_⟩
    refine delayAfter_pending (o := g.osc) (start := start) (stop := stop) (period := g.ticks) ?_ ?_ hs rfl
    · unfold Tri.ticks; omega
    · unfold Tri.ticks; have := g.raw.isLt; omega
  · cases h2
    refine ⟨k1, g.step, _, rfl, k3, fun _ => ?_⟩
    exact (by decide : (0 : Int) ≤ sext 0)

/-- The triangle's run succeeds where the mix stage accepts its interval. -/
theorem triRun_succeeds {p : Params} {opc : Byte} {start stop lo hi : Int} {g : Tri} {m : Mix} (h : m.accepts p lo hi)
    (h0 : lo ≤ start) (h1 : start ≤ hi) (h2 : stop ≤ hi) (hd : g.osc.pending) :
    ∃ g' m', Tri.run p opc start stop g m = .ok (g', m') := by
  obtain ⟨o1, m1, h3⟩ := levelCheck_succeeds (opc := opc) (amp := (triSeq g.step : Int) * p.unitTri) g.osc h h0 h1
  obtain ⟨k1, k2, k3, _⟩ := levelCheck_ok h3
  unfold Tri.run
  rw [res_bind_of_ok _ h3]
  simp only [k2]
  split
  · have hm := sameFrame_accepts (adds_sameFrame k1) h
    unfold Osc.pending at hd
    obtain ⟨a2, o2, m2, h4⟩ := audibleLoop_succeeds (p := p) (opc := opc)
      (level := fun s : BitVec 5 => (triSeq s : Int) * p.unitTri) (advance := fun s => s + 1) (period := g.ticks)
      (n := eventsBefore (start + sext g.osc.delay) stop g.ticks) (t := start + sext g.osc.delay) g.step o1 hm
      (by omega) (fun k hk => by have := event_lt hk; omega)
    rw [res_bind_of_ok _ h4]
    exact ⟨_, _, rfl⟩
  · exact ⟨_, _, rfl⟩

/-- What a frame step leaves of the TRI group, R417. -/
theorem triFrameStep_frame (g : Tri) :
    g.sameRegs g.stepFrame ∧ g.stepFrame.osc = g.osc ∧ g.stepFrame.step = g.step ∧ g.stepFrame.lastTime = g.lastTime ∧
    g.stepFrame.nextFrameTime = g.nextFrameTime :=
  ⟨⟨rfl, rfl, rfl, rfl, rfl⟩, rfl, rfl, rfl, rfl⟩

/-- A run of the TRI group keeps its registers and its route. -/
theorem triRunGroup_ok {p : Params} {opc : Byte} {t : Int} {n n' : Nat} {g g' : Tri} {m m' : Mix}
    (k : Tri.runGroup p opc t n g m = .ok (g', n', m')) :
    Adds p m m' ∧ g.sameRegs g' ∧ g'.lastTime = wrap32 t ∧
    (n' = n ∨ n' = n + 1) := by
  unfold Tri.runGroup at k
  obtain ⟨_, h0, k⟩ := res_bind_ok.1 k
  obtain ⟨⟨g1, next, n1, m1⟩, h1, k⟩ := res_bind_ok.1 k
  cases k
  have := runFrames_induct (frame := Tri.stepFrame) (fun (x : Tri) (y : Mix) => Adds p m y ∧ g.sameRegs x)
    (fun {a b x x' y y'} hp hr => by
      obtain ⟨q1, st, os, rfl, q2, _⟩ := triRun_ok hr
      obtain ⟨p1, p2, p3, p4, p5, p6⟩ := hp
      exact ⟨adds_trans p1 q1, p2, p3, p4, p5, q2.trans p6⟩)
    (fun {x y} hp => hp)
    ⟨.refl _, rfl, rfl, rfl, rfl, rfl⟩ h1
  exact ⟨this.1.1, this.1.2, rfl, this.2⟩

/-- The TRI group's run succeeds where the group is ready. -/
theorem triRunGroup_succeeds {p : Params} {t : Int} {g : Tri} {m : Mix} (opc : Byte) (n : Nat) (htt : t < 2 ^ 31) (hr : g.ready p m t) :
    ∃ g' n' m', Tri.runGroup p opc t n g m = .ok (g', n', m') := by
  obtain ⟨ht, hn, hd, hm, hf⟩ := hr
  unfold Tri.runGroup
  rw [checkTime_ok ht]
  obtain ⟨g1, next, n1, m1, k⟩ := runFrames_succeeds (run := fun a b g m => Tri.run p opc a b g m) (frame := Tri.stepFrame)
    (period := framePeriod p.triFramePeriod) (hi := t)
    (fun (x : Tri) (y : Mix) => x.osc.pending ∧ y.accepts p (sext g.lastTime) t) (framePeriod_pos _) htt
    (fun {a b x y} hq h0 h1 h2 => triRun_succeeds hq.2 h0 (by omega) h2 hq.1)
    (fun {a b x x' y y'} hq hab hk => by
      obtain ⟨q1, st, os, rfl, _, q2⟩ := triRun_ok hk
      exact ⟨q2 hab, sameFrame_accepts (adds_sameFrame q1) hq.2⟩)
    (fun {x y} hq => hq)
    (last := g.lastTime) (next := g.nextFrameTime) (free := n) (g := g) (m := m) ⟨hd, hm⟩ ht hn hf
  show ∃ g' n' m', (runFrames _ _ _ _ _ _ _ _ _ _ >>= _) = _
  rw [res_bind_of_ok _ k]
  exact ⟨_, _, _, rfl⟩

/-! ### Where no later pass can fail (`Tri.quiet`) -/

/-- A halted triangle is not running, R413. -/
theorem halted_running {p : Params} {g : Tri} (h : g.halted p = true) : g.running p = false := by
  unfold Tri.halted at h
  unfold Tri.running
  simp only [Bool.or_eq_true, Bool.and_eq_true, decide_eq_true_eq] at h
  rcases h with (h | ⟨h, _⟩) | h
  · simp [h]
  · simp [h]
  · simp [Nat.not_le.2 h]

/-- A halted triangle stays so after a frame step, R417. -/
theorem halted_stepFrame {p : Params} {g : Tri} (h : g.halted p = true) : g.stepFrame.halted p = true := by
  unfold Tri.halted at *
  simp only [Bool.or_eq_true, Bool.and_eq_true, decide_eq_true_eq] at h ⊢
  rcases h with (h | ⟨h, k⟩) | h
  · left; left
    unfold Tri.stepFrame
    dsimp only
    split <;> omega
  · left; right
    have k' : g.linearReload = false := by simpa using k
    unfold Tri.stepFrame
    dsimp only
    rw [k', h]
    simp
  · exact .inr h

/-- A run of a quiet triangle between s32 times does not fail and leaves it quiet. -/
theorem triRun_quiet {p : Params} {opc : Byte} {start stop : Int} {g : Tri} {m : Mix} (h0 : -2 ^ 31 ≤ start)
    (h1 : start < 2 ^ 31) (h2 : stop < 2 ^ 31) (k : g.quiet p m = true) :
    ∃ g' m', Tri.run p opc start stop g m = .ok (g', m') ∧ g'.quiet p m' = true := by
  unfold Tri.quiet at k
  rcases Bool.or_eq_true_iff.1 k with k | k
  · have ha := acceptsAll_accepts k
    have hd := BitVec.le_toInt g.osc.delay
    have hr : ∃ g' m', Tri.run p opc start stop g m = .ok (g', m') := by
      obtain ⟨o1, m1, h3⟩ := levelCheck_succeeds (opc := opc) (t := start) (amp := (triSeq g.step : Int) * p.unitTri) g.osc ha
        (by omega) (by omega)
      obtain ⟨k1, k2, k3, _⟩ := levelCheck_ok h3
      unfold Tri.run
      rw [res_bind_of_ok _ h3]
      simp only [k2]
      split
      · obtain ⟨a2, o2, m2, h4⟩ := audibleLoop_succeeds (p := p) (opc := opc)
          (level := fun s : BitVec 5 => (triSeq s : Int) * p.unitTri) (advance := fun s => s + 1) (period := g.ticks)
          (n := eventsBefore (start + sext g.osc.delay) stop g.ticks) (t := start + sext g.osc.delay) g.step o1
          (sameFrame_accepts (adds_sameFrame k1) ha) (by unfold sext; omega) (fun k hk => by have := event_lt hk; omega)
        rw [res_bind_of_ok _ h4]
        exact ⟨_, _, rfl⟩
      · exact ⟨_, _, rfl⟩
    obtain ⟨g', m', hr⟩ := hr
    refine ⟨g', m', hr, ?_⟩
    unfold Tri.quiet
    rw [sameFrame_acceptsAll (adds_sameFrame (triRun_ok hr).1), k]
    rfl
  · obtain ⟨k1, k2⟩ := Bool.and_eq_true_iff.1 k
    have k3 := of_decide_eq_true k2
    refine ⟨{ g with osc := { g.osc with delay := 0 } }, m, ?_, ?_⟩
    · unfold Tri.run levelCheck
      dsimp only
      rw [if_pos k3]
      show (if g.running p = true then _ else _) = _
      rw [halted_running k1]
      rfl
    · unfold Tri.quiet
      exact Bool.or_eq_true_iff.2 (.inr k)

/-- A frame step of a quiet triangle leaves it quiet. -/
theorem triFrameStep_quiet {p : Params} {g : Tri} {m : Mix} (k : g.quiet p m = true) : g.stepFrame.quiet p m = true := by
  unfold Tri.quiet at *
  refine Bool.or_eq_true_iff.2 ((Bool.or_eq_true_iff.1 k).imp id fun k => ?_)
  obtain ⟨k1, k2⟩ := Bool.and_eq_true_iff.1 k
  exact Bool.and_eq_true_iff.2 ⟨halted_stepFrame k1, k2⟩

/-- The TRI group's `firstFault` is the fault of the passes of the loop of R260. -/
theorem triFirstFault_eq {p : Params} {opc : Byte} {period n : Nat} {last : Int} {next : Word} {g : Tri} {m : Mix}
    (h0 : -2 ^ 31 ≤ last) (h1 : last < 2 ^ 31) :
    firstFault (fun a b g m => Tri.run p opc a b g m) Tri.stepFrame (Tri.quiet p) period n last next g m =
      raised (loopPasses (fun a b g m => Tri.run p opc a b g m) Tri.stepFrame period n last next g m) :=
  firstFault_eq (fun {a b g m} k a0 a1 b1 => by
    obtain ⟨g', m', q1, q2⟩ := triRun_quiet (opc := opc) (start := a) (stop := b) a0 a1 b1 k
    exact ⟨g', m', q1, triFrameStep_quiet q2⟩) h0 h1

/-! ## Any group -/

/-- A group's run succeeds where the group is ready. -/
theorem runGroup_succeeds {s : State} {g : GroupRef} {t : Int} (opc : Byte) (ht : t < 2 ^ 31) (h : s.ready g t) :
    ∃ s', runGroup opc g t s = .ok s' := by
  cases g with
  | psg i =>
    obtain ⟨x, m, k⟩ := psgRunGroup_succeeds opc h
    exact ⟨_, res_bind_of_ok _ k⟩
  | hh =>
    obtain ⟨x, n, m, k⟩ := hhRunGroup_succeeds opc s.freeCount ht h
    exact ⟨_, res_bind_of_ok _ k⟩
  | tri =>
    obtain ⟨x, n, m, k⟩ := triRunGroup_succeeds opc s.freeCount ht h
    exact ⟨_, res_bind_of_ok _ k⟩

/-- A PSG run changes its group and the mix stage only. -/
theorem runGroup_psg_ok {opc : Byte} {i : BitVec 1} {t : Int} {s s' : State} (h : runGroup opc (.psg i) t s = .ok s') :
    ∃ g m, s' = { s with psg := s.psg.set i g, mix := m } ∧ (s.psg.get i).runGroup s.params opc t s.mix = .ok (g, m) ∧
      Adds s.params s.mix m := by
  obtain ⟨⟨g, m⟩, h1, h2⟩ := res_bind_ok.1 h
  cases h2
  exact ⟨g, m, rfl, h1, (psgRunGroup_ok h1).1⟩

/-- An HH run changes its group, the mix stage and the count of free values only. -/
theorem runGroup_hh_ok {opc : Byte} {t : Int} {s s' : State} (h : runGroup opc .hh t s = .ok s') :
    ∃ g n m, s' = { s with hh := g, mix := m, freeCount := n } ∧
      s.hh.runGroup s.params opc t s.freeCount s.mix = .ok (g, n, m) ∧ Adds s.params s.mix m := by
  obtain ⟨⟨g, n, m⟩, h1, h2⟩ := res_bind_ok.1 h
  cases h2
  exact ⟨g, n, m, rfl, h1, (hhRunGroup_ok h1).1⟩

/-- A TRI run changes its group, the mix stage and the count of free values only. -/
theorem runGroup_tri_ok {opc : Byte} {t : Int} {s s' : State} (h : runGroup opc .tri t s = .ok s') :
    ∃ g n m, s' = { s with tri := g, mix := m, freeCount := n } ∧
      s.tri.runGroup s.params opc t s.freeCount s.mix = .ok (g, n, m) ∧ Adds s.params s.mix m := by
  obtain ⟨⟨g, n, m⟩, h1, h2⟩ := res_bind_ok.1 h
  cases h2
  exact ⟨g, n, m, rfl, h1, (triRunGroup_ok h1).1⟩

end Sys2Proof.Machine
end

