-- ==== Sys2Proof/Laws/Forms.lean ====
section
/-! SUPPORT. What the register forms and the shared shape of a completed command can do: one lemma per shared operation. -/

namespace Sys2Proof.Machine

/-! ## `State.done`, `State.faulted` -/

@[simp] theorem done_params (t : State) (v : Word) : (t.done v).params = t.params := rfl
@[simp] theorem done_port (t : State) (v : Word) : (t.done v).port = t.port := rfl
@[simp] theorem done_cmdCount (t : State) (v : Word) : (t.done v).cmdCount = t.cmdCount + 1 := rfl
@[simp] theorem done_fault (t : State) (v : Word) : (t.done v).fault = t.fault := rfl
@[simp] theorem done_result (t : State) (v : Word) : (t.done v).result = v := rfl
@[simp] theorem done_pcmOut (t : State) (v : Word) : (t.done v).pcmOut = t.pcmOut := rfl
@[simp] theorem done_fmOut (t : State) (v : Word) : (t.done v).fmOut = t.fmOut := rfl
@[simp] theorem done_mix (t : State) (v : Word) : (t.done v).mix = t.mix := rfl
@[simp] theorem done_psg (t : State) (v : Word) : (t.done v).psg = t.psg := rfl
@[simp] theorem done_hh (t : State) (v : Word) : (t.done v).hh = t.hh := rfl
@[simp] theorem done_tri (t : State) (v : Word) : (t.done v).tri = t.tri := rfl
@[simp] theorem done_fm (t : State) (v : Word) : (t.done v).fm = t.fm := rfl
@[simp] theorem done_freeCount (t : State) (v : Word) : (t.done v).freeCount = t.freeCount := rfl

/-- Taking a fault is ending in it. -/
theorem takeFault_eq (c : FaultCode) (info : Word) (s : State) : takeFault ⟨c, info⟩ s = s.faulted c info := rfl

/-! ## Operands -/

/-- An instance below a count of units is the one its one bit names. -/
theorem instOperand_nibble {count : Nat} {i : BitVec 1} (h : i.toNat < count) :
    instOperand count (instNibble i) = some i := by
  have hi : i = 0#1 ∨ i = 1#1 := by
    have := i.isLt
    rcases (show i.toNat = 0 ∨ i.toNat = 1 by omega) with h | h
    · exact .inl (BitVec.eq_of_toNat_eq h)
    · exact .inr (BitVec.eq_of_toNat_eq h)
  unfold instOperand
  rcases hi with rfl | rfl
  · rw [if_pos ⟨h, by decide⟩]; rfl
  · rw [if_pos ⟨h, by decide⟩]; rfl

/-- The same for the 4-bit field. -/
theorem instOperand_field {count : Nat} {inst : BitVec 4} {i : BitVec 1} (h : inst.toNat = i.toNat) (hi : i.toNat < count) :
    instOperand count inst = some i := by
  have e : inst = instNibble i := by
    apply BitVec.eq_of_toNat_eq
    rw [h]
    show i.toNat = (0#3 ++ i).toNat
    rw [BitVec.toNat_append]; simp
  rw [e]
  exact instOperand_nibble hi

/-- A missing instance. -/
theorem instOperand_none {count : Nat} {inst : BitVec 4} (h : count ≤ inst.toNat) : instOperand count inst = none :=
  if_neg fun k => absurd k.1 (by omega)

/-- A group that exists is the one INST and SEL name. -/
theorem groupOperand_named {p : Params} {inst sel : BitVec 4} {g : GroupRef} (h : g.named p inst sel) :
    groupOperand p inst sel = some g := by
  cases g with
  | psg i =>
    obtain ⟨rfl, h1, h2⟩ := h
    show (instOperand p.nPsg inst).map GroupRef.psg = _
    rw [instOperand_field h1 h2]; rfl
  | hh =>
    obtain ⟨rfl, h1, h2⟩ := h
    exact if_pos ⟨h1, h2⟩
  | tri =>
    obtain ⟨rfl, h1, h2⟩ := h
    exact if_pos ⟨h1, h2⟩

/-! ## The group run as a whole -/

/-- A run of any group changes that group, the mix stage and the count of free values only. -/
theorem runGroup_frame {opc : Byte} {g : GroupRef} {t : Int} {s r : State} (h : runGroup opc g t s = .ok r) :
    r.params = s.params ∧ r.port = s.port ∧ r.cmdCount = s.cmdCount ∧ r.fault = s.fault ∧ r.result = s.result ∧
    r.pcmOut = s.pcmOut ∧ r.fmOut = s.fmOut ∧ r.fm = s.fm ∧ Adds s.params s.mix r.mix := by
  cases g with
  | psg i => obtain ⟨x, m, rfl, _, ha⟩ := runGroup_psg_ok h; exact ⟨rfl, rfl, rfl, rfl, rfl, rfl, rfl, rfl, ha⟩
  | hh => obtain ⟨x, n, m, rfl, _, ha⟩ := runGroup_hh_ok h; exact ⟨rfl, rfl, rfl, rfl, rfl, rfl, rfl, rfl, ha⟩
  | tri => obtain ⟨x, n, m, rfl, _, ha⟩ := runGroup_tri_ok h; exact ⟨rfl, rfl, rfl, rfl, rfl, rfl, rfl, rfl, ha⟩

/-- The opcode of a run shows only in the fault it may raise: where a run succeeds, it is the same run in every command. -/
theorem accepts_after_run {opc : Byte} {g : GroupRef} {t lo hi : Int} {s r : State} (h : runGroup opc g t s = .ok r)
    (ha : s.mix.accepts s.params lo hi) : r.mix.accepts s.params lo hi :=
  sameFrame_accepts (adds_sameFrame (runGroup_frame h).2.2.2.2.2.2.2.2) ha

/-! ## The register forms -/

/-- A PSG form whose rule succeeds after the run. -/
theorem psgForm_ok {i : Instr} {inst : BitVec 1} {time : Word} {rule : Psg → Mix → Res (Psg × Mix × Bool)}
    {s r : State} {g : Psg} {m : Mix} {b : Bool} (hf : s.fault = none) (hu : inst.toNat < s.params.nPsg)
    (hr : runGroup 0x20 (.psg inst) (sext time) s = .ok r) (hw : rule (r.psg.get inst) r.mix = .ok (g, m, b)) :
    psgForm i inst time rule s =
      .next (State.done { r with psg := r.psg.set inst g, mix := m } (restartResult b)) := by
  have hc := (runGroup_frame hr).2.2.1
  rw [psgForm, runCommand_ok hf (t := { r with psg := r.psg.set inst g, mix := m, result := restartResult b })]
  · rw [← hc]; rfl
  · rw [instOperand_nibble hu]
    show (runGroup 0x20 (.psg inst) (sext time) s >>= _) = _
    rw [res_bind_of_ok _ hr]
    show (rule (r.psg.get inst) r.mix >>= _) = _
    rw [res_bind_of_ok _ hw]

/-- An HH form whose rule succeeds after the run. -/
theorem hhForm_ok {i : Instr} {time : Word} {rule : Hh → Mix → Res (Hh × Mix × Bool)} {s r : State} {g : Hh} {m : Mix}
    {b : Bool} (hf : s.fault = none) (hu : s.params.hasHh = true) (hr : runGroup 0x20 .hh (sext time) s = .ok r)
    (hw : rule r.hh r.mix = .ok (g, m, b)) :
    hhForm i time rule s = .next (State.done { r with hh := g, mix := m } (restartResult b)) := by
  have hc := (runGroup_frame hr).2.2.1
  rw [hhForm, runCommand_ok hf (t := { r with hh := g, mix := m, result := restartResult b })]
  · rw [← hc]; rfl
  · rw [hu]
    show (runGroup 0x20 .hh (sext time) s >>= _) = _
    rw [res_bind_of_ok _ hr]
    show (rule r.hh r.mix >>= _) = _
    rw [res_bind_of_ok _ hw]

/-- A TRI form whose rule succeeds after the run. -/
theorem triForm_ok {i : Instr} {time : Word} {rule : TriRule} {s r : State} {g : Tri} {b : Bool} (hf : s.fault = none)
    (hu : s.params.hasTri = true) (hr : runGroup 0x20 .tri (sext time) s = .ok r) (hw : rule r.tri = .ok (g, b)) :
    triForm i time rule s = .next (State.done { r with tri := g } (restartResult b)) := by
  have hc := (runGroup_frame hr).2.2.1
  rw [triForm, runCommand_ok hf (t := { r with tri := g, result := restartResult b })]
  · rw [← hc]; rfl
  · rw [hu]
    show (runGroup 0x20 .tri (sext time) s >>= _) = _
    rw [res_bind_of_ok _ hr]
    show (rule r.tri >>= _) = _
    rw [res_bind_of_ok _ hw]

/-- An HH read of an address of the space. -/
theorem hhReadForm_ok {i : Instr} {time : Word} {addr v : Byte} {s r : State} (hf : s.fault = none)
    (hu : s.params.hasHh = true) (ha : (s.hh.read addr).isSome = true) (hr : runGroup 0x21 .hh (sext time) s = .ok r)
    (hv : r.hh.read addr = some v) :
    hhReadForm i time addr s = .next (r.done (v.zeroExtend 32)) := by
  have hc := (runGroup_frame hr).2.2.1
  rw [hhReadForm, runCommand_ok hf (t := { r with result := v.zeroExtend 32 })]
  · rw [← hc]; rfl
  · rw [hu, ha]
    show (runGroup 0x21 .hh (sext time) s >>= _) = _
    rw [res_bind_of_ok _ hr]
    show Except.ok { r with result := ((r.hh.read addr).getD 0).zeroExtend 32 } = _
    rw [hv]; rfl

/-- A TRI read. -/
theorem triReadForm_ok {i : Instr} {time : Word} {value : Tri → Byte} {s r : State} (hf : s.fault = none)
    (hu : s.params.hasTri = true) (hr : runGroup 0x21 .tri (sext time) s = .ok r) :
    triReadForm i time value s = .next (r.done ((value r.tri).zeroExtend 32)) := by
  have hc := (runGroup_frame hr).2.2.1
  rw [triReadForm, runCommand_ok hf (t := { r with result := (value r.tri).zeroExtend 32 })]
  · rw [← hc]; rfl
  · rw [hu]
    show (runGroup 0x21 .tri (sext time) s >>= _) = _
    rw [res_bind_of_ok _ hr]

/-- An FM form that is not refused. -/
theorem fmForm_ok {i : Instr} {inst : BitVec 1} {port : FmPort} {addr data : Byte} {refused : Bool} {rule : Fm → Fm}
    {s : State} (hf : s.fault = none) (hu : inst.toNat < s.params.nFm) (hr : refused = false) :
    fmForm i inst port addr data refused rule s =
      .next (State.done { s with fm := s.fm.set inst (rule ((s.fm.get inst).setReg port addr data)) } 0) := by
  subst hr
  rw [fmForm, runCommand_ok hf (t := { s with
    fm := s.fm.set inst (rule ((s.fm.get inst).setReg port addr data)), result := 0 })]
  · rfl
  · rw [instOperand_nibble hu]; rfl

/-- An FM form that is refused. -/
theorem fmForm_refused {i : Instr} {inst : BitVec 1} {port : FmPort} {addr data : Byte} {refused : Bool} {rule : Fm → Fm}
    {s : State} (hf : s.fault = none) (hu : inst.toNat < s.params.nFm) (hr : refused = true) :
    fmForm i inst port addr data refused rule s = .next (s.faulted .unsupported (data.zeroExtend 32)) := by
  subst hr
  rw [fmForm, runCommand_error hf (r := ⟨.unsupported, data.zeroExtend 32⟩)]
  · rfl
  · rw [instOperand_nibble hu]; rfl

/-- The power bit survives a run. -/
theorem powered_after_run {opc : Byte} {t : Int} {s r : State} (h : runGroup opc .hh t s = .ok r) :
    r.hh.powered = s.hh.powered := by
  obtain ⟨x, n, m, rfl, hx, _⟩ := runGroup_hh_ok h
  show bit (x.reg 0x26) 7 = bit (s.hh.reg 0x26) 7
  rw [(hhRunGroup_ok hx).2.1.1 0x26 (by decide) (by decide)]

end Sys2Proof.Machine
end

