-- ==== Sys2Proof/Tests/Slice0.lean ====
section
/-! SUPPORT. Tests: ill-formed terms are refused, command words written out from spec/30_encoding.md decode to their
instructions, single steps from the vectors of spec/95_test_vectors.md, and for every statement with hypotheses a concrete
state and operands that meet them. -/

namespace Sys2Proof.Tests

open Sys2Proof.Machine

set_option Elab.async false

/-! ## Well-formedness: each check refuses an ill-formed term -/

theorem test_wf_osc_write : (Instr.oscWrite 0 0 0x01 0 0).wf = false := by decide
theorem test_wf_osc_write_hh : (Instr.oscWrite 0 1 0x3F 0 0).wf = false := by decide
theorem test_wf_osc_write_tri : (Instr.oscWrite 0 2 0x17 0 0).wf = false := by decide
theorem test_wf_osc_read : (Instr.oscRead 0 2 0x15 0).wf = false := by decide
theorem test_wf_fm_write : (Instr.fmWrite 1 1 0xB8 0).wf = false := by decide
theorem test_wf_hh_read : (Instr.oscReadHhReg 0x3F 0).wf = false := by decide
theorem test_wf_fm_no_effect : (Instr.fmWriteNoEffect 0 .p0 0x28 0).wf = false := by decide

/-! ## Decoding: a word of every row, written out from R143, R149 to R155 and R432 -/

/-- Every command of a list decodes to the instruction beside it, and is its encoding. -/
def decodesTo (l : List (Word × Word × Word × Instr)) : Bool :=
  l.all fun e => decode ⟨e.1, e.2.1, e.2.2.1⟩ == .ok e.2.2.2 && encode e.2.2.2 == ⟨e.1, e.2.1, e.2.2.1⟩

theorem test_decode_control_buffer : decodesTo
    [(0x00000000, 0, 0, .nop), (0x01000000, 0, 0, .blockReset), (0x10000000, 0xAC44, 100, .bufSetSampleRate 44100 100),
     (0x11000000, 0x00369E99, 0, .bufSetClockRate 3579545), (0x12000000, 0, 0, .bufClear),
     (0x13020000, 0xFFFFFFFF, 5, .bufAddDelta 2 0xFFFFFFFF 5), (0x14000000, 2, 0, .bufEndFrame 2),
     (0x15000000, 0, 0, .bufSamplesAvail), (0x16000000, 4, 0, .bufReadStereo 4),
     (0x17000000, 1, 0, .bufRemoveSamples 1)] = true := by decide +kernel

theorem test_decode_osc : decodesTo
    [(0x20200084, 7, 0, .oscWrite 2 0 0 0x84 7), (0x20014000, 7, 0, .oscWrite 0 1 0x40 0 7),
     (0x21020800, 7, 0, .oscRead 0 2 0x08 7), (0x22100000, 9, 0, .oscRun 1 0 9),
     (0x23010000, 70224, 0, .oscEndFrame 0 1 70224), (0x24020000, 0, 0, .oscReset 0 2),
     (0x25010000, 3, 0, .oscWaveStatus 3), (0x21012600, 4, 0, .oscReadHhReg 0x26 4),
     (0x21013B00, 4, 0, .oscReadHhWaveRam 0xB 4), (0x21021500, 4, 0, .oscReadTri15 4)] = true := by decide +kernel

theorem test_decode_psg_tri : decodesTo
    [(0x201000D6, 1, 0, .oscWritePsgLatch 1 2 1 6 1), (0x2000003F, 1, 0, .oscWritePsgData 0 0x3F 1),
     (0x200001FE, 1, 0, .oscWritePsgStereo 0 0xFE 1), (0x200208FF, 1, 0, .oscWriteTri08 0xFF 1),
     (0x20020912, 1, 0, .oscWriteTri09 0x12 1), (0x20020A0F, 1, 0, .oscWriteTri0A 0x0F 1),
     (0x20020B08, 1, 0, .oscWriteTri0B 0x08 1), (0x20021504, 1, 0, .oscWriteTri15 0x04 1),
     (0x20021740, 1, 0, .oscWriteTri17 0x40 1)] = true := by decide +kernel

theorem test_decode_hh : decodesTo
    [(0x20011011, 1, 0, .oscWriteHhNr10 0x11 1), (0x20011180, 1, 0, .oscWriteHhNr11 0x80 1),
     (0x200112F0, 1, 0, .oscWriteHhNr12 0xF0 1), (0x20011301, 1, 0, .oscWriteHhNr13 0x01 1),
     (0x20011487, 1, 0, .oscWriteHhNr14 0x87 1), (0x20011555, 1, 0, .oscWriteHhUnused15 0x55 1),
     (0x20011681, 1, 0, .oscWriteHhNr21 0x81 1), (0x200117F1, 1, 0, .oscWriteHhNr22 0xF1 1),
     (0x20011802, 1, 0, .oscWriteHhNr23 0x02 1), (0x20011986, 1, 0, .oscWriteHhNr24 0x86 1),
     (0x20011A80, 1, 0, .oscWriteHhNr30 0x80 1), (0x20011B03, 1, 0, .oscWriteHhNr31 0x03 1),
     (0x20011C20, 1, 0, .oscWriteHhNr32 0x20 1), (0x20011D04, 1, 0, .oscWriteHhNr33 0x04 1),
     (0x20011E85, 1, 0, .oscWriteHhNr34 0x85 1), (0x20011F05, 1, 0, .oscWriteHhUnused1F 0x05 1)] = true := by
  decide +kernel

theorem test_decode_hh_noise_master : decodesTo
    [(0x20012006, 1, 0, .oscWriteHhNr41 0x06 1), (0x200121A0, 1, 0, .oscWriteHhNr42 0xA0 1),
     (0x200122E0, 1, 0, .oscWriteHhNr43 0xE0 1), (0x20012380, 1, 0, .oscWriteHhNr44 0x80 1),
     (0x20012477, 1, 0, .oscWriteHhNr50 0x77 1), (0x20012511, 1, 0, .oscWriteHhNr51 0x11 1),
     (0x20012680, 1, 0, .oscWriteHhNr52On 0 1), (0x2001267F, 1, 0, .oscWriteHhNr52Off 0x7F 1),
     (0x20012707, 1, 0, .oscWriteHhUnused27 0x07 1), (0x20012F08, 1, 0, .oscWriteHhUnused28 7 0x08 1),
     (0x20013CAB, 1, 0, .oscWriteHhWaveRam 0xC 0xAB 1)] = true := by decide +kernel

theorem test_decode_fm_global : decodesTo
    [(0x3030A412, 0, 0, .fmWrite 3 0 0xA4 0x12), (0x31100000, 9, 0, .fmRender 1 9), (0x32000000, 0, 0, .fmReset 0),
     (0x33100000, 5, 6, .fmSetRate 1 5 6), (0x3000220B, 0, 0, .fmWriteLfo 0 0x0B),
     (0x30102401, 0, 0, .fmWriteTimer24 1 0x01), (0x30002502, 0, 0, .fmWriteTimer25 0 0x02),
     (0x30002603, 0, 0, .fmWriteTimer26 0 0x03), (0x30002740, 0, 0, .fmWriteMode27 0 0x40),
     (0x300028F0, 0, 0, .fmWriteKey 0 0xF0), (0x30002A80, 0, 0, .fmWriteDacData 0 0x80),
     (0x30002B80, 0, 0, .fmWriteDacEnable 0 0x80), (0x300023FF, 0, 0, .fmWriteNoEffect 0 .p0 0x23 0xFF),
     (0x301128FF, 0, 0, .fmWriteNoEffect 1 .p1 0x28 0xFF)] = true := by decide +kernel

theorem test_decode_fm_channels : decodesTo
    [(0x30003471, 0, 0, .fmWriteDtMul 0 .p0 1 0 0x71), (0x3011467F, 0, 0, .fmWriteTl 1 .p1 1 2 0x7F),
     (0x3000589F, 0, 0, .fmWriteKsAr 0 .p0 2 0 0x9F), (0x30016D8A, 0, 0, .fmWriteAmD1r 0 .p1 3 1 0x8A),
     (0x30007205, 0, 0, .fmWriteD2r 0 .p0 0 2 0x05), (0x300083A7, 0, 0, .fmWriteSlRr 0 .p0 0 3 0xA7),
     (0x30009908, 0, 0, .fmWriteSsgEg 0 .p0 2 1 0x08), (0x3000A069, 0, 0, .fmWriteFnumLow 0 .p0 0 0x69),
     (0x3001A622, 0, 0, .fmWriteFnumHigh 0 .p1 2 0x22), (0x3000A911, 0, 0, .fmWriteSplitLow 0 1 0x11),
     (0x3000AE22, 0, 0, .fmWriteSplitHigh 0 2 0x22), (0x3001B005, 0, 0, .fmWriteFbAlgo 0 .p1 0 0x05),
     (0x3000B680, 0, 0, .fmWritePan 0 .p0 2 0x80)] = true := by decide +kernel

/-- R141, R145: an unknown OPC, and must-be-zero fields of DATA, B and SEL that are not zero. -/
theorem test_decode_rejects :
    decode ⟨0x02000000, 0, 0⟩ = .error .unknownOpcode ∧ decode ⟨0x00000001, 0, 0⟩ = .error .nonZeroField ∧
    decode ⟨0x00000000, 0, 1⟩ = .error .nonZeroField ∧ decode ⟨0x25000000, 0, 0⟩ = .error .nonZeroField := by
  decide +kernel

/-- R102: word 0 first, least significant byte first; V-DSB-9's command as bytes. -/
theorem test_decode_bytes :
    decodeBytes [0, 0, 1, 0x13, 0, 0, 0, 0, 0xE8, 3, 0, 0, 0xAA] = .ok (.bufAddDelta 1 0 1000, [0xAA]) := by
  decide +kernel

/-! ## Single steps, from the vectors of 95_test_vectors.md (their ids in the comments) -/

/-- The state after an outcome. -/
def after (o : Host.Outcome State Fault Refusal) : Option State :=
  match o with
  | .next s => some s
  | .fault _ => none
  | .refused _ => none

/-- What `f` reads of the state after one instruction. -/
def then' {α : Type} (s : State) (i : Instr) (f : State → α) : Option α := (after (exec i s)).map f

/-- The code and the info of the fault recorded by one instruction. -/
def faultOf (s : State) (i : Instr) : Option (Option (FaultCode × Word)) :=
  then' s i fun t => t.fault.map fun r => (r.code, r.info)

/-- Reset with the mix stage at factor 65536 and capacity 4410 (V-DSB-5). -/
def cfg : State := { State.reset with mix := ⟨44100, 44100, 65536, 4410, false, .reset, .reset, .reset⟩ }

/-- `cfg` after `buf.delta L, 1000 @0` and `buf.end @2` (V-DSB-22). -/
def filled : State := { cfg with
  mix := ⟨44100, 44100, 65536, 4410, true, ⟨[], 131072, 0⟩, ⟨[(0, 32768000)], 131072, 0⟩, ⟨[], 131072, 0⟩⟩ }

/-- `cfg` with the HH power and DACs on and the registers of V-HH-5, V-HH-11 and V-HH-14. -/
def hhOn : State := { cfg with
  hh := { cfg.hh with regs := [(0x12, 0xF0), (0x17, 0xF0), (0x1A, 0x80), (0x21, 0xA0), (0x26, 0x80)] } }

/-- `cfg` with both FM instances configured. -/
def fmOn : State := { cfg with
  fm := ⟨{ cfg.fm.i0 with clock := 7670453, rate := 44100 }, { cfg.fm.i1 with clock := 7670453, rate := 44100 }⟩ }

/-- A state with a fault recorded. -/
def faulted : State := { cfg with fault := some ⟨.badRate, 0, 0⟩, cmdCount := 1 }

-- V-FLT-4, V-FLT-5, V-DSB-30, V-DSB-25
theorem test_control :
    then' faulted .nop (·.cmdCount) = some 1 ∧ then' faulted .blockReset (fun t => (t.fault, t.cmdCount)) = some (none, 0) ∧
    then' State.reset .bufSamplesAvail (·.result) = some 0 ∧ then' filled .bufSamplesAvail (·.result) = some 2 := by
  decide +kernel

-- V-DSB-1, V-DSB-2, V-DSB-34; V-DSB-4, V-DSB-7
theorem test_rates :
    then' State.reset (.bufSetSampleRate 44100 100) (·.mix.cap) = some 4410 ∧
    faultOf State.reset (.bufSetSampleRate 0 100) = some (some (.badRate, 0)) ∧
    faultOf filled (.bufSetSampleRate 48000 100) = some (some (.rateMidtrack, 0x10)) ∧
    then' { cfg with mix := { cfg.mix with clockRate := 0 } } (.bufSetClockRate 3579545) (·.result) = some 807 ∧
    faultOf { cfg with mix := { cfg.mix with sampleRate := 1 } } (.bufSetClockRate 200000) =
      some (some (.badRate, 200000)) := by decide +kernel

-- V-DSB-35; V-DSB-10, V-DSB-12, V-DSB-13
theorem test_clear_and_delta :
    then' filled .bufClear (fun t => (t.mix.dirty, t.mix.left, t.mix.factor)) = some (false, .reset, 65536) ∧
    then' { cfg with mix := { cfg.mix with factor := 32768 } } (.bufAddDelta 1 3 1000) (·.mix.left.cells) =
      some [(1, 16384000), (2, 16384000)] ∧
    faultOf cfg (.bufAddDelta 0 0xFFFFFFFF 5) = some (some (.deltaBeforeOrigin, 0xFFFFFFFF)) ∧
    then' cfg (.bufAddDelta 0 4410 5) (·.mix.center.cells) = some [(4410, 163840)] ∧
    faultOf cfg (.bufAddDelta 0 4411 5) = some (some (.deltaPastHorizon, 4411)) := by decide +kernel

-- V-DSB-14 (release build), V-DSB-15, V-DSB-8
theorem test_delta_release :
    then' { cfg with params := { cfg.params with buildMode := .release } } (.bufAddDelta 0 4411 5) (·.mix.center.cells) =
      some [(4410, 163840)] ∧
    then' cfg (.bufAddDelta 2 0 0x7FFFFFFF) (·.mix.right.cells) = some [(0, 0xFFFF8000)] ∧
    faultOf State.reset (.bufAddDelta 0 0 10) = some (some (.notConfigured, 0x13)) := by decide +kernel

-- V-DSB-25, V-DSB-27, V-DSB-28; V-DSB-31, V-DSB-32; V-DSB-22, V-DSB-18
theorem test_frames :
    then' cfg (.bufEndFrame 2) (fun t => (t.result, t.mix.right.offset)) = some (2, 131072) ∧
    faultOf cfg (.bufEndFrame 0xFFFFFFFF) = some (some (.badTime, 0xFFFFFFFF)) ∧
    faultOf cfg (.bufEndFrame 4411) = some (some (.frameOverflow, 4411)) ∧
    then' filled (.bufRemoveSamples 1) (fun t => (t.mix.left.cells, t.mix.offset, t.mix.left.accum)) = some ([], 65536, 0) ∧
    faultOf filled (.bufRemoveSamples 3) = some (some (.removeTooMany, 3)) ∧
    then' filled (.bufReadStereo 4) (fun t => (t.result, t.pcmOut, t.mix.left.accum)) =
      some (4, [0, 0, 0, 0, 0x03, 0xE8, 0, 0], 32704000) ∧
    faultOf filled (.bufReadStereo 3) = some (some (.oddCount, 3)) := by decide +kernel

-- S3 (R241), V-DSB-20, V-DSB-21
theorem test_saturation_and_leak :
    [sat16 32767, sat16 32768, sat16 40000, sat16 (-32768), sat16 (-32769), sat16 (-65536)] =
      [0x7FFF, 0x7FFF, 0x7FFF, 0x8000, 0x8000, 0x8000] ∧
    integrate 511 0 = 511 ∧ integrate 0xFFFFFFFD 0 = 0xFFFFFFFE ∧ integrate 0xFFFFFFFF 0 = 0 := by decide +kernel

/-- psg0 of V-PSG-9: tone0 at period 100, full volume. -/
def toned : State := { cfg with psg := { cfg.psg with
  i0 := { cfg.psg.i0 with latch := 0x84, tone0 := { cfg.psg.i0.tone0 with period := 100, atten := 0 } } } }

-- V-PSG-9 at the horizon of 4000 ticks; V-OSC-1, V-OSC-3
theorem test_osc_run :
    then' toned (.oscRun 0 0 4000) (fun t => (t.psg.i0.tone0.phase, t.psg.i0.tone0.osc.delay, t.psg.i0.tone0.osc.lastAmp,
      t.mix.center.cells)) = some (1, 800, 128, [(0, 4194304), (1600, 0xFFC00000), (3200, 4194304)]) ∧
    faultOf { cfg with psg := { cfg.psg with i0 := { cfg.psg.i0 with lastTime := 100 } } } (.oscRun 0 0 50) =
      some (some (.timeBackwards, 50)) ∧
    faultOf { cfg with params := { cfg.params with nPsg := 1 } } (.oscRun 1 0 0) = some (some (.illegal, 0x22100000)) := by
  decide +kernel

-- V-OSC-6, V-OSC-8, V-OSC-9 and V-OSC-2, V-OSC-4, V-OSC-5
theorem test_osc_commands :
    then' { cfg with hh := { cfg.hh with lastTime := 70224, nextFrameTime := 73728 } } (.oscEndFrame 0 1 70224)
      (fun t => (t.hh.lastTime, t.hh.nextFrameTime)) = some (0, 3504) ∧
    then' toned (.oscReset 0 0) (fun t => (t.psg.i0.tone0.atten, t.mix.dirty)) = some (15, false) ∧
    faultOf cfg (.oscWrite 0 1 0x40 0 0) = some (some (.illegal, 0x20014000)) ∧
    faultOf cfg (.oscRead 0 0 0 0) = some (some (.illegal, 0x21000000)) ∧
    then' State.reset (.oscWaveStatus 0) (·.result) = some 0 ∧
    faultOf State.reset (.oscRun 0 2 10) = some (some (.notConfigured, 0x22)) := by decide +kernel

-- V-PSG-1 to V-PSG-6, V-PSG-8
theorem test_psg_writes :
    then' State.reset (.oscWritePsgLatch 0 0 0 4 0) (fun t => (t.psg.i0.latch, t.psg.i0.tone0.period)) = some (0x84, 4) ∧
    then' State.reset (.oscWritePsgLatch 0 3 0 5 0) (fun t => (t.result, t.psg.i0.noise.ctrl, t.psg.i0.noise.shifter)) =
      some (1, 5, 0x8000) ∧
    then' State.reset (.oscWritePsgData 0 0x3F 0) (·.psg.i0.tone0.period) = some 1008 ∧
    then' { cfg with psg := { cfg.psg with i0 := { cfg.psg.i0 with latch := 0xE5 } } } (.oscWritePsgData 0 3 0)
      (fun t => (t.result, t.psg.i0.noise.ctrl)) = some (1, 3) ∧
    then' toned (.oscWritePsgStereo 0 0xFE 0) (fun t => (t.psg.i0.tone0.osc.route, t.psg.i0.tone0.osc.lastAmp)) =
      some (.left, 0) ∧
    then' toned (.oscWrite 0 0 0x00 0x06 0) (·.psg.i0.tone0.period) = some 100 := by decide +kernel

-- V-HH-1, V-HH-2, V-HH-13, V-HH-21
theorem test_hh_reads :
    then' cfg (.oscReadHhReg 0x26 0) (·.result) = some 0x70 ∧ then' hhOn (.oscReadHhReg 0x15 0) (·.result) = some 0xFF ∧
    then' { hhOn with hh := { hhOn.hh with regs := [(0x11, 0x80), (0x26, 0x80)] } } (.oscReadHhReg 0x11 0) (·.result) =
      some 0xBF ∧
    then' { hhOn with hh := { hhOn.hh with regs := [(0x26, 0x80), (0x30, 0xAB)] } } (.oscReadHhWaveRam 0 0) (·.result) =
      some 0xAB := by decide +kernel

-- V-HH-2, V-HH-3, V-HH-4, V-HH-9, R373, R374, R383, R384
theorem test_hh_stores :
    then' cfg (.oscWriteHhNr12 0xF0 0) (·.hh.regs) = some [] ∧
    then' hhOn (.oscWriteHhNr11 0x3F 0) (·.hh.sq1.gate.lengthCtr) = some 1 ∧
    then' hhOn (.oscWriteHhNr21 0x80 0) (·.hh.sq2.gate.lengthCtr) = some 64 ∧
    then' hhOn (.oscWriteHhNr31 0x00 0) (·.hh.wave.gate.lengthCtr) = some 256 ∧
    then' hhOn (.oscWriteHhNr41 0x3F 0) (·.hh.noise.gate.lengthCtr) = some 1 ∧
    then' { hhOn with hh := { hhOn.hh with
        sq1 := { hhOn.hh.sq1 with gate := ⟨true, 5⟩ }, sweep := ⟨0, 0, true, true⟩ } }
      (.oscWriteHhNr10 0x11 0) (·.hh.sq1.gate.enabled) = some false ∧
    then' { hhOn with hh := { hhOn.hh with wave := { hhOn.hh.wave with gate := ⟨true, 5⟩ } } }
      (.oscWriteHhNr30 0 0) (·.hh.wave.gate.enabled) = some false ∧
    then' { hhOn with hh := { hhOn.hh with noise := { hhOn.hh.noise with gate := ⟨true, 5⟩ } } }
      (.oscWriteHhNr42 0x07 0) (·.hh.noise.gate.enabled) = some false := by decide +kernel

-- R333, R334, R375, R376, R385, R395, V-HH-12, V-HH-18
theorem test_hh_stores_more :
    then' hhOn (.oscWriteHhNr22 0 0) (·.hh.reg 0x17) = some 0 ∧ then' hhOn (.oscWriteHhNr13 7 0) (·.hh.reg 0x13) = some 7 ∧
    then' hhOn (.oscWriteHhNr23 7 0) (·.hh.reg 0x18) = some 7 ∧ then' hhOn (.oscWriteHhNr32 7 0) (·.hh.reg 0x1C) = some 7 ∧
    then' hhOn (.oscWriteHhNr33 7 0) (·.hh.reg 0x1D) = some 7 ∧ then' hhOn (.oscWriteHhNr43 7 0) (·.hh.reg 0x22) = some 7 ∧
    then' hhOn (.oscWriteHhUnused15 7 0) (·.hh.reg 0x15) = some 0 ∧
    then' hhOn (.oscWriteHhUnused1F 7 0) (·.hh.reg 0x1F) = some 0 ∧
    then' hhOn (.oscWriteHhUnused27 7 0) (·.hh.reg 0x27) = some 0 ∧
    then' hhOn (.oscWriteHhUnused28 7 7 0) (·.hh.reg 0x2F) = some 0 ∧
    then' { hhOn with hh := { hhOn.hh with wave := { hhOn.hh.wave with gate := ⟨true, 5⟩, position := 9, osc := ⟨9, 0, .none⟩ } } }
      (.oscWriteHhWaveRam 0 0xAB 0) (fun t => (t.hh.reg 0x30, t.hh.reg 0x34)) = some (0, 0xAB) ∧
    then' hhOn (.oscWriteHhNr50 0x70 0) (·.hh.volScale) = some 8 := by decide +kernel

-- V-HH-5, V-HH-8 (the sweep overflow), V-HH-11, V-HH-14
theorem test_hh_triggers :
    then' hhOn (.oscWriteHhNr14 0x87 0) (fun t => (t.result, t.hh.sq1.gate, t.hh.sq1.env, t.hh.sq1.osc.delay)) =
      some (1, ⟨true, 64⟩, ⟨15, 8, true, 0, false⟩, 1024) ∧
    then' { hhOn with hh := { hhOn.hh with regs := [(0x10, 0x11), (0x12, 0xF0), (0x26, 0x80)] } } (.oscWriteHhNr14 0x87 0)
      (fun t => (t.hh.sweep.enabled, t.hh.sq1.gate.enabled)) = some (true, false) ∧
    then' hhOn (.oscWriteHhNr24 0x87 0) (fun t => (t.result, t.hh.sq2.gate.enabled, t.hh.sq2.osc.delay)) =
      some (1, true, 1024) ∧
    then' hhOn (.oscWriteHhNr34 0x87 0) (fun t => (t.result, t.hh.wave.gate, t.hh.wave.osc.delay)) =
      some (1, ⟨true, 256⟩, 518) ∧
    then' hhOn (.oscWriteHhNr44 0x80 0) (fun t => (t.result, t.hh.noise.env.volume, t.hh.noise.lfsr, t.hh.noise.osc.delay)) =
      some (1, 10, 0x7FFF, 8) := by decide +kernel

-- V-HH-6 (the length quirk), V-HH-19, V-HH-20, R392
theorem test_hh_master :
    then' { hhOn with hh := { hhOn.hh with framePhase := 1 } } (.oscWriteHhNr14 0xC0 0) (·.hh.sq1.gate.lengthCtr) = some 63 ∧
    then' { hhOn with hh := { hhOn.hh with sq1 := { hhOn.hh.sq1 with osc := ⟨0, 0xFFFFFFF9, .center⟩ } } }
      (.oscWriteHhNr51 0x01 0) (fun t => (t.hh.sq1.osc.route, t.hh.sq1.osc.lastAmp, t.mix.center.cells)) =
      some (.right, 0, [(0, 229376)]) ∧
    then' hhOn (.oscWriteHhNr52Off 0 0) (fun t => (t.hh.regs, t.hh.sq1.gate, t.hh.wave.gate, t.hh.volScale)) =
      some ([], ⟨false, 64⟩, ⟨false, 256⟩, 1) ∧
    then' { cfg with hh := { cfg.hh with framePhase := 5 } } (.oscWriteHhNr52On 0x7F 0)
      (fun t => (t.hh.reg 0x26, t.hh.framePhase)) = some (0x80, 0) := by decide +kernel

-- R324 with R333 and R384: NR12 and NR42 written in a note (0xF8, 0x0B) act at the next trigger; ClockEnv goes on with the
-- latched period 1 down, and period 2 up
theorem test_hh_envelope_latched :
    then' { hhOn with hh := { hhOn.hh with
        framePhase := 7
        regs := [(0x12, 0xF8), (0x21, 0x08), (0x26, 0x80)]
        sq1 := { hhOn.hh.sq1 with env := ⟨15, 1, true, 1, false⟩ }
        noise := { hhOn.hh.noise with env := ⟨3, 1, true, 2, true⟩ } } } (.oscRun 0 1 1)
      (fun t => (t.hh.sq1.env, t.hh.noise.env)) = some (⟨14, 1, true, 1, false⟩, ⟨4, 2, true, 2, true⟩) := by decide +kernel

-- R260 with R11: the stored next_frame_time wraps inside a run, to -9 and then to 0x7FFFFFFE, so it takes two frame steps
theorem test_frame_time_wraps :
    then' { cfg with
        params := { cfg.params with hhFramePeriod := 0x80000007 }
        hh := { cfg.hh with lastTime := 0x7FFFFFF0, nextFrameTime := 0x7FFFFFF0 } } (.oscRun 0 1 0x7FFFFFFD)
      (fun t => (t.hh.framePhase, t.hh.nextFrameTime, t.hh.lastTime, t.freeCount)) =
      some (2, 0x7FFFFFFE, 0x7FFFFFFD, 0) := by decide +kernel

-- R260, R740: no multiple of 8192 past 0x7FFFFFF0 is an s32, so the written loop never ends; the run takes the step before its
-- time and completes with a free value
theorem test_frame_time_never_reached :
    then' { cfg with hh := { cfg.hh with lastTime := 0x7FFFFFF0, nextFrameTime := 0x7FFFFFF0 } } (.oscRun 0 1 0x7FFFFFFF)
      (fun t => (t.hh.framePhase, t.hh.lastTime, t.freeCount)) = some (1, 0x7FFFFFFF, 1) := by decide +kernel

/-- A debug build whose frame times never reach 0x7FFFFFFF, with sq1 sounding on C: only times from 0 on are placed. -/
def endless : State := { cfg with
  mix := ⟨44100, 44100, 1, 44100, false, .reset, .reset, .reset⟩
  hh := { hhOn.hh with
    lastTime := 0x7FFFE000
    nextFrameTime := 0x7FFFE000
    sq1 := { cfg.hh.sq1 with
      gate := ⟨true, 64⟩
      env := { cfg.hh.sq1.env with volume := 15 }
      phase := 6
      osc := ⟨0, 0, .center⟩ } } }

-- R260, R261, R203: `next_frame_time` wraps to -2^31, the pass to it leaves the delay -8192, and the one after it emits at
-- -2^31 - 8192, whose low 32 bits are the info; the run to 0x7FFFFFFF ends by that fault
theorem test_frame_time_fault :
    faultOf endless (.oscRun 0 1 0x7FFFFFFF) = some (some (.deltaBeforeOrigin, 0x7FFFE000)) := by decide +kernel

-- The review's run: TRI, next 2^31 - 5000, t 2^31 - 4999; 7457 is odd, so the written loop ends
theorem test_frame_time_reach :
    frameTimesReach (BitVec.ofNat 32 (2 ^ 31 - 5000)) 7457 (2 ^ 31 - 4999) = true ∧
    frameTimesReach 0 8192 0x7FFFFFFF = false ∧ frameTimesReach 0 8192 0x7FFFE000 = true := by decide +kernel

-- V-TRI-1 to V-TRI-7
theorem test_tri :
    then' cfg (.oscWriteTri0B 0x08 0) (fun t => (t.result, t.tri.lengthCtr, t.tri.linearReload)) = some (1, 0, true) ∧
    then' { cfg with tri := { cfg.tri with chanEnable := true } } (.oscWriteTri0B 0x08 0) (·.tri.lengthCtr) = some 254 ∧
    then' { cfg with tri := { cfg.tri with lengthCtr := 254 } } (.oscWriteTri15 0 0) (·.tri.lengthCtr) = some 0 ∧
    faultOf cfg (.oscWriteTri17 0x80 0) = some (some (.unsupported, 0x80)) ∧
    then' cfg (.oscWriteTri17 0x40 1000) (fun t => (t.tri.frameStep, t.tri.nextFrameTime)) = some (0, 8457) ∧
    then' { cfg with tri := { cfg.tri with lengthCtr := 254 } } (.oscReadTri15 0) (·.result) = some 4 ∧
    faultOf cfg (.oscRead 0 2 0x08 0) = some (some (.illegal, 0x21020800)) ∧
    then' cfg (.oscWriteTri08 0xFF 0) (·.tri.r4008) = some 0xFF ∧ then' cfg (.oscWriteTri0A 0x0F 0) (·.tri.r400A) = some 0x0F ∧
    then' cfg (.oscWriteTri09 0x0F 0) (fun t => (t.result, t.tri.r400A)) = some (0, 0) := by decide +kernel

-- V-FM-1, V-FM-2, V-FM-7, V-FM-9, V-FM-11, V-FM-13, V-FM-14, R434, R435, R439
theorem test_fm_globals :
    then' cfg (.fmWriteKey 0 0xF0) (fun t => (t.fm.i0.chans.c0.ops.o4.key, t.fm.i0.chans.c0.ops.o1.egPhase)) =
      some (true, .attack) ∧
    then' cfg (.fmWriteKey 0 0x14) (fun t => (t.fm.i0.chans.c3.ops.o1.key, t.fm.i0.chans.c3.ops.o2.key)) = some (true, false) ∧
    then' cfg (.fmWriteDacData 0 0x00) (·.fm.i0.dacData) = some 0xFFFFE000 ∧
    then' cfg (.fmWriteDacEnable 1 0x80) (·.fm.i1.dacEn) = some true ∧
    then' cfg (.fmWriteMode27 0 0x40) (·.fm.i0.mode27) = some 0x40 ∧
    faultOf cfg (.fmWriteMode27 0 0x80) = some (some (.unsupported, 0x80)) ∧
    then' cfg (.fmWriteLfo 0 0x0B) (fun t => (t.fm.i0.lfoEn, t.fm.i0.lfoFreq)) = some (true, 3) ∧
    then' cfg (.fmWriteTimer24 0 5) (·.fm.i0.reg .p0 0x24) = some 5 ∧
    then' cfg (.fmWriteTimer25 0 5) (·.fm.i0.reg .p0 0x25) = some 5 ∧
    then' cfg (.fmWriteTimer26 0 5) (·.fm.i0.reg .p0 0x26) = some 5 ∧
    then' cfg (.fmWriteNoEffect 0 .p1 0x22 0x0F) (fun t => (t.fm.i0.lfoEn, t.fm.i0.reg .p1 0x22)) = some (false, 0x0F) := by
  decide +kernel

/-- `cfg` with 0xA4 = 0x22 and 0xAC = 0x22 in the image of port 0 (V-FM-1). -/
def fmHigh : State := { cfg with fm := { cfg.fm with i0 := { cfg.fm.i0 with reg0 := [(0xA4, 0x22), (0xAC, 0x22)] } } }

-- V-FM-1, V-FM-2, V-FM-10, V-FM-12, R446, R449
theorem test_fm_channels :
    then' fmHigh (.fmWriteFnumLow 0 .p0 0 0x69) (·.fm.i0.chans.c0.freqs.f0) = some ⟨617, 4, 16⟩ ∧
    then' cfg (.fmWriteFnumLow 0 .p0 0 0x69) (·.fm.i0.chans.c0.freqs.f0) = some ⟨105, 0, 0⟩ ∧
    then' fmHigh (.fmWriteSplitLow 0 0 0x69) (·.fm.i0.chans.c2.freqs.f1) = some ⟨617, 4, 16⟩ ∧
    then' cfg (.fmWriteSplitHigh 0 2 0x22) (·.fm.i0.reg .p0 0xAE) = some 0x22 ∧
    then' cfg (.fmWriteFnumHigh 0 .p1 1 0x22) (·.fm.i0.reg .p1 0xA5) = some 0x22 ∧
    then' cfg (.fmWriteFbAlgo 0 .p1 0 0x07) (fun t => (t.fm.i0.chans.c3.algo, t.fm.i0.chans.c0.algo)) = some (7, 0) ∧
    then' cfg (.fmWritePan 0 .p0 0 0x80) (fun t => (t.fm.i0.chans.c0.panL, t.fm.i0.chans.c0.panR)) = some (true, false) := by
  decide +kernel

-- R440 to R445, R447 with R154's operator order 1, 3, 2, 4; V-FM-13
theorem test_fm_operators :
    then' cfg (.fmWriteDtMul 0 .p0 1 0 0x71) (fun t => (t.fm.i0.chans.c0.ops.o3.dt, t.fm.i0.chans.c0.ops.o3.mul)) =
      some (7, 1) ∧
    then' cfg (.fmWriteTl 0 .p1 2 1 0xFF) (·.fm.i0.chans.c4.ops.o2.tl) = some 0x7F ∧
    then' cfg (.fmWriteKsAr 0 .p0 3 2 0x9F) (fun t => (t.fm.i0.chans.c2.ops.o4.ks, t.fm.i0.chans.c2.ops.o4.ar)) =
      some (2, 31) ∧
    then' cfg (.fmWriteAmD1r 0 .p0 0 0 0x8A) (fun t => (t.fm.i0.chans.c0.ops.o1.amEn, t.fm.i0.chans.c0.ops.o1.d1r)) =
      some (1, 10) ∧
    then' cfg (.fmWriteD2r 0 .p0 0 0 0x05) (·.fm.i0.chans.c0.ops.o1.d2r) = some 5 ∧
    then' cfg (.fmWriteSlRr 0 .p0 0 0 0xA7) (fun t => (t.fm.i0.chans.c0.ops.o1.sl, t.fm.i0.chans.c0.ops.o1.rr)) =
      some (10, 7) ∧
    then' cfg (.fmWriteSsgEg 0 .p0 0 0 0x07) (·.fm.i0.chans.c0.ops.o1.ssg) = some 7 ∧
    faultOf cfg (.fmWriteSsgEg 0 .p0 0 2 0x08) = some (some (.unsupported, 8)) := by decide +kernel

-- V-FM-15, V-FM-16, V-FM-17, V-FM-19, R533
theorem test_fm_commands :
    faultOf cfg (.fmRender 0 1) = some (some (.notConfigured, 0)) ∧
    faultOf cfg (.fmSetRate 1 0 44100) = some (some (.badRate, 1)) ∧
    then' fmOn (.fmRender 0 0) (fun t => (t.result, t.fmOut.i0)) = some (0, []) ∧
    then' cfg (.fmSetRate 1 5 6) (fun t => (t.fm.i1.clock, t.fm.i1.rate)) = some (5, 6) ∧
    then' fmOn (.fmReset 0) (fun t => (t.fm.i0.clock, t.fm.i0.chans.c0.ops.o1.egLvl)) = some (7670453, 1023) ∧
    faultOf { cfg with params := { cfg.params with nFm := 1 } } (.fmWrite 1 0 0x28 0) =
      some (some (.illegal, 0x30102800)) ∧
    then' cfg (.fmWrite 1 1 0xB0 5) (·.fm.i1.chans.c3.algo) = some 5 := by decide +kernel

/-- The first instruction after reset is the one of the opcode-table word placed on the port. -/
theorem test_fetch_word : after (step (State.reset.withFetchWord 32 0x13010000)) =
    some { State.reset with fault := some ⟨.notConfigured, 0, 0x13⟩, cmdCount := 1 } := by decide +kernel

/-! ## Witnesses: for every statement with hypotheses, states and operands that meet them, one for each clause -/

/-- Whether one instruction completes without a fault. -/
def completes (s : State) (i : Instr) : Bool := then' s i (·.fault) == some none

/-- A state with one instruction's command on the port. -/
def issued (s : State) (i : Instr) : State := { s with port := [encode i] }

/-- Whether a step takes the command of an instruction from the port and completes it without a fault. -/
def runs (s : State) (i : Instr) : Bool :=
  (after (step (issued s i))).map (fun t => (t.fault, t.cmdCount, t.port)) == some (none, s.cmdCount + 1, [])

theorem ready_psg : cfg.ready (.psg 1) (sext 0) ∧ toned.ready (.psg 0) (sext 4410) := by
  simp only [State.ready, Psg.ready, Psg.pending, Osc.pending, Mix.accepts]
  decide +kernel

theorem ready_hh : cfg.ready .hh (sext 0) ∧ hhOn.ready .hh (sext 0) ∧ hhOn.ready .hh (sext 4410) := by
  simp only [State.ready, Hh.ready, Hh.pending, Osc.pending, Mix.accepts, framesInOrder]
  decide +kernel

theorem ready_tri : cfg.ready .tri (sext 0) ∧ cfg.ready .tri (sext 4410) := by
  simp only [State.ready, Tri.ready, Osc.pending, Mix.accepts, framesInOrder]
  decide +kernel

/-- A release build runs to any time. -/
theorem ready_release :
    ({ toned with params := { toned.params with buildMode := .release } } : State).ready (.psg 0) (sext 0x7FFFFFFF) := by
  simp only [State.ready, Psg.ready, Psg.pending, Osc.pending, Mix.accepts]
  decide +kernel

theorem named_groups : GroupRef.named cfg.params 0 0 (.psg 0) ∧ GroupRef.named cfg.params 1 0 (.psg 1) ∧
    GroupRef.named cfg.params 0 1 .hh ∧ GroupRef.named cfg.params 0 2 .tri := by
  simp only [GroupRef.named]
  decide +kernel

theorem witness_StepRunsDecodedCommand :
    ({ cfg with port := [⟨0, 0, 0⟩] } : State).port = ⟨0, 0, 0⟩ :: [] ∧ decode ⟨0, 0, 0⟩ = .ok .nop ∧ cfg.port = [] := by
  decide +kernel

theorem witness_UndecodableCommandsAreIllegal :
    inCommandRows ⟨0x33F00000, 0xFFFFFFFF, 0xFFFFFFFF⟩ = true ∧ inCommandRows ⟨0x33F10000, 0, 0⟩ = false ∧
    inCommandRows ⟨0x34000000, 0, 0⟩ = false ∧ cfg.fault = none := by decide +kernel

theorem witness_DecodeOfEncode : (Instr.oscWrite 2 0 0 0x84 7).wf = true ∧ (Instr.fmWriteNoEffect 1 .p1 0xFF 0xFF).wf = true := by
  decide

theorem witness_EncodeOfDecode : decode ⟨0x20FFFFFF, 0xFFFFFFFF, 0⟩ = .ok (.oscWrite 15 15 0xFF 0xFF 0xFFFFFFFF) := by
  decide +kernel

theorem witness_RecordedFaultIsSticky : faulted.fault ≠ none ∧ Instr.nop ≠ .blockReset ∧
    decode ⟨0x01000001, 0, 0⟩ = .error .nonZeroField := by decide +kernel

theorem witness_EveryCommandAnswersAndCounts : cfg.fault = none ∧ Instr.nop ≠ .blockReset := by decide

theorem witness_ResetValues : (after (exec .blockReset faulted)).isSome = true := by decide +kernel

theorem witness_NopAndSamplesAvailComplete : filled.fault = none := by decide

theorem witness_SetSampleRateCompletes :
    cfg.fault = none ∧ cfg.mix.dirty = false ∧ (44100 : Word) ≠ 0 ∧ (100 : Word) ≠ 0 ∧
    ((44100 : Word).toNat * (100 : Word).toNat + 999) / 1000 ≤ cfg.params.capMax ∧ cfg.mix.clockRate ≠ 0 ∧
    factorFits 44100 cfg.mix.clockRate := by
  unfold factorFits; decide +kernel

theorem witness_SetClockRateCompletes : cfg.fault = none ∧ cfg.mix.dirty = false ∧ (3579545 : Word) ≠ 0 ∧
    cfg.mix.sampleRate ≠ 0 ∧ factorFits cfg.mix.sampleRate 3579545 := by unfold factorFits; decide +kernel

theorem witness_BufferClearCompletes : filled.fault = none := by decide

theorem witness_AddDeltaCompletes :
    cfg.fault = none ∧ selNames 0 .center ∧ selNames 1 .left ∧ selNames 2 .right ∧ cfg.mix.sampleRate ≠ 0 ∧ cfg.mix.clockRate ≠ 0 ∧
    (0 ≤ (4410 : Word).toInt * cfg.mix.factor.toNat + cfg.mix.offset ∧
      ((4410 : Word).toInt * cfg.mix.factor.toNat + cfg.mix.offset) / 2 ^ 16 ≤ cfg.mix.cap.toNat) := by
  unfold selNames; decide +kernel

theorem witness_DeltaRangeIsChecked :
    cfg.fault = none ∧ State.reset.mix.sampleRate = 0 ∧ cfg.mix.sampleRate ≠ 0 ∧ cfg.mix.clockRate ≠ 0 ∧
    cfg.params.buildMode = .debug ∧ (0xFFFFFFFF : Word).toInt * cfg.mix.factor.toNat + cfg.mix.offset < 0 ∧
    (cfg.mix.cap.toNat : Int) < ((4411 : Word).toInt * cfg.mix.factor.toNat + cfg.mix.offset) / 2 ^ 16 ∧
    ({ cfg.params with buildMode := .release } : Params).buildMode = .release := by decide +kernel

/-- Two deltas into one DSB, in both orders. -/
def deltaList : List (BitVec 4 × Word × Word) := [(1, 1, 5), (1, 0, 7)]

theorem witness_DeltasCommute : deltaList.Perm [(1, 0, 7), (1, 1, 5)] ∧
    (addDeltas deltaList cfg).map (·.fault) = some none ∧
    (addDeltas [(1, 0, 7), (1, 1, 5)] cfg).map (·.fault) = some none :=
  ⟨.swap _ _ _, by decide +kernel, by decide +kernel⟩

theorem witness_BufferEndFrameCompletes :
    cfg.fault = none ∧ cfg.mix.sampleRate ≠ 0 ∧ cfg.mix.clockRate ≠ 0 ∧ 0 ≤ (4410 : Word).toInt ∧
    (cfg.mix.offset + (4410 : Word).toNat * cfg.mix.factor.toNat) / 2 ^ 16 ≤ cfg.mix.cap.toNat := by decide +kernel

theorem witness_BufferFaults :
    filled.fault = none ∧ filled.mix.dirty = true ∧ cfg.fault = none ∧ cfg.mix.dirty = false ∧ State.reset.mix.sampleRate = 0 ∧
    ¬ factorFits 1 200000 ∧ filled.mix.sampleRate ≠ 0 ∧ filled.mix.clockRate ≠ 0 ∧ (0x80000000 : Word).toInt < 0 ∧
    filled.mix.cap.toNat < (filled.mix.offset + (4409 : Word).toNat * filled.mix.factor.toNat) / 2 ^ 16 ∧
    filled.mix.offset / 2 ^ 16 < (3 : Word).toNat ∧ (1 : Word).toNat % 2 = 1 := by unfold factorFits; decide +kernel

theorem witness_ReadStereoCompletes : filled.fault = none ∧ (4 : Word).toNat % 2 = 0 ∧ (0xFFFFFFFE : Word).toNat % 2 = 0 := by
  decide

theorem witness_OutputArithmetic :
    (sext (511 : Word) < 512 ∧ -512 ≤ sext (0xFFFFFE00 : Word) ∧ sext (0xFFFFFFFF : Word) < 0) ∧
    (512 ≤ sext (512 : Word) ∧ sext (0xFFFFFDFF : Word) < -512) ∧
    ((32767 : Int) < 32768 ∧ (-65536 : Int) < -32768) := by decide +kernel

theorem witness_EqualSidesReadEqual :
    cfg.mix.left.cells = cfg.mix.right.cells ∧ cfg.mix.left.accum = cfg.mix.right.accum ∧ completes cfg (.bufReadStereo 4) = true := by
  decide +kernel

/-- The lock-step invariant holds of `filled` with a command on the port, and the step runs that command. -/
theorem witness_BuffersStayInLockStep :
    (issued filled (.bufEndFrame 4)).mix.lockStep ∧ runs filled (.bufEndFrame 4) = true :=
  ⟨⟨fun u => by cases u <;> rfl, by decide +kernel⟩, by decide +kernel⟩

theorem filled_storesWf : filled.storesWf :=
  ⟨fun u => by cases u <;> decide +kernel, by decide +kernel, by decide +kernel, fun _ _ => rfl, fun i p => by
    cases p <;> revert i <;> decide +kernel⟩

theorem witness_StoresStayCanonical :
    (issued filled (.bufRemoveSamples 1)).storesWf ∧ runs filled (.bufRemoveSamples 1) = true :=
  ⟨filled_storesWf, by decide +kernel⟩

theorem witness_ParamsAndPortsKept : runs filled (.bufReadStereo 4) = true ∧ runs fmOn (.fmRender 0 0) = true := by
  decide +kernel

/-- Powered off and powered on. -/
theorem witness_HhPowerOffRegistersStayZero : (issued cfg (.oscWriteHhNr12 0xF0 0)).hh.powerOk ∧
    (issued hhOn (.oscWriteHhNr52Off 0 0)).hh.powerOk ∧
    runs cfg (.oscWriteHhNr12 0xF0 0) = true ∧ runs hhOn (.oscWriteHhNr52Off 0 0) = true :=
  ⟨⟨by decide, rfl, rfl, fun _ _ _ => rfl, fun _ _ _ _ => rfl⟩,
   ⟨by decide +kernel, by decide +kernel, by decide +kernel, fun a h1 h2 => by interval_cases a <;> decide +kernel,
    fun h => absurd h (by decide +kernel)⟩, by decide +kernel, by decide +kernel⟩

theorem witness_FieldsStayInRange : (∀ n ∈ cfg.params.triLen, n ≤ 254) ∧ (issued cfg (.oscWriteTri0B 8 0)).rangesOk ∧
    runs cfg (.oscWriteTri0B 8 0) = true := by
  refine ⟨by decide +kernel, ⟨by decide +kernel, ?_, by decide, by decide, fun i => ⟨fun _ => ?_, fun c k => ?_, fun c j => ?_⟩⟩,
    by decide +kernel⟩
  · unfold Hh.rangesOk; decide +kernel
  · revert i; decide +kernel
  · cases c <;> cases k <;> revert i <;> decide +kernel
  · cases c <;> revert i j <;> decide +kernel

theorem witness_FmImageAgreesWithFields : (∀ n, ((issued cfg (.fmWriteTl 0 .p1 2 1 0xFF)).fm.get n).imageAgrees cfg.params) ∧
    runs cfg (.fmWriteTl 0 .p1 2 1 0xFF) = true := by
  refine ⟨fun n => ⟨?_, ?_, ?_, ?_, ?_, fun port ch c => ?_⟩, by decide +kernel⟩
  · revert n; decide +kernel
  · revert n; decide +kernel
  · revert n; decide +kernel
  · revert n; decide +kernel
  · revert n; decide +kernel
  · simp only [Fm.opAgrees]
    cases port <;> cases c <;> revert n ch <;> decide +kernel

/-- A group that is ready, named by its command, with no fault recorded: LevelsSettleAfterRun, OscEndFrameCompletes. -/
theorem ready_named :
    (toned.fault = none ∧ GroupRef.named toned.params 0 0 (.psg 0) ∧ toned.ready (.psg 0) (sext 4410)) ∧
    (hhOn.fault = none ∧ GroupRef.named hhOn.params 0 1 .hh ∧ hhOn.ready .hh (sext 4410)) ∧
    (cfg.fault = none ∧ GroupRef.named cfg.params 0 2 .tri ∧ cfg.ready .tri (sext 4410)) :=
  ⟨⟨rfl, named_groups.1, ready_psg.2⟩, ⟨rfl, named_groups.2.2.1, ready_hh.2.2⟩, ⟨rfl, named_groups.2.2.2, ready_tri.2⟩⟩

/-- Frame times that never reach a time: they are even, and the time is odd. -/
theorem never_reached (next : Word) (hn : next.toNat % 2 = 0) (k : Nat) : frameTimeAt next 8192 k < sext 0x7FFFFFFF := by
  show (next + BitVec.ofNat 32 (k * 8192)).toInt < 2147483647
  rw [BitVec.toInt_eq_toNat_cond, BitVec.toNat_add, BitVec.toNat_ofNat]
  split <;> omega

/-- And the outcome of a run: a frame step at the run's time is not passed; a PSG group; a frame time that wraps and ends the loop;
frame times that never reach the run's time, with a fault of a pass and without one. -/
theorem witness_OscRunCompletes :
    ((toned.fault = none ∧ GroupRef.named toned.params 0 0 (.psg 0) ∧ toned.ready (.psg 0) (sext 4410)) ∧
    (hhOn.fault = none ∧ GroupRef.named hhOn.params 0 1 .hh ∧ hhOn.ready .hh (sext 4410)) ∧
    (cfg.fault = none ∧ GroupRef.named cfg.params 0 2 .tri ∧ cfg.ready .tri (sext 4410))) ∧
    (sext (toned.lastTime (.psg 0)) ≤ sext 4410 ∧ frameSequencer (.psg 0) toned = none) ∧
    (sext (hhOn.lastTime .hh) ≤ sext 8193 ∧ frameSequencer .hh hhOn = some (0, 8192) ∧
      framesTaken 0 8192 8192 1 ∧ framesTaken 0 8192 8193 2) ∧
    (sext (cfg.lastTime .tri) ≤ sext 7458 ∧ frameSequencer .tri cfg = some (7457, 7457) ∧
      framesTaken 7457 7457 7457 0 ∧ framesTaken 7457 7457 7458 1) ∧
    framesTaken 0x7FFFFFF0 0x80000007 0x7FFFFFFD 2 ∧ framesInOrder 0x7FFFFFF0 8192 (sext 0x7FFFFFFF) true ∧
    (framesEndless 0x7FFFE000 8192 0x7FFFFFFF ∧ frameSequencer .hh endless = some (0x7FFFE000, 8192) ∧
      endlessLoop 0x22 .hh endless = .error ⟨.deltaBeforeOrigin, 0x7FFFE000⟩) ∧
    (framesEndless 0x7FFFFFF0 8192 0x7FFFFFFF ∧ framesBefore 0x7FFFFFF0 8192 0x7FFFFFFF 1) ∧
    frameTimeAfter 0x7FFFFFF0 0x80000007 0x7FFFFFFD 2 5 = (0x7FFFFFFE, 5) ∧
    (frameTimeAfter 0x7FFFFFF0 8192 0x7FFFFFFF 1 5).2 = 6 := by
  refine ⟨ready_named, ⟨by decide +kernel, rfl⟩, ⟨by decide +kernel, rfl, ?_, ?_⟩, ⟨by decide +kernel, rfl, ?_, ?_⟩, ?_,
    .inr (by decide +kernel), ⟨never_reached _ (by decide), rfl, by decide +kernel⟩, ⟨never_reached _ (by decide), ?_⟩,
    by decide +kernel, by decide +kernel⟩
  all_goals exact ⟨by decide +kernel, by decide +kernel⟩

theorem witness_LevelsSettleAfterRun :
    toned.fault = none ∧ GroupRef.named toned.params 0 0 (.psg 0) ∧ toned.ready (.psg 0) (sext 4410) :=
  ready_named.1

theorem witness_OscEndFrameCompletes :
    cfg.fault = none ∧ GroupRef.named cfg.params 0 2 .tri ∧ cfg.ready .tri (sext 4410) := ready_named.2.2

theorem witness_OscResetCompletes : cfg.fault = none ∧ GroupRef.named cfg.params 1 0 (.psg 1) := ⟨rfl, named_groups.2.1⟩

theorem witness_OscReadsComplete :
    cfg.fault = none ∧ cfg.params.hasHh = true ∧ cfg.ready .hh (sext 0) ∧ cfg.params.hasTri = true ∧ cfg.ready .tri (sext 0) ∧
    0x10 ≤ (0x10 : Byte).toNat ∧ (0x3F : Byte).toNat ≤ 0x3F := ⟨rfl, rfl, ready_hh.1, rfl, ready_tri.1, by decide, by decide⟩

/-- Addresses at both ends of each space, accepting; a write that restarts and one that does not. -/
theorem witness_OscWriteRestartSignal :
    (cfg.ready (.psg 1) (sext 0) ∧ hhOn.ready .hh (sext 0) ∧ cfg.ready .tri (sext 0)) ∧
    (writeAccepted (.psg 1) 0 0xE5 ∧ writeAccepted (.psg 1) 1 0 ∧ writeAccepted .hh 0x10 0 ∧ writeAccepted .hh 0x3F 0 ∧
      writeAccepted .tri 0x08 0 ∧ writeAccepted .tri 0x17 0x7F) ∧
    (restarts (.psg 1) 0 0xE5 cfg ∧ ¬ restarts (.psg 1) 1 0 cfg ∧ restarts .hh 0x14 0x80 hhOn ∧ ¬ restarts .hh 0x14 0x80 cfg ∧
      restarts .tri 0x0B 0 cfg ∧ ¬ restarts .tri 0x08 0 cfg) := by
  refine ⟨⟨ready_psg.1, ready_hh.2.1, ready_tri.1⟩, ?_, ?_⟩
  · simp only [writeAccepted]; decide +kernel
  · simp only [restarts]; decide +kernel

/-- Each clause: a run back in time, as a write and as a read; a run whose first delta cannot be placed, for want of rates and past
the horizon, and before the origin in a loop that no frame time ends; the addresses at the ends of each space; the refused mode; the `Emit` that fails. -/
theorem witness_OscFaults :
    (cfg.fault = none ∧ GroupRef.named cfg.params 0 1 .hh ∧ sext 0xFFFFFFFF < sext (cfg.lastTime .hh) ∧
      runsGroup 0 1 .hh 0x10 0 0xFFFFFFFF 0x20 (.oscWrite 0 1 0x10 0 0xFFFFFFFF) ∧
      runsGroup 0 1 .hh 0x3F 0 0xFFFFFFFF 0x21 (.oscReadHhWaveRam 0xF 0xFFFFFFFF) ∧
      runsGroup 0 2 .tri 0x17 0x80 0 0x20 (.oscWrite 0 2 0x17 0x80 0)) ∧
    (sext (State.reset.lastTime .tri) ≤ sext 10 ∧ runOutcome 0x22 .tri 10 State.reset (.error ⟨.notConfigured, 0x22⟩)) ∧
    (sext (toned.lastTime (.psg 0)) ≤ sext 4802 ∧ runOutcome 0x22 (.psg 0) 4802 toned (.error ⟨.deltaPastHorizon, 4800⟩)) ∧
    (sext (endless.lastTime .hh) ≤ sext 0x7FFFFFFF ∧
      runOutcome 0x22 .hh 0x7FFFFFFF endless (.error ⟨.deltaBeforeOrigin, 0x7FFFE000⟩)) ∧
    (¬ writeAccepted .hh 0x0F 0 ∧ ¬ writeAccepted .hh 0x40 0 ∧ ¬ writeAccepted (.psg 0) 2 0 ∧ ¬ writeAccepted .tri 0x0C 0) ∧
    (GroupRef.named cfg.params 0 2 .tri ∧ (0x08 : Byte) ≠ 0x15 ∧ bit (0x80 : Byte) 7 = true ∧ cfg.ready .tri (sext 0)) ∧
    emit cfg.params 0x20 .left (-1) 5 cfg.mix = .error ⟨.deltaBeforeOrigin, 0xFFFFFFFF⟩ := by
  refine ⟨⟨rfl, named_groups.2.2.1, by decide +kernel, ?_, ?_, ?_⟩, ⟨by decide +kernel, ?_⟩,
    ⟨by decide +kernel, ?_⟩, ⟨by decide +kernel, ?_⟩, ?_, ⟨named_groups.2.2.2, by decide, by decide, ready_tri.1⟩, by decide +kernel⟩
  · exact .inl ⟨rfl, rfl, .inl (by simp only [writeAccepted]; decide +kernel)⟩
  · exact .inr (.inl ⟨rfl, by simp only [readAccepted]; decide +kernel, .inr (.inr (.inl ⟨rfl, _, rfl⟩))⟩)
  · exact .inl ⟨rfl, rfl, .inr ⟨rfl, rfl⟩⟩
  · exact .inl ⟨0, ⟨by decide +kernel, by decide +kernel⟩, by decide +kernel⟩
  · show _ = _
    decide +kernel
  · exact .inr ⟨never_reached _ (by decide), .inl ⟨_, by decide +kernel, rfl⟩⟩
  · simp only [writeAccepted]; decide +kernel

theorem witness_MissingUnitsAreIllegal : cfg.fault = none ∧ unitMissing cfg.params (encode (.bufAddDelta 3 0 0)) ∧
    unitMissing cfg.params (encode (.oscRun 2 0 0)) ∧ unitMissing cfg.params (encode (.oscRun 0 3 0)) ∧
    unitMissing cfg.params (encode (.oscRead 0 0 0 0)) ∧
    unitMissing { cfg.params with hasHh := false } (encode (.oscWaveStatus 0)) ∧
    unitMissing cfg.params (encode (.fmRender 2 0)) ∧ unitMissing cfg.params (encode (.fmWrite 0 2 0 0)) := by
  refine ⟨rfl, ?_, ?_, ?_, ?_, ?_, ?_, ?_⟩ <;> unfold unitMissing <;> decide +kernel

theorem witness_FormsAgreeWithPlainCommands :
    (Instr.oscWriteHhNr14 0x87 5).wf = true ∧ encode (.oscWriteHhNr14 0x87 5) = encode (.oscWrite 0 1 0x14 0x87 5) ∧
    encode (.oscReadTri15 5) = encode (.oscRead 0 2 0x15 5) ∧ encode (.fmWriteKey 0 0xF0) = encode (.fmWrite 0 0 0x28 0xF0) := by
  decide +kernel

/-- The hypotheses of the PSG writes: PsgDataPortWrites, PsgStereoWrite; the run to the present time succeeds also on an
unconfigured block. -/
theorem witness_PsgDataPortWrites :
    toned.fault = none ∧ (0 : BitVec 1).toNat < toned.params.nPsg ∧ toned.ready (.psg 0) (sext 4410) ∧
    (match runGroup 0x20 (.psg 0) 0 State.reset with | .ok _ => true | .error _ => false) = true :=
  ⟨rfl, by decide, ready_psg.2, by decide +kernel⟩

theorem witness_PsgStereoWrite : cfg.fault = none ∧ (1 : BitVec 1).toNat < cfg.params.nPsg ∧ cfg.ready (.psg 1) (sext 0) :=
  ⟨rfl, by decide, ready_psg.1⟩

/-- The hypotheses of the HH writes, powered off and powered on. -/
theorem witness_HhStoredAndIgnoredWrites :
    (cfg.fault = none ∧ cfg.params.hasHh = true ∧ cfg.ready .hh (sext 0) ∧ bit (cfg.hh.reg 0x26) 7 = false) ∧
    (hhOn.fault = none ∧ hhOn.params.hasHh = true ∧ hhOn.ready .hh (sext 0) ∧ bit (hhOn.hh.reg 0x26) 7 = true) ∧
    (match runGroup 0x20 .hh 0 hhOn with | .ok _ => true | .error _ => false) = true :=
  ⟨⟨rfl, rfl, ready_hh.1, by decide +kernel⟩, ⟨rfl, rfl, ready_hh.2.1, by decide +kernel⟩, by decide +kernel⟩

theorem witness_HhLengthAndDacWrites : hhOn.fault = none ∧ hhOn.params.hasHh = true ∧ hhOn.ready .hh (sext 0) ∧
    bit (hhOn.hh.reg 0x26) 7 = true := witness_HhStoredAndIgnoredWrites.2.1

theorem witness_HhSquareTriggers : hhOn.fault = none ∧ hhOn.params.hasHh = true ∧ hhOn.ready .hh (sext 0) ∧
    bit (hhOn.hh.reg 0x26) 7 = true := witness_HhStoredAndIgnoredWrites.2.1

theorem witness_HhWaveAndNoiseTriggers : hhOn.fault = none ∧ hhOn.params.hasHh = true ∧ hhOn.ready .hh (sext 0) ∧
    bit (hhOn.hh.reg 0x26) 7 = true := witness_HhStoredAndIgnoredWrites.2.1

/-- With NR50 both ways: a byte that keeps the scale and one that changes it. -/
theorem witness_HhVolumeAndRouteWrites : (hhOn.fault = none ∧ hhOn.params.hasHh = true ∧ hhOn.ready .hh (sext 0) ∧
    bit (hhOn.hh.reg 0x26) 7 = true) ∧ hhOn.params.unitHh * (0 + 1) = hhOn.hh.volScale ∧
    hhOn.params.unitHh * (7 + 1) ≠ hhOn.hh.volScale := ⟨witness_HhStoredAndIgnoredWrites.2.1, by decide, by decide⟩

theorem witness_HhPowerWrites :
    (cfg.fault = none ∧ cfg.params.hasHh = true ∧ cfg.ready .hh (sext 0) ∧ bit (cfg.hh.reg 0x26) 7 = false) ∧
    (hhOn.fault = none ∧ hhOn.params.hasHh = true ∧ hhOn.ready .hh (sext 0) ∧ bit (hhOn.hh.reg 0x26) 7 = true) :=
  ⟨witness_HhStoredAndIgnoredWrites.1, witness_HhStoredAndIgnoredWrites.2.1⟩

theorem witness_TriWritesComplete : cfg.fault = none ∧ cfg.params.hasTri = true ∧ cfg.ready .tri (sext 4410) ∧
    bit (0x7F : Byte) 7 = false ∧ (match runGroup 0x20 .tri 0 cfg with | .ok _ => true | .error _ => false) = true :=
  ⟨rfl, rfl, ready_tri.2, by decide, by decide +kernel⟩

theorem witness_FmGlobalWrites : cfg.fault = none ∧ (1 : BitVec 1).toNat < cfg.params.nFm ∧ bit (0x7F : Byte) 7 = false ∧
    bit (0x80 : Byte) 7 = true := by decide +kernel

theorem witness_FmKeyWrite : cfg.fault = none ∧ (0 : BitVec 1).toNat < cfg.params.nFm ∧
    keyCodeNames ((0xF0 : Byte).toNat % 8) .ch0 ∧ keyCodeNames ((0xF6 : Byte).toNat % 8) .ch5 ∧ (3 : Byte).toNat % 8 = 3 ∧
    (7 : Byte).toNat % 8 = 7 := by unfold keyCodeNames; decide +kernel

theorem witness_FmOperatorWrites : cfg.fault = none ∧ (1 : BitVec 1).toNat < cfg.params.nFm ∧ chanOf .p0 0 .ch0 ∧
    chanOf .p1 2 .ch5 ∧ bit (0xF7 : Byte) 3 = false ∧ bit (0x08 : Byte) 3 = true ∧ (2 : BitVec 2) ≠ 3 := by
  unfold chanOf; decide +kernel

/-- Both ends of each port's channels, and ADDR[1:0] = 3, which names none and is stored. -/
theorem witness_FmChannelWrites : (cfg.fault = none ∧ (1 : BitVec 1).toNat < cfg.params.nFm ∧ chanOf .p0 2 .ch2 ∧
    chanOf .p1 0 .ch3 ∧ (2 : BitVec 2) ≠ 3) ∧ runs cfg (.fmWriteFnumLow 1 .p1 3 5) = true ∧
    then' cfg (.fmWriteSplitLow 1 3 5) (·.fm.i1.reg .p0 0xAB) = some 5 := by unfold chanOf; decide +kernel

theorem witness_FmWritesStayInTheirPort :
    (cfg.fault = none ∧ (1 : BitVec 4).toNat = (1 : BitVec 1).toNat ∧ (1 : BitVec 1).toNat < cfg.params.nFm) ∧
    ¬ ((0 : BitVec 4) = 0 ∧ (0x27 : Byte) = 0x27 ∧ bit (0x7F : Byte) 7 = true) ∧
    ¬ ((0x93 : Byte).extractLsb' 4 4 = 9 ∧ (0x93 : Byte).extractLsb' 0 2 ≠ 3 ∧ bit (0xFF : Byte) 3 = true) := by decide +kernel

theorem witness_FmSetRateAndResetComplete : cfg.fault = none ∧ (1 : BitVec 4).toNat = (1 : BitVec 1).toNat ∧
    (1 : BitVec 1).toNat < cfg.params.nFm ∧ (1 : Word) ≠ 0 := by decide +kernel

/-- A configured instance and one that is not: FmRenderCompletes, FmFrameOutput, FmFrameAdvances. -/
theorem witness_FmRenderCompletes :
    (fmOn.fault = none ∧ (1 : BitVec 4).toNat = (1 : BitVec 1).toNat ∧ (1 : BitVec 1).toNat < fmOn.params.nFm ∧
      (fmOn.fm.get 1).clock ≠ 0 ∧ (fmOn.fm.get 1).rate ≠ 0) ∧ (cfg.fault = none ∧ (cfg.fm.get 1).clock = 0) ∧
    (0xFFFFFFFE : Word).toNat + (1 : Word).toNat < 2 ^ 32 := by decide +kernel

theorem witness_FmFrameOutput : fmOn.fault = none ∧ (1 : BitVec 4).toNat = (1 : BitVec 1).toNat ∧
    (1 : BitVec 1).toNat < fmOn.params.nFm ∧ (fmOn.fm.get 1).clock ≠ 0 ∧ (fmOn.fm.get 1).rate ≠ 0 := witness_FmRenderCompletes.1

theorem witness_FmFrameAdvances : fmOn.fault = none ∧ (1 : BitVec 4).toNat = (1 : BitVec 1).toNat ∧
    (1 : BitVec 1).toNat < fmOn.params.nFm ∧ (fmOn.fm.get 1).clock ≠ 0 ∧ (fmOn.fm.get 1).rate ≠ 0 := witness_FmRenderCompletes.1

theorem witness_EnvelopesAreMonotonic : (encode (.fmRender 0 0)).opc ≠ 0x01 ∧ (encode (.fmRender 0 0)).opc ≠ 0x32 ∧
    (∀ n, (cfg.fm.get n).rangesOk cfg.params) ∧ completes fmOn (.fmRender 0 0) = true ∧
    ¬ ((cfg.fm.get 0).chans.c0.ops.o1.key = false ∧ (cfg.fm.get 0).chans.c0.ops.o1.key = true) :=
  ⟨by decide +kernel, by decide +kernel, witness_FieldsStayInRange.2.1.2.2.2.2, by decide +kernel, by decide +kernel⟩

theorem witness_BufferContentFollowsLevels : toned.params.wf = true ∧ toned.storesWf ∧
    (encode (.oscRun 0 0 100)).opc ∈ ([0x20, 0x21, 0x22, 0x23, 0x25] : List Byte) ∧ completes toned (.oscRun 0 0 100) = true :=
  ⟨by decide +kernel, ⟨fun u => by cases u <;> decide +kernel, by decide +kernel, by decide +kernel, fun _ _ => rfl, fun i p => by
    cases p <;> revert i <;> decide +kernel⟩, by decide +kernel, by decide +kernel⟩

end Sys2Proof.Tests
end

section
/-! PROOFS. What a command can do, once for all 81 instructions: `Completes` lists what a completed command makes of the state,
`exec_commands` says that every instruction but BLOCK_RESET is a command of that kind, and `step_keeps` turns it into an induction
principle for invariants of a step. -/

namespace Sys2Proof.Machine

/-! ## The kinds of commands -/

/-- The rules on the mix stage behind the BUF_* commands but the read (spec 40_delta_buffer.md R201 to R214). -/
inductive MixCommand (p : Params) : (Mix → Res (Mix × Word)) → Prop where
  | setSampleRate (rate msec : Word) : MixCommand p (Mix.setSampleRate p rate msec)
  | setClockRate (clock : Word) : MixCommand p (Mix.setClockRate clock)
  | clear : MixCommand p fun m => .ok (m.clear, 0)
  | addDelta (w0 : Word) (sel : BitVec 4) (time delta : Word) : MixCommand p fun m => do
      let u ← orIllegal w0 (dsbOperand sel)
      let m' ← Machine.addDelta p 0x13 u (timeOperand time) (timeOperand delta) m
      .ok (m', 0)
  | endFrame (time : Word) : MixCommand p (Mix.endFrame time)
  | samplesAvail : MixCommand p fun m => .ok (m, BitVec.ofNat 32 m.available)
  | remove (n : Word) : MixCommand p (Mix.remove n)

/-- What a completed command other than BLOCK_RESET makes of the state, up to `cmd_count`. A register form takes the rule of
an address of its space; an FM form without an effect takes `id` (47_fm_registers.md R432). -/
inductive Completes (s : State) : State → Prop where
  | nop : Completes s { s with result := 0 }
  | onMix {rule : Mix → Res (Mix × Word)} {m : Mix} {v : Word} (hr : MixCommand s.params rule)
      (h : rule s.mix = .ok (m, v)) : Completes s { s with mix := m, result := v }
  | readStereo {count v : Word} {bytes : List Byte} {m : Mix} (h : s.mix.readStereo count = .ok (bytes, m, v)) :
      Completes s { s with mix := m, pcmOut := s.pcmOut ++ bytes, result := v }
  | writePsg {i : BitVec 1} {time : Word} {addr data : Byte} {rule : Psg → Mix → Res (Psg × Mix × Bool)} {r : State}
      {g : Psg} {m : Mix} {b : Bool} (hr : psgWriteRule s.params 0x20 (timeOperand time) addr data = some rule)
      (hrun : runGroup 0x20 (.psg i) (timeOperand time) s = .ok r) (h : rule (r.psg.get i) r.mix = .ok (g, m, b)) :
      Completes s { r with psg := r.psg.set i g, mix := m, result := restartResult b }
  | writeHh {time : Word} {addr data : Byte} {rule : Hh → Mix → Res (Hh × Mix × Bool)} {r : State} {g : Hh} {m : Mix}
      {b : Bool} (hr : hhWriteRule s.params 0x20 (timeOperand time) addr data = some rule)
      (hrun : runGroup 0x20 .hh (timeOperand time) s = .ok r) (h : rule r.hh r.mix = .ok (g, m, b)) :
      Completes s { r with hh := g, mix := m, result := restartResult b }
  | writeTri {time : Word} {addr data : Byte} {rule : TriRule} {r : State} {g : Tri} {b : Bool}
      (hr : triWriteRule s.params (timeOperand time) addr data = some rule)
      (hrun : runGroup 0x20 .tri (timeOperand time) s = .ok r) (h : rule r.tri = .ok (g, b)) :
      Completes s { r with tri := g, result := restartResult b }
  | run {opc : Byte} {g : GroupRef} {t : Int} {r : State} (v : Word) (h : runGroup opc g t s = .ok r) :
      Completes s { r with result := v }
  | endFrame {opc : Byte} {g : GroupRef} {t : Int} {r : State} (h : runGroup opc g t s = .ok r) :
      Completes s { Machine.endFrame g t r with result := 0 }
  | resetGroup (g : GroupRef) : Completes s { Machine.resetGroup g s with result := 0 }
  | writeFm {i : BitVec 1} {port : FmPort} {addr data : Byte} {rule : Fm → Fm}
      (hr : rule = fmRule s.params port addr data ∨ rule = id) :
      Completes s { s with fm := s.fm.set i (rule ((s.fm.get i).setReg port addr data)), result := 0 }
  | fmRender (i : BitVec 1) (n : Word) : Completes s
      { s with
        fm := s.fm.set i ((s.fm.get i).render s.params (countOperand n)).2
        fmOut := s.fmOut.set i (s.fmOut.get i ++ ((s.fm.get i).render s.params (countOperand n)).1)
        result := n }
  | fmReset (i : BitVec 1) : Completes s
      { s with fm := s.fm.set i (.reset s.params (s.fm.get i).clock (s.fm.get i).rate), result := 0 }
  | fmSetRate (i : BitVec 1) (clock rate : Word) : Completes s
      { s with fm := s.fm.set i { s.fm.get i with clock := clock, rate := rate }, result := 0 }

/-- An outcome is that of a command: it goes through the command shell (60_exceptions.md R603), and where its rule completes, it
is one of the kinds. -/
def IsCommand (s : State) (o : Host.Outcome State Fault Refusal) : Prop :=
  ∃ body, o = runCommand body s ∧ ∀ t, body = .ok t → Completes s t

/-! ## The shared operations are commands -/

/-- What is required is there. -/
theorem orIllegal_ok {α : Type} {w0 : Word} {o : Option α} {a : α} (h : orIllegal w0 o = .ok a) : o = some a := by
  cases o with
  | none => cases h
  | some b => cases h; rfl

/-- A rule on the mix stage. -/
theorem onMix_isCommand {s : State} {rule : Mix → Res (Mix × Word)} (hr : MixCommand s.params rule) :
    IsCommand s (runCommand (onMix rule s) s) := by
  refine ⟨_, rfl, fun t h => ?_⟩
  obtain ⟨⟨m, v⟩, h1, h2⟩ := res_bind_ok.1 h
  cases h2
  exact .onMix hr h1

/-- An OSC_WRITE on a PSG unit, R263. -/
theorem writePsg_completes {s t : State} {i : BitVec 1} {time : Word} {addr data : Byte}
    {rule : Psg → Mix → Res (Psg × Mix × Bool)} (hr : psgWriteRule s.params 0x20 (timeOperand time) addr data = some rule)
    (h : writePsg i time rule s = .ok t) : Completes s t := by
  obtain ⟨r, hrun, h⟩ := res_bind_ok.1 h
  obtain ⟨⟨g, m, b⟩, h1, h2⟩ := res_bind_ok.1 h
  cases h2
  exact .writePsg hr hrun h1

/-- An OSC_WRITE on the HH group, R263. -/
theorem writeHh_completes {s t : State} {time : Word} {addr data : Byte} {rule : Hh → Mix → Res (Hh × Mix × Bool)}
    (hr : hhWriteRule s.params 0x20 (timeOperand time) addr data = some rule) (h : writeHh time rule s = .ok t) :
    Completes s t := by
  obtain ⟨r, hrun, h⟩ := res_bind_ok.1 h
  obtain ⟨⟨g, m, b⟩, h1, h2⟩ := res_bind_ok.1 h
  cases h2
  exact .writeHh hr hrun h1

/-- An OSC_WRITE on the TRI group, R263. -/
theorem writeTri_completes {s t : State} {time : Word} {addr data : Byte} {rule : TriRule}
    (hr : triWriteRule s.params (timeOperand time) addr data = some rule) (h : writeTri time rule s = .ok t) :
    Completes s t := by
  obtain ⟨r, hrun, h⟩ := res_bind_ok.1 h
  obtain ⟨⟨g, b⟩, h1, h2⟩ := res_bind_ok.1 h
  cases h2
  exact .writeTri hr hrun h1

/-- An OSC_READ on the HH group, R266. -/
theorem readHh_completes {s t : State} {time : Word} {value : Hh → Byte} (h : readHh time value s = .ok t) :
    Completes s t := by
  obtain ⟨r, hrun, h⟩ := res_bind_ok.1 h
  cases h
  exact .run _ hrun

/-- An OSC_READ on the TRI group, R266. -/
theorem readTri_completes {s t : State} {time : Word} {value : Tri → Byte} (h : readTri time value s = .ok t) :
    Completes s t := by
  obtain ⟨r, hrun, h⟩ := res_bind_ok.1 h
  cases h
  exact .run _ hrun

/-- An FM_WRITE, 47_fm_registers.md R430. -/
theorem writeFm_completes {s t : State} {i : BitVec 1} {port : FmPort} {addr data : Byte} {refused : Bool} {rule : Fm → Fm}
    (hr : rule = fmRule s.params port addr data ∨ rule = id) (h : writeFm i port addr data refused rule s = .ok t) :
    Completes s t := by
  obtain ⟨f, hf, h⟩ := res_bind_ok.1 h
  cases h
  unfold fmWriteReg at hf
  split at hf
  · cases hf
  · cases hf
    exact .writeFm hr

/-! ## The register forms are commands -/

/-- A PSG form. -/
theorem psgForm_isCommand {s : State} {i : Instr} {inst : BitVec 1} {time : Word} (addr data : Byte)
    {rule : Psg → Mix → Res (Psg × Mix × Bool)}
    (hr : psgWriteRule s.params 0x20 (timeOperand time) addr data = some rule) : IsCommand s (psgForm i inst time rule s) := by
  refine ⟨_, rfl, fun t h => ?_⟩
  obtain ⟨n, _, h⟩ := res_bind_ok.1 h
  exact writePsg_completes hr h

/-- An HH form. -/
theorem hhForm_isCommand {s : State} {i : Instr} {time : Word} (addr data : Byte) {rule : Hh → Mix → Res (Hh × Mix × Bool)}
    (hr : hhWriteRule s.params 0x20 (timeOperand time) addr data = some rule) : IsCommand s (hhForm i time rule s) := by
  refine ⟨_, rfl, fun t h => ?_⟩
  obtain ⟨_, _, h⟩ := res_bind_ok.1 h
  exact writeHh_completes hr h

/-- A TRI form. -/
theorem triForm_isCommand {s : State} {i : Instr} {time : Word} (addr data : Byte) {rule : TriRule}
    (hr : triWriteRule s.params (timeOperand time) addr data = some rule) : IsCommand s (triForm i time rule s) := by
  refine ⟨_, rfl, fun t h => ?_⟩
  obtain ⟨_, _, h⟩ := res_bind_ok.1 h
  exact writeTri_completes hr h

/-- An HH read form. -/
theorem hhReadForm_isCommand {s : State} {i : Instr} {time : Word} {addr : Byte} :
    IsCommand s (hhReadForm i time addr s) := by
  refine ⟨_, rfl, fun t h => ?_⟩
  obtain ⟨_, _, h⟩ := res_bind_ok.1 h
  exact readHh_completes h

/-- A TRI read form. -/
theorem triReadForm_isCommand {s : State} {i : Instr} {time : Word} {value : Tri → Byte} :
    IsCommand s (triReadForm i time value s) := by
  refine ⟨_, rfl, fun t h => ?_⟩
  obtain ⟨_, _, h⟩ := res_bind_ok.1 h
  exact readTri_completes h

/-- An FM form. -/
theorem fmForm_isCommand {s : State} {i : Instr} {inst : BitVec 1} {port : FmPort} {addr data : Byte} {refused : Bool}
    {rule : Fm → Fm} (hr : rule = fmRule s.params port addr data ∨ rule = id) :
    IsCommand s (fmForm i inst port addr data refused rule s) := by
  refine ⟨_, rfl, fun t h => ?_⟩
  obtain ⟨n, _, h⟩ := res_bind_ok.1 h
  exact writeFm_completes hr h

/-! ## The rule of a form is that of its address -/

/-- The fields of an operator register's address, R154. -/
theorem opAddr_fields (group : BitVec 4) (slot ch : BitVec 2) :
    (group ++ slot ++ ch).extractLsb' 4 4 = group ∧ (group ++ slot ++ ch).extractLsb' 2 2 = slot ∧
    (group ++ slot ++ ch).extractLsb' 0 2 = ch := by
  revert group slot ch; decide

/-- The fields of a channel register's address, R155. -/
theorem chanAddr_fields (group : BitVec 6) (ch : BitVec 2) :
    (group ++ ch).extractLsb' 2 6 = group ∧ (group ++ ch).extractLsb' 0 2 = ch ∧
    (group ++ ch).extractLsb' 4 4 = group.extractLsb' 2 4 := by
  revert group ch; decide

/-! The rules of the FM registers, by the groups of their addresses. -/

section

variable (p : Params) (port : FmPort) (slot ch : BitVec 2) (d : Byte)

/-- DT and MUL, R440. -/
theorem fmRule_dtMul : fmRule p port (3#4 ++ slot ++ ch) d = fun f => f.mapOp port slot ch (opDtMul d) := by
  unfold fmRule; simp only [opAddr_fields]

/-- TL, R441. -/
theorem fmRule_tl : fmRule p port (4#4 ++ slot ++ ch) d = fun f => f.mapOp port slot ch (opTl d) := by
  unfold fmRule; simp only [opAddr_fields]

/-- KS and AR, R442. -/
theorem fmRule_ksAr : fmRule p port (5#4 ++ slot ++ ch) d = fun f => f.mapOp port slot ch (opKsAr d) := by
  unfold fmRule; simp only [opAddr_fields]

/-- AM enable and D1R, R443. -/
theorem fmRule_amD1r : fmRule p port (6#4 ++ slot ++ ch) d = fun f => f.mapOp port slot ch (opAmD1r d) := by
  unfold fmRule; simp only [opAddr_fields]

/-- D2R, R444. -/
theorem fmRule_d2r : fmRule p port (7#4 ++ slot ++ ch) d = fun f => f.mapOp port slot ch (opD2r d) := by
  unfold fmRule; simp only [opAddr_fields]

/-- SL and RR, R445. -/
theorem fmRule_slRr : fmRule p port (8#4 ++ slot ++ ch) d = fun f => f.mapOp port slot ch (opSlRr d) := by
  unfold fmRule; simp only [opAddr_fields]

/-- SSG-EG, R447. -/
theorem fmRule_ssgEg : fmRule p port (9#4 ++ slot ++ ch) d = fun f => f.mapOp port slot ch (opSsg d) := by
  unfold fmRule; simp only [opAddr_fields]

/-- F-number low, R448. -/
theorem fmRule_fnumLow : fmRule p port (0b101000#6 ++ ch) d = fmFnumLow port ch d := by
  unfold fmRule fmChannelRule; simp only [chanAddr_fields]; rfl

/-- Split-mode F-number low, R446. -/
theorem fmRule_splitLow : fmRule p .p0 (0b101010#6 ++ ch) d = fmSplitLow ch d := by
  unfold fmRule fmChannelRule; simp only [chanAddr_fields]; rfl

/-- Feedback and algorithm, R450. -/
theorem fmRule_fbAlgo : fmRule p port (0b101100#6 ++ ch) d = fun f => f.mapChan? (fmChannel port ch) (chFbAlgo d) := by
  unfold fmRule fmChannelRule; simp only [chanAddr_fields]; rfl

/-- Pan and LFO sensitivities, R451. -/
theorem fmRule_pan : fmRule p port (0b101101#6 ++ ch) d = fun f => f.mapChan? (fmChannel port ch) (chPan d) := by
  unfold fmRule fmChannelRule; simp only [chanAddr_fields]; rfl

end

/-- The fields of a latch byte, 43_psg.md R294. -/
theorem latchByte_fields (ch : BitVec 2) (ty : BitVec 1) (data : BitVec 4) :
    (1#1 ++ ch ++ ty ++ data).extractLsb' 7 1 = 1#1 ∧ (1#1 ++ ch ++ ty ++ data).extractLsb' 5 2 = ch ∧
    (1#1 ++ ch ++ ty ++ data).extractLsb' 4 1 = ty ∧ (1#1 ++ ch ++ ty ++ data).extractLsb' 0 4 = data := by
  revert ch ty data; decide

/-- The latch form's rule, R294. -/
theorem psgWriteRule_latch (p : Params) (opc : Byte) (t : Int) (ch : BitVec 2) (ty : BitVec 1) (data : BitVec 4) :
    psgWriteRule p opc t 0x00 (1#1 ++ ch ++ ty ++ data) = some (pureWrite (Psg.writeLatch p ch ty data)) := by
  unfold psgWriteRule
  simp only [latchByte_fields, if_true]
  rfl

/-- The data form's rule, R295. -/
theorem psgWriteRule_data (p : Params) (opc : Byte) (t : Int) (data : BitVec 7) :
    psgWriteRule p opc t 0x00 (0#1 ++ data) = some (pureWrite (Psg.writeData p data)) := by
  have h : (0#1 ++ data).extractLsb' 7 1 = 0#1 ∧ (0#1 ++ data).extractLsb' 0 7 = data := by revert data; decide
  unfold psgWriteRule
  simp only [h]
  rfl

/-- The wave RAM rule, R378, is that of the addresses 0x30..0x3F. -/
theorem hhWriteRule_waveRam (p : Params) (opc : Byte) (t : Int) (low : BitVec 4) (data : Byte) :
    hhWriteRule p opc t (3#4 ++ low) data = some (hhPlain (Hh.writeWaveRam low data)) := by
  have hn : (3#4 ++ low).toNat = 0x30 + low.toNat := by revert low; decide
  have hl : (3#4 ++ low).extractLsb' 0 4 = low := by revert low; decide
  have := low.isLt
  unfold hhWriteRule
  dsimp only
  rw [hn, hl, if_neg (by omega), if_neg (by omega), if_neg (by omega), if_neg (by omega), if_neg (by omega)]

/-- The unused addresses 0x28..0x2F, R395. -/
theorem hhWriteRule_unused28 (p : Params) (opc : Byte) (t : Int) (low : BitVec 3) (data : Byte) :
    hhWriteRule p opc t (0b00101#5 ++ low) data = some hhIgnore := by
  have hn : (0b00101#5 ++ low).toNat = 0x28 + low.toNat := by revert low; decide
  have := low.isLt
  unfold hhWriteRule
  dsimp only
  rw [hn, if_neg (by omega), if_neg (by omega), if_neg (by omega), if_neg (by omega), if_pos (by omega)]

/-! ## Every instruction is a command -/

/-- NOP, 60_exceptions.md R620. -/
theorem execNop_isCommand (s : State) : IsCommand s (execNop s) :=
  ⟨.ok { s with result := 0 }, rfl, fun t h => by cases h; exact .nop⟩

/-- OSC_WRITE, R263. -/
theorem execOscWrite_isCommand (inst sel : BitVec 4) (addr data : Byte) (time : Word) (s : State) :
    IsCommand s (execOscWrite inst sel addr data time s) := by
  refine ⟨_, rfl, fun t h => ?_⟩
  obtain ⟨g, _, h⟩ := res_bind_ok.1 h
  cases g with
  | psg i => obtain ⟨rule, hr, h⟩ := res_bind_ok.1 h; exact writePsg_completes (orIllegal_ok hr) h
  | hh => obtain ⟨rule, hr, h⟩ := res_bind_ok.1 h; exact writeHh_completes (orIllegal_ok hr) h
  | tri => obtain ⟨rule, hr, h⟩ := res_bind_ok.1 h; exact writeTri_completes (orIllegal_ok hr) h

/-- OSC_READ, R266. -/
theorem execOscRead_isCommand (inst sel : BitVec 4) (addr : Byte) (time : Word) (s : State) :
    IsCommand s (execOscRead inst sel addr time s) := by
  refine ⟨_, rfl, fun t h => ?_⟩
  obtain ⟨g, _, h⟩ := res_bind_ok.1 h
  cases g with
  | psg i => cases h
  | hh => obtain ⟨_, _, h⟩ := res_bind_ok.1 h; exact readHh_completes h
  | tri => obtain ⟨_, _, h⟩ := res_bind_ok.1 h; exact readTri_completes h

/-- BUF_READ_STEREO, 41_stereo_mix.md R242. -/
theorem execBufReadStereo_isCommand (count : Word) (s : State) : IsCommand s (execBufReadStereo count s) := by
  refine ⟨_, rfl, fun t h => ?_⟩
  obtain ⟨⟨bytes, m, v⟩, h1, h⟩ := res_bind_ok.1 h
  cases h
  exact .readStereo h1

/-- OSC_RUN, R267. -/
theorem execOscRun_isCommand (inst sel : BitVec 4) (time : Word) (s : State) :
    IsCommand s (execOscRun inst sel time s) := by
  refine ⟨_, rfl, fun t h => ?_⟩
  obtain ⟨g, _, h⟩ := res_bind_ok.1 h
  obtain ⟨r, hrun, h⟩ := res_bind_ok.1 h
  cases h
  exact .run _ hrun

/-- OSC_END_FRAME, R268. -/
theorem execOscEndFrame_isCommand (inst sel : BitVec 4) (time : Word) (s : State) :
    IsCommand s (execOscEndFrame inst sel time s) := by
  refine ⟨_, rfl, fun t h => ?_⟩
  obtain ⟨g, _, h⟩ := res_bind_ok.1 h
  obtain ⟨r, hrun, h⟩ := res_bind_ok.1 h
  cases h
  exact .endFrame hrun

/-- OSC_RESET, R269. -/
theorem execOscReset_isCommand (inst sel : BitVec 4) (s : State) : IsCommand s (execOscReset inst sel s) := by
  refine ⟨_, rfl, fun t h => ?_⟩
  obtain ⟨g, _, h⟩ := res_bind_ok.1 h
  cases h
  exact .resetGroup g

/-- OSC_WAVE_STATUS, R272. -/
theorem execOscWaveStatus_isCommand (time : Word) (s : State) : IsCommand s (execOscWaveStatus time s) := by
  refine ⟨_, rfl, fun t h => ?_⟩
  obtain ⟨_, _, h⟩ := res_bind_ok.1 h
  obtain ⟨r, hrun, h⟩ := res_bind_ok.1 h
  cases h
  exact .run _ hrun

/-- FM_WRITE, R430. -/
theorem execFmWrite_isCommand (inst sel : BitVec 4) (addr data : Byte) (s : State) :
    IsCommand s (execFmWrite inst sel addr data s) := by
  refine ⟨_, rfl, fun t h => ?_⟩
  obtain ⟨i, _, h⟩ := res_bind_ok.1 h
  obtain ⟨port, _, h⟩ := res_bind_ok.1 h
  exact writeFm_completes (.inl rfl) h

/-- FM_RENDER, 49_fm_channel_output.md R530. -/
theorem execFmRender_isCommand (inst : BitVec 4) (n : Word) (s : State) : IsCommand s (execFmRender inst n s) := by
  refine ⟨_, rfl, fun t h => ?_⟩
  obtain ⟨i, _, h⟩ := res_bind_ok.1 h
  split at h
  · cases h; exact .fmRender i n
  · cases h

/-- FM_RESET, R533. -/
theorem execFmReset_isCommand (inst : BitVec 4) (s : State) : IsCommand s (execFmReset inst s) := by
  refine ⟨_, rfl, fun t h => ?_⟩
  obtain ⟨i, _, h⟩ := res_bind_ok.1 h
  cases h
  exact .fmReset i

/-- FM_SET_RATE, R534. -/
theorem execFmSetRate_isCommand (inst : BitVec 4) (clock rate : Word) (s : State) :
    IsCommand s (execFmSetRate inst clock rate s) := by
  refine ⟨_, rfl, fun t h => ?_⟩
  obtain ⟨i, _, h⟩ := res_bind_ok.1 h
  split at h
  · cases h
  · cases h; exact .fmSetRate i clock rate

/-- Every instruction but BLOCK_RESET is a command; a register form is one by the rule of its address. -/
theorem exec_isCommand (i : Instr) (s : State) (hi : i ≠ .blockReset) : IsCommand s (exec i s) := by
  cases i with
  | blockReset => exact absurd rfl hi
  | nop => exact execNop_isCommand s
  | bufSetSampleRate rate msec => exact onMix_isCommand (.setSampleRate rate msec)
  | bufSetClockRate clock => exact onMix_isCommand (.setClockRate clock)
  | bufClear => exact onMix_isCommand .clear
  | bufAddDelta sel time delta => exact onMix_isCommand (.addDelta _ sel time delta)
  | bufEndFrame time => exact onMix_isCommand (.endFrame time)
  | bufSamplesAvail => exact onMix_isCommand .samplesAvail
  | bufReadStereo count => exact execBufReadStereo_isCommand count s
  | bufRemoveSamples n => exact onMix_isCommand (.remove n)
  | oscWrite inst sel addr data time => exact execOscWrite_isCommand inst sel addr data time s
  | oscRead inst sel addr time => exact execOscRead_isCommand inst sel addr time s
  | oscRun inst sel time => exact execOscRun_isCommand inst sel time s
  | oscEndFrame inst sel time => exact execOscEndFrame_isCommand inst sel time s
  | oscReset inst sel => exact execOscReset_isCommand inst sel s
  | oscWaveStatus time => exact execOscWaveStatus_isCommand time s
  | fmWrite inst sel addr data => exact execFmWrite_isCommand inst sel addr data s
  | fmRender inst n => exact execFmRender_isCommand inst n s
  | fmReset inst => exact execFmReset_isCommand inst s
  | fmSetRate inst clock rate => exact execFmSetRate_isCommand inst clock rate s
  | oscWritePsgLatch inst ch ty data time =>
    exact psgForm_isCommand 0x00 (1#1 ++ ch ++ ty ++ data) (psgWriteRule_latch _ _ _ ch ty data)
  | oscWritePsgData inst data time => exact psgForm_isCommand 0x00 (0#1 ++ data) (psgWriteRule_data _ _ _ data)
  | oscWritePsgStereo inst data time => exact psgForm_isCommand 1 data rfl
  | oscWriteHhNr10 data time => exact hhForm_isCommand 0x10 data rfl
  | oscWriteHhNr11 data time => exact hhForm_isCommand 0x11 data rfl
  | oscWriteHhNr12 data time => exact hhForm_isCommand 0x12 data rfl
  | oscWriteHhNr13 data time => exact hhForm_isCommand 0x13 data rfl
  | oscWriteHhNr14 data time => exact hhForm_isCommand 0x14 data rfl
  | oscWriteHhUnused15 data time => exact hhForm_isCommand 0x15 data rfl
  | oscWriteHhNr21 data time => exact hhForm_isCommand 0x16 data rfl
  | oscWriteHhNr22 data time => exact hhForm_isCommand 0x17 data rfl
  | oscWriteHhNr23 data time => exact hhForm_isCommand 0x18 data rfl
  | oscWriteHhNr24 data time => exact hhForm_isCommand 0x19 data rfl
  | oscWriteHhNr30 data time => exact hhForm_isCommand 0x1A data rfl
  | oscWriteHhNr31 data time => exact hhForm_isCommand 0x1B data rfl
  | oscWriteHhNr32 data time => exact hhForm_isCommand 0x1C data rfl
  | oscWriteHhNr33 data time => exact hhForm_isCommand 0x1D data rfl
  | oscWriteHhNr34 data time => exact hhForm_isCommand 0x1E data rfl
  | oscWriteHhUnused1F data time => exact hhForm_isCommand 0x1F data rfl
  | oscWriteHhNr41 data time => exact hhForm_isCommand 0x20 data rfl
  | oscWriteHhNr42 data time => exact hhForm_isCommand 0x21 data rfl
  | oscWriteHhNr43 data time => exact hhForm_isCommand 0x22 data rfl
  | oscWriteHhNr44 data time => exact hhForm_isCommand 0x23 data rfl
  | oscWriteHhNr50 data time => exact hhForm_isCommand 0x24 data rfl
  | oscWriteHhNr51 data time => exact hhForm_isCommand 0x25 data rfl
  | oscWriteHhUnused27 data time => exact hhForm_isCommand 0x27 data rfl
  | oscWriteHhNr52Off data time => exact hhForm_isCommand 0x26 0x00 rfl
  | oscWriteHhNr52On data time => exact hhForm_isCommand 0x26 0x80 rfl
  | oscWriteHhUnused28 low data time =>
    exact hhForm_isCommand (0b00101#5 ++ low) data (hhWriteRule_unused28 _ _ _ low data)
  | oscWriteHhWaveRam low data time => exact hhForm_isCommand (3#4 ++ low) data (hhWriteRule_waveRam _ _ _ low data)
  | oscWriteTri08 data time => exact triForm_isCommand 0x08 data rfl
  | oscWriteTri09 data time => exact triForm_isCommand 0x09 data rfl
  | oscWriteTri0A data time => exact triForm_isCommand 0x0A data rfl
  | oscWriteTri0B data time => exact triForm_isCommand 0x0B data rfl
  | oscWriteTri15 data time => exact triForm_isCommand 0x15 data rfl
  | oscWriteTri17 data time => exact triForm_isCommand 0x17 data rfl
  | oscReadHhReg addr time => exact hhReadForm_isCommand
  | oscReadHhWaveRam low time => exact hhReadForm_isCommand
  | oscReadTri15 time => exact triReadForm_isCommand
  | fmWriteLfo inst data => exact fmForm_isCommand (.inl rfl)
  | fmWriteTimer24 inst data => exact fmForm_isCommand (.inr rfl)
  | fmWriteTimer25 inst data => exact fmForm_isCommand (.inr rfl)
  | fmWriteTimer26 inst data => exact fmForm_isCommand (.inr rfl)
  | fmWriteMode27 inst data => exact fmForm_isCommand (.inl rfl)
  | fmWriteKey inst data => exact fmForm_isCommand (.inl rfl)
  | fmWriteDacData inst data => exact fmForm_isCommand (.inl rfl)
  | fmWriteDacEnable inst data => exact fmForm_isCommand (.inl rfl)
  | fmWriteDtMul inst port slot ch data => exact fmForm_isCommand (.inl (fmRule_dtMul ..).symm)
  | fmWriteTl inst port slot ch data => exact fmForm_isCommand (.inl (fmRule_tl ..).symm)
  | fmWriteKsAr inst port slot ch data => exact fmForm_isCommand (.inl (fmRule_ksAr ..).symm)
  | fmWriteAmD1r inst port slot ch data => exact fmForm_isCommand (.inl (fmRule_amD1r ..).symm)
  | fmWriteD2r inst port slot ch data => exact fmForm_isCommand (.inl (fmRule_d2r ..).symm)
  | fmWriteSlRr inst port slot ch data => exact fmForm_isCommand (.inl (fmRule_slRr ..).symm)
  | fmWriteSsgEg inst port slot ch data => exact fmForm_isCommand (.inl (fmRule_ssgEg ..).symm)
  | fmWriteFnumLow inst port ch data => exact fmForm_isCommand (.inl (fmRule_fnumLow ..).symm)
  | fmWriteFnumHigh inst port ch data => exact fmForm_isCommand (.inr rfl)
  | fmWriteSplitLow inst j data => exact fmForm_isCommand (.inl (fmRule_splitLow ..).symm)
  | fmWriteSplitHigh inst j data => exact fmForm_isCommand (.inr rfl)
  | fmWriteFbAlgo inst port ch data => exact fmForm_isCommand (.inl (fmRule_fbAlgo ..).symm)
  | fmWritePan inst port ch data => exact fmForm_isCommand (.inl (fmRule_pan ..).symm)
  | fmWriteNoEffect inst port addr data => exact fmForm_isCommand (.inr rfl)

end Sys2Proof.Machine
end

section
/-! PROOFS. What a step can do, and the frame of every command: `cmd_count` and the fault record (spec 10_state.md R31,
60_exceptions.md R601, R607), the parameters and the ports (10_state.md R30, R47). -/

namespace Sys2Proof.Machine

/-! ## The frame of a command -/

/-- Appending to the list of one unit appends to each unit's list: nothing to the other's. -/
theorem two_set_append_get {α : Type} (v : Two (List α)) (i n : BitVec 1) (l : List α) :
    ∃ l', (v.set i (v.get i ++ l)).get n = v.get n ++ l' := by
  by_cases h : n = i
  · subst h; exact ⟨l, two_get_set_self _ _ _⟩
  · exact ⟨[], by rw [two_get_set_ne _ _ h, List.append_nil]⟩

/-- Between two states, the fields that no rule of a command sets: the parameters, the command port, the count of commands and
the fault record; and the output ports, which are only extended. -/
structure SameShell (s t : State) : Prop where
  params : t.params = s.params
  port : t.port = s.port
  cmdCount : t.cmdCount = s.cmdCount
  fault : t.fault = s.fault
  pcmOut : ∃ bytes, t.pcmOut = s.pcmOut ++ bytes
  fmOut : ∀ n, ∃ frames, t.fmOut.get n = s.fmOut.get n ++ frames

/-- A state with the same shell fields and the same output ports. -/
theorem SameShell.of_eq {s t : State} (params : t.params = s.params) (port : t.port = s.port)
    (cmdCount : t.cmdCount = s.cmdCount) (fault : t.fault = s.fault) (pcmOut : t.pcmOut = s.pcmOut)
    (fmOut : t.fmOut = s.fmOut) : SameShell s t :=
  ⟨params, port, cmdCount, fault, ⟨[], by rw [pcmOut, List.append_nil]⟩, fun _ => ⟨[], by rw [fmOut, List.append_nil]⟩⟩

/-- A run of a group keeps the shell. -/
theorem runGroup_sameShell {opc : Byte} {g : GroupRef} {t : Int} {s r : State} (h : runGroup opc g t s = .ok r) :
    SameShell s r := by
  obtain ⟨params, port, cmdCount, fault, _, pcmOut, fmOut, _⟩ := runGroup_frame h
  exact .of_eq params port cmdCount fault pcmOut fmOut

/-- A completed command keeps the shell, but for the bytes and frames it puts out. -/
theorem completes_sameShell {s t : State} (h : Completes s t) : SameShell s t := by
  cases h with
  | nop => exact .of_eq rfl rfl rfl rfl rfl rfl
  | onMix _ _ => exact .of_eq rfl rfl rfl rfl rfl rfl
  | readStereo _ => exact ⟨rfl, rfl, rfl, rfl, ⟨_, rfl⟩, fun _ => ⟨[], (List.append_nil _).symm⟩⟩
  | writePsg _ hrun _ => exact { runGroup_sameShell hrun with }
  | writeHh _ hrun _ => exact { runGroup_sameShell hrun with }
  | writeTri _ hrun _ => exact { runGroup_sameShell hrun with }
  | run _ hrun => exact { runGroup_sameShell hrun with }
  | @endFrame _ g _ _ hrun => cases g <;> exact { runGroup_sameShell hrun with }
  | resetGroup g => cases g <;> exact .of_eq rfl rfl rfl rfl rfl rfl
  | writeFm _ => exact .of_eq rfl rfl rfl rfl rfl rfl
  | fmRender i n =>
    exact ⟨rfl, rfl, rfl, rfl, ⟨[], (List.append_nil _).symm⟩, fun k => two_set_append_get s.fmOut i k _⟩
  | fmReset i => exact .of_eq rfl rfl rfl rfl rfl rfl
  | fmSetRate i clock rate => exact .of_eq rfl rfl rfl rfl rfl rfl

/-! ## What a step can do -/

/-- The state after a taken command, from the state with it taken: BLOCK_RESET; or the command is refused, faults, or completes. -/
inductive Taken (s : State) : State → Prop where
  | reset : Taken s (blockReset s)
  | refused : Taken s s
  | faulted (r : Raise) : Taken s (takeFault r s)
  | completed {u : State} (h : Completes s u) : Taken s { u with cmdCount := s.cmdCount + 1 }

/-- A command that goes on is refused, completes or faults. -/
theorem isCommand_taken {s t : State} {o : Host.Outcome State Fault Refusal} (h : IsCommand s o) (ht : o = .next t) :
    Taken s t := by
  obtain ⟨body, rfl, hb⟩ := h
  obtain ⟨_, rfl⟩ | ⟨_, u, hu, rfl⟩ | ⟨_, r, _, rfl⟩ := runCommand_cases ht
  · exact .refused
  · exact .completed (hb u hu)
  · exact .faulted r

/-- An instruction is taken. -/
theorem exec_taken {i : Instr} {s t : State} (h : exec i s = .next t) : Taken s t := by
  by_cases hi : i = .blockReset
  · subst hi; cases h; exact .reset
  · exact isCommand_taken (exec_isCommand i s hi) h

/-- A command that does not decode is refused or faults, 30_encoding.md R145. -/
theorem rejectCommand_isCommand (c : Command) (s : State) : IsCommand s (rejectCommand c s) :=
  ⟨illegal c.w0, rfl, fun _ h => by cases h⟩

/-- Everything a step can do: wait on an empty port, or take the first command of the port. -/
theorem step_cases {s t : State} (h : step s = .next t) :
    (s.port = [] ∧ t = s) ∨ ∃ c rest, s.port = c :: rest ∧ Taken { s with port := rest } t := by
  unfold step fetch at h
  cases hp : s.port with
  | nil => rw [hp] at h; cases h; exact .inl ⟨rfl, rfl⟩
  | cons c rest =>
    rw [hp] at h
    refine .inr ⟨c, rest, rfl, ?_⟩
    dsimp only at h
    unfold executeCommand at h
    split at h
    · exact exec_taken h
    · exact isCommand_taken (rejectCommand_isCommand _ _) h

/-- An invariant of a step: it does not speak of the port, the count of commands and the fault record, BLOCK_RESET establishes
or keeps it, and every completed command keeps it. -/
theorem step_keeps {P : State → Prop} (hport : ∀ {s : State} (port : List Command), P s → P { s with port := port })
    (hreset : ∀ {s : State}, P s → P (blockReset s)) (hfault : ∀ {s : State} (r : Raise), P s → P (takeFault r s))
    (hcount : ∀ {s : State} (n : BitVec 64), P s → P { s with cmdCount := n })
    (hdone : ∀ {s u : State}, P s → Completes s u → P u) {s t : State} (h0 : P s) (h : step s = .next t) : P t := by
  obtain ⟨_, rfl⟩ | ⟨c, rest, _, k⟩ := step_cases h
  · exact h0
  cases k with
  | reset => exact hreset (hport rest h0)
  | refused => exact hport rest h0
  | faulted r => exact hfault r (hport rest h0)
  | completed k => exact hcount _ (hdone (hport rest h0) k)

/-! ## O8, O26 -/

/-- Settles O8: every instruction goes through the command shell, and no rule sets the count or the fault record itself. -/
theorem everyCommandAnswersAndCounts : Obligations.EveryCommandAnswersAndCounts := by
  intro i s
  by_cases hi : i = .blockReset
  · subst hi; exact ⟨_, rfl, fun _ h => absurd rfl h⟩
  obtain ⟨body, he, hb⟩ := exec_isCommand i s hi
  obtain ⟨t, ht⟩ := runCommand_next body s
  refine ⟨t, he.trans ht, fun hf _ => ?_⟩
  obtain ⟨⟨r, hr⟩, _⟩ | ⟨_, u, hu, rfl⟩ | ⟨_, r, _, rfl⟩ := runCommand_cases ht
  · rw [hf] at hr; cases hr
  · exact ⟨rfl, .inl ((completes_sameShell (hb u hu)).fault.trans hf)⟩
  · exact ⟨rfl, .inr ⟨r.code, r.info, rfl⟩⟩

/-- Settles O26: taking the command drops the head of the port, and whatever the command then does keeps the shell. -/
theorem paramsAndPortsKept : Obligations.ParamsAndPortsKept := by
  intro s t h
  have self {α : Type} {l : List α} : ∃ l', l = l ++ l' := ⟨[], (List.append_nil l).symm⟩
  obtain ⟨hp, rfl⟩ | ⟨c, rest, hp, k⟩ := step_cases h
  · exact ⟨rfl, self, fun _ => self, by rw [hp]; rfl⟩
  rw [hp]
  cases k with
  | reset => exact ⟨rfl, self, fun _ => self, rfl⟩
  | refused => exact ⟨rfl, self, fun _ => self, rfl⟩
  | faulted r => exact ⟨rfl, self, fun _ => self, rfl⟩
  | completed k =>
    obtain ⟨params, port, _, _, pcmOut, fmOut⟩ := completes_sameShell k
    exact ⟨params, pcmOut, fmOut, port⟩

end Sys2Proof.Machine
end

section
/-! PROOFS. The mix stage: a command changes it by deltas, or by one rule of the BUF_* commands; either way the three offsets stay
equal and the samples within the capacity (spec 10_state.md R35, 40_delta_buffer.md R217). -/

namespace Sys2Proof.Machine

/-! ## Register rules change the mix stage by deltas only -/

/-- The stereo port, 43_psg.md R296. -/
theorem writeStereo_adds {p : Params} {opc : Byte} {t : Int} {d : Byte} {g g' : Psg} {m m' : Mix}
    (h : Psg.writeStereo p opc t d g m = .ok (g', m')) : Adds p m m' := by
  obtain ⟨⟨o0, m0⟩, h0, h⟩ := res_bind_ok.1 h
  obtain ⟨⟨o1, m1⟩, h1, h⟩ := res_bind_ok.1 h
  obtain ⟨⟨o2, m2⟩, h2, h⟩ := res_bind_ok.1 h
  obtain ⟨⟨o3, m3⟩, h3, h⟩ := res_bind_ok.1 h
  cases h
  exact adds_trans (setRoute_ok h0).1 (adds_trans (setRoute_ok h1).1 (adds_trans (setRoute_ok h2).1 (setRoute_ok h3).1))

/-- A PSG register rule, R294 to R296. -/
theorem psgWriteRule_adds {p : Params} {opc : Byte} {t : Int} {addr data : Byte} {rule : Psg → Mix → Res (Psg × Mix × Bool)}
    {g g' : Psg} {m m' : Mix} {b : Bool} (hr : psgWriteRule p opc t addr data = some rule) (h : rule g m = .ok (g', m', b)) :
    Adds p m m' := by
  unfold psgWriteRule at hr
  split at hr
  · split at hr <;> cases hr <;> cases h <;> exact .refl _
  · cases hr
    obtain ⟨⟨g1, m1⟩, h1, h⟩ := res_bind_ok.1 h
    cases h
    exact writeStereo_adds h1
  · cases hr

/-- A step of an oscillator protocol changes the mix stage by deltas only. -/
def OscStepAdds (p : Params) (f : Osc → Mix → Res (Osc × Mix)) : Prop :=
  ∀ {o o' : Osc} {m m' : Mix}, f o m = .ok (o', m') → Adds p m m'

/-- A protocol over the four oscillators of the HH group changes their common fields, and the mix stage by deltas only. -/
theorem mapOscs_ok {p : Params} {f0 f1 f2 f3 : Osc → Mix → Res (Osc × Mix)} {h h' : Hh} {m m' : Mix}
    (a0 : OscStepAdds p f0) (a1 : OscStepAdds p f1) (a2 : OscStepAdds p f2) (a3 : OscStepAdds p f3)
    (k : Hh.mapOscs f0 f1 f2 f3 h m = .ok (h', m')) :
    Adds p m m' ∧ ∃ o0 o1 o2 o3, h' = { h with
      sq1 := { h.sq1 with osc := o0 }
      sq2 := { h.sq2 with osc := o1 }
      wave := { h.wave with osc := o2 }
      noise := { h.noise with osc := o3 } } := by
  obtain ⟨⟨o0, m0⟩, k0, k⟩ := res_bind_ok.1 k
  obtain ⟨⟨o1, m1⟩, k1, k⟩ := res_bind_ok.1 k
  obtain ⟨⟨o2, m2⟩, k2, k⟩ := res_bind_ok.1 k
  obtain ⟨⟨o3, m3⟩, k3, k⟩ := res_bind_ok.1 k
  cases k
  exact ⟨adds_trans (a0 k0) (adds_trans (a1 k1) (adds_trans (a2 k2) (a3 k3))), o0, o1, o2, o3, rfl⟩

end Sys2Proof.Machine
end

section
/-! PROOFS. The handheld group: the counters of its oscillators stay in their ranges (spec 10_state.md R40 to R42) over runs, frame
steps and register rules, and its register rules change the mix stage by deltas only. -/

namespace Sys2Proof.Machine

/-! ## Gates, envelopes, squares -/

/-- A length clock does not raise a length counter, 44_hh_square.md R321. -/
theorem clockLength_le {g : Gate} {n : Nat} (r : Byte) (h : g.lengthCtr ≤ n) : (g.clockLength r).lengthCtr ≤ n := by
  unfold Gate.clockLength
  split
  · exact (Nat.sub_le _ _).trans h
  · exact h

@[simp] theorem dacCheck_lengthCtr (b : Bool) (g : Gate) : (g.dacCheck b).lengthCtr = g.lengthCtr := by
  cases b <;> rfl

/-- A length counter within a bound on both branches. -/
theorem lengthCtr_ite_le {c : Prop} [Decidable c] {g g' : Gate} {n : Nat} (h : g.lengthCtr ≤ n) (h' : g'.lengthCtr ≤ n) :
    (if c then g else g').lengthCtr ≤ n := by
  split
  · exact h
  · exact h'

/-- A write of NRx4 keeps a length counter within its maximum, R331. -/
theorem writeTrig_le {p : Params} {ph : BitVec 3} {maxLen : Nat} {data old : Byte} {g : Gate} (h : g.lengthCtr ≤ maxLen) :
    (g.writeTrig p ph maxLen data old).lengthCtr ≤ maxLen := by
  unfold Gate.writeTrig
  extract_lets quirk clocked triggered
  have hc : clocked.lengthCtr ≤ maxLen := lengthCtr_ite_le ((Nat.sub_le _ _).trans h) h
  have ht : triggered.lengthCtr ≤ maxLen := by
    refine lengthCtr_ite_le ?_ hc
    dsimp only
    split
    · split
      · exact Nat.sub_le _ _
      · exact le_refl _
    · exact hc
  exact lengthCtr_ite_le ht ht

/-- An envelope reload sets the delay to a period, R323. -/
theorem reload_delay_le (e : Env) : e.reload.delay ≤ 8 := by
  unfold Env.reload
  dsimp only
  have := e.period.isLt
  split <;> omega

/-- An envelope clock reloads the delay or does not raise it, R324. -/
theorem clock_delay_le {e : Env} (h : e.delay ≤ 9) : e.clock.delay ≤ 9 := by
  unfold Env.clock
  split
  · split
    · have hr : e.reload.delay ≤ 9 := (reload_delay_le e).trans (by decide)
      repeat' split
      all_goals exact hr
    · exact (Nat.sub_le _ _).trans h
  · exact h

/-- A trigger sets the delay to a period, or one more, R325. -/
theorem envStart_delay_le (ph : BitVec 3) (d : Byte) : (envStart ph d).delay ≤ 9 := by
  unfold envStart
  dsimp only
  split
  · exact Nat.succ_le_succ (reload_delay_le _)
  · exact (reload_delay_le _).trans (by decide)

/-- The counters of a square are in their ranges, 10_state.md R40. -/
def Square.rangesOk (q : Square) : Prop := q.gate.lengthCtr ≤ 64 ∧ q.env.delay ≤ 9

/-- NRx4 of a square keeps its counters in range, R335. -/
theorem square_writeNrx4_ranges {p : Params} {ph : BitVec 3} {nrx2 data old : Byte} {ticks : Nat} {q : Square}
    (h : q.rangesOk) : (q.writeNrx4 p ph nrx2 data old ticks).rangesOk := by
  unfold Square.writeNrx4
  dsimp only
  split
  · exact ⟨(dacCheck_lengthCtr _ _).trans_le (writeTrig_le h.1), envStart_delay_le _ _⟩
  · exact ⟨writeTrig_le h.1, h.2⟩

/-- A 6-bit length, R332, R383. -/
theorem length64_le (d : Byte) : 64 - (d.extractLsb' 0 6).toNat ≤ 64 := Nat.sub_le _ _

/-! ## The sweep -/

/-- A sweep reload sets the delay to a period, R326. -/
theorem reloadSweep_delay_le (h : Hh) : h.reloadSweep.sweep.delay ≤ 8 := by
  have := h.sweepPeriod.isLt
  unfold Hh.reloadSweep
  dsimp only
  split <;> omega

/-- The frequency calculation keeps the sweep delay, R326. -/
@[simp] theorem calcSweep_delay (u : Bool) (h : Hh) : (h.calcSweep u).sweep.delay = h.sweep.delay := by
  unfold Hh.calcSweep
  dsimp only
  split
  · rfl
  · split <;> rfl

/-- Where the counters of one group are those of another but for a smaller sweep delay in range, they are in range. -/
theorem hh_ranges_of_frame {h h' : Hh} (sq1Len : h'.sq1.gate.lengthCtr = h.sq1.gate.lengthCtr) (sq1Env : h'.sq1.env = h.sq1.env)
    (sq2 : h'.sq2 = h.sq2) (wave : h'.wave = h.wave) (noise : h'.noise = h.noise) (delay : h'.sweep.delay ≤ 8)
    (hr : h.rangesOk) : h'.rangesOk := by
  obtain ⟨r1, r2, _, r4⟩ := hr
  unfold Hh.rangesOk
  rw [sq1Len, sq1Env, sq2, wave, noise]
  exact ⟨r1, r2, delay, r4⟩

/-- The frequency calculation keeps the counters. -/
theorem calcSweep_ranges (u : Bool) {h : Hh} (hr : h.rangesOk) : (h.calcSweep u).rangesOk := by
  obtain ⟨_, _, _, _, _, _, sq2, wave, noise, sq1Env, _, sq1Len⟩ := calcSweep_frame u h
  exact hh_ranges_of_frame sq1Len sq1Env sq2 wave noise ((calcSweep_delay u h).trans_le hr.2.2.1) hr

/-- A reload keeps the counters in range. -/
theorem reloadSweep_ranges {h : Hh} (hr : h.rangesOk) : h.reloadSweep.rangesOk :=
  hh_ranges_of_frame (h := h) rfl rfl rfl rfl rfl (reloadSweep_delay_le h) hr

/-- The sweep clock, R327. -/
theorem clockSweep_ranges {h : Hh} (hr : h.rangesOk) : h.clockSweep.rangesOk := by
  unfold Hh.clockSweep
  dsimp only
  split
  · split
    · exact calcSweep_ranges false (calcSweep_ranges true (reloadSweep_ranges hr))
    · exact reloadSweep_ranges hr
  · exact hh_ranges_of_frame (h := h) rfl rfl rfl rfl rfl ((Nat.sub_le _ _).trans hr.2.2.1) hr

/-- The sweep start of a trigger, R335. -/
theorem sweepStart_ranges {h : Hh} (hr : h.rangesOk) : h.sweepStart.rangesOk := by
  have reloaded := reloadSweep_ranges (h := { h with sweep := { h.sweep with freq := h.freq baseSq1, neg := false } }) hr
  unfold Hh.sweepStart
  dsimp only
  split
  · exact calcSweep_ranges false reloaded
  · exact reloaded

/-! ## Frame steps and runs -/

/-- The length clocks, R320. -/
theorem clockLengths_ranges {h : Hh} (hr : h.rangesOk) : h.clockLengths.rangesOk := by
  obtain ⟨⟨l1, e1⟩, ⟨l2, e2⟩, sw, lw, ln, en⟩ := hr
  exact ⟨⟨clockLength_le _ l1, e1⟩, ⟨clockLength_le _ l2, e2⟩, sw, clockLength_le _ lw, clockLength_le _ ln, en⟩

/-- The envelope clocks, R320. -/
theorem clockEnvs_ranges {h : Hh} (hr : h.rangesOk) : h.clockEnvs.rangesOk := by
  obtain ⟨⟨l1, e1⟩, ⟨l2, e2⟩, sw, lw, ln, en⟩ := hr
  exact ⟨⟨l1, clock_delay_le e1⟩, ⟨l2, clock_delay_le e2⟩, sw, lw, ln, clock_delay_le en⟩

/-- A unit clock that is due or not keeps the counters in range where the clock does. -/
theorem clockIf_ranges {c : Prop} [Decidable c] {f : Hh → Hh} (hf : ∀ {h : Hh}, h.rangesOk → (f h).rangesOk) {h : Hh}
    (hr : h.rangesOk) : (if c then f h else h).rangesOk := by
  split
  · exact hf hr
  · exact hr

/-- A frame step, R320. -/
theorem hhFrameStep_ranges {h : Hh} (hr : h.rangesOk) : h.frameStep.rangesOk :=
  clockIf_ranges clockEnvs_ranges (clockIf_ranges clockLengths_ranges
    (clockIf_ranges clockSweep_ranges (h := { h with framePhase := h.framePhase + 1 }) hr))

/-- A run of the oscillators between two frame steps keeps the counters. -/
theorem hhRunAll_ranges {p : Params} {opc : Byte} {start stop : Int} {h h' : Hh} {m m' : Mix} (hr : h.rangesOk)
    (k : Hh.runAll p opc start stop h m = .ok (h', m')) : h'.rangesOk := by
  obtain ⟨_, _, _, _, _, _, sw, ⟨g1, e1, _⟩, ⟨g2, e2, _⟩, ⟨gw, _⟩, ⟨gn, en, _⟩, _⟩ := hhRunAll_ok k
  unfold Hh.rangesOk
  rw [sw, g1, e1, g2, e2, gw, gn, en]
  exact hr

/-- A run of the group, 42_osc_common.md R260. -/
theorem hhRunGroup_ranges {p : Params} {opc : Byte} {t : Int} {n n' : Nat} {h h' : Hh} {m m' : Mix} (hr : h.rangesOk)
    (k : Hh.runGroup p opc t n h m = .ok (h', n', m')) : h'.rangesOk := by
  obtain ⟨_, _, k⟩ := res_bind_ok.1 k
  obtain ⟨⟨g, next, n1, m1⟩, k1, k⟩ := res_bind_ok.1 k
  cases k
  exact (runFrames_induct (fun (g : Hh) (_ : Mix) => g.rangesOk) hhRunAll_ranges hhFrameStep_ranges hr k1).1

/-! ## Register rules -/

/-- A register rule changes the mix stage by deltas only and keeps the counters in range. -/
def HhRuleOk (p : Params) (rule : Hh → Mix → Res (Hh × Mix × Bool)) : Prop :=
  ∀ (h h' : Hh) (m m' : Mix) (b : Bool), rule h m = .ok (h', m', b) → Adds p m m' ∧ (h.rangesOk → h'.rangesOk)

/-- A rule that changes only the group. -/
theorem hhPlain_ruleOk {p : Params} {f : Hh → Hh} (hf : ∀ {h : Hh}, h.rangesOk → (f h).rangesOk) : HhRuleOk p (hhPlain f) := by
  intro h h' m m' b k
  cases k
  exact ⟨.refl _, hf⟩

/-- NR10, R330. -/
theorem hhNr10_ruleOk (p : Params) (data old : Byte) : HhRuleOk p (hhNr10 data old) :=
  hhPlain_ruleOk fun {h} hr => by split <;> exact hr

/-- NR14, R335. -/
theorem hhNr14_ruleOk (p : Params) (data old : Byte) : HhRuleOk p (hhNr14 p data old) := by
  intro h h' m m' b k
  cases k
  refine ⟨.refl _, fun ⟨r1, r2⟩ => ?_⟩
  have written : Hh.rangesOk
      { h with sq1 := h.sq1.writeNrx4 p h.framePhase (h.reg 0x12) data old (h.squareTicks baseSq1) } :=
    ⟨square_writeNrx4_ranges r1, r2⟩
  split
  · exact sweepStart_ranges written
  · exact written

/-- NR24, R335. -/
theorem hhNr24_ruleOk (p : Params) (data old : Byte) : HhRuleOk p (hhNr24 p data old) := by
  intro h h' m m' b k
  cases k
  exact ⟨.refl _, fun ⟨r1, r2, r3⟩ => ⟨r1, square_writeNrx4_ranges r2, r3⟩⟩

/-- NR34, 45_hh_wave_noise_master.md R377. -/
theorem hhNr34_ruleOk (p : Params) (data old : Byte) : HhRuleOk p (hhNr34 p data old) := by
  intro h h' m m' b k
  cases k
  refine ⟨.refl _, fun ⟨r1, r2, sw, lw, rn⟩ => ⟨r1, r2, sw, ?_, rn⟩⟩
  have written := writeTrig_le (p := p) (ph := h.framePhase) (data := data) (old := old) lw
  dsimp only
  split
  · exact (dacCheck_lengthCtr _ _).trans_le written
  · exact written

/-- NR44, R386. -/
theorem hhNr44_ruleOk (p : Params) (data old : Byte) : HhRuleOk p (hhNr44 p data old) := by
  intro h h' m m' b k
  cases k
  refine ⟨.refl _, fun ⟨r1, r2, sw, lw, ln, en⟩ => ⟨r1, r2, sw, lw, ?_⟩⟩
  have written := writeTrig_le (p := p) (ph := h.framePhase) (data := data) (old := old) ln
  dsimp only
  split
  · exact ⟨(dacCheck_lengthCtr _ _).trans_le written, envStart_delay_le _ _⟩
  · exact ⟨written, en⟩

/-- NR50, R398. -/
theorem hhNr50_ruleOk (p : Params) (opc : Byte) (t : Int) (data old : Byte) : HhRuleOk p (hhNr50 p opc t data old) := by
  intro h h' m m' b k
  obtain ⟨⟨h1, m1⟩, k1, k⟩ := res_bind_ok.1 k
  cases k
  dsimp only at k1
  split at k1
  · cases k1; exact ⟨.refl _, id⟩
  · obtain ⟨ha, o0, o1, o2, o3, rfl⟩ := mapOscs_ok (fun q => (changeRoute_ok q).1) (fun q => (changeRoute_ok q).1)
      (fun q => (changeRoute_ok q).1) (fun q => (changeRoute_ok q).1) k1
    exact ⟨ha, id⟩

/-- NR51, R390. -/
theorem hhNr51_ruleOk (p : Params) (opc : Byte) (t : Int) (data old : Byte) : HhRuleOk p (hhNr51 p opc t data old) := by
  intro h h' m m' b k
  obtain ⟨⟨h1, m1⟩, k1, k⟩ := res_bind_ok.1 k
  cases k
  obtain ⟨ha, o0, o1, o2, o3, rfl⟩ := mapOscs_ok (fun q => (setRoute_ok q).1) (fun q => (setRoute_ok q).1)
    (fun q => (setRoute_ok q).1) (fun q => (setRoute_ok q).1) k1
  exact ⟨ha, id⟩

/-- The rules of 0x10..0x25, in the order of `hhRule`; the length registers are R332, R374, R383, and the DAC registers R333,
R373, R384. -/
theorem hhRule_ruleOk (p : Params) (opc : Byte) (t : Int) (a : Nat) (data old : Byte) :
    HhRuleOk p (hhRule p opc t a data old) := by
  unfold hhRule
  split
  · exact hhNr10_ruleOk p data old
  · exact hhPlain_ruleOk fun ⟨⟨_, e1⟩, r⟩ => ⟨⟨length64_le data, e1⟩, r⟩
  · exact hhPlain_ruleOk fun ⟨⟨l1, e1⟩, r⟩ => ⟨⟨(dacCheck_lengthCtr _ _).trans_le l1, e1⟩, r⟩
  · exact hhPlain_ruleOk id
  · exact hhNr14_ruleOk p data old
  · exact hhPlain_ruleOk fun ⟨r1, ⟨_, e2⟩, r⟩ => ⟨r1, ⟨length64_le data, e2⟩, r⟩
  · exact hhPlain_ruleOk fun ⟨r1, ⟨l2, e2⟩, r⟩ => ⟨r1, ⟨(dacCheck_lengthCtr _ _).trans_le l2, e2⟩, r⟩
  · exact hhPlain_ruleOk id
  · exact hhNr24_ruleOk p data old
  · exact hhPlain_ruleOk fun ⟨r1, r2, sw, lw, r⟩ => ⟨r1, r2, sw, (dacCheck_lengthCtr _ _).trans_le lw, r⟩
  · exact hhPlain_ruleOk fun ⟨r1, r2, sw, _, r⟩ => ⟨r1, r2, sw, Nat.sub_le _ _, r⟩
  · exact hhPlain_ruleOk id
  · exact hhPlain_ruleOk id
  · exact hhNr34_ruleOk p data old
  · exact hhPlain_ruleOk fun ⟨r1, r2, sw, lw, _, en⟩ => ⟨r1, r2, sw, lw, length64_le data, en⟩
  · exact hhPlain_ruleOk fun ⟨r1, r2, sw, lw, ln, en⟩ => ⟨r1, r2, sw, lw, (dacCheck_lengthCtr _ _).trans_le ln, en⟩
  · exact hhPlain_ruleOk id
  · exact hhNr44_ruleOk p data old
  · exact hhNr50_ruleOk p opc t data old
  · exact hhNr51_ruleOk p opc t data old
  · exact hhPlain_ruleOk id

/-- The clearing loop of power off, R391. -/
theorem hhClear_ok {p : Params} {opc : Byte} {t : Int} {n a : Nat} {h h' : Hh} {m m' : Mix}
    (k : hhClear p opc t n a h m = .ok (h', m')) : Adds p m m' ∧ (h.rangesOk → h'.rangesOk) := by
  induction n generalizing a h m with
  | zero => cases k; exact ⟨.refl _, id⟩
  | succ n ih =>
    obtain ⟨⟨h1, m1, b⟩, k1, k2⟩ := res_bind_ok.1 k
    obtain ⟨ha, hr⟩ := hhRule_ruleOk p opc t a 0 (h.reg a) _ _ _ _ _ k1
    obtain ⟨ja, jr⟩ := ih k2
    exact ⟨adds_trans ha ja, jr ∘ hr⟩

/-- NR52 with bit 7 clear, R391, R392. -/
theorem hhPowerOff_ruleOk (p : Params) (opc : Byte) (t : Int) : HhRuleOk p (noRestart (hhPowerOff p opc t)) := by
  intro h h' m m' b k
  obtain ⟨⟨h1, m1⟩, k1, k⟩ := res_bind_ok.1 k
  cases k
  unfold hhPowerOff at k1
  split at k1
  · obtain ⟨⟨h2, m2⟩, k2, k1⟩ := res_bind_ok.1 k1
    cases k1
    exact hhClear_ok (h' := h2) k2
  · cases k1; exact ⟨.refl _, id⟩

/-- A write to a register 0x10..0x25, R394. -/
theorem hhGated_ruleOk {p : Params} {a : Nat} {data : Byte} {rule : HhRule} (hr : ∀ old, HhRuleOk p (rule data old)) :
    HhRuleOk p (hhGated a data rule) := by
  intro h h' m m' b k
  unfold hhGated at k
  split at k
  · exact hr _ (h.setReg a data) _ _ _ _ k
  · cases k; exact ⟨.refl _, id⟩

/-- NR52 with bit 7 set, R392. -/
theorem hhPowerOn_ranges {h : Hh} (hr : h.rangesOk) : (hhPowerOn h).rangesOk := by
  unfold hhPowerOn
  dsimp only
  split <;> exact hr

/-- `Write_HH`, over the whole space. -/
theorem hhWriteRule_ruleOk {p : Params} {opc : Byte} {t : Int} {addr data : Byte} {rule : Hh → Mix → Res (Hh × Mix × Bool)}
    (hr : hhWriteRule p opc t addr data = some rule) : HhRuleOk p rule := by
  have ignored : HhRuleOk p hhIgnore := fun _ _ _ _ _ k => by cases k; exact ⟨.refl _, id⟩
  unfold hhWriteRule at hr
  dsimp only at hr
  split at hr
  · cases hr
  split at hr
  · cases hr; exact ignored
  split at hr
  · cases hr; exact hhGated_ruleOk fun old => hhRule_ruleOk p opc t _ data old
  split at hr
  · split at hr <;> cases hr
    · exact hhPlain_ruleOk hhPowerOn_ranges
    · exact hhPowerOff_ruleOk p opc t
  split at hr <;> cases hr
  · exact ignored
  · exact hhPlain_ruleOk id

end Sys2Proof.Machine
end

section
/-! PROOFS. The buffers stay in lock-step (spec 10_state.md R35, 40_delta_buffer.md R217). -/

namespace Sys2Proof.Machine

/-- A rule with requirements that completes met each of them. -/
theorem require_ok {ok : Bool} {code : FaultCode} {info : Word} {u : Unit} (h : require ok code info = .ok u) : ok = true := by
  cases ok with
  | true => rfl
  | false => cases h

/-- A run of any group changes the mix stage by deltas only. -/
theorem runGroup_adds {opc : Byte} {g : GroupRef} {t : Int} {s r : State} (h : runGroup opc g t s = .ok r) :
    Adds s.params s.mix r.mix := by
  obtain ⟨_, _, _, _, _, _, _, _, adds⟩ := runGroup_frame h
  exact adds

/-- How a completed command changes the mix stage: by deltas only, by one rule of the BUF_* commands, or by a stereo read. -/
theorem completes_mix {s t : State} (h : Completes s t) :
    Adds s.params s.mix t.mix ∨ (∃ rule v, MixCommand s.params rule ∧ rule s.mix = .ok (t.mix, v)) ∨
    ∃ count bytes v, s.mix.readStereo count = .ok (bytes, t.mix, v) := by
  cases h with
  | nop => exact .inl (.refl _)
  | onMix hr h => exact .inr (.inl ⟨_, _, hr, h⟩)
  | readStereo h => exact .inr (.inr ⟨_, _, _, h⟩)
  | writePsg hr hrun h => exact .inl (adds_trans (runGroup_adds hrun) (psgWriteRule_adds hr h))
  | writeHh hr hrun h => exact .inl (adds_trans (runGroup_adds hrun) (hhWriteRule_ruleOk hr _ _ _ _ _ h).1)
  | writeTri hr hrun h => have ran := runGroup_adds hrun; exact .inl ran
  | run v hrun => have ran := runGroup_adds hrun; exact .inl ran
  | @endFrame _ g _ _ hrun => have ran := runGroup_adds hrun; cases g <;> exact .inl ran
  | resetGroup g => cases g <;> exact .inl (.refl _)
  | writeFm _ => exact .inl (.refl _)
  | fmRender i n => exact .inl (.refl _)
  | fmReset i => exact .inl (.refl _)
  | fmSetRate i clock rate => exact .inl (.refl _)

/-! ## Lock-step -/

/-- Lock-step on the three DSBs by name. -/
theorem lockStep_iff {m : Mix} : m.lockStep ↔
    m.left.offset = m.center.offset ∧ m.right.offset = m.center.offset ∧ m.available ≤ m.cap.toNat := by
  constructor
  · rintro ⟨h, hc⟩; exact ⟨h .left, h .right, hc⟩
  · rintro ⟨hl, hr, hc⟩
    refine ⟨fun u => ?_, hc⟩
    cases u with
    | center => rfl
    | left => exact hl
    | right => exact hr

/-- Deltas keep the offsets and the capacity. -/
theorem sameFrame_lockStep {m m' : Mix} (h : m.sameFrame m') (k : m.lockStep) : m'.lockStep := by
  obtain ⟨_, _, _, cap, offset, _⟩ := h
  obtain ⟨equal, avail⟩ := k
  have common : m'.offset = m.offset := offset .center
  refine ⟨fun u => by rw [offset u, equal u, common], ?_⟩
  unfold Mix.available
  rw [common, cap]
  exact avail

/-- With every offset 0 there are no samples. -/
theorem lockStep_of_zero {m : Mix} (hc : m.center.offset = 0) (hl : m.left.offset = 0) (hr : m.right.offset = 0) :
    m.lockStep := by
  refine lockStep_iff.2 ⟨hl.trans hc.symm, hr.trans hc.symm, ?_⟩
  unfold Mix.available Mix.offset
  rw [hc, Nat.zero_div]
  exact Nat.zero_le _

/-- Removing samples moves the offsets alike and leaves no more samples, R215. -/
theorem removeSamples_lockStep (n : Nat) {m : Mix} (h : m.lockStep) : (m.removeSamples n).lockStep := by
  obtain ⟨hl, hr, hc⟩ := lockStep_iff.1 h
  refine lockStep_iff.2 ⟨?_, ?_, (Nat.div_le_div_right (Nat.sub_le _ _)).trans hc⟩
  · simp only [removeSamples_left, removeSamples_center, hl]
  · simp only [removeSamples_right, removeSamples_center, hr]

/-- Storing integrators keeps the offsets. -/
theorem setAccums_lockStep (a : Accums) {m : Mix} (h : m.lockStep) : (m.setAccums a).lockStep := by
  obtain ⟨hl, hr, hc⟩ := lockStep_iff.1 h
  exact lockStep_iff.2 ⟨hl, hr, hc⟩

/-- Each rule of the BUF_* commands keeps lock-step; BUF_END_FRAME is refused past the capacity, R210. -/
theorem mixCommand_lockStep {p : Params} {rule : Mix → Res (Mix × Word)} {m m' : Mix} {v : Word} (hr : MixCommand p rule)
    (h : rule m = .ok (m', v)) (k : m.lockStep) : m'.lockStep := by
  cases hr with
  | setSampleRate rate msec =>
    obtain ⟨_, _, h⟩ := res_bind_ok.1 h
    obtain ⟨_, _, h⟩ := res_bind_ok.1 h
    obtain ⟨_, _, h⟩ := res_bind_ok.1 h
    obtain ⟨_, _, h⟩ := res_bind_ok.1 h
    cases h
    exact lockStep_of_zero rfl rfl rfl
  | setClockRate clock =>
    obtain ⟨_, _, h⟩ := res_bind_ok.1 h
    obtain ⟨_, _, h⟩ := res_bind_ok.1 h
    obtain ⟨_, _, h⟩ := res_bind_ok.1 h
    cases h
    exact lockStep_iff.2 (lockStep_iff.1 k)
  | clear => cases h; exact lockStep_of_zero rfl rfl rfl
  | addDelta w0 sel time delta =>
    obtain ⟨u, _, h⟩ := res_bind_ok.1 h
    obtain ⟨m1, h1, h⟩ := res_bind_ok.1 h
    cases h
    exact sameFrame_lockStep (adds_sameFrame (.add (.refl _) h1)) k
  | endFrame time =>
    obtain ⟨_, _, h⟩ := res_bind_ok.1 h
    obtain ⟨_, _, h⟩ := res_bind_ok.1 h
    obtain ⟨_, fits, h⟩ := res_bind_ok.1 h
    cases h
    exact lockStep_iff.2 ⟨rfl, rfl, of_decide_eq_true (require_ok fits)⟩
  | samplesAvail => cases h; exact k
  | remove n =>
    obtain ⟨_, _, h⟩ := res_bind_ok.1 h
    cases h
    exact removeSamples_lockStep _ k

/-- A stereo read stores integrators and removes what it read, 41_stereo_mix.md R242. -/
theorem readStereo_lockStep {count v : Word} {bytes : List Byte} {m m' : Mix} (h : m.readStereo count = .ok (bytes, m', v))
    (k : m.lockStep) : m'.lockStep := by
  obtain ⟨_, _, h⟩ := res_bind_ok.1 h
  cases h
  exact removeSamples_lockStep _ (setAccums_lockStep _ k)

/-- A completed command keeps lock-step. -/
theorem completes_lockStep {s t : State} (k : s.mix.lockStep) (h : Completes s t) : t.mix.lockStep := by
  obtain h | ⟨rule, v, hr, h⟩ | ⟨count, bytes, v, h⟩ := completes_mix h
  · exact sameFrame_lockStep (adds_sameFrame h) k
  · exact mixCommand_lockStep hr h k
  · exact readStereo_lockStep h k

/-- Settles O24: lock-step is an invariant that every command keeps; BLOCK_RESET sets every offset to 0. -/
theorem buffersStayInLockStep : Obligations.BuffersStayInLockStep := fun _ _ =>
  step_keeps (P := fun s => s.mix.lockStep) (hport := fun _ k => k) (hfault := fun _ k => k) (hcount := fun _ k => k)
    (hreset := fun _ => lockStep_of_zero rfl rfl rfl) (hdone := completes_lockStep)

end Sys2Proof.Machine
end

section
/-! PROOFS. Every counter stays in its range (spec 10_state.md R38 to R46): the PSG latch, the triangle's counters, and the fields of
an FM unit; those of the handheld group stand with its register rules. -/

namespace Sys2Proof.Machine

/-! ## PSG -/

/-- The latch holds 0 or a latch byte, 10_state.md R38. -/
def Psg.latchOk (g : Psg) : Prop := g.latch = 0 ∨ bit g.latch 7 = true

/-- An attenuation, R294. -/
@[simp] theorem setAtten_latch (g : Psg) (ch : BitVec 2) (v : BitVec 4) : (g.setAtten ch v).latch = g.latch := by
  unfold Psg.setAtten; split <;> rfl

/-- A period, R294. -/
@[simp] theorem mapPeriod_latch (g : Psg) (ch : BitVec 2) (f : BitVec 10 → BitVec 10) : (g.mapPeriod ch f).latch = g.latch := by
  unfold Psg.mapPeriod; split <;> rfl

/-- The latch form stores its own byte, R294. -/
theorem writeLatch_latch (p : Params) (ch : BitVec 2) (ty : BitVec 1) (data : BitVec 4) (g : Psg) :
    (g.writeLatch p ch ty data).1.latch = 1#1 ++ ch ++ ty ++ data := by
  unfold Psg.writeLatch
  dsimp only
  split
  · exact setAtten_latch _ _ _
  · split
    · rfl
    · exact mapPeriod_latch _ _ _

/-- The data form keeps the latch, R295. -/
theorem writeData_latch (p : Params) (d : BitVec 7) (g : Psg) : (g.writeData p d).1.latch = g.latch := by
  unfold Psg.writeData
  dsimp only
  split
  · exact setAtten_latch _ _ _
  · split
    · rfl
    · exact mapPeriod_latch _ _ _

/-- The stereo port keeps the latch, R296. -/
theorem writeStereo_latch {p : Params} {opc : Byte} {t : Int} {d : Byte} {g g' : Psg} {m m' : Mix}
    (h : Psg.writeStereo p opc t d g m = .ok (g', m')) : g'.latch = g.latch := by
  obtain ⟨_, _, h⟩ := res_bind_ok.1 h
  obtain ⟨_, _, h⟩ := res_bind_ok.1 h
  obtain ⟨_, _, h⟩ := res_bind_ok.1 h
  obtain ⟨_, _, h⟩ := res_bind_ok.1 h
  cases h
  rfl

/-- A latch byte has its bit 7 set. -/
theorem latchByte_bit7 (ch : BitVec 2) (ty : BitVec 1) (data : BitVec 4) : bit (1#1 ++ ch ++ ty ++ data) 7 = true := by
  revert ch ty data; decide

/-- A register rule leaves 0 or a latch byte in the latch. -/
theorem psgWriteRule_latchOk {p : Params} {opc : Byte} {t : Int} {addr data : Byte}
    {rule : Psg → Mix → Res (Psg × Mix × Bool)} {g g' : Psg} {m m' : Mix} {b : Bool}
    (hr : psgWriteRule p opc t addr data = some rule) (h : rule g m = .ok (g', m', b)) (k : g.latchOk) : g'.latchOk := by
  unfold psgWriteRule at hr
  split at hr
  · split at hr <;> cases hr <;> cases h
    · right; rw [writeLatch_latch]; exact latchByte_bit7 _ _ _
    · unfold Psg.latchOk; rw [writeData_latch]; exact k
  · cases hr
    obtain ⟨⟨g1, m1⟩, h1, h⟩ := res_bind_ok.1 h
    cases h
    unfold Psg.latchOk
    rw [writeStereo_latch h1]
    exact k
  · cases hr

/-! ## TRI -/

/-- The triangle's counters are in their ranges, 10_state.md R43. -/
def Tri.rangesOk (g : Tri) : Prop := g.lengthCtr ≤ 254 ∧ g.linearCtr ≤ 127

/-- A frame step loads the linear counter with 7 bits and raises no counter, 46_triangle.md R417. -/
theorem stepFrame_ranges {g : Tri} (h : g.rangesOk) : g.stepFrame.rangesOk := by
  obtain ⟨hl, hc⟩ := h
  have := (g.r4008.extractLsb' 0 7).isLt
  unfold Tri.stepFrame
  refine ⟨?_, ?_⟩ <;> dsimp only <;> split <;> omega

/-- A run between two frame steps keeps the counters, R413. -/
theorem triRun_ranges {p : Params} {opc : Byte} {start stop : Int} {g g' : Tri} {m m' : Mix} (hr : g.rangesOk)
    (k : Tri.run p opc start stop g m = .ok (g', m')) : g'.rangesOk := by
  obtain ⟨_, step, osc, rfl, _⟩ := triRun_ok k
  exact hr

/-- A run of the group, 42_osc_common.md R260. -/
theorem triRunGroup_ranges {p : Params} {opc : Byte} {t : Int} {n n' : Nat} {g g' : Tri} {m m' : Mix} (hr : g.rangesOk)
    (k : Tri.runGroup p opc t n g m = .ok (g', n', m')) : g'.rangesOk := by
  obtain ⟨_, _, k⟩ := res_bind_ok.1 k
  obtain ⟨⟨g1, next, n1, m1⟩, k1, k⟩ := res_bind_ok.1 k
  cases k
  exact (runFrames_induct (fun (g : Tri) (_ : Mix) => g.rangesOk) triRun_ranges stepFrame_ranges hr k1).1

/-- An entry of a length table of entries at most 254, or 0 where there is none. -/
theorem triLen_le {l : List Nat} (h : ∀ n ∈ l, n ≤ 254) (i : Nat) : l.getD i 0 ≤ 254 := by
  rw [List.getD_eq_getElem?_getD]
  cases hi : l[i]? with
  | none => exact Nat.zero_le _
  | some n => exact h n (List.mem_of_getElem? hi)

/-- A register rule loads the length counter from the table, or clears or keeps it, R414 to R420. -/
theorem triWriteRule_ranges {p : Params} {t : Int} {addr data : Byte} {rule : TriRule} {g g' : Tri} {b : Bool}
    (hp : ∀ n ∈ p.triLen, n ≤ 254) (hr : triWriteRule p t addr data = some rule) (h : rule g = .ok (g', b))
    (k : g.rangesOk) : g'.rangesOk := by
  obtain ⟨hl, hc⟩ := k
  unfold triWriteRule at hr
  split at hr <;> cases hr
  case h_1 => cases h; exact ⟨hl, hc⟩
  case h_2 => cases h; exact ⟨hl, hc⟩
  case h_3 => cases h; exact ⟨hl, hc⟩
  case h_4 =>
    cases h
    refine ⟨?_, hc⟩
    dsimp only
    split
    · exact triLen_le hp _
    · exact hl
  case h_5 =>
    cases h
    refine ⟨?_, hc⟩
    dsimp only
    split
    · exact hl
    · exact Nat.zero_le _
  case h_6 =>
    unfold tri17 at h
    split at h
    · cases h
    · cases h; exact ⟨hl, hc⟩

/-! ## FM -/

/-- A frequency's key code is that of its F-number and block, 48_fm_operator.md R480. -/
def Freq.keyed (x : Freq) : Prop := x.kc.toNat = 4 * x.block.toNat + (fkey (x.fnum.extractLsb' 7 4)).toNat

/-- The fields of a channel that its rules keep in range or in step: the envelope levels of its operators, 10_state.md R46, and the
key codes of its frequencies, R45. -/
structure Channel.rangesOk (p : Params) (c : Channel) : Prop where
  level : ∀ k, (c.ops.get k).egLvl ≤ p.fmEnvMax
  keyed : ∀ s, (c.freqs.get s).keyed

/-- The ranges of an FM unit are those of its LFO and of its channels. -/
theorem fmRangesOk_iff {p : Params} {f : Fm} :
    f.rangesOk p ↔ (f.lfoEn = false → f.lfoCnt = 0) ∧ ∀ c, (f.chans.get c).rangesOk p :=
  ⟨fun ⟨lfo, level, keyed⟩ => ⟨lfo, fun c => ⟨level c, keyed c⟩⟩,
   fun ⟨lfo, chan⟩ => ⟨lfo, fun c => (chan c).level, fun c => (chan c).keyed⟩⟩

/-- The key code of a frequency that is written, R448, R480. -/
theorem freqOf_keyed (h d : Byte) : (freqOf h d).keyed := by
  unfold Freq.keyed freqOf keyCode
  dsimp only
  rw [BitVec.toNat_append, Nat.shiftLeft_eq, Nat.mul_comm, ← Nat.two_pow_add_eq_or_of_lt (fkey _).isLt]

/-- Reading a frequency after one is written. -/
theorem freqs_get_set {α : Type} (v : Freqs α) (i j : BitVec 2) (x : α) :
    (v.set j x).get i = if i = j then x else v.get i := by
  have four : ∀ k : BitVec 2, k = 0#2 ∨ k = 1#2 ∨ k = 2#2 ∨ k = 3#2 := by decide
  rcases four j with rfl | rfl | rfl | rfl <;> rcases four i with rfl | rfl | rfl | rfl <;> rfl

/-- A written frequency, and the others kept. -/
theorem freqs_set_keyed {v : Freqs Freq} (h : ∀ s, (v.get s).keyed) (j : BitVec 2) {x : Freq} (hx : x.keyed) (s : BitVec 2) :
    ((v.set j x).get s).keyed := by
  rw [freqs_get_set]
  split
  · exact hx
  · exact h s

/-- A frequency at reset, R45. -/
theorem freq_zero_keyed : (⟨0, 0, 0⟩ : Freq).keyed := by unfold Freq.keyed; decide

/-- A channel at reset, R45, R46. -/
theorem channel_reset_ranges (p : Params) : (Channel.reset p).rangesOk p where
  level k := by cases k <;> exact le_refl _
  keyed s := by unfold Freqs.get; split <;> exact freq_zero_keyed

/-- An FM unit at reset, R44, whatever its rates. -/
theorem fm_reset_ranges (p : Params) (clock rate : Word) : (Fm.reset p clock rate).rangesOk p :=
  fmRangesOk_iff.2 ⟨fun _ => rfl, fun c => by cases c <;> exact channel_reset_ranges p⟩

/-! ### Register writes -/

/-- The image does not count. -/
theorem setReg_ranges {p : Params} {f : Fm} (port : FmPort) (a d : Byte) (h : f.rangesOk p) : (f.setReg port a d).rangesOk p := by
  cases port <;> exact h

/-- A change of one channel that keeps it in range. -/
theorem mapChan_ranges {p : Params} {f : Fm} (c : ChNum) {g : Channel → Channel}
    (hg : ∀ {x : Channel}, x.rangesOk p → (g x).rangesOk p) (h : f.rangesOk p) : (f.mapChan c g).rangesOk p := by
  obtain ⟨lfo, chan⟩ := fmRangesOk_iff.1 h
  refine fmRangesOk_iff.2 ⟨lfo, fun d => ?_⟩
  unfold Fm.mapChan
  by_cases hd : d = c
  · subst hd; rw [chans_get_set_self]; exact hg (chan d)
  · rw [chans_get_set_ne _ _ hd]; exact chan d

/-- A change of the channel an address names, or of none, R432. -/
theorem mapChanOpt_ranges {p : Params} {f : Fm} (c : Option ChNum) {g : Channel → Channel}
    (hg : ∀ {x : Channel}, x.rangesOk p → (g x).rangesOk p) (h : f.rangesOk p) : (f.mapChan? c g).rangesOk p := by
  cases c with
  | none => exact h
  | some c => exact mapChan_ranges c hg h

/-- A change of one operator that keeps its level in range. -/
theorem channelMapOp_ranges {p : Params} {x : Channel} (k : OpNum) {g : Operator → Operator}
    (hg : ∀ {o : Operator}, o.egLvl ≤ p.fmEnvMax → (g o).egLvl ≤ p.fmEnvMax) (h : x.rangesOk p) : (x.mapOp k g).rangesOk p where
  level l := by
    unfold Channel.mapOp
    by_cases hl : l = k
    · subst hl; rw [ops_get_set_self]; exact hg (h.level l)
    · rw [ops_get_set_ne _ _ hl]; exact h.level l
  keyed := h.keyed

/-- An operator register that does not touch the level, R440 to R447. -/
theorem mapOp_ranges {p : Params} {f : Fm} (port : FmPort) (slot ch : BitVec 2) {g : Operator → Operator}
    (hg : ∀ o, (g o).egLvl = o.egLvl) (h : f.rangesOk p) : (f.mapOp port slot ch g).rangesOk p :=
  mapChanOpt_ranges _ (channelMapOp_ranges _ fun {o} ho => (hg o).trans_le ho) h

/-- A key bit sets the level to its maximum or keeps it, R437, R485. -/
theorem setKey_level {p : Params} (b : Bool) {o : Operator} (h : o.egLvl ≤ p.fmEnvMax) : (setKey p b o).egLvl ≤ p.fmEnvMax := by
  unfold setKey
  dsimp only
  split
  · unfold keyOn
    dsimp only
    split
    · exact le_refl _
    · exact h
  · split <;> exact h

/-- The key register, R437. -/
theorem fmKey_ranges {p : Params} {f : Fm} (d : Byte) (h : f.rangesOk p) : (fmKey p d f).rangesOk p :=
  mapChanOpt_ranges _ (fun {x} hx =>
    { level := fun k => by cases k with
        | op1 => exact setKey_level _ (hx.level .op1)
        | op2 => exact setKey_level _ (hx.level .op2)
        | op3 => exact setKey_level _ (hx.level .op3)
        | op4 => exact setKey_level _ (hx.level .op4)
      keyed := hx.keyed }) h

/-- The LFO register clears the counter where it disables it, R434. -/
theorem fmLfo_ranges {p : Params} {f : Fm} (d : Byte) (h : f.rangesOk p) : (fmLfo d f).rangesOk p := by
  obtain ⟨_, chan⟩ := fmRangesOk_iff.1 h
  refine fmRangesOk_iff.2 ⟨fun off => ?_, chan⟩
  have off' : bit d 3 = false := off
  unfold fmLfo
  rw [off']
  rfl

/-- A write of frequency `j`, R446, R448. -/
theorem setFreq_ranges {p : Params} {x : Channel} (j : BitVec 2) (hi d : Byte) (h : x.rangesOk p) :
    Channel.rangesOk p { x with freqs := x.freqs.set j (freqOf hi d) } where
  level := h.level
  keyed := freqs_set_keyed h.keyed j (freqOf_keyed hi d)

/-- The F-number register, R448. -/
theorem fmFnumLow_ranges {p : Params} {f : Fm} (port : FmPort) (ch : BitVec 2) (d : Byte) (h : f.rangesOk p) :
    (fmFnumLow port ch d f).rangesOk p :=
  mapChanOpt_ranges _ (setFreq_ranges 0 _ d) h

/-- The split-mode F-number register, R446. -/
theorem fmSplitLow_ranges {p : Params} {f : Fm} (j : BitVec 2) (d : Byte) (h : f.rangesOk p) : (fmSplitLow j d f).rangesOk p := by
  unfold fmSplitLow
  split
  · exact h
  · exact mapChan_ranges _ (setFreq_ranges (j + 1) _ d) h

/-- The global registers, R434 to R439. -/
theorem fmGlobalRule_ranges {p : Params} {f : Fm} (addr d : Byte) (h : f.rangesOk p) : (fmGlobalRule p addr d f).rangesOk p := by
  unfold fmGlobalRule
  split
  · exact fmLfo_ranges d h
  · exact h
  · exact fmKey_ranges d h
  · exact h
  · exact h
  · exact h

/-- The channel registers, R446 to R451. -/
theorem fmChannelRule_ranges {p : Params} {f : Fm} (port : FmPort) (addr d : Byte) (h : f.rangesOk p) :
    (fmChannelRule port addr d f).rangesOk p := by
  unfold fmChannelRule
  dsimp only
  split
  · exact fmFnumLow_ranges port _ d h
  · split
    · exact fmSplitLow_ranges _ d h
    · exact h
  · exact mapChanOpt_ranges _ (fun hx => ⟨hx.level, hx.keyed⟩) h
  · exact mapChanOpt_ranges _ (fun hx => ⟨hx.level, hx.keyed⟩) h
  · exact h

/-- The rule of an address, R430. -/
theorem fmRule_ranges {p : Params} {f : Fm} (port : FmPort) (addr d : Byte) (h : f.rangesOk p) :
    (fmRule p port addr d f).rangesOk p := by
  unfold fmRule
  dsimp only
  split
  · split
    · exact fmGlobalRule_ranges addr d h
    · exact h
  · exact mapOp_ranges port _ _ (fun _ => rfl) h
  · exact mapOp_ranges port _ _ (fun _ => rfl) h
  · exact mapOp_ranges port _ _ (fun _ => rfl) h
  · exact mapOp_ranges port _ _ (fun _ => rfl) h
  · exact mapOp_ranges port _ _ (fun _ => rfl) h
  · exact mapOp_ranges port _ _ (fun _ => rfl) h
  · exact mapOp_ranges port _ _ (fun _ => rfl) h
  · exact fmChannelRule_ranges port addr d h
  · exact fmChannelRule_ranges port addr d h
  · exact h

/-! ### Frames -/

/-- The attack curve never rises, 48_fm_operator.md R488. -/
theorem fmAttCurve_le (e inc : Nat) : fmAttCurve e inc ≤ e := by
  unfold fmAttCurve
  split
  · exact le_refl _
  · exact Nat.min_le_left _ _

/-- An envelope step falls in attack and is bounded by FM_ENV_MAX elsewhere, R487. -/
theorem egStep_level {p : Params} (f : Fm) (kc : BitVec 5) {o : Operator} (h : o.egLvl ≤ p.fmEnvMax) :
    (f.egStep p kc o).egLvl ≤ p.fmEnvMax := by
  unfold Fm.egStep
  dsimp only
  split
  · exact (fmAttCurve_le _ _).trans h
  · exact Nat.min_le_left _ _
  · exact Nat.min_le_left _ _
  · exact Nat.min_le_left _ _

/-- What a frame leaves of an operator, R526. -/
theorem opStep_level {p : Params} (f : Fm) (c : ChNum) (k : OpNum) {o : Operator} (h : o.egLvl ≤ p.fmEnvMax) :
    (f.opStep p c k o).egLvl ≤ p.fmEnvMax := egStep_level f _ (o := phaseStep o) h

/-- A frame keeps a channel in range, R526. -/
theorem chanStep_ranges {p : Params} (f : Fm) (c : ChNum) {x : Channel} (h : x.rangesOk p) : (f.chanStep p c x).rangesOk p where
  level k := by cases k with
    | op1 => exact opStep_level f c .op1 (h.level .op1)
    | op2 => exact opStep_level f c .op2 (h.level .op2)
    | op3 => exact opStep_level f c .op3 (h.level .op3)
    | op4 => exact opStep_level f c .op4 (h.level .op4)
  keyed := h.keyed

/-- The channels after a frame. -/
theorem frameNext_get (p : Params) (f : Fm) (c : ChNum) : (f.frameNext p).chans.get c = f.chanNext p c := by
  cases c <;> rfl

/-- A frame keeps an FM unit in range; a disabled LFO stands still, R491. -/
theorem frameNext_ranges {p : Params} {f : Fm} (h : f.rangesOk p) : (f.frameNext p).rangesOk p := by
  obtain ⟨lfo, chan⟩ := fmRangesOk_iff.1 h
  refine fmRangesOk_iff.2 ⟨fun off => ?_, fun c => ?_⟩
  · have off' : f.lfoEn = false := off
    show f.lfoNext = 0
    unfold Fm.lfoNext
    rw [off', if_neg (by decide)]
    exact lfo off'
  · rw [frameNext_get]
    unfold Fm.chanNext
    split
    · exact chan c
    · exact chanStep_ranges f c (chan c)

/-- Frames keep an FM unit in range, R530. -/
theorem render_ranges {p : Params} (n : Nat) {f : Fm} (h : f.rangesOk p) : (f.render p n).2.rangesOk p := by
  induction n generalizing f with
  | zero => exact h
  | succ n ih => exact ih (frameNext_ranges h)

/-! ## The block -/

/-- A property of both units, after one is replaced by one that has it. -/
theorem two_set_forall {α : Type} {P : α → Prop} {v : Two α} (h : ∀ i, P (v.get i)) (i : BitVec 1) {x : α} (hx : P x)
    (j : BitVec 1) : P ((v.set i x).get j) := by
  by_cases hj : j = i
  · subst hj; rw [two_get_set_self]; exact hx
  · rw [two_get_set_ne _ _ hj]; exact h j

/-- The ranges of the block, unit by unit. -/
theorem stateRangesOk_iff {s : State} : s.rangesOk ↔
    (∀ i, (s.psg.get i).latchOk) ∧ s.hh.rangesOk ∧ s.tri.rangesOk ∧ ∀ i, (s.fm.get i).rangesOk s.params :=
  ⟨fun ⟨psg, hh, len, lin, fm⟩ => ⟨psg, hh, ⟨len, lin⟩, fm⟩, fun ⟨psg, hh, ⟨len, lin⟩, fm⟩ => ⟨psg, hh, len, lin, fm⟩⟩

/-- The HH group at reset, R40 to R42. -/
theorem hh_reset_ranges (p : Params) : (Hh.reset p).rangesOk :=
  have zero (n : Nat) : 0 ≤ n := Nat.zero_le n
  ⟨⟨zero 64, zero 9⟩, ⟨zero 64, zero 9⟩, zero 8, zero 256, zero 64, zero 9⟩

/-- A run of any group keeps the counters in range, 42_osc_common.md R260. -/
theorem runGroup_ranges {opc : Byte} {g : GroupRef} {t : Int} {s r : State} (h : runGroup opc g t s = .ok r)
    (k : s.rangesOk) : r.rangesOk := by
  obtain ⟨psg, hh, tri, fm⟩ := stateRangesOk_iff.1 k
  cases g with
  | psg i =>
    obtain ⟨x, m, rfl, hx, _⟩ := runGroup_psg_ok h
    obtain ⟨_, ⟨latch, _⟩, _⟩ := psgRunGroup_ok hx
    refine stateRangesOk_iff.2 ⟨two_set_forall psg i ?_, hh, tri, fm⟩
    unfold Psg.latchOk
    rw [latch]
    exact psg i
  | hh =>
    obtain ⟨x, n, m, rfl, hx, _⟩ := runGroup_hh_ok h
    exact stateRangesOk_iff.2 ⟨psg, hhRunGroup_ranges hh hx, tri, fm⟩
  | tri =>
    obtain ⟨x, n, m, rfl, hx, _⟩ := runGroup_tri_ok h
    exact stateRangesOk_iff.2 ⟨psg, hh, triRunGroup_ranges tri hx, fm⟩

/-- A completed command keeps every counter in range, for a length table within the counter's range. -/
theorem completes_ranges {s t : State} (hp : ∀ n ∈ s.params.triLen, n ≤ 254) (k : s.rangesOk) (h : Completes s t) :
    t.rangesOk := by
  obtain ⟨psg, hh, tri, fm⟩ := stateRangesOk_iff.1 k
  cases h with
  | nop => exact k
  | onMix _ _ => exact k
  | readStereo _ => exact k
  | @writePsg i _ _ _ _ r g m b hr hrun h =>
    obtain ⟨psg, hh, tri, fm⟩ := stateRangesOk_iff.1 (runGroup_ranges hrun k)
    exact stateRangesOk_iff.2 ⟨two_set_forall psg i (psgWriteRule_latchOk hr h (psg i)), hh, tri, fm⟩
  | writeHh hr hrun h =>
    obtain ⟨psg, hh, tri, fm⟩ := stateRangesOk_iff.1 (runGroup_ranges hrun k)
    exact stateRangesOk_iff.2 ⟨psg, (hhWriteRule_ruleOk hr _ _ _ _ _ h).2 hh, tri, fm⟩
  | writeTri hr hrun h =>
    obtain ⟨psg, hh, tri, fm⟩ := stateRangesOk_iff.1 (runGroup_ranges hrun k)
    exact stateRangesOk_iff.2 ⟨psg, hh, triWriteRule_ranges hp hr h tri, fm⟩
  | run v hrun =>
    have ran := runGroup_ranges hrun k
    exact ran
  | @endFrame _ g _ _ hrun =>
    have ran := runGroup_ranges hrun k
    obtain ⟨psg, hh, tri, fm⟩ := stateRangesOk_iff.1 ran
    cases g with
    | psg i => exact stateRangesOk_iff.2 ⟨two_set_forall psg i (psg i), hh, tri, fm⟩
    | hh => exact ran
    | tri => exact ran
  | resetGroup g =>
    cases g with
    | psg i => exact stateRangesOk_iff.2 ⟨two_set_forall psg i (.inl rfl), hh, tri, fm⟩
    | hh => exact stateRangesOk_iff.2 ⟨psg, hh_reset_ranges _, tri, fm⟩
    | tri => exact stateRangesOk_iff.2 ⟨psg, hh, ⟨Nat.zero_le _, Nat.zero_le _⟩, fm⟩
  | @writeFm i port addr data rule hr =>
    refine stateRangesOk_iff.2 ⟨psg, hh, tri, two_set_forall fm i ?_⟩
    have stored := setReg_ranges port addr data (fm i)
    obtain rfl | rfl := hr
    · exact fmRule_ranges port addr data stored
    · exact stored
  | fmRender i n => exact stateRangesOk_iff.2 ⟨psg, hh, tri, two_set_forall fm i (render_ranges _ (fm i))⟩
  | fmReset i => exact stateRangesOk_iff.2 ⟨psg, hh, tri, two_set_forall fm i (fm_reset_ranges _ _ _)⟩
  | fmSetRate i clock rate => exact stateRangesOk_iff.2 ⟨psg, hh, tri, two_set_forall fm i (fm i)⟩

/-- BLOCK_RESET puts every counter in range, 60_exceptions.md R621. -/
theorem blockReset_ranges (s : State) : (blockReset s).rangesOk := by
  refine stateRangesOk_iff.2 ⟨fun i => ?_, hh_reset_ranges _, ⟨Nat.zero_le _, Nat.zero_le _⟩, fun i => ?_⟩
  · exact .inl (by rw [blockReset_psg]; unfold Two.get; split <;> rfl)
  · rw [blockReset_fm]; unfold Two.get; split <;> exact fm_reset_ranges _ _ _

/-- Settles O28: the ranges are an invariant of every command; the premise on the length table goes along, since no command
changes the parameters. -/
theorem fieldsStayInRange : Obligations.FieldsStayInRange := fun _ _ hp k h =>
  (step_keeps (P := fun s => (∀ n ∈ s.params.triLen, n ≤ 254) ∧ s.rangesOk)
    (hport := fun _ k => k) (hfault := fun _ k => k) (hcount := fun _ k => k)
    (hreset := fun ⟨hp, _⟩ => ⟨hp, blockReset_ranges _⟩)
    (hdone := fun ⟨hp, k⟩ h => ⟨by rw [(completes_sameShell h).params]; exact hp, completes_ranges hp k h⟩) ⟨hp, k⟩ h).2

end Sys2Proof.Machine
end

section
/-! PROOFS. A command as bytes (spec 20_memory.md R102). -/

namespace Sys2Proof

/-- A word is its four bytes put together, most significant first. -/
theorem word_of_bytes (w : Word) :
    w.extractLsb' 24 8 ++ w.extractLsb' 16 8 ++ w.extractLsb' 8 8 ++ w.extractLsb' 0 8 = w := by
  rw [BitVec.extractLsb'_append_extractLsb'_eq_extractLsb' (by decide),
    BitVec.extractLsb'_append_extractLsb'_eq_extractLsb' (by decide),
    BitVec.extractLsb'_append_extractLsb'_eq_extractLsb' (by decide)]
  exact BitVec.extractLsb'_eq_self

/-- A command reads back from the head of a stream that starts with its bytes. -/
theorem takeCommand_toBytes (c : Command) (rest : List Byte) : takeCommand (c.toBytes ++ rest) = some (c, rest) := by
  obtain ⟨w0, w1, w2⟩ := c
  simp only [Command.toBytes, wordBytes, List.cons_append, List.nil_append, takeCommand, word_of_bytes]

/-- Settles O6: the bytes are those of `toBytes`, and each word is its bytes put together again. -/
theorem commandByteOrder : Obligations.CommandByteOrder := fun c rest => ⟨rfl, takeCommand_toBytes c rest⟩

end Sys2Proof
end

section
/-! PROOFS. Every store stays canonical and inside its space (spec 20_memory.md R100): the cells of the DSBs (10_state.md R33), the
handheld registers (R39) and the FM register images (R44). -/

namespace Sys2Proof.Machine

/-! ## The stores of the block -/

/-- The cells of the DSBs are canonical and inside their array, 10_state.md R33. -/
def Mix.cellsWf (p : Params) (m : Mix) : Prop :=
  ∀ u, Store.wf (m.dsb u).cells = true ∧ Store.below (m.dsb u).cells (m.cap.toNat + p.kw) = true

/-- A store of handheld registers is canonical and inside 0x10..0x3F, R39. -/
def hhRegsWf (r : Store 8) : Prop :=
  Store.wf r = true ∧ Store.below r 0x40 = true ∧ ∀ a, a < 0x10 → Store.get r a = 0

/-- The register images of an FM unit are canonical and inside 0..0xFF, R44. -/
def Fm.imagesWf (f : Fm) : Prop := ∀ q, Store.wf (f.image q) = true ∧ Store.below (f.image q) 0x100 = true

/-- The stores of the block, unit by unit. -/
theorem storesWf_iff {s : State} :
    s.storesWf ↔ s.mix.cellsWf s.params ∧ hhRegsWf s.hh.regs ∧ ∀ i, (s.fm.get i).imagesWf :=
  ⟨fun ⟨mix, wf, below, low, fm⟩ => ⟨mix, ⟨wf, below, low⟩, fm⟩,
   fun ⟨mix, ⟨wf, below, low⟩, fm⟩ => ⟨mix, wf, below, low, fm⟩⟩

/-! ## The cells of the DSBs -/

/-- The cells of the three DSBs by name. -/
theorem cellsWf_iff {p : Params} {m : Mix} : m.cellsWf p ↔
    (Store.wf m.center.cells = true ∧ Store.below m.center.cells (m.cap.toNat + p.kw) = true) ∧
    (Store.wf m.left.cells = true ∧ Store.below m.left.cells (m.cap.toNat + p.kw) = true) ∧
    (Store.wf m.right.cells = true ∧ Store.below m.right.cells (m.cap.toNat + p.kw) = true) := by
  constructor
  · intro h; exact ⟨h .center, h .left, h .right⟩
  · rintro ⟨center, left, right⟩ u
    cases u with
    | center => exact center
    | left => exact left
    | right => exact right

/-- A mix stage without a listed cell, R201, R211. -/
theorem cellsWf_of_empty {p : Params} {m : Mix} (center : m.center.cells = []) (left : m.left.cells = [])
    (right : m.right.cells = []) : m.cellsWf p := by
  rw [cellsWf_iff, center, left, right]
  exact ⟨⟨rfl, rfl⟩, ⟨rfl, rfl⟩, ⟨rfl, rfl⟩⟩

/-- A mix stage with the cells and the capacity of another. -/
theorem cellsWf_of_eq {p : Params} {m m' : Mix} (cap : m'.cap = m.cap) (cells : ∀ u, (m'.dsb u).cells = (m.dsb u).cells)
    (h : m.cellsWf p) : m'.cellsWf p := fun u => by
  rw [cells u, cap]
  exact h u

/-- Removing samples moves the cells down, 40_delta_buffer.md R215. -/
theorem removeSamples_cellsWf {p : Params} (n : Nat) {m : Mix} (h : m.cellsWf p) : (m.removeSamples n).cellsWf p := by
  have shifted {c : Store 32} {b : Nat} (k : Store.wf c = true ∧ Store.below c b = true) :
      Store.wf (Store.shift c n) = true ∧ Store.below (Store.shift c n) b = true :=
    ⟨store_wf_shift n k.1, store_below_shift n k.2⟩
  obtain ⟨center, left, right⟩ := cellsWf_iff.1 h
  exact cellsWf_iff.2 ⟨shifted center, shifted left, shifted right⟩

/-- Each rule of the BUF_* commands empties the cells, keeps them, adds a delta to them or moves them down. -/
theorem mixCommand_cellsWf {p : Params} {rule : Mix → Res (Mix × Word)} {m m' : Mix} {v : Word} (hr : MixCommand p rule)
    (h : rule m = .ok (m', v)) (k : m.cellsWf p) : m'.cellsWf p := by
  cases hr with
  | setSampleRate rate msec =>
    obtain ⟨_, _, h⟩ := res_bind_ok.1 h
    obtain ⟨_, _, h⟩ := res_bind_ok.1 h
    obtain ⟨_, _, h⟩ := res_bind_ok.1 h
    obtain ⟨_, _, h⟩ := res_bind_ok.1 h
    cases h
    exact cellsWf_of_empty rfl rfl rfl
  | setClockRate clock =>
    obtain ⟨_, _, h⟩ := res_bind_ok.1 h
    obtain ⟨_, _, h⟩ := res_bind_ok.1 h
    obtain ⟨_, _, h⟩ := res_bind_ok.1 h
    cases h
    exact cellsWf_of_eq rfl (fun u => by cases u <;> rfl) k
  | clear => cases h; exact cellsWf_of_empty rfl rfl rfl
  | addDelta w0 sel time delta =>
    obtain ⟨u, _, h⟩ := res_bind_ok.1 h
    obtain ⟨m1, h1, h⟩ := res_bind_ok.1 h
    cases h
    exact adds_cells (.add (.refl _) h1) k
  | endFrame time =>
    obtain ⟨_, _, h⟩ := res_bind_ok.1 h
    obtain ⟨_, _, h⟩ := res_bind_ok.1 h
    obtain ⟨_, _, h⟩ := res_bind_ok.1 h
    cases h
    exact cellsWf_of_eq (m := m) rfl (fun u => by cases u <;> rfl) k
  | samplesAvail => cases h; exact k
  | remove n =>
    obtain ⟨_, _, h⟩ := res_bind_ok.1 h
    cases h
    exact removeSamples_cellsWf _ k

/-- A stereo read removes what it read, 41_stereo_mix.md R242. -/
theorem readStereo_cellsWf {p : Params} {count v : Word} {bytes : List Byte} {m m' : Mix}
    (h : m.readStereo count = .ok (bytes, m', v)) (k : m.cellsWf p) : m'.cellsWf p := by
  obtain ⟨_, _, h⟩ := res_bind_ok.1 h
  cases h
  exact removeSamples_cellsWf _ (cellsWf_of_eq (m := m) rfl (fun u => by cases u <;> rfl) k)

/-- A completed command keeps the cells canonical and inside their array. -/
theorem completes_cellsWf {s t : State} (k : s.mix.cellsWf s.params) (h : Completes s t) : t.mix.cellsWf s.params := by
  obtain h | ⟨rule, v, hr, h⟩ | ⟨count, bytes, v, h⟩ := completes_mix h
  · exact adds_cells h k
  · exact mixCommand_cellsWf hr h k
  · exact readStereo_cellsWf h k

/-! ## The handheld registers -/

/-- A register written at an address of its space, R39. -/
theorem hhRegsWf_set {r : Store 8} {a : Nat} (v : Byte) (low : 0x10 ≤ a) (high : a < 0x40) (h : hhRegsWf r) :
    hhRegsWf (Store.set r a v) := by
  obtain ⟨wf, below, zero⟩ := h
  refine ⟨store_wf_set a v wf, store_below_set v below high, fun b hb => ?_⟩
  rw [store_get_set_ne r v (by omega)]
  exact zero b hb

/-- A sweep calculation writes no register but the two of the frequency, 44_hh_square.md R326. -/
theorem calcSweep_regsWf (update : Bool) {h : Hh} (k : hhRegsWf h.regs) : hhRegsWf (h.calcSweep update).regs := by
  unfold Hh.calcSweep
  dsimp only
  split
  · exact k
  · split
    · exact hhRegsWf_set _ (by decide) (by decide) (hhRegsWf_set _ (by decide) (by decide) k)
    · exact k

/-- A sweep calculation that does not update writes no register, R326. -/
@[simp] theorem calcSweep_false_regs (h : Hh) : (h.calcSweep false).regs = h.regs := by
  unfold Hh.calcSweep
  dsimp only
  split
  · rfl
  · rw [if_neg (fun c => Bool.false_ne_true c.2)]

/-- The sweep start of a trigger writes no register, R335. -/
@[simp] theorem sweepStart_regs (h : Hh) : h.sweepStart.regs = h.regs := by
  unfold Hh.sweepStart
  dsimp only
  split
  · exact calcSweep_false_regs _
  · rfl

/-- The sweep clock, R327. -/
theorem clockSweep_regsWf {h : Hh} (k : hhRegsWf h.regs) : hhRegsWf h.clockSweep.regs := by
  unfold Hh.clockSweep
  dsimp only
  split
  · split
    · exact calcSweep_regsWf false (calcSweep_regsWf true k)
    · exact k
  · exact k

/-- A unit clock that is due or not keeps the registers where the clock does. -/
theorem clockIf_regsWf {c : Prop} [Decidable c] {f : Hh → Hh} (hf : ∀ {h : Hh}, hhRegsWf h.regs → hhRegsWf (f h).regs) {h : Hh}
    (k : hhRegsWf h.regs) : hhRegsWf (if c then f h else h).regs := by
  split
  · exact hf k
  · exact k

/-- A frame step writes registers by its sweep clock only, R320. -/
theorem hhFrameStep_regsWf {h : Hh} (k : hhRegsWf h.regs) : hhRegsWf h.frameStep.regs :=
  clockIf_regsWf (f := Hh.clockEnvs) id (clockIf_regsWf (f := Hh.clockLengths) id
    (clockIf_regsWf clockSweep_regsWf (h := { h with framePhase := h.framePhase + 1 }) k))

/-- A run of the oscillators between two frame steps writes no register. -/
theorem hhRunAll_regsWf {p : Params} {opc : Byte} {start stop : Int} {h h' : Hh} {m m' : Mix} (k : hhRegsWf h.regs)
    (hr : Hh.runAll p opc start stop h m = .ok (h', m')) : hhRegsWf h'.regs := by
  obtain ⟨_, regs, _⟩ := hhRunAll_ok hr
  rw [regs]
  exact k

/-- A run of the group, 42_osc_common.md R260. -/
theorem hhRunGroup_regsWf {p : Params} {opc : Byte} {t : Int} {n n' : Nat} {h h' : Hh} {m m' : Mix} (k : hhRegsWf h.regs)
    (hr : Hh.runGroup p opc t n h m = .ok (h', n', m')) : hhRegsWf h'.regs := by
  obtain ⟨_, _, hr⟩ := res_bind_ok.1 hr
  obtain ⟨⟨g, next, n1, m1⟩, ran, hr⟩ := res_bind_ok.1 hr
  cases hr
  exact (runFrames_induct (fun (g : Hh) (_ : Mix) => hhRegsWf g.regs) hhRunAll_regsWf hhFrameStep_regsWf k ran).1

/-! ### Register rules -/

/-- A register rule, run after its register is stored, writes no register itself. -/
def HhRuleKeepsRegs (rule : Hh → Mix → Res (Hh × Mix × Bool)) : Prop :=
  ∀ {h h' : Hh} {m m' : Mix} {b : Bool}, rule h m = .ok (h', m', b) → h'.regs = h.regs

/-- A rule that changes only the group, by a function that writes no register. -/
theorem keepsRegs_of_pure {rule : Hh → Mix → Res (Hh × Mix × Bool)} {f : Hh → Hh} {restart : Bool}
    (he : ∀ h m, rule h m = .ok (f h, m, restart)) (hf : ∀ h, (f h).regs = h.regs) : HhRuleKeepsRegs rule := by
  intro h h' m m' b k
  rw [he] at k
  cases k
  exact hf h

/-- NR10, 44_hh_square.md R330. -/
theorem hhNr10_keepsRegs (data old : Byte) : HhRuleKeepsRegs (hhNr10 data old) := by
  intro h h' m m' b k
  cases k
  dsimp only
  split
  · exact disableSq1_regs h
  · rfl

/-- NR14, R335. -/
theorem hhNr14_keepsRegs (p : Params) (data old : Byte) : HhRuleKeepsRegs (hhNr14 p data old) := by
  intro h h' m m' b k
  cases k
  split
  · exact sweepStart_regs _
  · rfl

/-- A protocol over the four oscillators writes no register, 42_osc_common.md R270. -/
theorem mapOscs_regs {f0 f1 f2 f3 : Osc → Mix → Res (Osc × Mix)} {h h' : Hh} {m m' : Mix}
    (k : Hh.mapOscs f0 f1 f2 f3 h m = .ok (h', m')) : h'.regs = h.regs := by
  obtain ⟨_, _, k⟩ := res_bind_ok.1 k
  obtain ⟨_, _, k⟩ := res_bind_ok.1 k
  obtain ⟨_, _, k⟩ := res_bind_ok.1 k
  obtain ⟨_, _, k⟩ := res_bind_ok.1 k
  cases k
  rfl

/-- NR50, 45_hh_wave_noise_master.md R398. -/
theorem hhNr50_keepsRegs (p : Params) (opc : Byte) (t : Int) (data old : Byte) :
    HhRuleKeepsRegs (hhNr50 p opc t data old) := by
  intro h h' m m' b k
  obtain ⟨⟨h1, m1⟩, k1, k⟩ := res_bind_ok.1 k
  cases k
  dsimp only at k1
  split at k1
  · cases k1; rfl
  · exact (mapOscs_regs k1).trans rfl

/-- NR51, R390. -/
theorem hhNr51_keepsRegs (p : Params) (opc : Byte) (t : Int) (data old : Byte) :
    HhRuleKeepsRegs (hhNr51 p opc t data old) := by
  intro h h' m m' b k
  obtain ⟨⟨h1, m1⟩, k1, k⟩ := res_bind_ok.1 k
  cases k
  exact mapOscs_regs k1

/-- The rules of 0x10..0x25 write no register: a trigger's sweep start calculates without an update (R335), and every other rule
sets fields of its oscillator or the scale. -/
theorem hhRule_keepsRegs (p : Params) (opc : Byte) (t : Int) (a : Nat) (data old : Byte) :
    HhRuleKeepsRegs (hhRule p opc t a data old) := by
  unfold hhRule
  split
  case h_1 => exact hhNr10_keepsRegs data old
  case h_5 => exact hhNr14_keepsRegs p data old
  case h_19 => exact hhNr50_keepsRegs p opc t data old
  case h_20 => exact hhNr51_keepsRegs p opc t data old
  all_goals exact keepsRegs_of_pure (fun _ _ => rfl) fun _ => rfl

/-- A register rule of the whole space keeps the registers canonical and inside it. -/
def HhRuleKeepsWf (rule : Hh → Mix → Res (Hh × Mix × Bool)) : Prop :=
  ∀ {h h' : Hh} {m m' : Mix} {b : Bool}, rule h m = .ok (h', m', b) → hhRegsWf h.regs → hhRegsWf h'.regs

/-- A rule that changes only the group. -/
theorem hhPlain_keepsWf {f : Hh → Hh} (hf : ∀ {h : Hh}, hhRegsWf h.regs → hhRegsWf (f h).regs) : HhRuleKeepsWf (hhPlain f) := by
  intro h h' m m' b k
  cases k
  exact hf

/-- An unused address, R395. -/
theorem hhIgnore_keepsWf : HhRuleKeepsWf hhIgnore := by
  intro h h' m m' b k
  cases k
  exact id

/-- A write to a register 0x10..0x25, R394. -/
theorem hhGated_keepsWf {a : Nat} {data : Byte} {rule : HhRule} (low : 0x10 ≤ a) (high : a < 0x40)
    (hr : ∀ old, HhRuleKeepsRegs (rule data old)) : HhRuleKeepsWf (hhGated a data rule) := by
  intro h h' m m' b k wf
  unfold hhGated at k
  split at k
  · rw [hr _ k]
    exact hhRegsWf_set data low high wf
  · cases k; exact wf

/-- The clearing loop of power off stays in the space, R391. -/
theorem hhClear_regsWf {p : Params} {opc : Byte} {t : Int} {n a : Nat} {h h' : Hh} {m m' : Mix} (low : 0x10 ≤ a)
    (high : a + n ≤ 0x40) (k : hhClear p opc t n a h m = .ok (h', m')) (wf : hhRegsWf h.regs) : hhRegsWf h'.regs := by
  induction n generalizing a h m with
  | zero => cases k; exact wf
  | succ n ih =>
    obtain ⟨⟨h1, m1, b⟩, k1, k2⟩ := res_bind_ok.1 k
    refine ih (by omega) (by omega) k2 ?_
    rw [hhRule_keepsRegs p opc t a 0 (h.reg a) k1]
    exact hhRegsWf_set 0 low (by omega) wf

/-- NR52 with bit 7 clear, R391, R392. -/
theorem hhPowerOff_keepsWf (p : Params) (opc : Byte) (t : Int) : HhRuleKeepsWf (noRestart (hhPowerOff p opc t)) := by
  intro h h' m m' b k wf
  obtain ⟨⟨h1, m1⟩, k1, k⟩ := res_bind_ok.1 k
  cases k
  unfold hhPowerOff at k1
  split at k1
  · obtain ⟨⟨h2, m2⟩, k2, k1⟩ := res_bind_ok.1 k1
    cases k1
    exact hhRegsWf_set 0 (by decide) (by decide) (hhClear_regsWf (by decide) (by decide) k2 wf)
  · cases k1; exact hhRegsWf_set 0 (by decide) (by decide) wf

/-- NR52 with bit 7 set, R392. -/
theorem hhPowerOn_regsWf {h : Hh} (wf : hhRegsWf h.regs) : hhRegsWf (hhPowerOn h).regs := by
  have stored := hhRegsWf_set (a := 0x26) 0x80 (by decide) (by decide) wf
  unfold hhPowerOn
  dsimp only
  split
  · exact stored
  · exact stored

/-- A wave RAM write reaches one of the addresses 0x30..0x3F, R378. -/
theorem writeWaveRam_regsWf (low : BitVec 4) (data : Byte) {h : Hh} (wf : hhRegsWf h.regs) :
    hhRegsWf (h.writeWaveRam low data).regs := by
  have inside : 0x30 ≤ h.waveRamAddr low ∧ h.waveRamAddr low < 0x40 := by
    unfold Hh.waveRamAddr
    exact ⟨Nat.le_add_right _ _, Nat.add_lt_add_left (BitVec.isLt _) 0x30⟩
  exact hhRegsWf_set data (by omega) inside.2 wf

/-- `Write_HH`, over the whole space. -/
theorem hhWriteRule_keepsWf {p : Params} {opc : Byte} {t : Int} {addr data : Byte} {rule : Hh → Mix → Res (Hh × Mix × Bool)}
    (hr : hhWriteRule p opc t addr data = some rule) : HhRuleKeepsWf rule := by
  unfold hhWriteRule at hr
  dsimp only at hr
  split at hr
  · cases hr
  next inside =>
  split at hr
  · cases hr; exact hhIgnore_keepsWf
  split at hr
  · cases hr; exact hhGated_keepsWf (by omega) (by omega) fun old => hhRule_keepsRegs p opc t _ data old
  split at hr
  · split at hr <;> cases hr
    · exact hhPlain_keepsWf hhPowerOn_regsWf
    · exact hhPowerOff_keepsWf p opc t
  split at hr <;> cases hr
  · exact hhIgnore_keepsWf
  · exact hhPlain_keepsWf (writeWaveRam_regsWf _ data)

/-- A run of any group keeps the handheld registers canonical and inside their space. -/
theorem runGroup_hhRegsWf {opc : Byte} {g : GroupRef} {t : Int} {s r : State} (h : runGroup opc g t s = .ok r)
    (k : hhRegsWf s.hh.regs) : hhRegsWf r.hh.regs := by
  cases g with
  | psg i => obtain ⟨x, m, rfl, _⟩ := runGroup_psg_ok h; exact k
  | hh => obtain ⟨x, n, m, rfl, hx, _⟩ := runGroup_hh_ok h; exact hhRunGroup_regsWf k hx
  | tri => obtain ⟨x, n, m, rfl, _⟩ := runGroup_tri_ok h; exact k

/-- The handheld registers at reset. -/
theorem hhRegsWf_nil : hhRegsWf [] := ⟨rfl, rfl, fun _ _ => rfl⟩

/-- A completed command keeps the handheld registers canonical and inside their space. -/
theorem completes_hhRegsWf {s t : State} (k : hhRegsWf s.hh.regs) (h : Completes s t) : hhRegsWf t.hh.regs := by
  cases h with
  | nop => exact k
  | onMix _ _ => exact k
  | readStereo _ => exact k
  | writePsg _ hrun _ => have ran := runGroup_hhRegsWf hrun k; exact ran
  | writeHh hr hrun h => exact hhWriteRule_keepsWf hr h (runGroup_hhRegsWf hrun k)
  | writeTri _ hrun _ => have ran := runGroup_hhRegsWf hrun k; exact ran
  | run v hrun => have ran := runGroup_hhRegsWf hrun k; exact ran
  | @endFrame _ g _ _ hrun => have ran := runGroup_hhRegsWf hrun k; cases g <;> exact ran
  | resetGroup g =>
    cases g with
    | psg i => exact k
    | hh => exact hhRegsWf_nil
    | tri => exact k
  | writeFm _ => exact k
  | fmRender i n => exact k
  | fmReset i => exact k
  | fmSetRate i clock rate => exact k

/-! ## The FM register images -/

/-- A change of channels keeps the images. -/
@[simp] theorem mapChanOpt_image (f : Fm) (c : Option ChNum) (g : Channel → Channel) (q : FmPort) :
    (f.mapChan? c g).image q = f.image q := by
  cases q with
  | p0 => exact mapChanOpt_reg0 f c g
  | p1 => exact mapChanOpt_reg1 f c g

/-- The split-mode F-number register keeps the images, 47_fm_registers.md R446. -/
theorem fmSplitLow_image (j : BitVec 2) (d : Byte) (f : Fm) (q : FmPort) : (fmSplitLow j d f).image q = f.image q := by
  unfold fmSplitLow
  split
  · rfl
  · exact mapChanOpt_image f (some .ch2) _ q

/-- The global registers keep the images, R434 to R439. -/
theorem fmGlobalRule_image (p : Params) (addr d : Byte) (f : Fm) (q : FmPort) :
    (fmGlobalRule p addr d f).image q = f.image q := by
  unfold fmGlobalRule
  split
  case h_3 => exact mapChanOpt_image f _ _ q
  all_goals cases q <;> rfl

/-- The channel registers keep the images, R446 to R451. -/
theorem fmChannelRule_image (port : FmPort) (addr d : Byte) (f : Fm) (q : FmPort) :
    (fmChannelRule port addr d f).image q = f.image q := by
  unfold fmChannelRule
  dsimp only
  split
  · exact mapChanOpt_image f _ _ q
  · split
    · exact fmSplitLow_image _ d f q
    · rfl
  · exact mapChanOpt_image f _ _ q
  · exact mapChanOpt_image f _ _ q
  · rfl

/-- The rule of an address, run after the image is stored, keeps it, R430. -/
theorem fmRule_image (p : Params) (port : FmPort) (addr d : Byte) (f : Fm) (q : FmPort) :
    (fmRule p port addr d f).image q = f.image q := by
  unfold fmRule
  dsimp only
  split
  case h_1 =>
    split
    · exact fmGlobalRule_image p addr d f q
    · rfl
  case h_9 => exact fmChannelRule_image port addr d f q
  case h_10 => exact fmChannelRule_image port addr d f q
  case h_11 => rfl
  all_goals exact mapChanOpt_image f _ _ q

/-- Frames keep the images, 49_fm_channel_output.md R530. -/
theorem render_image (p : Params) (n : Nat) (f : Fm) (q : FmPort) : (f.render p n).2.image q = f.image q := by
  induction n generalizing f with
  | zero => rfl
  | succ n ih =>
    have framed : (f.frameNext p).image q = f.image q := by cases q <;> rfl
    exact (ih (f.frameNext p)).trans framed

/-- An FM unit with the images of another. -/
theorem imagesWf_of_eq {f f' : Fm} (image : ∀ q, f'.image q = f.image q) (h : f.imagesWf) : f'.imagesWf := fun q => by
  rw [image q]
  exact h q

/-- A stored byte: its address is one of 0..0xFF, R430. -/
theorem setReg_imagesWf {f : Fm} (port : FmPort) (a d : Byte) (h : f.imagesWf) : (f.setReg port a d).imagesWf := by
  have stored (q : FmPort) : Store.wf (Store.set (f.image q) a.toNat d) = true ∧
      Store.below (Store.set (f.image q) a.toNat d) 0x100 = true :=
    ⟨store_wf_set _ d (h q).1, store_below_set d (h q).2 a.isLt⟩
  intro q
  cases port with
  | p0 => cases q with
    | p0 => exact stored .p0
    | p1 => exact h .p1
  | p1 => cases q with
    | p0 => exact h .p0
    | p1 => exact stored .p1

/-- The images at reset, 70_reset_and_hazards.md R705. -/
theorem fm_reset_imagesWf (p : Params) (clock rate : Word) : (Fm.reset p clock rate).imagesWf := fun q => by
  cases q with
  | p0 => exact ⟨rfl, rfl⟩
  | p1 => exact ⟨rfl, rfl⟩

/-- A completed command keeps the images canonical and inside their space. -/
theorem completes_imagesWf {s t : State} (k : ∀ i, (s.fm.get i).imagesWf) (h : Completes s t) : ∀ i, (t.fm.get i).imagesWf := by
  have afterRun {opc : Byte} {g : GroupRef} {t : Int} {r : State} (h : runGroup opc g t s = .ok r) :
      ∀ i, (r.fm.get i).imagesWf := by
    obtain ⟨_, _, _, _, _, _, _, fm, _⟩ := runGroup_frame h
    rw [fm]
    exact k
  cases h with
  | nop => exact k
  | onMix _ _ => exact k
  | readStereo _ => exact k
  | writePsg _ hrun _ => have ran := afterRun hrun; exact ran
  | writeHh _ hrun _ => have ran := afterRun hrun; exact ran
  | writeTri _ hrun _ => have ran := afterRun hrun; exact ran
  | run v hrun => have ran := afterRun hrun; exact ran
  | @endFrame _ g _ _ hrun => have ran := afterRun hrun; cases g <;> exact ran
  | resetGroup g => cases g <;> exact k
  | @writeFm i port addr data rule hr =>
    refine two_set_forall k i ?_
    have stored := setReg_imagesWf port addr data (k i)
    obtain rfl | rfl := hr
    · exact imagesWf_of_eq (fmRule_image _ port addr data _) stored
    · exact stored
  | fmRender i n => exact two_set_forall k i (imagesWf_of_eq (render_image _ _ _) (k i))
  | fmReset i => exact two_set_forall k i (fm_reset_imagesWf _ _ _)
  | fmSetRate i clock rate => exact two_set_forall k i (imagesWf_of_eq (fun q => by cases q <;> rfl) (k i))

/-! ## The block -/

/-- BLOCK_RESET gives every store its reset contents, 60_exceptions.md R621. -/
theorem blockReset_storesWf (s : State) : (blockReset s).storesWf := by
  refine storesWf_iff.2 ⟨cellsWf_of_empty rfl rfl rfl, hhRegsWf_nil, fun i => ?_⟩
  rw [blockReset_fm]
  unfold Two.get
  split <;> exact fm_reset_imagesWf _ _ _

/-- A completed command keeps every store canonical and inside its space. -/
theorem completes_storesWf {s t : State} (k : s.storesWf) (h : Completes s t) : t.storesWf := by
  obtain ⟨mix, hh, fm⟩ := storesWf_iff.1 k
  refine storesWf_iff.2 ⟨?_, completes_hhRegsWf hh h, completes_imagesWf fm h⟩
  rw [(completes_sameShell h).params]
  exact completes_cellsWf mix h

/-- Settles O25: the form of the stores is an invariant of every command; BLOCK_RESET gives stores that have it. -/
theorem storesStayCanonical : Obligations.StoresStayCanonical := fun _ _ =>
  step_keeps (P := State.storesWf) (hport := fun _ k => k) (hfault := fun _ k => k) (hcount := fun _ k => k)
    (hreset := fun _ => blockReset_storesWf _) (hdone := completes_storesWf)

end Sys2Proof.Machine
end

section
/-! PROOFS. The fields of a command (spec 30_encoding.md R140), the rows of the opcode map (R143) field by field, and the step that
takes a command (R141, R145). -/

namespace Sys2Proof

/-! ## Fields -/

section

variable (opc : Byte) (inst sel : BitVec 4) (addr data : Byte) (a b : Word)

@[simp] theorem opc_word0 : (⟨word0 opc inst sel addr data, a, b⟩ : Command).opc = opc := by
  obtain ⟨h, _, _, _, _⟩ := fields_word0 opc inst sel addr data a b; exact h
@[simp] theorem inst_word0 : (⟨word0 opc inst sel addr data, a, b⟩ : Command).inst = inst := by
  obtain ⟨_, h, _, _, _⟩ := fields_word0 opc inst sel addr data a b; exact h
@[simp] theorem sel_word0 : (⟨word0 opc inst sel addr data, a, b⟩ : Command).sel = sel := by
  obtain ⟨_, _, h, _, _⟩ := fields_word0 opc inst sel addr data a b; exact h
@[simp] theorem addr_word0 : (⟨word0 opc inst sel addr data, a, b⟩ : Command).addr = addr := by
  obtain ⟨_, _, _, h, _⟩ := fields_word0 opc inst sel addr data a b; exact h
@[simp] theorem data_word0 : (⟨word0 opc inst sel addr data, a, b⟩ : Command).data = data := by
  obtain ⟨_, _, _, _, h⟩ := fields_word0 opc inst sel addr data a b; exact h

end

/-- A command is known by the five fields of its first word and its operands. -/
theorem command_of_fields {c : Command} {opc : Byte} {inst sel : BitVec 4} {addr data : Byte} {a b : Word}
    (hopc : c.opc = opc) (hinst : c.inst = inst) (hsel : c.sel = sel) (haddr : c.addr = addr) (hdata : c.data = data)
    (ha : c.w1 = a) (hb : c.w2 = b) : ⟨word0 opc inst sel addr data, a, b⟩ = c := by
  subst hopc hinst hsel haddr hdata ha hb
  rw [word0_fields]

/-! ## Must-be-zero fields, R141 step 2 -/

section

variable {c : Command}

@[simp] theorem inst0_iff : c.inst0 = true ↔ c.inst = 0 := decide_eq_true_iff
@[simp] theorem sel0_iff : c.sel0 = true ↔ c.sel = 0 := decide_eq_true_iff
@[simp] theorem a0_iff : c.a0 = true ↔ c.w1 = 0 := decide_eq_true_iff
@[simp] theorem b0_iff : c.b0 = true ↔ c.w2 = 0 := decide_eq_true_iff
@[simp] theorem reg0_iff : c.reg0 = true ↔ c.addr = 0 ∧ c.data = 0 := by simp [Command.reg0]
@[simp] theorem fields0_iff : c.fields0 = true ↔ c.inst = 0 ∧ c.sel = 0 ∧ c.addr = 0 ∧ c.data = 0 := by
  simp [Command.fields0, and_assoc]

end

/-- A row accepts a command whose check holds, R141 step 2. -/
@[simp] theorem whenZero_ok_iff {zero : Bool} {i j : Instr} : whenZero zero i = .ok j ↔ zero = true ∧ i = j := by
  cases zero <;> simp [whenZero]

/-! ## The rows of the opcode map, R143 -/

/-- Masking a word masks each of its fields. -/
theorem word0_and (opc opc' : Byte) (inst inst' sel sel' : BitVec 4) (addr addr' data data' : Byte) :
    word0 opc inst sel addr data &&& word0 opc' inst' sel' addr' data' =
      word0 (opc &&& opc') (inst &&& inst') (sel &&& sel') (addr &&& addr') (data &&& data') := by
  unfold word0
  rw [← BitVec.and_append, ← BitVec.and_append, ← BitVec.and_append, ← BitVec.and_append]

/-- A masked first word is compared field by field. -/
theorem masked_eq_iff (c : Command) (mask value : Word) : c.w0 &&& mask = value ↔
    c.opc &&& mask.extractLsb' 24 8 = value.extractLsb' 24 8 ∧ c.inst &&& mask.extractLsb' 20 4 = value.extractLsb' 20 4 ∧
    c.sel &&& mask.extractLsb' 16 4 = value.extractLsb' 16 4 ∧ c.addr &&& mask.extractLsb' 8 8 = value.extractLsb' 8 8 ∧
    c.data &&& mask.extractLsb' 0 8 = value.extractLsb' 0 8 := by
  constructor
  · rintro rfl
    simp only [BitVec.extractLsb'_and]
    exact ⟨rfl, rfl, rfl, rfl, rfl⟩
  · rintro ⟨opc, inst, sel, addr, data⟩
    calc c.w0 &&& mask
      _ = word0 c.opc c.inst c.sel c.addr c.data &&& word0 (mask.extractLsb' 24 8) (mask.extractLsb' 20 4)
            (mask.extractLsb' 16 4) (mask.extractLsb' 8 8) (mask.extractLsb' 0 8) :=
        congrArg₂ (· &&& ·) (word0_fields c).symm (word0_fields ⟨mask, 0, 0⟩).symm
      _ = word0 (value.extractLsb' 24 8) (value.extractLsb' 20 4) (value.extractLsb' 16 4) (value.extractLsb' 8 8)
            (value.extractLsb' 0 8) := by rw [word0_and, opc, inst, sel, addr, data]
      _ = value := word0_fields ⟨value, 0, 0⟩

/-- A full mask keeps a byte. -/
theorem byte_and_full (b : Byte) : b &&& 0xFF#8 = b := BitVec.and_allOnes

/-- A full mask keeps a nibble. -/
theorem nibble_and_full (b : BitVec 4) : b &&& 0xF#4 = b := BitVec.and_allOnes

/-- The rows of the opcode map as opcodes with their must-be-zero fields. -/
theorem inCommandRows_iff (c : Command) : inCommandRows c = true ↔
    (c.opc = 0x00 ∧ c.fields0 ∧ c.a0 ∧ c.b0) ∨ (c.opc = 0x01 ∧ c.fields0 ∧ c.a0 ∧ c.b0) ∨ (c.opc = 0x10 ∧ c.fields0) ∨
    (c.opc = 0x11 ∧ c.fields0 ∧ c.b0) ∨ (c.opc = 0x12 ∧ c.fields0 ∧ c.a0 ∧ c.b0) ∨ (c.opc = 0x13 ∧ c.inst0 ∧ c.reg0) ∨
    (c.opc = 0x14 ∧ c.fields0 ∧ c.b0) ∨ (c.opc = 0x15 ∧ c.fields0 ∧ c.a0 ∧ c.b0) ∨ (c.opc = 0x16 ∧ c.fields0 ∧ c.b0) ∨
    (c.opc = 0x17 ∧ c.fields0 ∧ c.b0) ∨ (c.opc = 0x20 ∧ c.b0) ∨ (c.opc = 0x21 ∧ c.data = 0 ∧ c.b0) ∨
    (c.opc = 0x22 ∧ c.reg0 ∧ c.b0) ∨ (c.opc = 0x23 ∧ c.reg0 ∧ c.b0) ∨ (c.opc = 0x24 ∧ c.reg0 ∧ c.a0 ∧ c.b0) ∨
    (c.opc = 0x25 ∧ c.inst0 ∧ c.sel = 1 ∧ c.reg0 ∧ c.b0) ∨ (c.opc = 0x30 ∧ c.a0 ∧ c.b0) ∨
    (c.opc = 0x31 ∧ c.sel0 ∧ c.reg0 ∧ c.b0) ∨ (c.opc = 0x32 ∧ c.sel0 ∧ c.reg0 ∧ c.a0 ∧ c.b0) ∨
    (c.opc = 0x33 ∧ c.sel0 ∧ c.reg0) := by
  simp [inCommandRows, commandRows, masked_eq_iff, byte_and_full, nibble_and_full, and_assoc]

/-- A command decodes exactly when it is of a row of the map: each opcode's check is the one of its row. -/
theorem decode_ok_iff (c : Command) : (∃ i, decode c = .ok i) ↔ inCommandRows c = true := by
  rw [inCommandRows_iff]
  unfold decode
  split
  case h_21 => simp_all
  all_goals
    next hopc => simp [hopc, and_assoc]

end Sys2Proof

namespace Sys2Proof.Machine

/-! ## The step that takes a command -/

/-- With no command issued the block waits, entry 4 of the log. -/
theorem step_empty {s : State} (hp : s.port = []) : step s = .next s := by
  unfold step fetch; rw [hp]

/-- A step executes the command at the head of the port, 20_memory.md R110. -/
theorem step_cons {s : State} {c : Command} {rest : List Command} (hp : s.port = c :: rest) :
    step s = executeCommand c { s with port := rest } := by
  unfold step fetch; rw [hp]

/-- A command that decodes is its instruction. -/
theorem executeCommand_ok {c : Command} {i : Instr} {s : State} (h : decode c = .ok i) : executeCommand c s = exec i s := by
  unfold executeCommand; rw [h]

/-- A command that raises ILLEGAL. -/
theorem runCommand_illegal {s : State} {w0 : Word} {body : Res State} (hf : s.fault = none) (hb : body = illegal w0) :
    runCommand body s = .next (s.faulted .illegal w0) :=
  runCommand_error hf hb

/-- A command that does not decode raises ILLEGAL, R145. -/
theorem executeCommand_illegal {c : Command} {s : State} (hd : ¬ ∃ i, decode c = .ok i) (hf : s.fault = none) :
    executeCommand c s = .next (s.faulted .illegal c.w0) := by
  unfold executeCommand
  split
  · next i h => exact absurd ⟨i, h⟩ hd
  · exact runCommand_illegal hf rfl

/-- Settles O1: the fetched command's instruction is executed, and an empty port fetches none. -/
theorem stepRunsDecodedCommand : Obligations.StepRunsDecodedCommand := fun _ =>
  ⟨fun _ _ _ hp hd => (step_cons hp).trans (executeCommand_ok hd), step_empty⟩

/-- Settles O2: the decoder accepts the rows of the map and nothing else. -/
theorem undecodableCommandsAreIllegal : Obligations.UndecodableCommandsAreIllegal := by
  refine fun c => ⟨(decode_ok_iff c).2, fun hrow s rest hp hf => ?_⟩
  have hd : ¬ ∃ i, decode c = .ok i := fun h => absurd ((decode_ok_iff c).1 h) (by rw [hrow]; decide)
  exact (step_cons hp).trans (executeCommand_illegal hd hf)

end Sys2Proof.Machine
end

section
/-! PROOFS. The decoder and the encoder agree (spec 30_encoding.md R140 to R143, R149 to R155): what a command decodes to is well
formed and encodes to that command, and the command of a well-formed instruction decodes to it. -/

namespace Sys2Proof

/-! ## Parts of fields -/

/-- An INST below 2 is a single bit. -/
theorem inst_lt_two_iff (inst : BitVec 4) : inst.extractLsb' 1 3 = 0#3 ↔ inst.toNat < 2 := by revert inst; decide

/-- A 1-bit INST has no bits above. -/
@[simp] theorem instNibble_high (inst : BitVec 1) : (instNibble inst).extractLsb' 1 3 = 0#3 := by revert inst; decide

/-- The bit of a 1-bit INST. -/
@[simp] theorem instNibble_low (inst : BitVec 1) : (instNibble inst).extractLsb' 0 1 = inst := by revert inst; decide

/-- A field below 2 is its lowest bit. -/
theorem instNibble_of_high {inst : BitVec 4} (h : inst.extractLsb' 1 3 = 0#3) : instNibble (inst.extractLsb' 0 1) = inst := by
  revert inst; decide

/-- The SEL of a port is 0 or 1. -/
@[simp] theorem fmPortSel_high (port : FmPort) : (fmPortSel port).extractLsb' 1 3 = 0#3 := by cases port <;> decide

/-- The SEL of a port names it. -/
@[simp] theorem fmPortOf_fmPortSel (port : FmPort) : fmPortOf (fmPortSel port) = port := by cases port <;> decide

/-- A SEL below 2 is that of the port it names. -/
theorem fmPortSel_of_high {sel : BitVec 4} (h : sel.extractLsb' 1 3 = 0#3) : fmPortSel (fmPortOf sel) = sel := by
  revert sel; decide

/-- An address is the group, slot and channel of an operator register, R154. -/
theorem byte_of_group {b : Byte} {group : BitVec 4} (h : b.extractLsb' 4 4 = group) :
    group ++ b.extractLsb' 2 2 ++ b.extractLsb' 0 2 = b := by
  subst h; revert b; decide

/-- A byte is its two nibbles. -/
theorem byte_of_high_nibble {b : Byte} {high : BitVec 4} (h : b.extractLsb' 4 4 = high) : high ++ b.extractLsb' 0 4 = b := by
  subst h; revert b; decide

/-- A byte is its top five bits and the three below. -/
theorem byte_of_high_five {b : Byte} {high : BitVec 5} (h : b.extractLsb' 3 5 = high) : high ++ b.extractLsb' 0 3 = b := by
  subst h; revert b; decide

/-- An address is the group and channel of a channel register, R155. -/
theorem byte_of_high_six {b : Byte} {high : BitVec 6} (h : b.extractLsb' 2 6 = high) : high ++ b.extractLsb' 0 2 = b := by
  subst h; revert b; decide

/-- A byte with its top bit set. -/
theorem byte_of_top_set {b : Byte} (h : b.extractLsb' 7 1 = 1#1) : 1#1 ++ b.extractLsb' 0 7 = b := by
  revert b; decide

/-- A byte with its top bit clear. -/
theorem byte_of_top_clear {b : Byte} (h : ¬ b.extractLsb' 7 1 = 1#1) : 0#1 ++ b.extractLsb' 0 7 = b := by
  revert b; decide

/-- A byte with its top bit set is the fields of a latch byte, R150. -/
theorem latchByte_of_top_set {b : Byte} (h : b.extractLsb' 7 1 = 1#1) :
    1#1 ++ b.extractLsb' 5 2 ++ b.extractLsb' 4 1 ++ b.extractLsb' 0 4 = b := by
  revert b; decide

/-- The parts of a byte put together from its top bit and the seven below. -/
theorem topBit_fields (top : BitVec 1) (low : BitVec 7) :
    (top ++ low).extractLsb' 7 1 = top ∧ (top ++ low).extractLsb' 0 7 = low := by
  revert top low; decide

/-- The unused HH addresses 0x28..0x2F, R395. -/
theorem unused28_fields (low : BitVec 3) :
    0x28 ≤ (0b00101#5 ++ low).toNat ∧ (0b00101#5 ++ low).extractLsb' 3 5 = 0b00101#5 ∧
    (0b00101#5 ++ low).extractLsb' 0 3 = low := by
  revert low; decide

/-- The wave RAM addresses 0x30..0x3F, R378. -/
theorem waveRam_fields (low : BitVec 4) :
    0x28 ≤ (3#4 ++ low).toNat ∧ ¬ (3#4 ++ low).extractLsb' 3 5 = 0b00101#5 ∧ (3#4 ++ low).extractLsb' 4 4 = 3#4 ∧
    (3#4 ++ low).extractLsb' 0 4 = low := by
  revert low; decide

/-! ## Words without a register form -/

/-- A PSG address other than 0 and 1. -/
theorem psg_hasNoForm_iff {inst : BitVec 4} {addr : Byte} (hi : inst.extractLsb' 1 3 = 0#3) :
    oscWriteHasForm inst 0 addr = false ↔ ¬ addr = 0 ∧ ¬ addr = 1 := by
  rw [inst_lt_two_iff] at hi
  have below : addr.toNat < 2 ↔ addr = 0 ∨ addr = 1 := by bv_omega
  simp [oscWriteHasForm, hi, below]

/-- An HH address that is neither a register nor unused below 0x30 nor wave RAM. -/
theorem hh_hasNoForm_iff {addr : Byte} : oscWriteHasForm 0 1 addr = false ↔
    (addr.toNat < 0x10 ∨ 0x28 ≤ addr.toNat) ∧ ¬ addr.extractLsb' 3 5 = 0b00101#5 ∧ ¬ addr.extractLsb' 4 4 = 3#4 := by
  revert addr; decide

/-- Units without a register form for any address. -/
theorem oscWrite_hasNoForm {inst sel : BitVec 4} (addr : Byte) (psg : ¬ (sel = 0 ∧ inst.extractLsb' 1 3 = 0#3))
    (hh : ¬ (sel = 1 ∧ inst = 0)) (tri : ¬ (sel = 2 ∧ inst = 0)) : oscWriteHasForm inst sel addr = false := by
  rw [inst_lt_two_iff] at psg
  unfold oscWriteHasForm
  grind

/-- The check of an OSC_READ word. -/
theorem oscRead_hasNoForm_iff {inst sel : BitVec 4} {addr : Byte} : oscReadHasForm inst sel addr = false ↔
    ¬ (sel = 1 ∧ inst = 0) ∧ ¬ (sel = 2 ∧ inst = 0 ∧ addr = 0x15#8) := by
  unfold oscReadHasForm
  grind

/-- The check of an FM_WRITE word. -/
theorem fmWrite_hasNoForm_iff {inst sel : BitVec 4} : fmWriteHasForm inst sel = false ↔
    ¬ (sel.extractLsb' 1 3 = 0#3 ∧ inst.extractLsb' 1 3 = 0#3) := by
  rw [inst_lt_two_iff, inst_lt_two_iff]
  unfold fmWriteHasForm
  grind

/-! ## What a command decodes to -/

/-- The instruction is well formed and stands for the command. -/
def Instr.Reads (i : Instr) (c : Command) : Prop := i.wf = true ∧ encode i = c

/-- A plain OSC_WRITE is for a word without a register form. -/
theorem oscWrite_reads {inst sel : BitVec 4} {addr : Byte} (data : Byte) (time : Word)
    (h : oscWriteHasForm inst sel addr = false) :
    (Instr.oscWrite inst sel addr data time).Reads (encode (.oscWrite inst sel addr data time)) :=
  ⟨by rw [Instr.wf, h]; rfl, rfl⟩

/-- PSG writes, R150. -/
theorem decodePsgWrite_reads {inst : BitVec 4} (addr data : Byte) (time : Word) (hi : inst.extractLsb' 1 3 = 0#3) :
    (decodePsgWrite inst addr data time).Reads (encode (.oscWrite inst 0 addr data time)) := by
  have byRow (b d : Byte) : encodePsg (inst.extractLsb' 0 1) b d time = encode (.oscWrite inst 0 b d time) := by
    rw [encodePsg, instNibble_of_high hi]; rfl
  fun_cases decodePsgWrite inst addr data time
  case case1 haddr top =>
    subst haddr
    rw [← byRow]
    exact ⟨rfl, congrArg (encodePsg _ 0 · time) (latchByte_of_top_set top)⟩
  case case2 haddr top =>
    subst haddr
    rw [← byRow]
    exact ⟨rfl, congrArg (encodePsg _ 0 · time) (byte_of_top_clear top)⟩
  case case3 haddr =>
    subst haddr
    rw [← byRow]
    exact ⟨rfl, rfl⟩
  case case4 latch stereo => exact oscWrite_reads data time ((psg_hasNoForm_iff hi).2 ⟨latch, stereo⟩)

/-- HH writes, R151, R395. -/
theorem decodeHhWrite_reads (addr data : Byte) (time : Word) :
    (decodeHhWrite addr data time).Reads (encodeHh addr data time) := by
  fun_cases decodeHhWrite addr data time
  case case24 top => exact ⟨rfl, congrArg (encodeHh 0x26 · time) (byte_of_top_set top)⟩
  case case25 top => exact ⟨rfl, congrArg (encodeHh 0x26 · time) (byte_of_top_clear top)⟩
  case case26 =>
    have unused := ‹addr.extractLsb' 3 5 = 0b00101#5›
    rw [if_pos unused]
    exact ⟨rfl, congrArg (encodeHh · data time) (byte_of_high_five unused)⟩
  case case27 =>
    have ram := ‹addr.extractLsb' 4 4 = 3#4›
    rw [if_neg ‹_›, if_pos ram]
    exact ⟨rfl, congrArg (encodeHh · data time) (byte_of_high_nibble ram)⟩
  case case28 =>
    rw [if_neg ‹_›, if_neg ‹_›]
    simp only [imp_false] at *
    have off : addr.toNat < 0x10 ∨ 0x28 ≤ addr.toNat := by bv_omega
    exact oscWrite_reads data time (hh_hasNoForm_iff.2 ⟨off, ‹_›, ‹_›⟩)
  all_goals exact ⟨rfl, rfl⟩

/-- TRI writes, R152. -/
theorem decodeTriWrite_reads (addr data : Byte) (time : Word) :
    (decodeTriWrite addr data time).Reads (encodeTri addr data time) := by
  fun_cases decodeTriWrite addr data time
  case case7 =>
    have noForm : oscWriteHasForm 0 2 addr = false := by decide +revert
    exact oscWrite_reads data time noForm
  all_goals exact ⟨rfl, rfl⟩

/-- OSC_WRITE. -/
theorem decodeOscWrite_reads (inst sel : BitVec 4) (addr data : Byte) (time : Word) :
    (decodeOscWrite inst sel addr data time).Reads (encode (.oscWrite inst sel addr data time)) := by
  fun_cases decodeOscWrite inst sel addr data time
  case case1 psg => obtain ⟨rfl, hi⟩ := psg; exact decodePsgWrite_reads addr data time hi
  case case2 hh => obtain ⟨rfl, rfl⟩ := hh; exact decodeHhWrite_reads addr data time
  case case3 tri => obtain ⟨rfl, rfl⟩ := tri; exact decodeTriWrite_reads addr data time
  case case4 psg hh tri => exact oscWrite_reads data time (oscWrite_hasNoForm addr psg hh tri)

/-- OSC_READ. -/
theorem decodeOscRead_reads (inst sel : BitVec 4) (addr : Byte) (time : Word) :
    (decodeOscRead inst sel addr time).Reads (encode (.oscRead inst sel addr time)) := by
  fun_cases decodeOscRead inst sel addr time
  case case1 hh ram =>
    obtain ⟨rfl, rfl⟩ := hh
    exact ⟨rfl, congrArg (fun b => encode (.oscRead 0 1 b time)) (byte_of_high_nibble ram)⟩
  case case2 hh ram => obtain ⟨rfl, rfl⟩ := hh; exact ⟨decide_eq_true ram, rfl⟩
  case case3 _ tri => obtain ⟨rfl, rfl, rfl⟩ := tri; exact ⟨rfl, rfl⟩
  case case4 hh tri => exact ⟨by rw [Instr.wf, oscRead_hasNoForm_iff.2 ⟨hh, tri⟩]; rfl, rfl⟩

/-- An address without a meaning stands for itself, R432. -/
theorem fmWriteNoEffect_reads {port : FmPort} {addr : Byte} (inst : BitVec 1) (data : Byte)
    (h : fmNoEffectAddr port addr = true) :
    (Instr.fmWriteNoEffect inst port addr data).Reads (encodeFm inst port addr data) :=
  ⟨h, rfl⟩

/-- The global FM registers, R153. -/
theorem decodeFmGlobal_reads (inst : BitVec 1) (port : FmPort) {addr : Byte} (data : Byte) (group : addr.extractLsb' 4 4 = 2#4) :
    (decodeFmGlobal inst port addr data).Reads (encodeFm inst port addr data) := by
  cases port with
  | p0 =>
    fun_cases decodeFmGlobal inst .p0 addr data
    case case9 => exact fmWriteNoEffect_reads inst data (by decide +revert)
    case case10 port => exact absurd rfl port
    all_goals exact ⟨rfl, rfl⟩
  | p1 => exact fmWriteNoEffect_reads inst data (by revert addr; decide)

/-- The FM channel registers, R155. -/
theorem decodeFmChannel_reads (inst : BitVec 1) (port : FmPort) {addr : Byte} (data : Byte)
    (group : addr.extractLsb' 4 4 = 0xA#4 ∨ addr.extractLsb' 4 4 = 0xB#4) :
    (decodeFmChannel inst port addr data).Reads (encodeFm inst port addr data) := by
  fun_cases decodeFmChannel inst port addr data
  case case5 hport | case7 hport =>
    subst hport; exact ⟨rfl, congrArg (encodeFm inst .p0 · data) (byte_of_high_six ‹_›)⟩
  case case6 hport | case8 hport =>
    cases port with
    | p0 => exact absurd rfl hport
    | p1 => exact fmWriteNoEffect_reads inst data (by decide +revert)
  case case9 => exact fmWriteNoEffect_reads inst data (by cases port <;> decide +revert)
  all_goals exact ⟨rfl, congrArg (encodeFm inst port · data) (byte_of_high_six ‹_›)⟩

/-- An FM_WRITE on INST and SEL below 2 is one on the unit and port they name. -/
theorem encodeFm_of_high {inst sel : BitVec 4} (addr data : Byte) (hs : sel.extractLsb' 1 3 = 0#3)
    (hi : inst.extractLsb' 1 3 = 0#3) :
    encodeFm (inst.extractLsb' 0 1) (fmPortOf sel) addr data = encode (.fmWrite inst sel addr data) := by
  rw [encodeFm, instNibble_of_high hi, fmPortSel_of_high hs]; rfl

/-- FM_WRITE, R154. -/
theorem decodeFmWrite_reads (inst sel : BitVec 4) (addr data : Byte) :
    (decodeFmWrite inst sel addr data).Reads (encode (.fmWrite inst sel addr data)) := by
  unfold decodeFmWrite
  split
  case isFalse noUnit => exact ⟨by rw [Instr.wf, fmWrite_hasNoForm_iff.2 noUnit]; rfl, rfl⟩
  case isTrue unit =>
    obtain ⟨hs, hi⟩ := unit
    rw [← encodeFm_of_high addr data hs hi]
    generalize fmPortOf sel = port
    generalize inst.extractLsb' 0 1 = i
    dsimp only
    split
    case h_1 group => exact decodeFmGlobal_reads i port data group
    case h_9 group => exact decodeFmChannel_reads i port data (.inl group)
    case h_10 group => exact decodeFmChannel_reads i port data (.inr group)
    case h_11 => exact fmWriteNoEffect_reads i data (by cases port <;> decide +revert)
    all_goals
      next group => exact ⟨rfl, congrArg (encodeFm i port · data) (byte_of_group group)⟩

/-- A command that decodes is the one of its instruction, which is well formed. -/
theorem decode_reads {c : Command} {i : Instr} (h : decode c = .ok i) : i.Reads c := by
  unfold decode at h
  split at h
  case h_21 => cases h
  all_goals
    obtain ⟨zero, rfl⟩ := whenZero_ok_iff.1 h
    simp only [Bool.and_eq_true, decide_eq_true_eq, inst0_iff, sel0_iff, a0_iff, b0_iff, reg0_iff, fields0_iff] at zero
  case h_11 hopc =>
    have word : encode (.oscWrite c.inst c.sel c.addr c.data c.w1) = c := command_of_fields hopc rfl rfl rfl rfl rfl zero
    have reads := decodeOscWrite_reads c.inst c.sel c.addr c.data c.w1
    rwa [word] at reads
  case h_12 hopc =>
    obtain ⟨data0, b0⟩ := zero
    have word : encode (.oscRead c.inst c.sel c.addr c.w1) = c := command_of_fields hopc rfl rfl rfl data0 rfl b0
    have reads := decodeOscRead_reads c.inst c.sel c.addr c.w1
    rwa [word] at reads
  case h_17 hopc =>
    obtain ⟨a0, b0⟩ := zero
    have word : encode (.fmWrite c.inst c.sel c.addr c.data) = c := command_of_fields hopc rfl rfl rfl rfl a0 b0
    have reads := decodeFmWrite_reads c.inst c.sel c.addr c.data
    rwa [word] at reads
  -- In a row without register forms a field is an operand, or the row's check makes it what `encode` writes.
  all_goals
    refine ⟨rfl, ?_⟩
    apply command_of_fields <;> simp_all

/-- Settles O4: each row's decoder reads the word it is given. -/
theorem encodeOfDecode : Obligations.EncodeOfDecode := fun _ _ => decode_reads

/-! ## What the command of an instruction decodes to -/

/-- An OSC_WRITE word. -/
theorem decode_oscWrite (inst sel : BitVec 4) (addr data : Byte) (time : Word) :
    decode (encode (.oscWrite inst sel addr data time)) = .ok (decodeOscWrite inst sel addr data time) := by
  simp [decode, encode, cmdA]

/-- An OSC_READ word. -/
theorem decode_oscRead (inst sel : BitVec 4) (addr : Byte) (time : Word) :
    decode (encode (.oscRead inst sel addr time)) = .ok (decodeOscRead inst sel addr time) := by
  simp [decode, encode, cmdA]

/-- An FM_WRITE word. -/
theorem decode_fmWrite (inst sel : BitVec 4) (addr data : Byte) :
    decode (encode (.fmWrite inst sel addr data)) = .ok (decodeFmWrite inst sel addr data) := by
  simp [decode, encode, cmdA]

/-- An OSC_WRITE word of a PSG unit. -/
theorem decode_encodePsg (inst : BitVec 1) (addr data : Byte) (time : Word) :
    decode (encodePsg inst addr data time) = .ok (decodePsgWrite (instNibble inst) addr data time) := by
  refine (decode_oscWrite (instNibble inst) 0 addr data time).trans (congrArg _ ?_)
  rw [decodeOscWrite, if_pos ⟨rfl, instNibble_high inst⟩]

/-- An OSC_WRITE word of the HH group. -/
theorem decode_encodeHh (addr data : Byte) (time : Word) :
    decode (encodeHh addr data time) = .ok (decodeHhWrite addr data time) :=
  decode_oscWrite 0 1 addr data time

/-- An OSC_WRITE word of the TRI group. -/
theorem decode_encodeTri (addr data : Byte) (time : Word) :
    decode (encodeTri addr data time) = .ok (decodeTriWrite addr data time) :=
  decode_oscWrite 0 2 addr data time

/-- An FM_WRITE word of a unit and port. -/
theorem decode_encodeFm (inst : BitVec 1) (port : FmPort) (addr data : Byte) :
    decode (encodeFm inst port addr data) = .ok (decodeFmWrite (instNibble inst) (fmPortSel port) addr data) :=
  decode_fmWrite (instNibble inst) (fmPortSel port) addr data

/-- The HH addresses without a register of their own, R395, R378. -/
theorem decodeHhWrite_off_registers {addr : Byte} (data : Byte) (time : Word) (off : addr.toNat < 0x10 ∨ 0x28 ≤ addr.toNat) :
    decodeHhWrite addr data time =
      if addr.extractLsb' 3 5 = 0b00101#5 then .oscWriteHhUnused28 (addr.extractLsb' 0 3) data time
      else if addr.extractLsb' 4 4 = 3#4 then .oscWriteHhWaveRam (addr.extractLsb' 0 4) data time
      else .oscWrite 0 1 addr data time := by
  unfold decodeHhWrite
  split
  case h_25 => rfl
  all_goals exact absurd off (by decide)

/-- A word without a register form is a plain OSC_WRITE. -/
theorem decodeOscWrite_plain {inst sel : BitVec 4} {addr : Byte} (data : Byte) (time : Word)
    (h : oscWriteHasForm inst sel addr = false) :
    decodeOscWrite inst sel addr data time = .oscWrite inst sel addr data time := by
  unfold decodeOscWrite
  split
  case isTrue psg =>
    obtain ⟨rfl, hi⟩ := psg
    obtain ⟨latch, stereo⟩ := (psg_hasNoForm_iff hi).1 h
    rw [decodePsgWrite, if_neg latch, if_neg stereo]
  split
  case isTrue hh =>
    obtain ⟨rfl, rfl⟩ := hh
    obtain ⟨off, unused, ram⟩ := hh_hasNoForm_iff.1 h
    rw [decodeHhWrite_off_registers data time off, if_neg unused, if_neg ram]
  split
  case isTrue tri =>
    obtain ⟨rfl, rfl⟩ := tri
    unfold decodeTriWrite
    split
    case h_7 => rfl
    all_goals exact absurd h (by decide)
  rfl

/-- A word without a register form is a plain OSC_READ. -/
theorem decodeOscRead_plain {inst sel : BitVec 4} {addr : Byte} (time : Word) (h : oscReadHasForm inst sel addr = false) :
    decodeOscRead inst sel addr time = .oscRead inst sel addr time := by
  obtain ⟨hh, tri⟩ := oscRead_hasNoForm_iff.1 h
  rw [decodeOscRead, if_neg hh, if_neg tri]

/-- A word without a register form is a plain FM_WRITE. -/
theorem decodeFmWrite_plain {inst sel : BitVec 4} (addr data : Byte) (h : fmWriteHasForm inst sel = false) :
    decodeFmWrite inst sel addr data = .fmWrite inst sel addr data :=
  if_neg (fmWrite_hasNoForm_iff.1 h)

/-- An address without a meaning among the global registers, R432. -/
theorem decodeFmGlobal_noEffect (inst : BitVec 1) {port : FmPort} {addr : Byte} (data : Byte)
    (h : fmNoEffectAddr port addr = true) : decodeFmGlobal inst port addr data = .fmWriteNoEffect inst port addr data := by
  cases port with
  | p1 => rfl
  | p0 =>
    unfold decodeFmGlobal
    rw [if_pos rfl]
    split
    case h_9 => rfl
    all_goals exact absurd h (by decide)

/-- An address without a meaning among the channel registers, R432. -/
theorem decodeFmChannel_noEffect (inst : BitVec 1) {port : FmPort} {addr : Byte} (data : Byte)
    (h : fmNoEffectAddr port addr = true) : decodeFmChannel inst port addr data = .fmWriteNoEffect inst port addr data := by
  unfold decodeFmChannel
  dsimp only
  split
  case h_7 => rfl
  case h_5 | h_6 =>
    cases port with
    | p0 => exact absurd h (by decide +revert)
    | p1 => rfl
  all_goals exact absurd h (by cases port <;> decide +revert)

/-- An address without a meaning, R432. -/
theorem decodeFmWrite_noEffect (inst : BitVec 1) {port : FmPort} {addr : Byte} (data : Byte)
    (h : fmNoEffectAddr port addr = true) :
    decodeFmWrite (instNibble inst) (fmPortSel port) addr data = .fmWriteNoEffect inst port addr data := by
  rw [decodeFmWrite, if_pos ⟨fmPortSel_high port, instNibble_high inst⟩, fmPortOf_fmPortSel, instNibble_low]
  dsimp only
  split
  case h_1 => exact decodeFmGlobal_noEffect inst data h
  case h_9 | h_10 => exact decodeFmChannel_noEffect inst data h
  case h_11 => rfl
  all_goals exact absurd h (by cases port <;> decide +revert)

/-- Settles O3: a register form is the reading of its own address, a plain command that of a word without a form. -/
theorem decodeOfEncode : Obligations.DecodeOfEncode := by
  intro i wf
  cases i with
  | nop | blockReset | bufSetSampleRate | bufSetClockRate | bufClear | bufAddDelta | bufEndFrame | bufSamplesAvail | bufReadStereo
  | bufRemoveSamples | oscRun | oscEndFrame | oscReset | oscWaveStatus | fmRender | fmReset | fmSetRate =>
    simp [decode, encode, cmdA]
  | oscWrite inst sel addr data time =>
    rw [decode_oscWrite, decodeOscWrite_plain data time (by simpa [Instr.wf] using wf)]
  | oscRead inst sel addr time =>
    rw [decode_oscRead, decodeOscRead_plain time (by simpa [Instr.wf] using wf)]
  | fmWrite inst sel addr data =>
    rw [decode_fmWrite, decodeFmWrite_plain addr data (by simpa [Instr.wf] using wf)]
  | oscWritePsgLatch inst ch ty data time =>
    rw [encode, decode_encodePsg]
    simp [decodePsgWrite, Machine.latchByte_fields]
  | oscWritePsgData inst data time =>
    rw [encode, decode_encodePsg]
    simp [decodePsgWrite, topBit_fields]
  | oscWritePsgStereo inst data time =>
    rw [encode, decode_encodePsg]
    simp [decodePsgWrite]
  | oscWriteHhNr10 data time | oscWriteHhNr11 data time | oscWriteHhNr12 data time | oscWriteHhNr13 data time
  | oscWriteHhNr14 data time | oscWriteHhUnused15 data time | oscWriteHhNr21 data time | oscWriteHhNr22 data time
  | oscWriteHhNr23 data time | oscWriteHhNr24 data time | oscWriteHhNr30 data time | oscWriteHhNr31 data time
  | oscWriteHhNr32 data time | oscWriteHhNr33 data time | oscWriteHhNr34 data time | oscWriteHhUnused1F data time
  | oscWriteHhNr41 data time | oscWriteHhNr42 data time | oscWriteHhNr43 data time | oscWriteHhNr44 data time
  | oscWriteHhNr50 data time | oscWriteHhNr51 data time | oscWriteHhUnused27 data time =>
    exact decode_encodeHh _ data time
  | oscWriteHhNr52Off data time =>
    rw [encode, decode_encodeHh]
    simp [decodeHhWrite, topBit_fields]
  | oscWriteHhNr52On data time =>
    rw [encode, decode_encodeHh]
    simp [decodeHhWrite, topBit_fields]
  | oscWriteHhUnused28 low data time =>
    obtain ⟨off, unused, hlow⟩ := unused28_fields low
    rw [encode, decode_encodeHh, decodeHhWrite_off_registers data time (.inr off), if_pos unused, hlow]
  | oscWriteHhWaveRam low data time =>
    obtain ⟨off, unused, ram, hlow⟩ := waveRam_fields low
    rw [encode, decode_encodeHh, decodeHhWrite_off_registers data time (.inr off), if_neg unused, if_pos ram, hlow]
  | oscWriteTri08 data time | oscWriteTri09 data time | oscWriteTri0A data time | oscWriteTri0B data time
  | oscWriteTri15 data time | oscWriteTri17 data time =>
    exact decode_encodeTri _ data time
  | oscReadHhReg addr time =>
    refine (decode_oscRead 0 1 addr time).trans (congrArg _ ?_)
    exact if_neg (of_decide_eq_true wf)
  | oscReadHhWaveRam low time =>
    obtain ⟨_, _, ram, hlow⟩ := waveRam_fields low
    refine (decode_oscRead 0 1 (3#4 ++ low) time).trans (congrArg _ ((if_pos ram).trans ?_))
    rw [hlow]
  | oscReadTri15 time => exact decode_oscRead 0 2 0x15 time
  | fmWriteLfo inst data | fmWriteTimer24 inst data | fmWriteTimer25 inst data | fmWriteTimer26 inst data
  | fmWriteMode27 inst data | fmWriteKey inst data | fmWriteDacData inst data | fmWriteDacEnable inst data =>
    rw [encode, decode_encodeFm]
    simp [decodeFmWrite, decodeFmGlobal]
  | fmWriteDtMul inst port slot ch data | fmWriteTl inst port slot ch data | fmWriteKsAr inst port slot ch data
  | fmWriteAmD1r inst port slot ch data | fmWriteD2r inst port slot ch data | fmWriteSlRr inst port slot ch data
  | fmWriteSsgEg inst port slot ch data =>
    rw [encode, encodeFmOp, decode_encodeFm]
    simp [decodeFmWrite, Machine.opAddr_fields]
  | fmWriteFnumLow inst port ch data | fmWriteFnumHigh inst port ch data | fmWriteFbAlgo inst port ch data
  | fmWritePan inst port ch data | fmWriteSplitLow inst ch data | fmWriteSplitHigh inst ch data =>
    rw [encode, encodeFmCh, decode_encodeFm]
    simp [decodeFmWrite, decodeFmChannel, Machine.chanAddr_fields]
  | fmWriteNoEffect inst port addr data =>
    exact (decode_encodeFm inst port addr data).trans (congrArg _ (decodeFmWrite_noEffect inst data wf))

/-- Settles O5: the decoder evaluates on each word. -/
theorem sampleWordsDecode : Obligations.SampleWordsDecode := ⟨rfl, rfl, rfl, rfl, rfl, rfl, rfl, rfl, rfl⟩

end Sys2Proof
end

section
/-! PROOFS. A command that names no unit is ILLEGAL (spec 30_encoding.md R144): which unit an instruction's command can lack, and
that its rule then raises ILLEGAL before anything else (60_exceptions.md R604). -/

namespace Sys2Proof.Machine

/-! ## Operands that name nothing -/

/-- A SEL above 2 names no DSB. -/
theorem dsbOperand_none {sel : BitVec 4} (h : 2 < sel.toNat) : dsbOperand sel = none := by
  revert sel; decide

/-- A SEL above 1 names no FM port. -/
theorem portOperand_none {sel : BitVec 4} (h : 1 < sel.toNat) : portOperand sel = none := by
  revert sel; decide

/-- INST and SEL that name no group of the block. -/
theorem groupOperand_none {p : Params} {inst sel : BitVec 4} (psg : ¬ (sel = 0 ∧ inst.toNat < p.nPsg))
    (hh : ¬ (sel = 1 ∧ inst = 0 ∧ p.hasHh = true)) (tri : ¬ (sel = 2 ∧ inst = 0 ∧ p.hasTri = true)) :
    groupOperand p inst sel = none := by
  unfold groupOperand
  split
  · rw [instOperand_none (not_lt.1 fun k => psg ⟨rfl, k⟩)]; rfl
  · exact if_neg fun k => hh ⟨rfl, k⟩
  · exact if_neg fun k => tri ⟨rfl, k⟩
  · rfl

/-- SEL 0 names a PSG group at most. -/
theorem groupOperand_sel0 (p : Params) (inst : BitVec 4) :
    groupOperand p inst 0 = none ∨ ∃ i, groupOperand p inst 0 = some (.psg i) := by
  show (instOperand p.nPsg inst).map GroupRef.psg = none ∨ ∃ i, (instOperand p.nPsg inst).map GroupRef.psg = some (.psg i)
  cases instOperand p.nPsg inst with
  | none => exact .inl rfl
  | some i => exact .inr ⟨i, rfl⟩

/-! ## Missing units, by the opcode -/

section

variable {p : Params} {opc : Byte} {inst sel : BitVec 4} {addr data : Byte} {a b : Word}

/-- BUF_ADD_DELTA names a DSB. -/
theorem unitMissing_dsb (h : unitMissing p ⟨word0 0x13 inst sel addr data, a, b⟩) : dsbOperand sel = none := by
  have missing : 2 < sel.toNat := by simpa [unitMissing] using h
  exact dsbOperand_none missing

/-- OSC_WRITE, OSC_RUN, OSC_END_FRAME and OSC_RESET name a group. -/
theorem unitMissing_group (hopc : opc = 0x20 ∨ opc = 0x22 ∨ opc = 0x23 ∨ opc = 0x24)
    (h : unitMissing p ⟨word0 opc inst sel addr data, a, b⟩) : groupOperand p inst sel = none := by
  have missing : ¬ (sel = 0 ∧ inst.toNat < p.nPsg) ∧ ¬ (sel = 1 ∧ inst = 0 ∧ p.hasHh = true) ∧
      ¬ (sel = 2 ∧ inst = 0 ∧ p.hasTri = true) := by
    obtain rfl | rfl | rfl | rfl := hopc <;> simpa [unitMissing] using h
  obtain ⟨psg, hh, tri⟩ := missing
  exact groupOperand_none psg hh tri

/-- OSC_READ names a group that is not write-only. -/
theorem unitMissing_read (h : unitMissing p ⟨word0 0x21 inst sel addr data, a, b⟩) :
    groupOperand p inst sel = none ∨ sel = 0 := by
  have missing : (¬ (sel = 0 ∧ inst.toNat < p.nPsg) ∧ ¬ (sel = 1 ∧ inst = 0 ∧ p.hasHh = true) ∧
      ¬ (sel = 2 ∧ inst = 0 ∧ p.hasTri = true)) ∨ sel = 0 := by
    simpa [unitMissing] using h
  obtain ⟨psg, hh, tri⟩ | sel0 := missing
  · exact .inl (groupOperand_none psg hh tri)
  · exact .inr sel0

/-- OSC_WAVE_STATUS is of the HH group, R272. -/
theorem unitMissing_waveStatus (h : unitMissing p ⟨word0 0x25 inst sel addr data, a, b⟩) : p.hasHh = false := by
  simpa [unitMissing] using h

/-- FM_WRITE names an FM unit and a port. -/
theorem unitMissing_fmWrite (h : unitMissing p ⟨word0 0x30 inst sel addr data, a, b⟩) :
    instOperand p.nFm inst = none ∨ portOperand sel = none := by
  have missing : p.nFm ≤ inst.toNat ∨ 1 < sel.toNat := by simpa [unitMissing] using h
  exact missing.imp instOperand_none portOperand_none

/-- FM_RENDER, FM_RESET and FM_SET_RATE name an FM unit. -/
theorem unitMissing_fm (hopc : opc = 0x31 ∨ opc = 0x32 ∨ opc = 0x33)
    (h : unitMissing p ⟨word0 opc inst sel addr data, a, b⟩) : instOperand p.nFm inst = none := by
  have missing : p.nFm ≤ inst.toNat := by obtain rfl | rfl | rfl := hopc <;> simpa [unitMissing] using h
  exact instOperand_none missing

end

/-! ## Missing units of the register forms -/

section

variable {p : Params} {addr data : Byte} {time : Word}

/-- A missing HH group. -/
theorem hasHh_of_groupOperand (h : groupOperand p 0 1 = none) : p.hasHh = false := by simpa [groupOperand] using h

/-- A missing TRI group. -/
theorem hasTri_of_groupOperand (h : groupOperand p 0 2 = none) : p.hasTri = false := by simpa [groupOperand] using h

/-- A PSG form names its unit. -/
theorem encodePsg_missing {inst : BitVec 1} (h : unitMissing p (encodePsg inst addr data time)) :
    instOperand p.nPsg (instNibble inst) = none :=
  Option.map_eq_none_iff.1 (unitMissing_group (.inl rfl) h)

/-- An HH form is of the HH group. -/
theorem encodeHh_missing (h : unitMissing p (encodeHh addr data time)) : p.hasHh = false :=
  hasHh_of_groupOperand (unitMissing_group (.inl rfl) h)

/-- A TRI form is of the TRI group. -/
theorem encodeTri_missing (h : unitMissing p (encodeTri addr data time)) : p.hasTri = false :=
  hasTri_of_groupOperand (unitMissing_group (.inl rfl) h)

/-- An HH read form is of the HH group. -/
theorem hhRead_missing (h : unitMissing p (encode (.oscRead 0 1 addr time))) : p.hasHh = false :=
  hasHh_of_groupOperand ((unitMissing_read h).resolve_right (by decide))

/-- A TRI read form is of the TRI group. -/
theorem triRead_missing (h : unitMissing p (encode (.oscRead 0 2 addr time))) : p.hasTri = false :=
  hasTri_of_groupOperand ((unitMissing_read h).resolve_right (by decide))

/-- An FM form names its unit; its port exists. -/
theorem encodeFm_missing {inst : BitVec 1} {port : FmPort} (h : unitMissing p (encodeFm inst port addr data)) :
    instOperand p.nFm (instNibble inst) = none :=
  (unitMissing_fmWrite h).resolve_right (by cases port <;> decide)

end

/-! ## A rule whose unit is missing raises ILLEGAL -/

section

variable {s : State} {i : Instr}

/-- A rule that starts with an operand that names nothing. -/
theorem orIllegal_none {α : Type} {w0 : Word} {o : Option α} {rest : α → Res State} (hf : s.fault = none) (ho : o = none) :
    runCommand (do let a ← orIllegal w0 o; rest a) s = .next (s.faulted .illegal w0) := by
  subst ho
  exact runCommand_illegal hf rfl

/-- A rule that starts with a check that fails. -/
theorem checkLegal_false {w0 : Word} {ok : Bool} {rest : Res State} (hf : s.fault = none) (hok : ok = false) :
    runCommand (do checkLegal w0 ok; rest) s = .next (s.faulted .illegal w0) := by
  subst hok
  exact runCommand_illegal hf rfl

/-- A PSG form. -/
theorem psgForm_illegal {inst : BitVec 1} {time : Word} {rule : Psg → Mix → Res (Psg × Mix × Bool)} (hf : s.fault = none)
    (h : instOperand s.params.nPsg (instNibble inst) = none) :
    psgForm i inst time rule s = .next (s.faulted .illegal (encode i).w0) :=
  orIllegal_none hf h

/-- An HH form. -/
theorem hhForm_illegal {time : Word} {rule : Hh → Mix → Res (Hh × Mix × Bool)} (hf : s.fault = none)
    (h : s.params.hasHh = false) : hhForm i time rule s = .next (s.faulted .illegal (encode i).w0) :=
  checkLegal_false hf h

/-- A TRI form. -/
theorem triForm_illegal {time : Word} {rule : TriRule} (hf : s.fault = none) (h : s.params.hasTri = false) :
    triForm i time rule s = .next (s.faulted .illegal (encode i).w0) :=
  checkLegal_false hf h

/-- An HH read form. -/
theorem hhReadForm_illegal {time : Word} {addr : Byte} (hf : s.fault = none) (h : s.params.hasHh = false) :
    hhReadForm i time addr s = .next (s.faulted .illegal (encode i).w0) :=
  checkLegal_false hf (by rw [h]; rfl)

/-- A TRI read form. -/
theorem triReadForm_illegal {time : Word} {value : Tri → Byte} (hf : s.fault = none) (h : s.params.hasTri = false) :
    triReadForm i time value s = .next (s.faulted .illegal (encode i).w0) :=
  checkLegal_false hf h

/-- An FM form. -/
theorem fmForm_illegal {inst : BitVec 1} {port : FmPort} {addr data : Byte} {refused : Bool} {rule : Fm → Fm}
    (hf : s.fault = none) (h : instOperand s.params.nFm (instNibble inst) = none) :
    fmForm i inst port addr data refused rule s = .next (s.faulted .illegal (encode i).w0) :=
  orIllegal_none hf h

/-- OSC_READ, on a missing group or on a PSG. -/
theorem execOscRead_illegal {inst sel : BitVec 4} {addr : Byte} {time : Word} (hf : s.fault = none)
    (h : groupOperand s.params inst sel = none ∨ sel = 0) :
    execOscRead inst sel addr time s = .next (s.faulted .illegal (encode (.oscRead inst sel addr time)).w0) := by
  have unit : groupOperand s.params inst sel = none ∨ ∃ i, groupOperand s.params inst sel = some (.psg i) := by
    obtain missing | rfl := h
    · exact .inl missing
    · exact groupOperand_sel0 s.params inst
  obtain missing | ⟨i, psg⟩ := unit
  · exact orIllegal_none hf missing
  · exact runCommand_illegal hf (by rw [psg]; rfl)

/-- FM_WRITE, on a missing unit or port. -/
theorem execFmWrite_illegal {inst sel : BitVec 4} {addr data : Byte} (hf : s.fault = none)
    (h : instOperand s.params.nFm inst = none ∨ portOperand sel = none) :
    execFmWrite inst sel addr data s = .next (s.faulted .illegal (encode (.fmWrite inst sel addr data)).w0) := by
  cases unit : instOperand s.params.nFm inst with
  | none => exact orIllegal_none hf unit
  | some i =>
    have noPort : portOperand sel = none := h.resolve_left (by rw [unit]; exact nofun)
    exact runCommand_illegal hf (by rw [unit, noPort]; rfl)

end

/-- Settles O38: by the unit an instruction's command names, in the order of the rules' checks. -/
theorem missingUnitsAreIllegal : Obligations.MissingUnitsAreIllegal := by
  intro i s hf h
  cases i with
  | nop | blockReset | bufSetSampleRate | bufSetClockRate | bufClear | bufEndFrame | bufSamplesAvail | bufReadStereo
  | bufRemoveSamples => exact absurd h (by simp [unitMissing, encode, cmdA])
  | bufAddDelta => exact runCommand_illegal hf (by rw [onMix, unitMissing_dsb h]; rfl)
  | oscWrite | oscRun | oscEndFrame | oscReset => exact orIllegal_none hf (unitMissing_group (by decide) h)
  | oscRead => exact execOscRead_illegal hf (unitMissing_read h)
  | oscWaveStatus => exact checkLegal_false hf (unitMissing_waveStatus h)
  | fmWrite => exact execFmWrite_illegal hf (unitMissing_fmWrite h)
  | fmRender | fmReset | fmSetRate => exact orIllegal_none hf (unitMissing_fm (by decide) h)
  | oscWritePsgLatch | oscWritePsgData | oscWritePsgStereo => exact psgForm_illegal hf (encodePsg_missing h)
  | oscWriteHhNr10 | oscWriteHhNr11 | oscWriteHhNr12 | oscWriteHhNr13 | oscWriteHhNr14 | oscWriteHhUnused15 | oscWriteHhNr21
  | oscWriteHhNr22 | oscWriteHhNr23 | oscWriteHhNr24 | oscWriteHhNr30 | oscWriteHhNr31 | oscWriteHhNr32 | oscWriteHhNr33
  | oscWriteHhNr34 | oscWriteHhUnused1F | oscWriteHhNr41 | oscWriteHhNr42 | oscWriteHhNr43 | oscWriteHhNr44 | oscWriteHhNr50
  | oscWriteHhNr51 | oscWriteHhUnused27 | oscWriteHhNr52Off | oscWriteHhNr52On | oscWriteHhUnused28 | oscWriteHhWaveRam =>
    exact hhForm_illegal hf (encodeHh_missing h)
  | oscWriteTri08 | oscWriteTri09 | oscWriteTri0A | oscWriteTri0B | oscWriteTri15 | oscWriteTri17 =>
    exact triForm_illegal hf (encodeTri_missing h)
  | oscReadHhReg | oscReadHhWaveRam => exact hhReadForm_illegal hf (hhRead_missing h)
  | oscReadTri15 => exact triReadForm_illegal hf (triRead_missing h)
  | fmWriteLfo | fmWriteTimer24 | fmWriteTimer25 | fmWriteTimer26 | fmWriteMode27 | fmWriteKey | fmWriteDacData
  | fmWriteDacEnable | fmWriteDtMul | fmWriteTl | fmWriteKsAr | fmWriteAmD1r | fmWriteD2r | fmWriteSlRr | fmWriteSsgEg
  | fmWriteFnumLow | fmWriteFnumHigh | fmWriteSplitLow | fmWriteSplitHigh | fmWriteFbAlgo | fmWritePan | fmWriteNoEffect =>
    exact fmForm_illegal hf (encodeFm_missing h)

end Sys2Proof.Machine
end

section
/-! PROOFS. What the cells of a DSB sum to: a delta of amplitude `d` adds 2^15 `d`, because every row of the kernel sums to 2^15
(spec 40_delta_buffer.md R205, R207). -/

namespace Sys2Proof.Machine

/-! ## The sum of a store -/

/-- The sum over a first cell and the others. -/
theorem cellSum_cons (e : Nat × Word) (c : Store 32) : cellSum (e :: c) = e.2 + cellSum c := List.sum_cons

/-- Removing the cell at an address takes its value off. -/
theorem cellSum_remove {c : Store 32} {lo : Nat} (a : Nat) (h : Store.wfFrom lo c = true) :
    cellSum (c.filter fun e => decide (e.1 ≠ a)) = cellSum c - c.get a := by
  induction c generalizing lo with
  | nil => simp [Store.get]
  | cons e c ih =>
    obtain ⟨b, x⟩ := e
    simp only [Store.wfFrom, Bool.and_eq_true] at h
    have rest := ih h.2
    by_cases hb : b = a
    · subst hb
      rw [store_get_below h.2 (Nat.lt_succ_self b)] at rest
      rw [List.filter_cons_of_neg (by simp), rest, cellSum_cons, Store.get, if_pos rfl]
      ring
    · rw [List.filter_cons_of_pos (by simpa using hb), cellSum_cons, cellSum_cons, rest, Store.get, if_neg (Ne.symm hb)]
      ring

/-- Inserting or replacing a cell puts its value in for the one it had. -/
theorem cellSum_put {c : Store 32} {lo : Nat} (a : Nat) (v : Word) (h : Store.wfFrom lo c = true) :
    cellSum (c.put a v) = cellSum c + v - c.get a := by
  induction c generalizing lo with
  | nil => simp [Store.put, Store.get, cellSum]
  | cons e c ih =>
    obtain ⟨b, x⟩ := e
    simp only [Store.wfFrom, Bool.and_eq_true] at h
    rw [Store.put, Store.get]
    split
    · next lt =>
      rw [if_neg (Nat.ne_of_lt lt), store_get_below h.2 (Nat.lt_succ_of_lt lt), cellSum_cons (a, v)]
      ring
    · split
      · rw [cellSum_cons, cellSum_cons]
        ring
      · rw [cellSum_cons, ih h.2, cellSum_cons]
        ring

/-- Writing a cell of a canonical store puts its value in for the one it had. -/
theorem cellSum_set {c : Store 32} (a : Nat) (v : Word) (h : Store.wf c = true) :
    cellSum (c.set a v) = cellSum c + v - c.get a := by
  unfold Store.set
  split
  · next zero => rw [cellSum_remove a h, zero]; ring
  · exact cellSum_put a v h

/-! ## The rows of the kernel -/

/-- The residues of a row as words sum to its sum as signed integers, modulo 2^32. -/
theorem sum_eq_rowSum (row : List Word) : row.sum = wrap32 (rowSum row) := by
  induction row with
  | nil => rfl
  | cons x row ih =>
    have cons : rowSum (x :: row) = sext x + rowSum row := List.sum_cons
    rw [List.sum_cons, cons, ih]
    simp only [wrap32, sext, BitVec.ofInt_add, BitVec.ofInt_toInt]

/-- The taps `0 .. KW - 1` of a row of KW residues are the row. -/
theorem sum_range_getD (row : List Word) : ((List.range row.length).map fun j => row.getD j 0).sum = row.sum := by
  congr 1
  refine List.ext_getElem (by simp) fun n h _ => ?_
  rw [List.length_map, List.length_range] at h
  simp [h]

/-- Every row of the kernel sums to 2^MIX_SHIFT, R205. -/
theorem kernel_sum {p : Params} {ph : Nat} (hp : p.wf = true) (h : ph < 2 ^ p.phaseBits) :
    ((List.range p.kw).map (kernelTap p ph)).sum = 0x8000 := by
  simp only [Params.wf, Bool.and_eq_true, decide_eq_true_eq, List.all_eq_true] at hp
  obtain ⟨⟨⟨⟨⟨⟨⟨⟨⟨⟨⟨⟨_, kernelLength⟩, rows⟩, _⟩, _⟩, _⟩, _⟩, _⟩, _⟩, _⟩, _⟩, _⟩, _⟩ := hp
  have there : ph < p.kernel.length := by rw [kernelLength]; exact h
  obtain ⟨width, total⟩ := rows _ (List.getElem_mem there)
  have row : p.kernel.getD ph [] = p.kernel[ph] := by simp [there]
  unfold kernelTap
  rw [row, ← width, sum_range_getD, sum_eq_rowSum, total]
  rfl

/-- A placed delta has a phase of the kernel, R204. -/
theorem place_phase {p : Params} {m : Mix} {t : Int} {i ph : Nat} (h : m.place p t = .ok (i, ph)) :
    ph < 2 ^ p.phaseBits := by
  have inRow : m.ph p t < 2 ^ p.phaseBits := by
    have pos : (0 : Int) < 2 ^ p.phaseBits := by positivity
    have low := Int.emod_nonneg (asr (m.pos t) (Config.timeBits - p.phaseBits)) (ne_of_gt pos)
    have high := Int.emod_lt_of_pos (asr (m.pos t) (Config.timeBits - p.phaseBits)) pos
    unfold Mix.ph
    zify
    rwa [Int.toNat_of_nonneg low]
  unfold Mix.place at h
  split at h
  · split at h
    · cases h
    · cases h; exact Nat.two_pow_pos _
  · split at h
    · split at h
      · cases h
      · cases h; exact inRow
    · cases h; exact inRow

/-! ## What deltas put into a DSB -/

/-- A tap's new cell as a word, R207. -/
theorem wrap32_tap (x k : Word) (d : Int) : wrap32 (sext x + d * sext k) = x + wrap32 d * k := by
  simp only [wrap32, sext, BitVec.ofInt_add, BitVec.ofInt_mul, BitVec.ofInt_toInt]

/-- The taps of a delta add the delta times their residues. -/
theorem cellSum_addTaps (p : Params) (ph i : Nat) (d : Int) (n : Nat) {c : Store 32} (h : Store.wf c = true) :
    cellSum (addTaps p ph i d n c) = cellSum c + wrap32 d * ((List.range n).map (kernelTap p ph)).sum := by
  induction n with
  | zero => simp [addTaps]
  | succ n ih =>
    rw [addTaps, cellSum_set _ _ (addTaps_wf p ph i d n h), wrap32_tap, ih, List.range_succ, List.map_append, List.sum_append,
      List.map_singleton, List.sum_singleton]
    ring

end Sys2Proof.Machine
end

section
/-! PROOFS. What the DSBs hold follows what the oscillators have emitted (spec 40_delta_buffer.md R205, R207, 42_osc_common.md R261,
R265): a run, a route change and a register rule put 2^15 times the change of the amplitudes into the DSBs they are routed to. -/

namespace Sys2Proof.Machine

/-! ## Amounts put into the DSBs -/

/-- Deltas from `m` to `m'` put amplitudes into the DSBs, `d u` into DSB `u`: its cells sum to 2^15 `d u` more. The cells stay
canonical, without which a store has no sum to speak of (entry 10 of the assumption log). -/
def Puts (p : Params) (m m' : Mix) (d : DsbName → Word) : Prop :=
  m.cellsWf p → m'.cellsWf p ∧ ∀ u, cellSum (m'.dsb u).cells = cellSum (m.dsb u).cells + 0x8000 * d u

/-- Nothing is put in. -/
theorem puts_zero {p : Params} (m : Mix) : Puts p m m 0 := fun wf => ⟨wf, fun u => by simp⟩

/-- Nothing is put in where the amplitudes are the same. -/
theorem puts_same {p : Params} {m : Mix} {a b : DsbName → Word} (h : b = a) : Puts p m m (b - a) := by
  rw [h, sub_self]
  exact puts_zero m

/-- Amounts add up. -/
theorem puts_add {p : Params} {m m' m'' : Mix} {d d' : DsbName → Word} (h : Puts p m m' d) (h' : Puts p m' m'' d') :
    Puts p m m'' (d + d') := fun wf => by
  obtain ⟨wf', sum⟩ := h wf
  obtain ⟨wf'', sum'⟩ := h' wf'
  refine ⟨wf'', fun u => ?_⟩
  rw [sum' u, sum u, Pi.add_apply]
  ring

/-- Changes of amplitudes follow one on the other. -/
theorem puts_trans {p : Params} {m m' m'' : Mix} {a b c : DsbName → Word} (h : Puts p m m' (b - a)) (h' : Puts p m' m'' (c - b)) :
    Puts p m m'' (c - a) := by
  have sum := puts_add h h'
  rwa [show b - a + (c - b) = c - a by abel] at sum

/-- An amplitude put into the DSB of a route; into none where the route has none. -/
def Route.puts (r : Route) (v : Word) (u : DsbName) : Word := if r.dsb = some u then v else 0

/-- Amplitudes put into the DSB of one route. -/
theorem route_puts_sub (r : Route) (v w : Word) : r.puts v - r.puts w = r.puts (v - w) := by
  funext u
  simp only [Pi.sub_apply, Route.puts]
  split
  · rfl
  · exact sub_self 0

/-- The amplitude 0 puts nothing in. -/
theorem route_puts_zero (r : Route) : r.puts 0 = 0 := by
  funext u
  exact ite_self 0

/-- `AddDelta` puts its delta into its DSB, R205, R207. -/
theorem addDelta_puts {p : Params} (hp : p.wf = true) {opc : Byte} {u : DsbName} {t d : Int} {m m' : Mix}
    (h : addDelta p opc u t d m = .ok m') : Puts p m m' fun v => if u = v then wrap32 d else 0 := fun wf => by
  refine ⟨adds_cells (.add (.refl _) h) wf, fun v => ?_⟩
  obtain ⟨_, i, ph, placed, rfl⟩ := addDelta_ok h
  show cellSum ((m.setDsb u _).dsb v).cells = cellSum (m.dsb v).cells + 0x8000 * if u = v then wrap32 d else 0
  by_cases hv : u = v
  · subst hv
    rw [setDsb_dsb_self, if_pos rfl, cellSum_addTaps p ph i d p.kw (wf u).1, kernel_sum hp (place_phase placed)]
    ring
  · rw [setDsb_dsb_ne _ _ (Ne.symm hv), if_neg hv]
    simp

/-- `Emit` puts its delta into the DSB of its route, 00_scope.md R10. -/
theorem emit_puts {p : Params} (hp : p.wf = true) {opc : Byte} {r : Route} {t d : Int} {m m' : Mix}
    (h : emit p opc r t d m = .ok m') : Puts p m m' (r.puts (wrap32 d)) := by
  unfold emit at h
  split at h
  · next none =>
    cases h
    have nothing : r.puts (wrap32 d) = 0 := by funext v; simp [Route.puts, none]
    rw [nothing]
    exact puts_zero m
  · next u some =>
    split at h
    · next zero =>
      cases h
      rw [zero, show wrap32 0 = 0 from rfl, route_puts_zero]
      exact puts_zero m
    · have amount : r.puts (wrap32 d) = fun v => if u = v then wrap32 d else 0 := by funext v; simp [Route.puts, some]
      rw [amount]
      exact addDelta_puts hp h

/-! ## The amplitudes of the oscillators -/

/-- The amplitude of an oscillator, by the DSB it stands in. -/
def Osc.amps (o : Osc) : DsbName → Word := o.route.puts o.lastAmp

/-- The amplitudes of a PSG group. -/
def Psg.amps (g : Psg) : DsbName → Word := g.tone0.osc.amps + g.tone1.osc.amps + g.tone2.osc.amps + g.noise.osc.amps

/-- The amplitudes of the HH group. -/
def Hh.amps (h : Hh) : DsbName → Word := h.sq1.osc.amps + h.sq2.osc.amps + h.wave.osc.amps + h.noise.osc.amps

/-- The amplitudes of the block are those of its groups. -/
theorem shares_eq (s : State) : s.shares = s.psg.i0.amps + s.psg.i1.amps + s.hh.amps + s.tri.osc.amps := rfl

/-- Four oscillators one after the other. -/
theorem puts_four {p : Params} {m m0 m1 m2 m3 : Mix} {a0 a1 a2 a3 b0 b1 b2 b3 : DsbName → Word} (h0 : Puts p m m0 (b0 - a0))
    (h1 : Puts p m0 m1 (b1 - a1)) (h2 : Puts p m1 m2 (b2 - a2)) (h3 : Puts p m2 m3 (b3 - a3)) :
    Puts p m m3 (b0 + b1 + b2 + b3 - (a0 + a1 + a2 + a3)) := by
  have sum := puts_add (puts_add (puts_add h0 h1) h2) h3
  rwa [show b0 - a0 + (b1 - a1) + (b2 - a2) + (b3 - a3) = b0 + b1 + b2 + b3 - (a0 + a1 + a2 + a3) by abel] at sum

/-- What changes an oscillator puts the change of its amplitude into the DSBs. -/
def OscPuts (p : Params) (f : Osc → Mix → Res (Osc × Mix)) : Prop :=
  ∀ {o o' : Osc} {m m' : Mix}, f o m = .ok (o', m') → Puts p m m' (o'.amps - o.amps)

section

variable {p : Params} (hp : p.wf = true)
include hp

/-- The level check, R261. -/
theorem levelCheck_puts {opc : Byte} {t amp : Int} : OscPuts p (levelCheck p opc t amp) := by
  intro o o' m m' h
  unfold levelCheck at h
  split at h
  · cases h; exact puts_same rfl
  · obtain ⟨m1, emitted, h⟩ := res_bind_ok.1 h
    cases h
    have diff : wrap32 (amp - sext o.lastAmp) = wrap32 amp - o.lastAmp := by
      simp only [wrap32, sext, sub_eq_add_neg, BitVec.ofInt_add, BitVec.ofInt_neg, BitVec.ofInt_toInt]
    show Puts p m m' (o.route.puts (wrap32 amp) - o.route.puts o.lastAmp)
    rw [route_puts_sub, ← diff]
    exact emit_puts hp emitted

/-- The audible branch, R261. -/
theorem audibleLoop_puts {α : Type} {opc : Byte} {level : α → Int} {advance : α → α} {period n : Nat} {t : Int} {a a' : α}
    {o o' : Osc} {m m' : Mix} (h : audibleLoop p opc level advance period n t a o m = .ok (a', o', m')) :
    Puts p m m' (o'.amps - o.amps) := by
  induction n generalizing t a o m with
  | zero => cases h; exact puts_same rfl
  | succ n ih =>
    obtain ⟨⟨o1, m1⟩, h1, h2⟩ := res_bind_ok.1 h
    exact puts_trans (levelCheck_puts hp h1) (ih h2)

/-- A run, R261: the delay it stores is no amplitude. -/
theorem runOsc_puts {α : Type} {opc : Byte} {level : α → Int} {advance : α → α} {audible : Bool} {period : Nat}
    {start stop : Int} {a a' : α} {o o' : Osc} {m m' : Mix}
    (h : runOsc p opc level advance audible period start stop a o m = .ok (a', o', m')) : Puts p m m' (o'.amps - o.amps) := by
  obtain ⟨⟨o1, m1⟩, h1, h⟩ := res_bind_ok.1 h
  have first := levelCheck_puts hp h1
  dsimp only at h
  split at h
  · obtain ⟨⟨a2, o2, m2⟩, h2, h⟩ := res_bind_ok.1 h
    cases h
    have rest := audibleLoop_puts hp h2
    exact puts_trans first rest
  · cases h
    exact first

/-- A route change, R265, takes the amplitude out of the DSB of the old route. -/
theorem changeRoute_puts {opc : Byte} {t : Int} {r : Route} : OscPuts p (changeRoute p opc t r) := by
  intro o o' m m' h
  obtain ⟨m1, emitted, h⟩ := res_bind_ok.1 h
  cases h
  have neg : wrap32 (-sext o.lastAmp) = 0 - o.lastAmp := by
    simp only [wrap32, sext, BitVec.ofInt_neg, BitVec.ofInt_toInt, zero_sub]
  have gone : (Osc.amps { o with lastAmp := 0, route := r }) - o.amps = o.route.puts (wrap32 (-sext o.lastAmp)) := by
    rw [neg, ← route_puts_sub, route_puts_zero]
    exact congrArg (· - o.amps) (route_puts_zero r)
  rw [gone]
  exact emit_puts hp emitted

/-- Setting a route, 43_psg.md R296, 45_hh_wave_noise_master.md R390. -/
theorem setRoute_puts {opc : Byte} {t : Int} {r : Route} : OscPuts p (setRoute p opc t r) := by
  intro o o' m m' h
  unfold setRoute at h
  split at h
  · cases h; exact puts_same rfl
  · exact changeRoute_puts hp h

/-! ## Runs of the groups -/

/-- A tone. -/
theorem toneRun_puts {opc : Byte} {start stop : Int} {x x' : Tone} {m m' : Mix}
    (h : Tone.run p opc start stop x m = .ok (x', m')) : Puts p m m' (x'.osc.amps - x.osc.amps) := by
  obtain ⟨⟨phase, o, m1⟩, ran, h⟩ := res_bind_ok.1 h
  cases h
  exact runOsc_puts hp ran

/-- The PSG noise. -/
theorem psgNoiseRun_puts {opc : Byte} {start stop : Int} {per : BitVec 10} {x x' : PsgNoise} {m m' : Mix}
    (h : PsgNoise.run p opc start stop per x m = .ok (x', m')) : Puts p m m' (x'.osc.amps - x.osc.amps) := by
  obtain ⟨⟨shifter, o, m1⟩, ran, h⟩ := res_bind_ok.1 h
  cases h
  exact runOsc_puts hp ran

/-- A PSG group, R260, R270. -/
theorem psgRunGroup_puts {opc : Byte} {t : Int} {g g' : Psg} {m m' : Mix} (h : Psg.runGroup p opc t g m = .ok (g', m')) :
    Puts p m m' (g'.amps - g.amps) := by
  obtain ⟨_, _, h⟩ := res_bind_ok.1 h
  obtain ⟨⟨g1, m1⟩, all, h⟩ := res_bind_ok.1 h
  cases h
  obtain ⟨⟨x0, m0⟩, h0, all⟩ := res_bind_ok.1 all
  obtain ⟨⟨x1, m1⟩, h1, all⟩ := res_bind_ok.1 all
  obtain ⟨⟨x2, m2⟩, h2, all⟩ := res_bind_ok.1 all
  obtain ⟨⟨x3, m3⟩, h3, all⟩ := res_bind_ok.1 all
  cases all
  exact puts_four (toneRun_puts hp h0) (toneRun_puts hp h1) (toneRun_puts hp h2) (psgNoiseRun_puts hp h3)

/-- A square. -/
theorem squareRun_puts {opc : Byte} {h : Hh} {base : Nat} {start stop : Int} {x x' : Square} {m m' : Mix}
    (k : Hh.runSquare p opc h base start stop x m = .ok (x', m')) : Puts p m m' (x'.osc.amps - x.osc.amps) := by
  obtain ⟨⟨phase, o, m1⟩, ran, k⟩ := res_bind_ok.1 k
  cases k
  exact runOsc_puts hp ran

/-- The wave. -/
theorem waveRun_puts {opc : Byte} {h : Hh} {start stop : Int} {x x' : Wave} {m m' : Mix}
    (k : Hh.runWave p opc h start stop x m = .ok (x', m')) : Puts p m m' (x'.osc.amps - x.osc.amps) := by
  obtain ⟨⟨a, o, m1⟩, ran, k⟩ := res_bind_ok.1 k
  cases k
  exact runOsc_puts hp ran

/-- The HH noise. -/
theorem noiseRun_puts {opc : Byte} {h : Hh} {start stop : Int} {x x' : HhNoise} {m m' : Mix}
    (k : Hh.runNoise p opc h start stop x m = .ok (x', m')) : Puts p m m' (x'.osc.amps - x.osc.amps) := by
  obtain ⟨⟨lfsr, o, m1⟩, ran, k⟩ := res_bind_ok.1 k
  cases k
  exact runOsc_puts hp ran

/-- The oscillators of the HH group, R270. -/
theorem hhRunAll_puts {opc : Byte} {start stop : Int} {h h' : Hh} {m m' : Mix}
    (k : Hh.runAll p opc start stop h m = .ok (h', m')) : Puts p m m' (h'.amps - h.amps) := by
  obtain ⟨⟨x0, m0⟩, h0, k⟩ := res_bind_ok.1 k
  obtain ⟨⟨x1, m1⟩, h1, k⟩ := res_bind_ok.1 k
  obtain ⟨⟨x2, m2⟩, h2, k⟩ := res_bind_ok.1 k
  obtain ⟨⟨x3, m3⟩, h3, k⟩ := res_bind_ok.1 k
  cases k
  exact puts_four (squareRun_puts hp h0) (squareRun_puts hp h1) (waveRun_puts hp h2) (noiseRun_puts hp h3)

omit hp in
/-- A frame step emits nothing and keeps the amplitudes, 44_hh_square.md R320. -/
theorem hhFrameStep_amps (h : Hh) : h.frameStep.amps = h.amps := by
  obtain ⟨_, _, _, _, sq1, sq2, wave, noise⟩ := hhFrameStep_frame h
  unfold Hh.amps
  rw [sq1, sq2, wave, noise]

/-- The HH group, R260. -/
theorem hhRunGroup_puts {opc : Byte} {t : Int} {n n' : Nat} {h h' : Hh} {m m' : Mix}
    (k : Hh.runGroup p opc t n h m = .ok (h', n', m')) : Puts p m m' (h'.amps - h.amps) := by
  obtain ⟨_, _, k⟩ := res_bind_ok.1 k
  obtain ⟨⟨g, next, n1, m1⟩, frames, k⟩ := res_bind_ok.1 k
  cases k
  have ran := runFrames_induct (fun (g : Hh) (x : Mix) => Puts p m x (g.amps - h.amps))
    (fun put ran => puts_trans put (hhRunAll_puts hp ran)) (fun put => by rwa [hhFrameStep_amps]) (puts_same rfl) frames
  exact ran.1

/-- The triangle, 46_triangle.md R413. -/
theorem triRun_puts {opc : Byte} {start stop : Int} {g g' : Tri} {m m' : Mix}
    (h : Tri.run p opc start stop g m = .ok (g', m')) : Puts p m m' (g'.osc.amps - g.osc.amps) := by
  obtain ⟨⟨o1, m1⟩, h1, h⟩ := res_bind_ok.1 h
  have first := levelCheck_puts hp h1
  dsimp only at h
  split at h
  · obtain ⟨⟨a2, o2, m2⟩, h2, h⟩ := res_bind_ok.1 h
    cases h
    have rest := audibleLoop_puts hp h2
    exact puts_trans first rest
  · cases h
    exact first

/-- The TRI group, R260. -/
theorem triRunGroup_puts {opc : Byte} {t : Int} {n n' : Nat} {g g' : Tri} {m m' : Mix}
    (k : Tri.runGroup p opc t n g m = .ok (g', n', m')) : Puts p m m' (g'.osc.amps - g.osc.amps) := by
  obtain ⟨_, _, k⟩ := res_bind_ok.1 k
  obtain ⟨⟨g1, next, n1, m1⟩, frames, k⟩ := res_bind_ok.1 k
  cases k
  have ran := runFrames_induct (frame := Tri.stepFrame) (fun (x : Tri) (y : Mix) => Puts p m y (x.osc.amps - g.osc.amps))
    (fun put ran => puts_trans put (triRun_puts hp ran)) (fun put => put) (puts_same rfl) frames
  exact ran.1

end

end Sys2Proof.Machine
end

section
/-! PROOFS. What an OSC command but OSC_RESET puts into the DSBs: the register rules of each space, then each form of the commands
(spec 42_osc_common.md R260 to R268, R272). -/

namespace Sys2Proof.Machine

/-! ## Register rules -/

/-- A register rule puts the change of its group's amplitudes into the DSBs. -/
def RulePuts {γ : Type} (p : Params) (amps : γ → DsbName → Word) (rule : γ → Mix → Res (γ × Mix × Bool)) : Prop :=
  ∀ (g g' : γ) (m m' : Mix) (b : Bool), rule g m = .ok (g', m', b) → Puts p m m' (amps g' - amps g)

/-- The same without the restart signal. -/
theorem noRestart_puts {γ : Type} {p : Params} {amps : γ → DsbName → Word} {f : γ → Mix → Res (γ × Mix)}
    (hf : ∀ {g g' : γ} {m m' : Mix}, f g m = .ok (g', m') → Puts p m m' (amps g' - amps g)) : RulePuts p amps (noRestart f) := by
  intro g g' m m' b h
  obtain ⟨⟨g1, m1⟩, h1, h⟩ := res_bind_ok.1 h
  cases h
  exact hf h1

/-- A PSG rule that touches only registers. -/
theorem pureWrite_puts {p : Params} {f : Psg → Psg × Bool} (hf : ∀ g, (f g).1.amps = g.amps) :
    RulePuts p Psg.amps (pureWrite f) := by
  intro g g' m m' b h
  cases h
  exact puts_same (hf g)

/-- An HH rule that emits nothing. -/
theorem hhPlain_puts {p : Params} {f : Hh → Hh} (hf : ∀ h, (f h).amps = h.amps) : RulePuts p Hh.amps (hhPlain f) := by
  intro g g' m m' b h
  cases h
  exact puts_same (hf g)

/-- An attenuation is no amplitude until the next level check, 43_psg.md R294. -/
theorem setAtten_amps (g : Psg) (ch : BitVec 2) (v : BitVec 4) : (g.setAtten ch v).amps = g.amps := by
  unfold Psg.setAtten
  split <;> rfl

/-- Nor is a period. -/
theorem mapPeriod_amps (g : Psg) (ch : BitVec 2) (f : BitVec 10 → BitVec 10) : (g.mapPeriod ch f).amps = g.amps := by
  unfold Psg.mapPeriod
  split <;> rfl

/-- The latch byte, R294. -/
theorem writeLatch_amps (p : Params) (ch : BitVec 2) (ty : BitVec 1) (data : BitVec 4) (g : Psg) :
    (g.writeLatch p ch ty data).1.amps = g.amps := by
  unfold Psg.writeLatch
  dsimp only
  split
  · exact setAtten_amps _ _ _
  · split
    · rfl
    · exact mapPeriod_amps _ _ _

/-- The data byte, R295. -/
theorem writeData_amps (p : Params) (d : BitVec 7) (g : Psg) : (g.writeData p d).1.amps = g.amps := by
  unfold Psg.writeData
  dsimp only
  split
  · exact setAtten_amps _ _ _
  · split
    · rfl
    · exact mapPeriod_amps _ _ _

/-- NRx4 of a square, 44_hh_square.md R335. -/
theorem writeNrx4_amps (p : Params) (ph : BitVec 3) (nrx2 data old : Byte) (ticks : Nat) (q : Square) :
    (q.writeNrx4 p ph nrx2 data old ticks).osc.amps = q.osc.amps := by
  unfold Square.writeNrx4
  dsimp only
  split <;> rfl

/-- A sweep calculation, R326. -/
theorem calcSweep_amps (u : Bool) (h : Hh) : (h.calcSweep u).amps = h.amps := by
  obtain ⟨_, _, _, _, _, sq1, sq2, wave, noise, _⟩ := calcSweep_frame u h
  unfold Hh.amps
  rw [sq1, sq2, wave, noise]

/-- The sweep start of a trigger, R335. -/
theorem sweepStart_amps (h : Hh) : h.sweepStart.amps = h.amps := by
  unfold Hh.sweepStart
  dsimp only
  split
  · exact calcSweep_amps false _
  · rfl

/-- A square 1 of the same amplitude. -/
theorem with_sq1_amps {h : Hh} {q : Square} (hq : q.osc.amps = h.sq1.osc.amps) : { h with sq1 := q }.amps = h.amps :=
  congrArg (· + h.sq2.osc.amps + h.wave.osc.amps + h.noise.osc.amps) hq

/-- A square 2 of the same amplitude. -/
theorem with_sq2_amps {h : Hh} {q : Square} (hq : q.osc.amps = h.sq2.osc.amps) : { h with sq2 := q }.amps = h.amps :=
  congrArg (h.sq1.osc.amps + · + h.wave.osc.amps + h.noise.osc.amps) hq

/-- NR14, R335. -/
theorem hhNr14_puts (p : Params) (data old : Byte) : RulePuts p Hh.amps (hhNr14 p data old) := by
  intro h h' m m' b k
  cases k
  refine puts_same ?_
  have written := with_sq1_amps (writeNrx4_amps p h.framePhase (h.reg 0x12) data old (h.squareTicks baseSq1) h.sq1)
  split
  · exact (sweepStart_amps _).trans written
  · exact written

/-- NR24, R335. -/
theorem hhNr24_puts (p : Params) (data old : Byte) : RulePuts p Hh.amps (hhNr24 p data old) := by
  intro h h' m m' b k
  cases k
  exact puts_same (with_sq2_amps (writeNrx4_amps p h.framePhase (h.reg 0x17) data old (h.squareTicks baseSq2) h.sq2))

/-- NR34, 45_hh_wave_noise_master.md R377. -/
theorem hhNr34_puts (p : Params) (data old : Byte) : RulePuts p Hh.amps (hhNr34 p data old) := by
  intro h h' m m' b k
  cases k
  refine puts_same ?_
  dsimp only
  split <;> rfl

/-- NR44, R386. -/
theorem hhNr44_puts (p : Params) (data old : Byte) : RulePuts p Hh.amps (hhNr44 p data old) := by
  intro h h' m m' b k
  cases k
  refine puts_same ?_
  dsimp only
  split <;> rfl

/-- NR10, 44_hh_square.md R330. -/
theorem hhNr10_puts (p : Params) (data old : Byte) : RulePuts p Hh.amps (hhNr10 data old) :=
  hhPlain_puts fun h => by split <;> rfl

/-- Power on, 45_hh_wave_noise_master.md R392. -/
theorem hhPowerOn_amps (h : Hh) : (hhPowerOn h).amps = h.amps := by
  unfold hhPowerOn
  dsimp only
  split <;> rfl

section

variable {p : Params} (hp : p.wf = true)
include hp

/-- The stereo port, 43_psg.md R296. -/
theorem writeStereo_puts {opc : Byte} {t : Int} {d : Byte} {g g' : Psg} {m m' : Mix}
    (h : Psg.writeStereo p opc t d g m = .ok (g', m')) : Puts p m m' (g'.amps - g.amps) := by
  obtain ⟨⟨o0, m0⟩, h0, h⟩ := res_bind_ok.1 h
  obtain ⟨⟨o1, m1⟩, h1, h⟩ := res_bind_ok.1 h
  obtain ⟨⟨o2, m2⟩, h2, h⟩ := res_bind_ok.1 h
  obtain ⟨⟨o3, m3⟩, h3, h⟩ := res_bind_ok.1 h
  cases h
  exact puts_four (setRoute_puts hp h0) (setRoute_puts hp h1) (setRoute_puts hp h2) (setRoute_puts hp h3)

/-- `Write_PSG`, over the whole space. -/
theorem psgWriteRule_puts {opc : Byte} {t : Int} {addr data : Byte} {rule : Psg → Mix → Res (Psg × Mix × Bool)}
    (hr : psgWriteRule p opc t addr data = some rule) : RulePuts p Psg.amps rule := by
  unfold psgWriteRule at hr
  split at hr
  · split at hr <;> cases hr
    · exact pureWrite_puts (writeLatch_amps p _ _ _)
    · exact pureWrite_puts (writeData_amps p _)
  · cases hr
    exact noRestart_puts (writeStereo_puts hp)
  · cases hr

omit hp in
/-- A protocol over the four oscillators of the HH group. -/
theorem mapOscs_puts {f0 f1 f2 f3 : Osc → Mix → Res (Osc × Mix)} (p0 : OscPuts p f0) (p1 : OscPuts p f1) (p2 : OscPuts p f2)
    (p3 : OscPuts p f3) {h h' : Hh} {m m' : Mix} (k : Hh.mapOscs f0 f1 f2 f3 h m = .ok (h', m')) :
    Puts p m m' (h'.amps - h.amps) := by
  obtain ⟨⟨o0, m0⟩, k0, k⟩ := res_bind_ok.1 k
  obtain ⟨⟨o1, m1⟩, k1, k⟩ := res_bind_ok.1 k
  obtain ⟨⟨o2, m2⟩, k2, k⟩ := res_bind_ok.1 k
  obtain ⟨⟨o3, m3⟩, k3, k⟩ := res_bind_ok.1 k
  cases k
  exact puts_four (p0 k0) (p1 k1) (p2 k2) (p3 k3)

/-- NR50, R398: each oscillator is taken out of its DSB; the next level check puts it in again at the new scale. -/
theorem hhNr50_puts (opc : Byte) (t : Int) (data old : Byte) : RulePuts p Hh.amps (hhNr50 p opc t data old) := by
  refine noRestart_puts fun {h h' m m'} k => ?_
  dsimp only at k
  split at k
  · cases k; exact puts_same rfl
  · have rescale : OscPuts p fun o m => changeRoute p opc t o.route o m := fun k => changeRoute_puts hp k
    have put := mapOscs_puts rescale rescale rescale rescale k
    exact put

/-- NR51, R390. -/
theorem hhNr51_puts (opc : Byte) (t : Int) (data old : Byte) : RulePuts p Hh.amps (hhNr51 p opc t data old) :=
  noRestart_puts fun k =>
    mapOscs_puts (setRoute_puts hp) (setRoute_puts hp) (setRoute_puts hp) (setRoute_puts hp) k

/-- The rules of 0x10..0x25: only NR50 and NR51 emit. -/
theorem hhRule_puts (opc : Byte) (t : Int) (a : Nat) (data old : Byte) : RulePuts p Hh.amps (hhRule p opc t a data old) := by
  unfold hhRule
  split
  · exact hhNr10_puts p data old
  · exact hhPlain_puts fun _ => rfl
  · exact hhPlain_puts fun _ => rfl
  · exact hhPlain_puts fun _ => rfl
  · exact hhNr14_puts p data old
  · exact hhPlain_puts fun _ => rfl
  · exact hhPlain_puts fun _ => rfl
  · exact hhPlain_puts fun _ => rfl
  · exact hhNr24_puts p data old
  · exact hhPlain_puts fun _ => rfl
  · exact hhPlain_puts fun _ => rfl
  · exact hhPlain_puts fun _ => rfl
  · exact hhPlain_puts fun _ => rfl
  · exact hhNr34_puts p data old
  · exact hhPlain_puts fun _ => rfl
  · exact hhPlain_puts fun _ => rfl
  · exact hhPlain_puts fun _ => rfl
  · exact hhNr44_puts p data old
  · exact hhNr50_puts hp opc t data old
  · exact hhNr51_puts hp opc t data old
  · exact hhPlain_puts fun _ => rfl

/-- The clearing loop of power off, R391. -/
theorem hhClear_puts {opc : Byte} {t : Int} {n a : Nat} {h h' : Hh} {m m' : Mix}
    (k : hhClear p opc t n a h m = .ok (h', m')) : Puts p m m' (h'.amps - h.amps) := by
  induction n generalizing a h m with
  | zero => cases k; exact puts_same rfl
  | succ n ih =>
    obtain ⟨⟨h1, m1, b⟩, k1, k2⟩ := res_bind_ok.1 k
    have put := hhRule_puts hp opc t a 0 (h.reg a) _ _ _ _ _ k1
    exact puts_trans put (ih k2)

/-- NR52 with bit 7 clear, R391, R392. -/
theorem hhPowerOff_puts (opc : Byte) (t : Int) : RulePuts p Hh.amps (noRestart (hhPowerOff p opc t)) := by
  refine noRestart_puts fun {h h' m m'} k => ?_
  unfold hhPowerOff at k
  split at k
  · obtain ⟨⟨h2, m2⟩, k2, k⟩ := res_bind_ok.1 k
    cases k
    have cleared := hhClear_puts hp k2
    exact cleared
  · cases k; exact puts_same rfl

/-- A write to a register 0x10..0x25, R394. -/
theorem hhGated_puts {opc : Byte} {t : Int} {a : Nat} {data : Byte} :
    RulePuts p Hh.amps (hhGated a data (hhRule p opc t a)) := by
  intro h h' m m' b k
  unfold hhGated at k
  split at k
  · have ran := hhRule_puts hp opc t a data _ _ _ _ _ _ k
    exact ran
  · cases k; exact puts_same rfl

/-- `Write_HH`, over the whole space. -/
theorem hhWriteRule_puts {opc : Byte} {t : Int} {addr data : Byte} {rule : Hh → Mix → Res (Hh × Mix × Bool)}
    (hr : hhWriteRule p opc t addr data = some rule) : RulePuts p Hh.amps rule := by
  unfold hhWriteRule at hr
  dsimp only at hr
  split at hr
  · cases hr
  split at hr
  · cases hr; exact hhPlain_puts (f := id) fun _ => rfl
  split at hr
  · cases hr; exact hhGated_puts hp
  split at hr
  · split at hr <;> cases hr
    · exact hhPlain_puts hhPowerOn_amps
    · exact hhPowerOff_puts hp opc t
  split at hr <;> cases hr
  · exact hhPlain_puts (f := id) fun _ => rfl
  · exact hhPlain_puts fun _ => rfl

end

end Sys2Proof.Machine
end

section
/-! PROOFS. O60: an OSC command but OSC_RESET changes what each DSB holds by 2^15 times the change of the amplitudes routed to it. -/

namespace Sys2Proof.Machine

/-- What a DSB holds follows the levels from `s` to `t`. -/
def State.followsLevels (s t : State) : Prop := Puts s.params s.mix t.mix (t.shares - s.shares)

/-! ## One group replaced -/

/-- The amplitudes of the PSG groups with one of them replaced. -/
theorem two_set_amps (v : Two Psg) (i : BitVec 1) (g : Psg) :
    (v.set i g).i0.amps + (v.set i g).i1.amps - (v.i0.amps + v.i1.amps) = g.amps - (v.get i).amps := by
  unfold Two.set Two.get
  split <;> abel

section

variable {s : State} {m : Mix}

/-- A PSG group is replaced, with its amplitudes put into the DSBs. -/
theorem psg_follows {i : BitVec 1} {g : Psg} (h : Puts s.params s.mix m (g.amps - (s.psg.get i).amps)) :
    s.followsLevels { s with psg := s.psg.set i g, mix := m } := by
  unfold State.followsLevels
  rw [← two_set_amps s.psg i g] at h
  rw [shares_eq, shares_eq]
  dsimp only
  rwa [add_sub_add_right_eq_sub, add_sub_add_right_eq_sub]

/-- The HH group is replaced. -/
theorem hh_follows {h : Hh} {n : Nat} (put : Puts s.params s.mix m (h.amps - s.hh.amps)) :
    s.followsLevels { s with hh := h, mix := m, freeCount := n } := by
  unfold State.followsLevels
  rw [shares_eq, shares_eq]
  dsimp only
  rwa [add_sub_add_right_eq_sub, add_sub_add_left_eq_sub]

/-- The TRI group is replaced. -/
theorem tri_follows {g : Tri} {n : Nat} (h : Puts s.params s.mix m (g.osc.amps - s.tri.osc.amps)) :
    s.followsLevels { s with tri := g, mix := m, freeCount := n } := by
  unfold State.followsLevels
  rw [shares_eq, shares_eq]
  dsimp only
  rwa [add_sub_add_left_eq_sub]

end

/-- What a DSB holds follows the levels over two changes. -/
theorem followsLevels_trans {s r t : State} (params : r.params = s.params) (h : s.followsLevels r) (h' : r.followsLevels t) :
    s.followsLevels t := by
  unfold State.followsLevels at h'
  rw [params] at h'
  exact puts_trans h h'

/-- Any group's run, R260. -/
theorem runGroup_follows {opc : Byte} {g : GroupRef} {t : Int} {s r : State} (hp : s.params.wf = true)
    (h : runGroup opc g t s = .ok r) : s.followsLevels r := by
  cases g with
  | psg i => obtain ⟨x, m, rfl, ran, _⟩ := runGroup_psg_ok h; exact psg_follows (psgRunGroup_puts hp ran)
  | hh => obtain ⟨x, n, m, rfl, ran, _⟩ := runGroup_hh_ok h; exact hh_follows (hhRunGroup_puts hp ran)
  | tri => obtain ⟨x, n, m, rfl, ran, _⟩ := runGroup_tri_ok h; exact tri_follows (triRunGroup_puts hp ran)

/-- The shift of a time origin, R268, keeps the amplitudes. -/
theorem endFrame_shares (g : GroupRef) (t : Int) (s : State) : (endFrame g t s).shares = s.shares := by
  cases g with
  | psg i =>
    rw [shares_eq, shares_eq]
    unfold endFrame
    dsimp only
    congr 2
    rw [← sub_eq_zero, two_set_amps]
    exact sub_self _
  | hh => rfl
  | tri => rfl

/-- The rules of the TRI space emit nothing and keep the amplitude. -/
theorem triWriteRule_amps {p : Params} {t : Int} {addr data : Byte} {rule : TriRule} {g g' : Tri} {b : Bool}
    (hr : triWriteRule p t addr data = some rule) (h : rule g = .ok (g', b)) : g'.osc.amps = g.osc.amps := by
  unfold triWriteRule at hr
  split at hr
  case h_6 =>
    cases hr
    unfold tri17 at h
    split at h
    · cases h
    · cases h; rfl
  case h_7 => cases hr
  all_goals cases hr; cases h; rfl

/-! ## The commands -/

/-- A command after which what each DSB holds has followed the levels. -/
def FollowsLevels (s : State) (o : Host.Outcome State Fault Refusal) : Prop :=
  ∃ body, o = runCommand body s ∧ ∀ t, body = .ok t → s.followsLevels t

section

variable {s : State} (hp : s.params.wf = true)
include hp

/-- An OSC_WRITE on a PSG unit, R263. -/
theorem writePsg_follows {t : State} {i : BitVec 1} {time : Word} {rule : Psg → Mix → Res (Psg × Mix × Bool)}
    (hr : RulePuts s.params Psg.amps rule) (h : writePsg i time rule s = .ok t) : s.followsLevels t := by
  obtain ⟨r, hrun, h⟩ := res_bind_ok.1 h
  obtain ⟨⟨g, m, b⟩, h1, h⟩ := res_bind_ok.1 h
  cases h
  have params := (runGroup_sameShell hrun).params
  have written : r.followsLevels { r with psg := r.psg.set i g, mix := m } := psg_follows (by rw [params]; exact hr _ _ _ _ _ h1)
  exact followsLevels_trans params (runGroup_follows hp hrun) written

/-- An OSC_WRITE on the HH group, R263. -/
theorem writeHh_follows {t : State} {time : Word} {rule : Hh → Mix → Res (Hh × Mix × Bool)}
    (hr : RulePuts s.params Hh.amps rule) (h : writeHh time rule s = .ok t) : s.followsLevels t := by
  obtain ⟨r, hrun, h⟩ := res_bind_ok.1 h
  obtain ⟨⟨g, m, b⟩, h1, h⟩ := res_bind_ok.1 h
  cases h
  have params := (runGroup_sameShell hrun).params
  have written : r.followsLevels { r with hh := g, mix := m } := hh_follows (by rw [params]; exact hr _ _ _ _ _ h1)
  exact followsLevels_trans params (runGroup_follows hp hrun) written

/-- An OSC_WRITE on the TRI group, R263. -/
theorem writeTri_follows {t : State} {time : Word} {addr data : Byte} {rule : TriRule}
    (hr : triWriteRule s.params (timeOperand time) addr data = some rule) (h : writeTri time rule s = .ok t) :
    s.followsLevels t := by
  obtain ⟨r, hrun, h⟩ := res_bind_ok.1 h
  obtain ⟨⟨g, b⟩, h1, h⟩ := res_bind_ok.1 h
  cases h
  have written : r.followsLevels { r with tri := g } := tri_follows (puts_same (triWriteRule_amps hr h1))
  exact followsLevels_trans (runGroup_sameShell hrun).params (runGroup_follows hp hrun) written

/-- An OSC_READ on the HH group, R266. -/
theorem readHh_follows {t : State} {time : Word} {value : Hh → Byte} (h : readHh time value s = .ok t) : s.followsLevels t := by
  obtain ⟨r, hrun, h⟩ := res_bind_ok.1 h
  cases h
  have ran := runGroup_follows hp hrun
  exact ran

/-- An OSC_READ on the TRI group, R266. -/
theorem readTri_follows {t : State} {time : Word} {value : Tri → Byte} (h : readTri time value s = .ok t) :
    s.followsLevels t := by
  obtain ⟨r, hrun, h⟩ := res_bind_ok.1 h
  cases h
  have ran := runGroup_follows hp hrun
  exact ran

/-- A PSG form. -/
theorem psgForm_follows {i : Instr} {inst : BitVec 1} {time : Word} {rule : Psg → Mix → Res (Psg × Mix × Bool)}
    (hr : RulePuts s.params Psg.amps rule) : FollowsLevels s (psgForm i inst time rule s) := by
  refine ⟨_, rfl, fun t h => ?_⟩
  obtain ⟨_, _, h⟩ := res_bind_ok.1 h
  exact writePsg_follows hp hr h

/-- An HH form. -/
theorem hhForm_follows {i : Instr} {time : Word} {rule : Hh → Mix → Res (Hh × Mix × Bool)}
    (hr : RulePuts s.params Hh.amps rule) : FollowsLevels s (hhForm i time rule s) := by
  refine ⟨_, rfl, fun t h => ?_⟩
  obtain ⟨_, _, h⟩ := res_bind_ok.1 h
  exact writeHh_follows hp hr h

/-- An HH form of a register 0x10..0x25. -/
theorem hhGatedForm_follows (a : Nat) {i : Instr} {data : Byte} {time : Word} :
    FollowsLevels s (hhForm i time (hhGated a data (hhRule s.params 0x20 (timeOperand time) a)) s) :=
  hhForm_follows hp (hhGated_puts hp)

/-- A TRI form. -/
theorem triForm_follows (addr data : Byte) {i : Instr} {time : Word} {rule : TriRule}
    (hr : triWriteRule s.params (timeOperand time) addr data = some rule) : FollowsLevels s (triForm i time rule s) := by
  refine ⟨_, rfl, fun t h => ?_⟩
  obtain ⟨_, _, h⟩ := res_bind_ok.1 h
  exact writeTri_follows hp hr h

/-- An HH read form. -/
theorem hhReadForm_follows {i : Instr} {time : Word} {addr : Byte} : FollowsLevels s (hhReadForm i time addr s) := by
  refine ⟨_, rfl, fun t h => ?_⟩
  obtain ⟨_, _, h⟩ := res_bind_ok.1 h
  exact readHh_follows hp h

/-- A TRI read form. -/
theorem triReadForm_follows {i : Instr} {time : Word} {value : Tri → Byte} :
    FollowsLevels s (triReadForm i time value s) := by
  refine ⟨_, rfl, fun t h => ?_⟩
  obtain ⟨_, _, h⟩ := res_bind_ok.1 h
  exact readTri_follows hp h

/-- OSC_WRITE, R263. -/
theorem execOscWrite_follows (inst sel : BitVec 4) (addr data : Byte) (time : Word) :
    FollowsLevels s (execOscWrite inst sel addr data time s) := by
  refine ⟨_, rfl, fun t h => ?_⟩
  obtain ⟨g, _, h⟩ := res_bind_ok.1 h
  cases g with
  | psg i => obtain ⟨rule, hr, h⟩ := res_bind_ok.1 h; exact writePsg_follows hp (psgWriteRule_puts hp (orIllegal_ok hr)) h
  | hh => obtain ⟨rule, hr, h⟩ := res_bind_ok.1 h; exact writeHh_follows hp (hhWriteRule_puts hp (orIllegal_ok hr)) h
  | tri => obtain ⟨rule, hr, h⟩ := res_bind_ok.1 h; exact writeTri_follows hp (orIllegal_ok hr) h

/-- OSC_READ, R266. -/
theorem execOscRead_follows (inst sel : BitVec 4) (addr : Byte) (time : Word) :
    FollowsLevels s (execOscRead inst sel addr time s) := by
  refine ⟨_, rfl, fun t h => ?_⟩
  obtain ⟨g, _, h⟩ := res_bind_ok.1 h
  cases g with
  | psg i => cases h
  | hh => obtain ⟨_, _, h⟩ := res_bind_ok.1 h; exact readHh_follows hp h
  | tri => obtain ⟨_, _, h⟩ := res_bind_ok.1 h; exact readTri_follows hp h

/-- OSC_RUN, R267. -/
theorem execOscRun_follows (inst sel : BitVec 4) (time : Word) : FollowsLevels s (execOscRun inst sel time s) := by
  refine ⟨_, rfl, fun t h => ?_⟩
  obtain ⟨g, _, h⟩ := res_bind_ok.1 h
  obtain ⟨r, hrun, h⟩ := res_bind_ok.1 h
  cases h
  have ran := runGroup_follows hp hrun
  exact ran

/-- OSC_END_FRAME, R268. -/
theorem execOscEndFrame_follows (inst sel : BitVec 4) (time : Word) :
    FollowsLevels s (execOscEndFrame inst sel time s) := by
  refine ⟨_, rfl, fun t h => ?_⟩
  obtain ⟨g, _, h⟩ := res_bind_ok.1 h
  obtain ⟨r, hrun, h⟩ := res_bind_ok.1 h
  cases h
  have mix : (endFrame g (timeOperand time) r).mix = r.mix := by cases g <;> rfl
  show Puts s.params s.mix (endFrame g (timeOperand time) r).mix ((endFrame g (timeOperand time) r).shares - s.shares)
  rw [mix, endFrame_shares]
  exact runGroup_follows hp hrun

/-- OSC_WAVE_STATUS, R272. -/
theorem execOscWaveStatus_follows (time : Word) : FollowsLevels s (execOscWaveStatus time s) := by
  refine ⟨_, rfl, fun t h => ?_⟩
  obtain ⟨_, _, h⟩ := res_bind_ok.1 h
  obtain ⟨r, hrun, h⟩ := res_bind_ok.1 h
  cases h
  have ran := runGroup_follows hp hrun
  exact ran

/-- Every instruction of an OSC opcode but that of OSC_RESET. -/
theorem exec_follows {i : Instr} (h : (encode i).opc ∈ ([0x20, 0x21, 0x22, 0x23, 0x25] : List Byte)) :
    FollowsLevels s (exec i s) := by
  cases i with
  | oscWrite inst sel addr data time => exact execOscWrite_follows hp inst sel addr data time
  | oscRead inst sel addr time => exact execOscRead_follows hp inst sel addr time
  | oscRun inst sel time => exact execOscRun_follows hp inst sel time
  | oscEndFrame inst sel time => exact execOscEndFrame_follows hp inst sel time
  | oscWaveStatus time => exact execOscWaveStatus_follows hp time
  | oscWritePsgLatch inst ch ty data time =>
    exact psgForm_follows hp (psgWriteRule_puts hp (psgWriteRule_latch _ 0x20 0 ch ty data))
  | oscWritePsgData inst data time => exact psgForm_follows hp (psgWriteRule_puts hp (psgWriteRule_data _ 0x20 0 data))
  | oscWritePsgStereo inst data time => exact psgForm_follows hp (noRestart_puts (writeStereo_puts hp))
  | oscWriteHhNr10 => exact hhGatedForm_follows hp 0x10
  | oscWriteHhNr11 => exact hhGatedForm_follows hp 0x11
  | oscWriteHhNr12 => exact hhGatedForm_follows hp 0x12
  | oscWriteHhNr13 => exact hhGatedForm_follows hp 0x13
  | oscWriteHhNr14 => exact hhGatedForm_follows hp 0x14
  | oscWriteHhNr21 => exact hhGatedForm_follows hp 0x16
  | oscWriteHhNr22 => exact hhGatedForm_follows hp 0x17
  | oscWriteHhNr23 => exact hhGatedForm_follows hp 0x18
  | oscWriteHhNr24 => exact hhGatedForm_follows hp 0x19
  | oscWriteHhNr30 => exact hhGatedForm_follows hp 0x1A
  | oscWriteHhNr31 => exact hhGatedForm_follows hp 0x1B
  | oscWriteHhNr32 => exact hhGatedForm_follows hp 0x1C
  | oscWriteHhNr33 => exact hhGatedForm_follows hp 0x1D
  | oscWriteHhNr34 => exact hhGatedForm_follows hp 0x1E
  | oscWriteHhNr41 => exact hhGatedForm_follows hp 0x20
  | oscWriteHhNr42 => exact hhGatedForm_follows hp 0x21
  | oscWriteHhNr43 => exact hhGatedForm_follows hp 0x22
  | oscWriteHhNr44 => exact hhGatedForm_follows hp 0x23
  | oscWriteHhNr50 => exact hhGatedForm_follows hp 0x24
  | oscWriteHhNr51 => exact hhGatedForm_follows hp 0x25
  | oscWriteHhNr52Off => exact hhForm_follows hp (hhPowerOff_puts hp _ _)
  | oscWriteHhNr52On => exact hhForm_follows hp (hhPlain_puts hhPowerOn_amps)
  | oscWriteHhUnused15 | oscWriteHhUnused1F | oscWriteHhUnused27 | oscWriteHhUnused28 =>
    exact hhForm_follows hp (hhPlain_puts (f := id) fun _ => rfl)
  | oscWriteHhWaveRam => exact hhForm_follows hp (hhPlain_puts fun _ => rfl)
  | oscWriteTri08 data => exact triForm_follows hp 0x08 data rfl
  | oscWriteTri09 data => exact triForm_follows hp 0x09 data rfl
  | oscWriteTri0A data => exact triForm_follows hp 0x0A data rfl
  | oscWriteTri0B data => exact triForm_follows hp 0x0B data rfl
  | oscWriteTri15 data => exact triForm_follows hp 0x15 data rfl
  | oscWriteTri17 data => exact triForm_follows hp 0x17 data rfl
  | oscReadHhReg | oscReadHhWaveRam => exact hhReadForm_follows hp
  | oscReadTri15 => exact triReadForm_follows hp
  | nop | blockReset | bufSetSampleRate | bufSetClockRate | bufClear | bufAddDelta | bufEndFrame | bufSamplesAvail | bufReadStereo
  | bufRemoveSamples | oscReset | fmWrite | fmRender | fmReset | fmSetRate | fmWriteLfo | fmWriteTimer24 | fmWriteTimer25
  | fmWriteTimer26 | fmWriteMode27 | fmWriteKey | fmWriteDacData | fmWriteDacEnable | fmWriteDtMul | fmWriteTl | fmWriteKsAr
  | fmWriteAmD1r | fmWriteD2r | fmWriteSlRr | fmWriteSsgEg | fmWriteFnumLow | fmWriteFnumHigh | fmWriteSplitLow
  | fmWriteSplitHigh | fmWriteFbAlgo | fmWritePan | fmWriteNoEffect =>
    simp [encode, encodeFm, encodeFmOp, encodeFmCh, cmdA] at h

end

/-- Settles O60: a command that is refused or faults changes neither the cells nor the levels; one that completes puts into each DSB
2^15 times what its oscillators' amplitudes change by. -/
theorem bufferContentFollowsLevels : Obligations.BufferContentFollowsLevels := by
  intro i s t u hp wf hopc h
  obtain ⟨body, command, follows⟩ := exec_follows hp hopc
  have put : s.followsLevels t := by
    obtain ⟨_, rfl⟩ | ⟨_, r, ok, rfl⟩ | ⟨_, r, _, rfl⟩ := runCommand_cases (command.symm.trans h)
    · exact puts_same rfl
    · exact follows r ok
    · exact puts_same rfl
  obtain ⟨cells, _⟩ := storesWf_iff.1 wf
  rw [(put cells).2 u]
  exact add_sub_cancel_left _ _

end Sys2Proof.Machine
end

section
/-! PROOFS. The rate commands, BUF_CLEAR, BUF_END_FRAME, BUF_SAMPLES_AVAIL, BUF_REMOVE_SAMPLES and NOP: what each leaves where it
completes, and where each faults (spec 40_delta_buffer.md R200 to R203, R210 to R215, 60_exceptions.md R604, R610, R620). -/

namespace Sys2Proof.Machine

/-! ## Rules on the mix stage as commands -/

section

variable {s : State} (hf : s.fault = none)
include hf

/-- A rule on the mix stage that completes. -/
theorem onMix_done {rule : Mix → Res (Mix × Word)} {m : Mix} {v : Word} (h : rule s.mix = .ok (m, v)) :
    runCommand (onMix rule s) s = .next (State.done { s with mix := m } v) := by
  have body : onMix rule s = .ok { s with mix := m, result := v } := res_bind_of_ok _ h
  rw [runCommand_ok hf body]
  rfl

/-- A rule on the mix stage that faults. -/
theorem onMix_faulted {rule : Mix → Res (Mix × Word)} {code : FaultCode} {info : Word}
    (h : rule s.mix = .error ⟨code, info⟩) : runCommand (onMix rule s) s = .next (s.faulted code info) := by
  have body : onMix rule s = .error ⟨code, info⟩ := by
    unfold onMix
    rw [h]
    rfl
  rw [runCommand_error hf body, takeFault_eq]

end

/-- A requirement that is met lets the rule go on. -/
theorem require_met {β : Type} {ok : Bool} (code : FaultCode) (info : Word) (f : Unit → Res β) (h : ok = true) :
    (require ok code info >>= f) = f () := by
  rw [h]
  rfl

/-- A requirement that is not met ends the rule with its fault. -/
theorem require_unmet {β : Type} {ok : Bool} (code : FaultCode) (info : Word) (f : Unit → Res β) (h : ok = false) :
    (require ok code info >>= f) = .error ⟨code, info⟩ := by
  rw [h]
  rfl

/-- The mix stage is configured where both rates are set, R203. -/
theorem configured_iff {m : Mix} : m.configured = true ↔ m.sampleRate ≠ 0 ∧ m.clockRate ≠ 0 := by
  unfold Mix.configured
  rw [Bool.and_eq_true, decide_eq_true_iff, decide_eq_true_iff]

/-- It is not where one of them is missing. -/
theorem not_configured {m : Mix} (h : m.sampleRate = 0 ∨ m.clockRate = 0) : m.configured = false := by
  rw [Bool.eq_false_iff, ne_eq, configured_iff]
  rintro ⟨rate, clock⟩
  exact h.elim rate clock

/-! ## The rate commands -/

/-- Rates are accepted where one of them is missing or their factor fits, R200 to R202. -/
theorem ratesFit_iff {rate clock : Word} : ratesFit rate clock = true ↔ rate = 0 ∨ clock = 0 ∨ factorFits rate clock := by
  unfold ratesFit validFactor factorFits
  simp only [Bool.or_eq_true, Bool.and_eq_true, decide_eq_true_eq, or_assoc]
  rfl

/-- Rates are refused where both are there and their factor does not fit. -/
theorem ratesFit_false {rate clock : Word} (hr : rate ≠ 0) (hc : clock ≠ 0) (h : ¬ factorFits rate clock) :
    ratesFit rate clock = false := by
  rw [Bool.eq_false_iff, ne_eq, ratesFit_iff]
  rintro (zero | zero | fits)
  · exact hr zero
  · exact hc zero
  · exact h fits

/-- The factor after the sample rate is set, R201. -/
theorem newFactor_of_clock {rate clock : Word} (old : Word) (h : rate ≠ 0) : newFactor rate clock old =
    if clock = 0 then old else BitVec.ofNat 32 ((rate.toNat * 2 ^ 17 + clock.toNat) / (2 * clock.toNat)) := by
  unfold newFactor
  exact if_congr (or_iff_right h) rfl rfl

/-- The factor after the clock rate is set, R202. -/
theorem newFactor_of_rate {rate clock : Word} (old : Word) (h : clock ≠ 0) : newFactor rate clock old =
    if rate = 0 then old else BitVec.ofNat 32 ((rate.toNat * 2 ^ 17 + clock.toNat) / (2 * clock.toNat)) := by
  unfold newFactor
  exact if_congr (or_iff_left h) rfl rfl

/-- Settles O12: the four requirements of R201 are met one after the other. -/
theorem setSampleRateCompletes : Obligations.SetSampleRateCompletes := by
  intro rate msec s cap hf dirty hrate hmsec hcap fits
  refine onMix_done hf (rule := Mix.setSampleRate s.params rate msec) ?_
  have fit : ratesFit rate s.mix.clockRate = true :=
    ratesFit_iff.2 (.inr (or_iff_not_imp_left.2 fits))
  unfold Mix.setSampleRate
  rw [newFactor_of_clock s.mix.factor hrate]
  exact (require_met _ _ _ (by rw [dirty]; rfl)).trans <|
    (require_met _ _ _ (Bool.and_eq_true_iff.2 ⟨decide_eq_true hrate, decide_eq_true hmsec⟩)).trans <|
    (require_met _ _ _ (decide_eq_true hcap)).trans (require_met _ _ _ fit)

/-- Settles O13: the three requirements of R202 are met one after the other. -/
theorem setClockRateCompletes : Obligations.SetClockRateCompletes := by
  intro clock s hf dirty hclock fits factor
  refine onMix_done hf (rule := Mix.setClockRate clock) ?_
  have fit : ratesFit s.mix.sampleRate clock = true :=
    ratesFit_iff.2 ((or_iff_not_imp_left.2 fits).imp_right .inr)
  unfold Mix.setClockRate
  rw [newFactor_of_rate s.mix.factor hclock]
  exact (require_met _ _ _ (by rw [dirty]; rfl)).trans <|
    (require_met _ _ _ (decide_eq_true hclock)).trans (require_met _ _ _ fit)

/-! ## The other commands -/

/-- Settles O14: BUF_CLEAR has no requirement, and `clearDsbs` leaves each DSB as at reset. -/
theorem bufferClearCompletes : Obligations.BufferClearCompletes := fun _ hf =>
  onMix_done hf (rule := fun m => .ok (m.clear, 0)) rfl

/-- Settles O11: both complete in every state without a fault. -/
theorem nopAndSamplesAvailComplete : Obligations.NopAndSamplesAvailComplete := fun s hf => by
  have nop : exec .nop s = .next { { s with result := 0 } with cmdCount := s.cmdCount + 1 } := runCommand_ok hf rfl
  exact ⟨nop, onMix_done hf (rule := fun m => .ok (m, BitVec.ofNat 32 m.available)) rfl⟩

/-- A time operand that is not negative is its count of ticks. -/
theorem toNat_timeOperand {time : Word} (h : 0 ≤ time.toInt) : (timeOperand time).toNat = time.toNat := by
  have value := BitVec.toInt_eq_toNat_of_lt (x := time) (by have := BitVec.toInt_pos_iff (x := time); omega)
  show time.toInt.toNat = _
  rw [value]
  rfl

/-- Settles O18: the three requirements of R210 are met one after the other. -/
theorem bufferEndFrameCompletes : Obligations.BufferEndFrameCompletes := by
  intro time s n hf hrate hclock htime hcap
  refine onMix_done hf (rule := Mix.endFrame time) ?_
  have offset : s.mix.endOffset (timeOperand time) = n := by unfold Mix.endOffset; rw [toNat_timeOperand htime]
  unfold Mix.endFrame
  rw [offset]
  exact (require_met _ _ _ (configured_iff.2 ⟨hrate, hclock⟩)).trans <|
    (require_met _ _ _ (decide_eq_true htime)).trans (require_met _ _ _ (decide_eq_true hcap))

/-- Reading at or above the bound of a store, 20_memory.md R100. -/
theorem store_get_above {w : Nat} {c : Store w} {n a : Nat} (h : Store.below c n = true) (ha : n ≤ a) : c.get a = 0 := by
  induction c with
  | nil => rfl
  | cons e c ih =>
    simp only [Store.below, List.all_cons, Bool.and_eq_true, decide_eq_true_eq] at h
    obtain ⟨low, rest⟩ := h
    rw [Store.get, if_neg (by omega)]
    exact ih rest

/-- Settles O19: a shift reads `n` cells further on, and beyond the array a canonical store reads 0. -/
theorem removeSamplesCompletes : Obligations.RemoveSamplesCompletes := by
  intro n s hf hn
  refine ⟨s.mix.center.cells.shift n.toNat, s.mix.left.cells.shift n.toNat, s.mix.right.cells.shift n.toNat, ?_, fun a => ?_,
    fun wf a ha => ?_⟩
  · refine onMix_done hf (rule := Mix.remove n) ?_
    exact require_met _ _ _ (decide_eq_true hn)
  · exact ⟨store_get_shift _ _ _, store_get_shift _ _ _, store_get_shift _ _ _⟩
  · obtain ⟨cells, _⟩ := storesWf_iff.1 wf
    rw [store_get_shift, store_get_shift, store_get_shift]
    exact ⟨store_get_above (cells .center).2 ha, store_get_above (cells .left).2 ha, store_get_above (cells .right).2 ha⟩

/-! ## Faults -/

/-- BUF_SET_SAMPLE_RATE during a track, R201. -/
theorem setSampleRate_midtrack {p : Params} {rate msec : Word} {m : Mix} (h : m.dirty = true) :
    Mix.setSampleRate p rate msec m = .error ⟨.rateMidtrack, 0x10⟩ := by
  unfold Mix.setSampleRate
  exact require_unmet _ _ _ (by rw [h]; rfl)

/-- BUF_SET_SAMPLE_RATE with rates that are not acceptable, R201. -/
theorem setSampleRate_badRate {p : Params} {rate msec : Word} {m : Mix} (clean : m.dirty = false)
    (h : rate = 0 ∨ msec = 0 ∨ p.capMax < newCap rate msec ∨ (m.clockRate ≠ 0 ∧ ¬ factorFits rate m.clockRate)) :
    Mix.setSampleRate p rate msec m = .error ⟨.badRate, rate⟩ := by
  unfold Mix.setSampleRate
  rw [require_met _ _ _ (by rw [clean]; rfl)]
  by_cases given : rate ≠ 0 ∧ msec ≠ 0
  · obtain ⟨hrate, hmsec⟩ := given
    rw [require_met _ _ _ (Bool.and_eq_true_iff.2 ⟨decide_eq_true hrate, decide_eq_true hmsec⟩)]
    by_cases small : newCap rate msec ≤ p.capMax
    · obtain zero | zero | large | ⟨hclock, hfit⟩ := h
      · exact absurd zero hrate
      · exact absurd zero hmsec
      · omega
      · rw [require_met _ _ _ (decide_eq_true small)]
        exact require_unmet _ _ _ (ratesFit_false hrate hclock hfit)
    · exact require_unmet _ _ _ (decide_eq_false small)
  · exact require_unmet _ _ _ (by rw [← Bool.decide_and]; exact decide_eq_false given)

/-- BUF_SET_CLOCK_RATE during a track, R202. -/
theorem setClockRate_midtrack {clock : Word} {m : Mix} (h : m.dirty = true) :
    Mix.setClockRate clock m = .error ⟨.rateMidtrack, 0x11⟩ := by
  unfold Mix.setClockRate
  exact require_unmet _ _ _ (by rw [h]; rfl)

/-- BUF_SET_CLOCK_RATE with rates that are not acceptable, R202. -/
theorem setClockRate_badRate {clock : Word} {m : Mix} (clean : m.dirty = false)
    (h : clock = 0 ∨ (m.sampleRate ≠ 0 ∧ ¬ factorFits m.sampleRate clock)) :
    Mix.setClockRate clock m = .error ⟨.badRate, clock⟩ := by
  unfold Mix.setClockRate
  rw [require_met _ _ _ (by rw [clean]; rfl)]
  by_cases hclock : clock = 0
  · exact require_unmet _ _ _ (by simp [hclock])
  · obtain zero | ⟨hrate, hfit⟩ := h
    · exact absurd zero hclock
    · rw [require_met _ _ _ (decide_eq_true hclock)]
      exact require_unmet _ _ _ (ratesFit_false hrate hclock hfit)

/-- BUF_END_FRAME on a mix stage that is not configured, R210. -/
theorem endFrame_notConfigured {time : Word} {m : Mix} (h : m.configured = false) :
    Mix.endFrame time m = .error ⟨.notConfigured, 0x14⟩ := by
  unfold Mix.endFrame
  exact require_unmet _ _ _ h

/-- BUF_END_FRAME with a negative time, R210. -/
theorem endFrame_badTime {time : Word} {m : Mix} (h : m.configured = true) (ht : time.toInt < 0) :
    Mix.endFrame time m = .error ⟨.badTime, time⟩ := by
  unfold Mix.endFrame
  rw [require_met _ _ _ h]
  exact require_unmet _ _ _ (decide_eq_false (not_le.2 ht))

/-- BUF_END_FRAME past the capacity, R210. -/
theorem endFrame_overflow {time : Word} {m : Mix} (h : m.configured = true) (ht : 0 ≤ time.toInt)
    (hn : m.cap.toNat < (m.offset + time.toNat * m.factor.toNat) / 2 ^ 16) :
    Mix.endFrame time m = .error ⟨.frameOverflow, time⟩ := by
  have offset : m.endOffset (timeOperand time) = m.offset + time.toNat * m.factor.toNat := by
    unfold Mix.endOffset; rw [toNat_timeOperand ht]
  unfold Mix.endFrame
  rw [offset]
  exact (require_met _ _ _ h).trans <|
    (require_met _ _ _ (decide_eq_true ht)).trans (require_unmet _ _ _ (decide_eq_false (not_le.2 hn)))

/-- BUF_REMOVE_SAMPLES of more samples than there are, R214. -/
theorem remove_tooMany {n : Word} {m : Mix} (h : m.available < n.toNat) : Mix.remove n m = .error ⟨.removeTooMany, n⟩ := by
  unfold Mix.remove
  exact require_unmet _ _ _ (decide_eq_false (not_le.2 h))

/-- BUF_READ_STEREO of an odd count, 41_stereo_mix.md R242. -/
theorem execBufReadStereo_odd {count : Word} {s : State} (hf : s.fault = none) (h : count.toNat % 2 = 1) :
    execBufReadStereo count s = .next (s.faulted .oddCount count) := by
  have read : s.mix.readStereo count = .error ⟨.oddCount, count⟩ := by
    unfold Mix.readStereo
    exact require_unmet _ _ _ (decide_eq_false (by unfold countOperand; omega))
  unfold execBufReadStereo
  rw [read, ← takeFault_eq]
  exact runCommand_error hf rfl

/-- Settles O20: each command faults with the first requirement of its rule that is not met. -/
theorem bufferFaults : Obligations.BufferFaults := by
  intro a b s hf
  have faults {rule : Mix → Res (Mix × Word)} {code : FaultCode} {info : Word} :
      rule s.mix = .error ⟨code, info⟩ → runCommand (onMix rule s) s = .next (s.faulted code info) := onMix_faulted hf
  refine ⟨fun dirty => ⟨faults (setSampleRate_midtrack dirty), faults (setClockRate_midtrack dirty)⟩,
    fun clean => ⟨fun h => faults (setSampleRate_badRate clean h), fun h => faults (setClockRate_badRate clean h)⟩,
    fun h => faults (endFrame_notConfigured (not_configured h)), fun hrate hclock => ?_, fun h => faults (remove_tooMany h),
    execBufReadStereo_odd hf⟩
  have ready := configured_iff.2 ⟨hrate, hclock⟩
  exact ⟨fun ht => faults (endFrame_badTime ready ht), fun ht hn => faults (endFrame_overflow ready ht hn)⟩

end Sys2Proof.Machine
end

section
/-! PROOFS. BUF_ADD_DELTA: the cells it adds to, where it faults, and that the order of deltas does not matter (spec
40_delta_buffer.md R203 to R209). -/

namespace Sys2Proof.Machine

/-! ## Where a delta is placed -/

/-- Before the origin a debug build faults, R206. -/
theorem place_debug_before {p : Params} {m : Mix} {t : Int} (hb : p.buildMode = .debug) (h : m.pos t < 0) :
    m.place p t = .error ⟨.deltaBeforeOrigin, wrap32 t⟩ := by
  unfold Mix.place
  rw [if_pos h, hb]
  rfl

/-- Past the horizon a debug build faults, R206. -/
theorem place_debug_past {p : Params} {m : Mix} {t : Int} (hb : p.buildMode = .debug) (h : 0 ≤ m.pos t)
    (hc : m.cap.toNat < m.idx t) : m.place p t = .error ⟨.deltaPastHorizon, wrap32 t⟩ := by
  unfold Mix.place
  rw [if_neg (not_lt.2 h), if_pos hc, hb]
  rfl

/-- A release build clamps, R206, R605. -/
theorem place_release {p : Params} {m : Mix} {t : Int} (hb : p.buildMode = .release) :
    m.place p t = .ok (if m.pos t < 0 then 0 else if m.cap.toNat < m.idx t then m.cap.toNat else (m.idx t).toNat,
      if m.pos t < 0 then 0 else m.ph p t) := by
  unfold Mix.place
  rw [hb]
  split
  · rfl
  · split <;> rfl

/-- Where a delta that is not refused is placed: where it falls, and where a release build clamps it otherwise. -/
theorem place_clamped {p : Params} {m : Mix} {t : Int} (h : p.buildMode = .release ∨ (0 ≤ m.pos t ∧ m.idx t ≤ m.cap.toNat)) :
    m.place p t = .ok (if m.pos t < 0 then 0 else if m.cap.toNat < m.idx t then m.cap.toNat else (m.idx t).toNat,
      if m.pos t < 0 then 0 else m.ph p t) := by
  obtain hb | ⟨low, high⟩ := h
  · exact place_release hb
  · rw [place_in_range p low high, if_neg (not_lt.2 low), if_neg (not_lt.2 high), if_neg (not_lt.2 low)]

/-- Deltas do not change where a delta is placed: the position depends on the factor, the common offset and the capacity. -/
theorem sameFrame_place {p : Params} {m m' : Mix} {t : Int} (h : m.sameFrame m') : m'.place p t = m.place p t := by
  obtain ⟨_, _, factor, cap, offset, _⟩ := h
  have common : m'.offset = m.offset := offset .center
  unfold Mix.place Mix.idx Mix.ph Mix.pos
  rw [factor, cap, common]

/-! ## The command -/

/-- SEL names a DSB, 30_encoding.md R144. -/
theorem dsbOperand_named {sel : BitVec 4} {u : DsbName} (h : selNames sel u) : dsbOperand sel = some u := by
  obtain ⟨rfl, rfl⟩ | ⟨rfl, rfl⟩ | ⟨rfl, rfl⟩ := h <;> rfl

/-- `AddDelta` of a delta that can be placed, R207. -/
theorem addDelta_placed {p : Params} {opc : Byte} {u : DsbName} {t d : Int} {m : Mix} {i ph : Nat} (hc : m.configured = true)
    (hp : m.place p t = .ok (i, ph)) : addDelta p opc u t d m =
      .ok { m.setDsb u { m.dsb u with cells := addTaps p ph i d p.kw (m.dsb u).cells } with dirty := true } := by
  unfold addDelta
  rw [if_pos hc, res_bind_of_ok _ hp]

/-- `AddDelta` of a delta that cannot be placed. -/
theorem addDelta_unplaced {p : Params} {opc : Byte} {u : DsbName} {t d : Int} {m : Mix} {r : Raise} (hc : m.configured = true)
    (hp : m.place p t = .error r) : addDelta p opc u t d m = .error r := by
  unfold addDelta
  rw [if_pos hc, hp]
  rfl

/-- `AddDelta` on a mix stage that is not configured, R203. -/
theorem addDelta_notConfigured {p : Params} {opc : Byte} {u : DsbName} {t d : Int} {m : Mix} (hc : m.configured = false) :
    addDelta p opc u t d m = .error ⟨.notConfigured, opc.zeroExtend 32⟩ := by
  unfold addDelta
  rw [hc]
  rfl

section

variable {s : State} {sel : BitVec 4} {u : DsbName} {time delta : Word} (hf : s.fault = none) (hu : selNames sel u)
include hu

/-- BUF_ADD_DELTA on a DSB that SEL names, R208. -/
theorem exec_bufAddDelta : exec (.bufAddDelta sel time delta) s = runCommand (onMix (fun m => do
    let m' ← addDelta s.params 0x13 u (timeOperand time) (timeOperand delta) m
    .ok (m', 0)) s) s := by
  show execBufAddDelta sel time delta s = _
  unfold execBufAddDelta
  rw [dsbOperand_named hu]
  rfl

include hf

/-- It completes where its delta is added. -/
theorem bufAddDelta_done {m : Mix} (h : addDelta s.params 0x13 u (timeOperand time) (timeOperand delta) s.mix = .ok m) :
    exec (.bufAddDelta sel time delta) s = .next (State.done { s with mix := m } 0) := by
  rw [exec_bufAddDelta hu]
  exact onMix_done hf (res_bind_of_ok _ h)

/-- It faults where its delta is not added. -/
theorem bufAddDelta_faulted {code : FaultCode} {info : Word}
    (h : addDelta s.params 0x13 u (timeOperand time) (timeOperand delta) s.mix = .error ⟨code, info⟩) :
    exec (.bufAddDelta sel time delta) s = .next (s.faulted code info) := by
  rw [exec_bufAddDelta hu]
  refine onMix_faulted hf ?_
  rw [h]
  rfl

end

/-- A word as an s32 and back. -/
theorem wrap32_sext (w : Word) : wrap32 (sext w) = w := BitVec.ofInt_toInt

/-- What a tap of a delta operand adds to a cell, R207. -/
theorem wrap32_tap_operand (x d k : Word) : wrap32 (sext x + timeOperand d * sext k) = x + d * k := by
  rw [wrap32_tap, timeOperand, wrap32_sext]

/-- Settles O15: the delta is placed as R206 says, and each cell of its taps gains the delta times its residue. -/
theorem addDeltaCompletes : Obligations.AddDeltaCompletes := by
  intro sel u time delta s pos idx ph i row hf hu hrate hclock range
  have placed : s.mix.place s.params (timeOperand time) = .ok (i, if pos < 0 then 0 else ph) := place_clamped range
  refine ⟨_, bufAddDelta_done hf hu (addDelta_placed (configured_iff.2 ⟨hrate, hclock⟩) placed), fun a => ?_⟩
  rw [addTaps_get, wrap32_tap_operand]
  rfl

/-- Settles O16: the three faults are those of `AddDelta` and of the placing of its delta, which a release build never refuses. -/
theorem deltaRangeIsChecked : Obligations.DeltaRangeIsChecked := by
  intro sel u time delta s pos hf hu
  have info : wrap32 (timeOperand time) = time := wrap32_sext time
  refine ⟨fun h => bufAddDelta_faulted hf hu (addDelta_notConfigured (not_configured h)), fun hrate hclock => ?_⟩
  have ready := configured_iff.2 ⟨hrate, hclock⟩
  refine ⟨fun debug before => ?_, fun debug low past => ?_, fun release => ?_⟩
  · have fault := place_debug_before (t := timeOperand time) debug before
    rw [info] at fault
    exact bufAddDelta_faulted hf hu (addDelta_unplaced ready fault)
  · have fault := place_debug_past (t := timeOperand time) debug low past
    rw [info] at fault
    exact bufAddDelta_faulted hf hu (addDelta_unplaced ready fault)
  · exact ⟨_, bufAddDelta_done hf hu (addDelta_placed ready (place_release release)), hf⟩

/-! ## Sequences of commands, R209 -/

/-- What a BUF_ADD_DELTA command (its SEL, time and delta) adds to cell `c` of DSB `u` where it completes. -/
def Mix.gain (p : Params) (m : Mix) (u : DsbName) (c : Nat) (x : BitVec 4 × Word × Word) : Word :=
  match m.place p (timeOperand x.2.1) with
  | .error _ => 0
  | .ok (i, ph) => if dsbOperand x.1 = some u ∧ i ≤ c ∧ c < i + p.kw then x.2.2 * kernelTap p ph (c - i) else 0

/-- A delta does not change what another adds. -/
theorem sameFrame_gain {p : Params} {m m' : Mix} (h : m.sameFrame m') (u : DsbName) (c : Nat) : m'.gain p u c = m.gain p u c := by
  funext x
  unfold Mix.gain
  rw [sameFrame_place h]

/-- A delta that is added adds its gain to every cell. -/
theorem addDelta_gain {p : Params} {opc : Byte} {sel : BitVec 4} {v : DsbName} {time delta : Word} {m m' : Mix}
    (hv : dsbOperand sel = some v) (h : addDelta p opc v (timeOperand time) (timeOperand delta) m = .ok m') (u : DsbName) (c : Nat) :
    (m'.dsb u).cells.get c = (m.dsb u).cells.get c + m.gain p u c (sel, time, delta) := by
  obtain ⟨_, i, ph, placed, rfl⟩ := addDelta_ok h
  unfold Mix.gain
  rw [placed]
  show ((m.setDsb v _).dsb u).cells.get c = _ + if dsbOperand sel = some u ∧ _ then _ else _
  rw [hv]
  by_cases hu : u = v
  · subst hu
    rw [setDsb_dsb_self, addTaps_get, wrap32_tap_operand]
    by_cases reach : i ≤ c ∧ c < i + p.kw
    · rw [if_pos reach, if_pos ⟨rfl, reach⟩]
    · rw [if_neg reach, if_neg (fun k => reach k.2), add_zero]
  · rw [setDsb_dsb_ne _ _ hu, if_neg (fun k => hu (Option.some.inj k.1).symm), add_zero]

/-- A BUF_ADD_DELTA after which no fault is recorded has added its gain. -/
theorem bufAddDelta_cells {sel : BitVec 4} {time delta : Word} {s r : State} (h : exec (.bufAddDelta sel time delta) s = .next r)
    (hr : r.fault = none) : s.fault = none ∧ r.params = s.params ∧ s.mix.sameFrame r.mix ∧
      ∀ u c, (r.mix.dsb u).cells.get c = (s.mix.dsb u).cells.get c + s.mix.gain s.params u c (sel, time, delta) := by
  obtain ⟨⟨f, recorded⟩, rfl⟩ | ⟨hf, t, ok, rfl⟩ | ⟨_, raised, _, rfl⟩ := runCommand_cases h
  · rw [recorded] at hr; cases hr
  · obtain ⟨⟨m, v⟩, rule, ok⟩ := res_bind_ok.1 ok
    cases ok
    obtain ⟨u, named, rule⟩ := res_bind_ok.1 rule
    obtain ⟨m1, added, rule⟩ := res_bind_ok.1 rule
    cases rule
    exact ⟨hf, rfl, adds_sameFrame (.add (.refl _) added), addDelta_gain (orIllegal_ok named) added⟩
  · cases hr

/-- A sequence of them without a fault has added the sum of the gains, each taken in the first state. -/
theorem addDeltas_cells {list : List (BitVec 4 × Word × Word)} {s t : State} (h : addDeltas list s = some t)
    (ht : t.fault = none) : s.fault = none ∧
      ∀ u c, (t.mix.dsb u).cells.get c = (s.mix.dsb u).cells.get c + (list.map (s.mix.gain s.params u c)).sum := by
  induction list generalizing s with
  | nil =>
    cases h
    exact ⟨ht, fun u c => (add_zero _).symm⟩
  | cons x list ih =>
    obtain ⟨sel, time, delta⟩ := x
    unfold addDeltas at h
    split at h
    case h_2 => cases h
    case h_3 => cases h
    case h_1 r next =>
      obtain ⟨hr, rest⟩ := ih h
      obtain ⟨hs, params, frame, first⟩ := bufAddDelta_cells next hr
      refine ⟨hs, fun u c => ?_⟩
      rw [rest u c, first u c, params, sameFrame_gain frame, List.map_cons, List.sum_cons, add_assoc]

/-- Settles O17: a cell ends as what it was plus the sum of the gains, which has no order. -/
theorem deltasCommute : Obligations.DeltasCommute := by
  intro list list' s t t' perm h h' ht ht' u c
  obtain ⟨_, cells⟩ := addDeltas_cells h ht
  obtain ⟨_, cells'⟩ := addDeltas_cells h' ht'
  rw [cells u c, cells' u c, (perm.map _).sum_eq]

end Sys2Proof.Machine
end

section
/-! PROOFS. BUF_READ_STEREO: the integrators before each cell, the samples of a frame and the bytes put out (spec 40_delta_buffer.md
R213, 41_stereo_mix.md R240 to R242). -/

namespace Sys2Proof.Machine

/-- An arithmetic shift of a word is that of its integer. -/
theorem toInt_sshiftRight_eq_asr (w : Word) (n : Nat) : (w.sshiftRight n).toInt = asr (sext w) n := by
  rw [BitVec.toInt_sshiftRight, Int.shiftRight_eq_div_pow]
  rfl

/-- The integrator's step on words, R213. -/
theorem integrate_eq (accum cell : Word) : integrate accum cell = accum + cell - accum.sshiftRight 9 := by
  unfold integrate
  rw [show Config.leakShift = 9 from rfl, ← toInt_sshiftRight_eq_asr]
  simp only [wrap32, sext, sub_eq_add_neg, BitVec.ofInt_add, BitVec.ofInt_neg, BitVec.ofInt_toInt]

/-- `Sat16` of a mixed value clamps it, R241, R243: only a sample is its own low half, and the bits from 24 on of any other value
tell its sign. -/
theorem sat16_eq_clampSample {v : Word} (low : -65536 ≤ v.toInt) (high : v.toInt ≤ 65535) : sat16 v.toInt = clampSample v := by
  have half : (BitVec.ofInt 16 v.toInt).toInt = v.toInt.bmod (2 ^ 16) := BitVec.toInt_ofInt _
  have halfLow := BitVec.le_toInt (BitVec.ofInt 16 v.toInt)
  have halfHigh := BitVec.toInt_lt (x := BitVec.ofInt 16 v.toInt)
  unfold sat16 clampSample
  dsimp only
  by_cases above : 32767 < v.toInt
  · have sign : asr v.toInt 24 = 0 := by unfold asr; omega
    rw [if_neg (by omega), if_pos above, sign]
    rfl
  · rw [if_neg above]
    by_cases below : v.toInt < -32768
    · have sign : asr v.toInt 24 = -1 := by unfold asr; omega
      rw [if_neg (by omega), if_pos below, sign]
      rfl
    · rw [if_neg below, if_pos (half.trans (Int.bmod_eq_of_le (by omega) (by omega)))]
      exact BitVec.signExtend_eq_setWidth_of_le v (by decide)

/-- One side's sample, R240. -/
theorem mixSample_eq (side center : Word) : mixSample side center = clampSample ((side + center).sshiftRight 15) := by
  have sum : wrap32 (sext side + sext center) = side + center := by
    simp only [wrap32, sext, BitVec.ofInt_add, BitVec.ofInt_toInt]
  have value := toInt_sshiftRight_eq_asr (side + center) 15
  obtain ⟨low, high⟩ := sext_range (side + center)
  unfold mixSample
  rw [sum, show Config.mixShift = 15 from rfl, ← value]
  unfold asr at value
  exact sat16_eq_clampSample (by omega) (by omega)

/-- The integrators of the three DSBs before cell `n`. -/
def Mix.integrals (m : Mix) (n : Nat) : Accums :=
  ⟨integral m.center.cells m.center.accum n, integral m.left.cells m.left.accum n, integral m.right.cells m.right.accum n⟩

/-- The step of the three DSBs, R213. -/
theorem stepAccums_integrals (m : Mix) (n : Nat) : m.stepAccums n (m.integrals n) = m.integrals (n + 1) := by
  unfold Mix.stepAccums Mix.integrals
  rw [integrate_eq, integrate_eq, integrate_eq]
  rfl

/-- The bytes of a frame, R240, R242. -/
theorem frameBytes_integrals (m : Mix) (n : Nat) : frameBytes (m.integrals n) = stereoFrame m n := by
  unfold frameBytes Mix.integrals
  rw [mixSample_eq, mixSample_eq]
  rfl

/-- The frames of cells `i .. i + n - 1`, R242. -/
theorem readFrames_integrals (m : Mix) (n i : Nat) : m.readFrames n i (m.integrals i) =
    ((List.range' i n).flatMap (stereoFrame m), m.integrals (i + n)) := by
  induction n generalizing i with
  | zero => rfl
  | succ n ih =>
    rw [Mix.readFrames, stepAccums_integrals, ih, frameBytes_integrals, List.range'_succ, List.flatMap_cons, Nat.add_right_comm]
    rfl

/-- A stereo read of an even count, R242. -/
theorem readStereo_even {count : Word} (m : Mix) (even : count.toNat % 2 = 0) : m.readStereo count =
    .ok ((List.range (m.readCount count)).flatMap (stereoFrame m),
      (m.setAccums (m.integrals (m.readCount count))).removeSamples (m.readCount count),
      BitVec.ofNat 32 (2 * m.readCount count)) := by
  have read := readFrames_integrals m (m.readCount count) 0
  rw [zero_add, ← List.range_eq_range'] at read
  unfold Mix.readStereo
  refine (require_met _ _ _ (decide_eq_true even)).trans ?_
  dsimp only
  rw [show m.accums = m.integrals 0 from rfl, read]

/-- Settles O21: the frames are read by the integrals before each cell, and then their cells are removed. -/
theorem readStereoCompletes : Obligations.ReadStereoCompletes := by
  intro count s hf even frames
  refine ⟨s.mix.center.cells.shift frames, s.mix.left.cells.shift frames, s.mix.right.cells.shift frames, ?_, fun a =>
    ⟨store_get_shift _ _ _, store_get_shift _ _ _, store_get_shift _ _ _⟩⟩
  show execBufReadStereo count s = _
  unfold execBufReadStereo
  rw [res_bind_of_ok _ (readStereo_even s.mix even)]
  exact runCommand_ok hf rfl

end Sys2Proof.Machine
end

section
/-! PROOFS. Stereo output: the corners of the integrator's step, what saturation makes of a mixed value, and equal sides (spec
40_delta_buffer.md R213, R218, 41_stereo_mix.md R240 to R245). -/

namespace Sys2Proof.Machine

/-! ## Integrator and saturation -/

/-- An s32 value is kept where it is stored, R11. -/
theorem sext_wrap32 {v : Int} (low : -2 ^ 31 ≤ v) (high : v < 2 ^ 31) : sext (wrap32 v) = v :=
  (BitVec.toInt_ofInt _).trans (Int.bmod_eq_of_le low high)

/-- The integrator's step over a zero cell only leaks, R213. -/
theorem integrate_zero (a : Word) : integrate a 0 = wrap32 (sext a - sext a / 512) := by
  show wrap32 (sext a + 0 - sext a / 512) = _
  rw [add_zero]

/-- The leak never leaves the s32 range, R218. -/
theorem sext_integrate_zero (a : Word) : sext (integrate a 0) = sext a - sext a / 512 := by
  obtain ⟨low, high⟩ := sext_range a
  rw [integrate_zero]
  exact sext_wrap32 (by omega) (by omega)

/-- A leak that rounds to 0 leaves the integrator as it is, R218. -/
theorem integrate_zero_fixed {a : Word} (low : 0 ≤ sext a) (high : sext a < 512) : integrate a 0 = a := by
  have leak : sext a - sext a / 512 = sext a := by omega
  rw [integrate_zero, leak, wrap32_sext]

/-- A leak that rounds to -1 raises the integrator by 1, R218. -/
theorem integrate_zero_rises {a : Word} (low : -512 ≤ sext a) (high : sext a < 0) : integrate a 0 = a + 1 := by
  have leak : sext a - sext a / 512 = sext a + 1 := by omega
  rw [integrate_zero, leak]
  exact wrap32_add_period a 1

/-- A mixed value of R240 fits 17 bits. -/
theorem asr_sext_range (w : Word) : -65536 ≤ asr (sext w) 15 ∧ asr (sext w) 15 ≤ 65535 := by
  obtain ⟨low, high⟩ := sext_range w
  unfold asr
  omega

/-- The low half of a stored value is the value modulo 2^16. -/
theorem setWidth_wrap32 (v : Int) : (wrap32 v).setWidth 16 = BitVec.ofInt 16 v := by
  apply BitVec.eq_of_toNat_eq
  rw [wrap32, BitVec.toNat_setWidth, BitVec.toNat_ofInt, BitVec.toNat_ofInt]
  omega

/-- `Sat16` of a mixed value is the value clamped to 16 bits, R241, R243. -/
theorem sat16_eq {v : Int} (low : -65536 ≤ v) (high : v ≤ 65535) : sat16 v =
    if 32767 < v then 0x7FFF else if v < -32768 then 0x8000 else BitVec.ofInt 16 v := by
  have value : (wrap32 v).toInt = v := sext_wrap32 (by omega) (by omega)
  have clamped := sat16_eq_clampSample (v := wrap32 v) (by omega) (by omega)
  unfold clampSample at clamped
  rwa [value, setWidth_wrap32] at clamped

/-- Settles O22: over a zero cell the step is `a - a / 512` in exact integers, and saturation is a clamp. -/
theorem outputArithmetic : Obligations.OutputArithmetic := by
  refine ⟨fun _ _ => rfl, fun a => ⟨integrate_zero_fixed, integrate_zero_rises, ?_, ?_⟩, fun v => asr_sext_range _,
    fun v low high => ⟨fun above => ⟨?_, ?_⟩, fun below => ⟨?_, ?_⟩, fun above below => ?_⟩⟩
  · rw [sext_integrate_zero]; omega
  · rw [sext_integrate_zero]; omega
  · unfold asr; omega
  · rw [sat16_eq low high, if_pos above]
  · unfold asr; omega
  · rw [sat16_eq low high, if_neg (by omega), if_pos below]
  · rw [sat16_eq low high, if_neg (by omega), if_neg (by omega)]

/-! ## Equal sides, R245 -/

/-- The left sample of frame `k` of a read, R240. -/
def Mix.leftSample (m : Mix) (k : Nat) : BitVec 16 :=
  mixSample (integral m.left.cells m.left.accum k) (integral m.center.cells m.center.accum k)

/-- With equal sides a frame is its left sample twice. -/
theorem stereoFrame_of_equal_sides {m : Mix} (cells : m.left.cells = m.right.cells) (accum : m.left.accum = m.right.accum)
    (k : Nat) : stereoFrame m k = sampleBytes (m.leftSample k) ++ sampleBytes (m.leftSample k) := by
  rw [← frameBytes_integrals]
  unfold frameBytes Mix.integrals
  rw [← cells, ← accum]
  rfl

/-- A stereo read that does not fault puts out its frames, R242. -/
theorem readStereo_bytes {count v : Word} {bytes : List Byte} {m m' : Mix} (h : m.readStereo count = .ok (bytes, m', v)) :
    bytes = (List.range (m.readCount count)).flatMap (stereoFrame m) := by
  obtain ⟨_, met, _⟩ := res_bind_ok.1 h
  have even : count.toNat % 2 = 0 := of_decide_eq_true (require_ok met)
  rw [readStereo_even m even] at h
  cases h
  rfl

/-- Settles O23: a refused or faulting read puts out nothing, and a read that completes its frames, each of two equal samples. -/
theorem equalSidesReadEqual : Obligations.EqualSidesReadEqual := by
  intro count s t cells accum h
  obtain ⟨_, rfl⟩ | ⟨_, u, ok, rfl⟩ | ⟨_, r, _, rfl⟩ := runCommand_cases h
  · exact ⟨[], (List.append_nil _).symm⟩
  · obtain ⟨⟨bytes, m, v⟩, read, ok⟩ := res_bind_ok.1 ok
    cases ok
    refine ⟨(List.range (s.mix.readCount count)).map s.mix.leftSample, congrArg (s.pcmOut ++ ·) ?_⟩
    rw [readStereo_bytes read, List.flatMap_map, funext (stereoFrame_of_equal_sides cells accum)]
    rfl
  · exact ⟨[], (List.append_nil _).symm⟩

end Sys2Proof.Machine
end

section
/-! PROOFS. The PSG data port: attenuation, period halves and the noise control, by the channel and type of the byte or of
the latch (spec 43_psg.md R294, R295). -/

namespace Sys2Proof.Machine

/-! ## The register updates of a PSG group -/

/-- The attenuation of an oscillator, R294. -/
theorem setAtten_eq (g : Psg) (ch : BitVec 2) (v : BitVec 4) : g.setAtten ch v = psgAtten ch v g := by
  have channels : ∀ k : BitVec 2, k = 0 ∨ k = 1 ∨ k = 2 ∨ k = 3 := by decide
  obtain rfl | rfl | rfl | rfl := channels ch <;> rfl

/-- The period write of a tone, R294. -/
theorem psgPeriod_tone (p : Params) {ch : BitVec 2} (f : BitVec 10 → BitVec 10) (ctrl : BitVec 3) (g : Psg) (h : ch ≠ 3) :
    psgPeriod p ch f ctrl g = g.mapPeriod ch f := by
  have tones : ∀ k : BitVec 2, k ≠ 3 → k = 0 ∨ k = 1 ∨ k = 2 := by decide
  obtain rfl | rfl | rfl := tones ch h <;> rfl

/-- The low half of a period, R294. -/
theorem period_setLow (x : BitVec 10) (d : BitVec 4) : x.extractLsb' 4 6 ++ d = (x &&& 0x3F0) ||| d.setWidth 10 := by
  apply BitVec.eq_of_getLsbD_eq
  intro i hi
  rw [BitVec.getLsbD_append]
  interval_cases i <;> simp

/-- The high half of a period, R295. -/
theorem period_setHigh (x : BitVec 10) (d : BitVec 7) :
    d.extractLsb' 0 6 ++ x.extractLsb' 0 4 = ((d.setWidth 6).setWidth 10 <<< 4) ||| (x &&& 0x00F) := by
  apply BitVec.eq_of_getLsbD_eq
  intro i hi
  rw [BitVec.getLsbD_append]
  interval_cases i <;> simp

/-- The type bit of a latch. -/
theorem latchType_iff (b : Byte) : b.extractLsb' 4 1 = 1#1 ↔ bit b 4 = true := by
  revert b; decide

/-! ## The two forms of the byte -/

/-- What both forms do to the target, an attenuation where `a` holds: the group, and whether the noise restarts, R294, R295. -/
theorem dataPort_target (p : Params) (ch : BitVec 2) (v : BitVec 4) (f : BitVec 10 → BitVec 10) (ctrl : BitVec 3) (g : Psg)
    (a : Prop) [Decidable a] :
    (if a then (g.setAtten ch v, false)
      else if ch = 3#2 then (g.setNoise p ctrl, true) else (g.mapPeriod ch f, false)) =
    (if a then psgAtten ch v g else psgPeriod p ch f ctrl g, decide (¬ a ∧ ch = 3)) := by
  by_cases atten : a
  · rw [if_pos atten, if_pos atten, decide_eq_false fun k => k.1 atten, setAtten_eq]
  · rw [if_neg atten, if_neg atten]
    by_cases noise : ch = 3
    · subst noise
      rw [decide_eq_true ⟨atten, rfl⟩]
      rfl
    · rw [decide_eq_false fun k => noise k.2, psgPeriod_tone p f ctrl g noise]
      exact if_neg noise

/-- The latch form, R294. -/
theorem writeLatch_eq (p : Params) (ch : BitVec 2) (ty : BitVec 1) (data : BitVec 4) (g : Psg) :
    g.writeLatch p ch ty data =
      (let g := { g with latch := 1#1 ++ ch ++ ty ++ data }
        if ty = 1 then psgAtten ch data g
        else psgPeriod p ch (fun x => (x &&& 0x3F0) ||| data.setWidth 10) (data.setWidth 3) g,
       decide (¬ ty = 1 ∧ ch = 3)) := by
  simp only [← period_setLow, BitVec.setWidth_eq_extractLsb' (show 3 ≤ 4 by decide)]
  exact dataPort_target p ch data (fun x => x.extractLsb' 4 6 ++ data) (data.extractLsb' 0 3)
    { g with latch := 1#1 ++ ch ++ ty ++ data } (ty = 1)

/-- The data form, R295. -/
theorem writeData_eq (p : Params) (data : BitVec 7) (g : Psg) :
    g.writeData p data =
      (let ch := g.latch.extractLsb' 5 2
        if bit g.latch 4 then psgAtten ch (data.setWidth 4) g
        else psgPeriod p ch (fun x => ((data.setWidth 6).setWidth 10 <<< 4) ||| (x &&& 0x00F)) (data.setWidth 3) g,
       decide (¬ bit g.latch 4 = true ∧ g.latch.extractLsb' 5 2 = 3)) := by
  simp only [← period_setHigh, BitVec.setWidth_eq_extractLsb' (show 3 ≤ 7 by decide),
    BitVec.setWidth_eq_extractLsb' (show 4 ≤ 7 by decide), ← latchType_iff]
  exact dataPort_target p (g.latch.extractLsb' 5 2) (data.extractLsb' 0 4) (fun x => data.extractLsb' 0 6 ++ x.extractLsb' 0 4)
    (data.extractLsb' 0 3) g (g.latch.extractLsb' 4 1 = 1)

/-! ## The command -/

/-- The restart signal as a result word, R263. -/
theorem restartResult_decide (c : Prop) [Decidable c] : restartResult (decide c) = if c then 1 else 0 := by
  by_cases h : c
  · rw [decide_eq_true h, if_pos h]; rfl
  · rw [decide_eq_false h, if_neg h]; rfl

/-- A ready group runs to a command's time. -/
theorem runGroup_of_ready {s : State} {g : GroupRef} {time : Word} (opc : Byte) (ready : s.ready g (sext time)) :
    ∃ r, runGroup opc g (sext time) s = .ok r := runGroup_succeeds opc (sext_range time).2 ready

/-- OSC_WRITE of a latch byte, R294. -/
theorem exec_oscWritePsgLatch (inst : BitVec 1) (ch : BitVec 2) (ty : BitVec 1) (data : BitVec 4) (time : Word) (s : State) :
    exec (.oscWritePsgLatch inst ch ty data time) s =
      psgForm (.oscWritePsgLatch inst ch ty data time) inst time (pureWrite (Psg.writeLatch s.params ch ty data)) s := rfl

/-- OSC_WRITE of a data byte, R295. -/
theorem exec_oscWritePsgData (inst : BitVec 1) (data : BitVec 7) (time : Word) (s : State) :
    exec (.oscWritePsgData inst data time) s =
      psgForm (.oscWritePsgData inst data time) inst time (pureWrite (Psg.writeData s.params data)) s := rfl

/-- A PSG form whose rule touches only the group and restarts the noise where `c` holds. -/
theorem writesPsg_pure {i : Instr} {inst : BitVec 1} {time : Word} {rule : Params → Psg → Psg × Bool}
    {after : Params → Psg → Psg} {c : Psg → Prop} [DecidablePred c]
    (form : ∀ s, exec i s = psgForm i inst time (pureWrite (rule s.params)) s)
    (effect : ∀ p g, rule p g = (after p g, decide (c g))) :
    writesPsg i inst time after (fun g => if c g then 1 else 0) := by
  intro s hf hu done
  have completes (r : State) (run : runGroup 0x20 (.psg inst) (sext time) s = .ok r) : exec i s = .next (done r) := by
    have write : pureWrite (rule s.params) (r.psg.get inst) r.mix =
        .ok (after s.params (r.psg.get inst), r.mix, decide (c (r.psg.get inst))) := by
      unfold pureWrite
      rw [effect]
    rw [form, psgForm_ok hf hu run write, restartResult_decide]
  refine ⟨fun ready => ?_, completes⟩
  obtain ⟨r, run⟩ := runGroup_of_ready 0x20 ready
  exact ⟨r, run, completes r run⟩

/-- Settles O40: each form is its rule after the run, by the channel and type of its byte or of the latch. -/
theorem psgDataPortWrites : Obligations.PsgDataPortWrites := by
  intro inst time
  refine ⟨fun ch ty data => ?_, fun data => ?_⟩
  · have clear : ty = 0 ↔ ¬ ty = 1 := by revert ty; decide
    simp only [clear]
    exact writesPsg_pure (rule := (Psg.writeLatch · ch ty data)) (exec_oscWritePsgLatch inst ch ty data time)
      fun p g => writeLatch_eq p ch ty data g
  · simp only [← Bool.not_eq_true]
    exact writesPsg_pure (rule := (Psg.writeData · data)) (exec_oscWritePsgData inst data time) fun p g => writeData_eq p data g

end Sys2Proof.Machine
end

section
/-! PROOFS. The PSG stereo port: what a new route does to an oscillator and to its old route (spec 43_psg.md R296,
42_osc_common.md R265). -/

namespace Sys2Proof.Machine

/-- The route that a stereo byte gives oscillator `k`, R296. -/
theorem routeOf_bits (d : Byte) (k : Nat) : routeOf (bit d (k + 4)) (bit d k) = stereoRoute d k := by
  unfold stereoRoute
  cases bit d (k + 4) <;> cases bit d k <;> rfl

/-- `Emit` of no change, R10. -/
theorem emit_zero (p : Params) (opc : Byte) (r : Route) (t : Int) (m : Mix) : emit p opc r t 0 m = .ok m := by
  unfold emit
  cases r.dsb with
  | none => rfl
  | some u => exact if_pos rfl

/-- `Emit` where the mix stage accepts its time, and goes on accepting. -/
theorem emit_accepts {p : Params} {m : Mix} {lo hi t : Int} (opc : Byte) (r : Route) (d : Int) (accepts : m.accepts p lo hi)
    (low : lo ≤ t) (high : t ≤ hi) : ∃ m', emit p opc r t d m = .ok m' ∧ m'.accepts p lo hi := by
  obtain ⟨m', emitted⟩ := emit_succeeds (opc := opc) (r := r) (d := d) accepts low high
  exact ⟨m', emitted, sameFrame_accepts (adds_sameFrame (emit_adds emitted)) accepts⟩

/-- A route write takes the amplitude back out of the old route and gives the oscillator the new one, R265. -/
theorem setRoute_of_emit {p : Params} {opc : Byte} {t : Int} {route : Route} {o : Osc} {m m' : Mix}
    (emitted : emit p opc o.route t (rerouteDelta o route) m = .ok m') :
    setRoute p opc t route o m = .ok (rerouted o route, m') := by
  unfold setRoute rerouted
  unfold rerouteDelta at emitted
  split at emitted
  · next same =>
    cases (emit_zero p opc o.route t m).symm.trans emitted
    rw [if_pos same, if_pos same]
  · next changed =>
    rw [if_neg changed, if_neg changed]
    exact res_bind_of_ok _ emitted

/-- A PSG group with a stereo byte and its routes, R296. -/
def Psg.withStereo (g : Psg) (d : Byte) : Psg :=
  { g with
    stereo := d
    tone0 := { g.tone0 with osc := rerouted g.tone0.osc (stereoRoute d 0) }
    tone1 := { g.tone1 with osc := rerouted g.tone1.osc (stereoRoute d 1) }
    tone2 := { g.tone2 with osc := rerouted g.tone2.osc (stereoRoute d 2) }
    noise := { g.noise with osc := rerouted g.noise.osc (stereoRoute d 3) } }

/-- The stereo write takes back the four amplitudes in order, R296. -/
theorem writeStereo_of_emits {p : Params} {opc : Byte} {t : Int} {d : Byte} {g : Psg} {m m0 m1 m2 m3 : Mix}
    (back0 : emit p opc g.tone0.osc.route t (rerouteDelta g.tone0.osc (stereoRoute d 0)) m = .ok m0)
    (back1 : emit p opc g.tone1.osc.route t (rerouteDelta g.tone1.osc (stereoRoute d 1)) m0 = .ok m1)
    (back2 : emit p opc g.tone2.osc.route t (rerouteDelta g.tone2.osc (stereoRoute d 2)) m1 = .ok m2)
    (back3 : emit p opc g.noise.osc.route t (rerouteDelta g.noise.osc (stereoRoute d 3)) m2 = .ok m3) :
    g.writeStereo p opc t d m = .ok (g.withStereo d, m3) := by
  unfold Psg.writeStereo
  rw [routeOf_bits d 0, routeOf_bits d 1, routeOf_bits d 2, routeOf_bits d 3]
  exact (res_bind_of_ok _ (setRoute_of_emit back0)).trans <| (res_bind_of_ok _ (setRoute_of_emit back1)).trans <|
    (res_bind_of_ok _ (setRoute_of_emit back2)).trans (res_bind_of_ok _ (setRoute_of_emit back3))

/-- OSC_WRITE of the stereo port, R296. -/
theorem exec_oscWritePsgStereo (inst : BitVec 1) (data : Byte) (time : Word) (s : State) :
    exec (.oscWritePsgStereo inst data time) s =
      psgForm (.oscWritePsgStereo inst data time) inst time
        (noRestart (Psg.writeStereo s.params 0x20 (timeOperand time) data)) s := rfl

/-- Settles O41: the run leaves the mix stage accepting the command's time, so the four deltas there succeed in order. -/
theorem psgStereoWrite : Obligations.PsgStereoWrite := by
  intro inst data time s hf hu ready
  obtain ⟨r, run⟩ := runGroup_of_ready 0x20 ready
  obtain ⟨forward, -, accepts⟩ := ready
  let g := r.psg.get inst
  have emits (o : Osc) (k : Nat) {m : Mix} (accepts : m.accepts s.params (sext (s.psg.get inst).lastTime) (sext time)) :=
    emit_accepts 0x20 o.route (rerouteDelta o (stereoRoute data k)) accepts forward le_rfl
  obtain ⟨m0, back0, accepts0⟩ := emits g.tone0.osc 0 (accepts_after_run run accepts)
  obtain ⟨m1, back1, accepts1⟩ := emits g.tone1.osc 1 accepts0
  obtain ⟨m2, back2, accepts2⟩ := emits g.tone2.osc 2 accepts1
  obtain ⟨m3, back3, -⟩ := emits g.noise.osc 3 accepts2
  have write : noRestart (Psg.writeStereo s.params 0x20 (timeOperand time) data) g r.mix =
      .ok (g.withStereo data, m3, false) := res_bind_of_ok _ (writeStereo_of_emits back0 back1 back2 back3)
  exact ⟨r, m0, m1, m2, m3, run, back0, back1, back2, back3,
    (exec_oscWritePsgStereo inst data time s).trans (psgForm_ok hf hu run write)⟩

end Sys2Proof.Machine
end

section
/-! PROOFS. The handheld register forms: each is the rule of its address after the run, which a powered-off group ignores below
NR52; the registers that store only, the wave RAM, the lengths and the DACs (spec 44_hh_square.md R330 to R334,
45_hh_wave_noise_master.md R373 to R378, R383 to R385, R394, R395). -/

namespace Sys2Proof.Machine

/-! ## Registers, lengths, DACs -/

/-- Reading a register after a store. -/
theorem reg_setReg (h : Hh) (a b : Nat) (v : Byte) : (h.setReg a v).reg b = if b = a then v else h.reg b :=
  store_get_set h.regs a b v

/-- The low bits of a byte as a number. -/
theorem toNat_low (d : Byte) (n : Nat) : (d.extractLsb' 0 n).toNat = d.toNat % 2 ^ n := by
  rw [BitVec.extractLsb'_toNat, Nat.shiftRight_zero]

/-- The DAC of a square or the noise is on from NRx2 = 8 on, R322. -/
theorem dacOnByte_eq (d : Byte) : dacOnByte d = decide (8 ≤ d.toNat) := by
  revert d; decide

/-- An oscillator whose DAC is off is disabled, R325, R333, R373. -/
theorem dacCheck_eq (dac : Bool) (g : Gate) : g.dacCheck dac = { g with enabled := g.enabled && dac } := by
  cases dac <;> simp [Gate.dacCheck]

/-- NR10 disables sq1 where `c` holds, R330. -/
theorem disableSq1_if (c : Bool) (h : Hh) : (if c then h.disableSq1 else h) =
    { h with sq1 := { h.sq1 with gate := { h.sq1.gate with enabled := h.sq1.gate.enabled && !c } } } := by
  cases c <;> simp [Hh.disableSq1]

/-- The byte a wave RAM access reaches, R378. -/
theorem waveRamAddr_eq (h : Hh) (low : BitVec 4) : h.waveRamAddr low =
    0x30 + if h.wave.gate.enabled = true then h.wave.position.toNat / 2 else low.toNat := by
  have half : (h.wave.position.extractLsb' 1 4).toNat = h.wave.position.toNat / 2 := by
    have := h.wave.position.isLt
    rw [BitVec.extractLsb'_toNat, Nat.shiftRight_eq_div_pow]
    omega
  unfold Hh.waveRamAddr
  rw [apply_ite BitVec.toNat, half]

/-! ## The forms as rules -/

/-- An instruction writes the gated register `a`: after the run, the rule of `a` where the group is powered on, R394. -/
def WritesRegister (i : Instr) (a : Nat) (data : Byte) (time : Word) : Prop :=
  ∀ s, exec i s = hhForm i time (hhGated a data (hhRule s.params 0x20 (timeOperand time) a)) s

/-- The forms that write a gated register, with its address. -/
def registerWrites (data : Byte) (time : Word) : List (Nat × Instr) :=
  [(0x10, .oscWriteHhNr10 data time), (0x11, .oscWriteHhNr11 data time), (0x12, .oscWriteHhNr12 data time),
    (0x13, .oscWriteHhNr13 data time), (0x14, .oscWriteHhNr14 data time), (0x16, .oscWriteHhNr21 data time),
    (0x17, .oscWriteHhNr22 data time), (0x18, .oscWriteHhNr23 data time), (0x19, .oscWriteHhNr24 data time),
    (0x1A, .oscWriteHhNr30 data time), (0x1B, .oscWriteHhNr31 data time), (0x1C, .oscWriteHhNr32 data time),
    (0x1D, .oscWriteHhNr33 data time), (0x1E, .oscWriteHhNr34 data time), (0x20, .oscWriteHhNr41 data time),
    (0x21, .oscWriteHhNr42 data time), (0x22, .oscWriteHhNr43 data time), (0x23, .oscWriteHhNr44 data time),
    (0x24, .oscWriteHhNr50 data time), (0x25, .oscWriteHhNr51 data time)]

/-- Each of them is the rule of its address. -/
theorem registerWrites_write (data : Byte) (time : Word) : ∀ e ∈ registerWrites data time, WritesRegister e.2 e.1 data time := by
  simp only [registerWrites, List.forall_mem_cons]
  exact ⟨fun _ => rfl, fun _ => rfl, fun _ => rfl, fun _ => rfl, fun _ => rfl, fun _ => rfl, fun _ => rfl, fun _ => rfl,
    fun _ => rfl, fun _ => rfl, fun _ => rfl, fun _ => rfl, fun _ => rfl, fun _ => rfl, fun _ => rfl, fun _ => rfl,
    fun _ => rfl, fun _ => rfl, fun _ => rfl, fun _ => rfl, fun _ h => nomatch h⟩

/-- A form whose rule succeeds on every group powered as `on` says. -/
theorem writesHh_of_rule {i : Instr} {time : Word} {on b : Bool} {rule : Params → Hh → Mix → Res (Hh × Mix × Bool)}
    {after : Params → Hh → Hh} (form : ∀ s, exec i s = hhForm i time (rule s.params) s)
    (effect : ∀ p h m, h.powered = on → rule p h m = .ok (after p h, m, b)) :
    writesHh i time on after (if b then 1 else 0) := by
  intro s hf hu power done
  have completes (r : State) (run : runGroup 0x20 .hh (sext time) s = .ok r) : exec i s = .next (done r) := by
    have write := effect s.params r.hh r.mix ((powered_after_run run).trans power)
    have result : restartResult b = if b then 1 else 0 := by cases b <;> rfl
    rw [form, hhForm_ok hf hu run write, result]
  refine ⟨fun ready => ?_, completes⟩
  obtain ⟨r, run⟩ := runGroup_of_ready 0x20 ready
  exact ⟨r, run, completes r run⟩

/-- A form outside the gated registers whose rule changes only the group. -/
theorem writesHh_plain {i : Instr} {time : Word} {on : Bool} {f after : Hh → Hh}
    (form : ∀ s, exec i s = hhForm i time (hhPlain f) s) (effect : ∀ h, f h = after h) :
    writesHh i time on (fun _ h => after h) 0 :=
  writesHh_of_rule (b := false) (rule := fun _ => hhPlain f) form fun _ h _ _ => effect h ▸ rfl

section
variable {i : Instr} {a : Nat} {data : Byte} {time : Word} (writes : WritesRegister i a data time)
include writes

/-- Powered off, a gated register ignores the write, R394. -/
theorem writesHh_off : writesHh i time false (fun _ h => h) 0 :=
  writesHh_of_rule (b := false) (rule := fun p => hhGated a data (hhRule p 0x20 (timeOperand time) a)) writes
    fun _ _ _ off => if_neg (ne_true_of_eq_false off)

/-- Powered on, the byte is stored and the rule of the register runs. -/
theorem writesHh_on {b : Bool} {after : Params → Hh → Hh}
    (effect : ∀ p t h m, hhRule p 0x20 t a data (h.reg a) (h.setReg a data) m = .ok (after p h, m, b)) :
    writesHh i time true after (if b then 1 else 0) :=
  writesHh_of_rule (rule := fun p => hhGated a data (hhRule p 0x20 (timeOperand time) a)) writes
    fun p h m on => (if_pos on).trans (effect p (timeOperand time) h m)

/-- The same for a rule that changes only the group. -/
theorem writesHh_on_plain {f after : Hh → Hh} (rule : ∀ p t old, hhRule p 0x20 t a data old = hhPlain f)
    (effect : ∀ h, f (h.setReg a data) = after h) : writesHh i time true (fun _ h => after h) 0 :=
  writesHh_on (b := false) writes fun p t h m => by rw [rule, hhPlain, effect h]

end

/-! ## O42, O43 -/

/-- Settles O42: the rules of the five registers change nothing, a gated register is ignored while powered off, and neither the
unused addresses nor the wave RAM ask for the power. -/
theorem hhStoredAndIgnoredWrites : Obligations.HhStoredAndIgnoredWrites := by
  intro data time
  refine ⟨?_, fun i hi => ?_, fun on low => ?_, fun on low => ?_⟩
  · have stored {i : Instr} {a : Nat} (writes : WritesRegister i a data time)
        (rule : ∀ p t old, hhRule p 0x20 t a data old = hhPlain id) : writesHh i time true (fun _ h => h.setReg a data) 0 :=
      writesHh_on_plain writes rule fun _ => rfl
    simp only [List.forall_mem_cons]
    exact ⟨stored (fun _ => rfl) fun _ _ _ => rfl, stored (fun _ => rfl) fun _ _ _ => rfl, stored (fun _ => rfl) fun _ _ _ => rfl,
      stored (fun _ => rfl) fun _ _ _ => rfl, stored (fun _ => rfl) fun _ _ _ => rfl, fun _ h => nomatch h⟩
  · obtain ⟨e, he, rfl⟩ := List.mem_map.1 (show i ∈ (registerWrites data time).map Prod.snd from hi)
    exact writesHh_off (registerWrites_write data time e he)
  · have unused {i : Instr} (form : ∀ s, exec i s = hhForm i time hhIgnore s) : writesHh i time on (fun _ h => h) 0 :=
      writesHh_of_rule (b := false) (rule := fun _ => hhIgnore) form fun _ _ _ _ => rfl
    simp only [List.forall_mem_cons]
    exact ⟨unused fun _ => rfl, unused fun _ => rfl, unused fun _ => rfl, unused fun _ => rfl, fun _ h => nomatch h⟩
  · exact writesHh_plain (fun _ => rfl) fun h => by rw [Hh.writeWaveRam, waveRamAddr_eq]

/-- Settles O43: the rule of each register on the stored byte. -/
theorem hhLengthAndDacWrites : Obligations.HhLengthAndDacWrites := by
  intro data time len
  have length : 64 - (data.extractLsb' 0 6).toNat = len := congrArg (64 - ·) (toNat_low data 6)
  have dac (g : Gate) : g.dacCheck (dacOnByte data) = { g with enabled := g.enabled && decide (8 ≤ data.toNat) } := by
    rw [dacCheck_eq, dacOnByte_eq]
  exact ⟨writesHh_on_plain (a := 0x10) (fun _ => rfl) (fun _ _ _ => rfl) fun h => disableSq1_if _ _,
    writesHh_on_plain (a := 0x11) (fun _ => rfl) (fun _ _ _ => rfl) fun h => by rw [length]; rfl,
    writesHh_on_plain (a := 0x16) (fun _ => rfl) (fun _ _ _ => rfl) fun h => by rw [length]; rfl,
    writesHh_on_plain (a := 0x1B) (fun _ => rfl) (fun _ _ _ => rfl) fun h => rfl,
    writesHh_on_plain (a := 0x20) (fun _ => rfl) (fun _ _ _ => rfl) fun h => by rw [length]; rfl,
    writesHh_on_plain (a := 0x12) (fun _ => rfl) (fun _ _ _ => rfl) fun h => by rw [dac]; rfl,
    writesHh_on_plain (a := 0x17) (fun _ => rfl) (fun _ _ _ => rfl) fun h => by rw [dac]; rfl,
    writesHh_on_plain (a := 0x21) (fun _ => rfl) (fun _ _ _ => rfl) fun h => by rw [dac]; rfl,
    writesHh_on_plain (a := 0x1A) (fun _ => rfl) (fun _ _ _ => rfl) fun h => by rw [dacCheck_eq]; rfl⟩

end Sys2Proof.Machine
end

section
/-! PROOFS. NRx4 of the handheld oscillators: the length rule and the DAC, the envelope start, the delay reload and, for sq1, the
sweep start, as one next group each (spec 44_hh_square.md R325, R326, R331, R335, 45_hh_wave_noise_master.md R377, R386). -/

namespace Sys2Proof.Machine

/-! ## Frequencies, periods, delays -/

/-- A bit vector is 0 where its number is. -/
theorem eq_zero_iff_toNat {w : Nat} (v : BitVec w) : v = 0#w ↔ v.toNat = 0 := by
  rw [← BitVec.toNat_inj, BitVec.toNat_ofNat, Nat.zero_mod]

/-- A period of 0 counts as 8, R323, R326. -/
theorem eightIfZero (v : BitVec 3) : (if v = 0#3 then 8 else v.toNat) = if v.toNat = 0 then 8 else v.toNat :=
  if_congr (eq_zero_iff_toNat v) rfl rfl

/-- The frequency of an oscillator as a number, R328, R371. -/
theorem toNat_freq (h : Hh) (base : Nat) : (h.freq base).toNat = freqOfRegs (h.reg (base + 3)) (h.reg (base + 4)) := by
  rw [Hh.freq, BitVec.toNat_append, ← Nat.shiftLeft_add_eq_or_of_lt (h.reg (base + 3)).isLt, toNat_low, Nat.shiftLeft_eq]
  rfl

/-- The period of the noise, R380. -/
theorem noiseTicks_eq (h : Hh) : h.noiseTicks =
    (if (h.reg 0x22).toNat % 8 = 0 then 8 else 16 * ((h.reg 0x22).toNat % 8)) * 2 ^ ((h.reg 0x22).toNat / 16) := by
  have code : ((h.reg 0x22).extractLsb' 0 3).toNat = (h.reg 0x22).toNat % 8 := toNat_low _ 3
  have shift : h.noiseShift = (h.reg 0x22).toNat / 16 := by
    have := (h.reg 0x22).isLt
    rw [Hh.noiseShift, BitVec.extractLsb'_toNat, Nat.shiftRight_eq_div_pow]
    omega
  rw [Hh.noiseTicks, noiseDivisor, shift, if_congr (eq_zero_iff_toNat _) rfl rfl, code]

/-- A period stored as a delay. -/
theorem wrap32_natCast (n : Nat) : wrap32 n = BitVec.ofNat 32 n := BitVec.ofInt_natCast ..

/-- The delay reload of a square, R335: what it keeps of the delay left, and a period. -/
theorem wrap32_sext_add (w : Word) (n : Nat) : wrap32 (sext w + n) = w + BitVec.ofNat 32 n := by
  rw [wrap32, BitVec.ofInt_add, BitVec.ofInt_natCast]
  exact congrArg (· + _) (wrap32_sext w)

/-! ## The length rule, R331 -/

/-- The length clock of the quirk: a length of 0 has nothing to lose. -/
theorem quirkClock_eq (quirk data6 old6 : Bool) (g : Gate) :
    (if quirk && !old6 && data6 && decide (0 < g.lengthCtr) then { g with lengthCtr := g.lengthCtr - 1 } else g) =
    { g with lengthCtr := if (quirk && data6) = true ∧ old6 = false then g.lengthCtr - 1 else g.lengthCtr } := by
  have clocks : (quirk && !old6 && data6 && decide (0 < g.lengthCtr)) = true ↔
      ((quirk && data6) = true ∧ old6 = false) ∧ 0 < g.lengthCtr := by
    simp only [Bool.and_eq_true, Bool.not_eq_true', decide_eq_true_eq]
    tauto
  rw [if_congr clocks rfl rfl]
  by_cases due : (quirk && data6) = true ∧ old6 = false
  · rw [if_pos due]
    obtain empty | left := Nat.eq_zero_or_pos g.lengthCtr
    · rw [if_neg fun k => k.2.ne' empty, empty, Nat.zero_sub, ← empty]
    · rw [if_pos ⟨due, left⟩]
  · rw [if_neg fun k => due k.1, if_neg due]

/-- The trigger of `WriteTrig` and its last line: a trigger fills an empty counter, and without one an empty counter disables. -/
theorem triggerGate_eq (trigger enabled : Bool) (len : Nat) {full : Nat} (hf : full ≠ 0) :
    (let g : Gate := if trigger then ⟨true, if len = 0 then full else len⟩ else ⟨enabled, len⟩;
      if g.lengthCtr = 0 then { g with enabled := false } else g) =
    (let len' := if trigger = true ∧ len = 0 then full else len;
      ⟨if trigger then true else enabled && decide (len' ≠ 0), len'⟩) := by
  obtain rfl | filled := eq_or_ne len 0
  · cases trigger <;> simp [hf]
  · cases trigger <;> simp [filled]

/-- `WriteTrig` on an oscillator whose maximal length is above 1. -/
theorem writeTrig_eq {p : Params} {ph : BitVec 3} {maxLen : Nat} {data old : Byte} (g : Gate) (long : 1 < maxLen) :
    let len := trigLength p ph maxLen old data g.lengthCtr
    g.writeTrig p ph maxLen data old = ⟨trigEnabled data true len g.enabled, len⟩ := by
  have odd : ph.getLsbD 0 = decide (ph.toNat % 2 = 1) := by revert ph; decide
  have full : (if (p.hhLengthQuirk && decide (ph.toNat % 2 = 1) && bit data 6) = true then maxLen - 1 else maxLen) ≠ 0 := by
    split <;> omega
  unfold Gate.writeTrig
  dsimp only
  rw [odd, quirkClock_eq]
  exact triggerGate_eq (bit data 7) g.enabled _ full

/-- The DAC check after a trigger, R325. -/
theorem dacCheck_trigger {data : Byte} (trigger : bit data 7 = true) (dac : Bool) (len : Nat) (enabled : Bool) :
    Gate.dacCheck dac ⟨trigEnabled data true len enabled, len⟩ = ⟨trigEnabled data dac len enabled, len⟩ := by
  rw [dacCheck_eq, trigEnabled, trigEnabled, if_pos trigger, if_pos trigger, Bool.true_and]

/-- Without a trigger the DAC does not matter, R331. -/
theorem trigEnabled_untriggered {data : Byte} (off : ¬ bit data 7 = true) (dac dac' : Bool) (len : Nat) (enabled : Bool) :
    trigEnabled data dac len enabled = trigEnabled data dac' len enabled := by
  rw [trigEnabled, trigEnabled, if_neg off, if_neg off]

/-! ## Squares and their envelopes -/

/-- The envelope a trigger starts, R325. -/
theorem envStart_eq (ph : BitVec 3) (d : Byte) : envStart ph d = trigEnv ph d := by
  have low : (d.extractLsb' 0 3).toNat = d.toNat % 8 := toNat_low d 3
  have period : d.extractLsb' 0 3 = BitVec.ofNat 3 (d.toNat % 8) := by
    rw [← low, BitVec.ofNat_toNat, BitVec.setWidth_eq]
  unfold envStart Env.reload trigEnv
  dsimp only
  rw [eightIfZero, low, ← period]
  show (if ph = 7 then _ else _) = _
  by_cases seven : ph = 7
  · rw [if_pos seven, if_pos seven]
  · rw [if_neg seven, if_neg seven, Nat.add_zero]

/-- NRx4 of a square, R335 without the sweep. -/
theorem writeNrx4_eq (p : Params) (ph : BitVec 3) (nrx2 data old : Byte) (ticks : Nat) (q : Square) :
    let len := trigLength p ph 64 old data q.gate.lengthCtr
    q.writeNrx4 p ph nrx2 data old ticks =
      { q with
        gate := ⟨trigEnabled data (decide (8 ≤ nrx2.toNat)) len q.gate.enabled, len⟩
        env := if bit data 7 then trigEnv ph nrx2 else q.env
        osc := if bit data 7 then { q.osc with delay := (q.osc.delay &&& 3) + BitVec.ofNat 32 ticks } else q.osc } := by
  intro len
  rw [Square.writeNrx4, writeTrig_eq q.gate (by decide)]
  by_cases trigger : bit data 7 = true
  · rw [if_pos trigger, if_pos trigger, if_pos trigger, dacCheck_trigger trigger, dacOnByte_eq, envStart_eq, wrap32_sext_add]
  · rw [if_neg trigger, if_neg trigger, if_neg trigger, trigEnabled_untriggered trigger]

/-! ## The sweep start, R326, R335 -/

/-- The frequency a sweep calculation computes, R326. -/
theorem sweptFreq_eq (h : Hh) : h.sweptFreq = sweptFrom (h.reg 0x10) h.sweep.freq.toNat := by
  rw [Hh.sweptFreq, Hh.sweepShift, toNat_low, sweptFrom]
  rfl

/-- A sweep calculation that does not update: the direction noted, and sq1 disabled where the frequency leaves the range, R326. -/
theorem calcSweep_false (h : Hh) : h.calcSweep false =
    { h with
      sq1 := { h.sq1 with gate := { h.sq1.gate with enabled := h.sq1.gate.enabled && !decide (0x7FF < h.sweptFreq) } }
      sweep := { h.sweep with neg := bit (h.reg 0x10) 3 } } := by
  unfold Hh.calcSweep
  dsimp only
  by_cases exceeds : 0x7FF < h.sweptFreq
  · rw [if_pos exceeds, decide_eq_true exceeds, Bool.not_true, Bool.and_false]
    rfl
  · rw [if_neg exceeds, if_neg fun k => Bool.false_ne_true k.2, decide_eq_false exceeds, Bool.not_false, Bool.and_true]

/-- The period of NR10. -/
theorem toNat_sweepPeriod (h : Hh) : h.sweepPeriod.toNat = (h.reg 0x10).toNat / 16 % 8 := by
  rw [Hh.sweepPeriod, BitVec.extractLsb'_toNat, Nat.shiftRight_eq_div_pow]

/-- The shift of NR10. -/
theorem toNat_sweepShift (h : Hh) : h.sweepShift.toNat = (h.reg 0x10).toNat % 8 := toNat_low _ 3

/-- A calculation leaves the range only upwards, R326. -/
theorem over_sweptFrom (nr10 : Byte) {f : Nat} (hf : f < 2048) :
    decide (0x7FF < sweptFrom nr10 f) = (!bit nr10 3 && decide (0x7FF < f + f / 2 ^ (nr10.toNat % 8))) := by
  unfold sweptFrom
  by_cases falls : bit nr10 3 = true
  · rw [if_pos falls, falls, Bool.not_true, Bool.false_and]
    exact decide_eq_false (Nat.not_lt.2 ((Nat.sub_le f _).trans (Nat.le_of_lt_succ hf)))
  · rw [if_neg falls, Bool.eq_false_of_not_eq_true falls, Bool.not_false, Bool.true_and]

/-- The sweep unit a trigger starts at frequency `f`; `nr10` holds its register. -/
def startedSweep (nr10 : Byte) (f : BitVec 11) : Sweep :=
  { freq := f
    delay := if nr10.toNat / 16 % 8 = 0 then 8 else nr10.toNat / 16 % 8
    enabled := decide (nr10.toNat / 16 % 8 ≠ 0) || decide (nr10.toNat % 8 ≠ 0)
    neg := decide (nr10.toNat % 8 ≠ 0) && bit nr10 3 }

/-- The sweep start, with its overflow check where the shift is not 0. -/
theorem sweepStart_eq (h : Hh) : h.sweepStart =
    { h with
      sq1 := { h.sq1 with gate := { h.sq1.gate with
        enabled := h.sq1.gate.enabled && !sweepOverflows (h.reg 0x10) (h.freq baseSq1).toNat } }
      sweep := startedSweep (h.reg 0x10) (h.freq baseSq1) } := by
  let started : Hh := { h with sweep := { startedSweep (h.reg 0x10) (h.freq baseSq1) with neg := false } }
  have period : h.sweepPeriod ≠ 0#3 ↔ (h.reg 0x10).toNat / 16 % 8 ≠ 0 := by rw [Ne, eq_zero_iff_toNat, toNat_sweepPeriod]
  have shift : h.sweepShift ≠ 0#3 ↔ (h.reg 0x10).toNat % 8 ≠ 0 := by rw [Ne, eq_zero_iff_toNat, toNat_sweepShift]
  have delay : (if h.sweepPeriod = 0#3 then 8 else h.sweepPeriod.toNat) =
      if (h.reg 0x10).toNat / 16 % 8 = 0 then 8 else (h.reg 0x10).toNat / 16 % 8 := by rw [eightIfZero, toNat_sweepPeriod]
  have start : h.sweepStart = if h.sweepShift ≠ 0#3 then started.calcSweep false else started := by
    simp only [started, startedSweep, ← delay, ← decide_eq_decide.2 period, ← decide_eq_decide.2 shift]
    rfl
  have swept : started.sweptFreq = sweptFrom (h.reg 0x10) (h.freq baseSq1).toNat := sweptFreq_eq started
  rw [start, calcSweep_false, swept, over_sweptFrom (h.reg 0x10) (h.freq baseSq1).isLt]
  by_cases shifts : (h.reg 0x10).toNat % 8 ≠ 0
  · simp only [if_pos (shift.2 shifts), started, startedSweep, sweepOverflows, decide_eq_true shifts, Bool.true_and]
    rfl
  · simp only [if_neg (mt shift.1 shifts), started, startedSweep, sweepOverflows, decide_eq_false shifts, Bool.false_and,
      Bool.not_false, Bool.and_true]

/-! ## O44, O45 -/

/-- The frequency right after NRx4 is stored. -/
theorem toNat_freq_setReg (h : Hh) (base : Nat) (data : Byte) :
    ((h.setReg (base + 4) data).freq base).toNat = freqOfRegs (h.reg (base + 3)) data := by
  rw [toNat_freq, reg_setReg, reg_setReg, if_neg (by omega), if_pos rfl]

/-- A sweep start after NR14 is stored. -/
theorem sweepStart_setReg (h : Hh) (data : Byte) (q : Square) :
    let f := freqOfRegs (h.reg 0x13) data
    Hh.sweepStart { h.setReg 0x14 data with sq1 := q } =
      { h.setReg 0x14 data with
        sq1 := { q with gate := { q.gate with enabled := q.gate.enabled && !sweepOverflows (h.reg 0x10) f } }
        sweep := startedSweep (h.reg 0x10) (BitVec.ofNat 11 f) } := by
  intro f
  let written : Hh := { h.setReg 0x14 data with sq1 := q }
  have nr10 : written.reg 0x10 = h.reg 0x10 := reg_setReg h 0x14 0x10 data
  have freq : (written.freq baseSq1).toNat = f := toNat_freq_setReg h baseSq1 data
  have stored : written.freq baseSq1 = BitVec.ofNat 11 f := by rw [← freq, BitVec.ofNat_toNat, BitVec.setWidth_eq]
  show written.sweepStart = _
  rw [sweepStart_eq, nr10, freq, stored]

/-- Settles O44: the square's part of each register by `writeNrx4_eq`, then for NR14 the sweep start where bit 7 is set. -/
theorem hhSquareTriggers : Obligations.HhSquareTriggers := by
  intro data time
  refine ⟨writesHh_on (a := 0x14) (fun _ => rfl) fun p t h m => ?_, writesHh_on (a := 0x19) (fun _ => rfl) fun p t h m => ?_⟩
  · have ticks : (h.setReg 0x14 data).squareTicks baseSq1 = (2048 - freqOfRegs (h.reg 0x13) data) * 4 :=
      congrArg (fun f => (2048 - f) * 4) (toNat_freq_setReg h baseSq1 data)
    have nr12 : (h.setReg 0x14 data).reg 0x12 = h.reg 0x12 := reg_setReg h 0x14 0x12 data
    show hhNr14 p data (h.reg 0x14) (h.setReg 0x14 data) m = _
    rw [hhNr14, writeNrx4_eq, ticks, nr12]
    by_cases trigger : bit data 7 = true
    · simp only [if_pos trigger, sweepStart_setReg, trigEnabled]
      rfl
    · simp only [if_neg trigger, trigEnabled]
      rfl
  · have ticks : (h.setReg 0x19 data).squareTicks baseSq2 = (2048 - freqOfRegs (h.reg 0x18) data) * 4 :=
      congrArg (fun f => (2048 - f) * 4) (toNat_freq_setReg h baseSq2 data)
    have nr22 : (h.setReg 0x19 data).reg 0x17 = h.reg 0x17 := reg_setReg h 0x19 0x17 data
    show hhNr24 p data (h.reg 0x19) (h.setReg 0x19 data) m = _
    rw [hhNr24, writeNrx4_eq, ticks, nr22]
    rfl

/-- Settles O45: the length rule and the DAC as for a square; the wave restarts its position, the noise its shift register. -/
theorem hhWaveAndNoiseTriggers : Obligations.HhWaveAndNoiseTriggers := by
  intro data time
  refine ⟨writesHh_on (a := 0x1E) (fun _ => rfl) fun p t h m => ?_, writesHh_on (a := 0x23) (fun _ => rfl) fun p t h m => ?_⟩
  · have ticks : (h.setReg 0x1E data).waveTicks = (2048 - freqOfRegs (h.reg 0x1D) data) * 2 :=
      congrArg (fun f => (2048 - f) * 2) (toNat_freq_setReg h baseWave data)
    have nr30 : (h.setReg 0x1E data).waveDacOn = bit (h.reg 0x1A) 7 := congrArg (bit · 7) (reg_setReg h 0x1E 0x1A data)
    show hhNr34 p data (h.reg 0x1E) (h.setReg 0x1E data) m = _
    rw [hhNr34, writeTrig_eq _ (by decide), ticks, nr30, ← Nat.cast_add, wrap32_natCast]
    by_cases trigger : bit data 7 = true
    · simp only [if_pos trigger, dacCheck_trigger trigger]
      rfl
    · simp only [if_neg trigger, trigEnabled]
      rfl
  · have nr43 : (h.setReg 0x23 data).reg 0x22 = h.reg 0x22 := reg_setReg h 0x23 0x22 data
    have nr42 : (h.setReg 0x23 data).reg 0x21 = h.reg 0x21 := reg_setReg h 0x23 0x21 data
    show hhNr44 p data (h.reg 0x23) (h.setReg 0x23 data) m = _
    rw [hhNr44, writeTrig_eq _ (by decide), noiseTicks_eq, nr43, nr42, dacOnByte_eq, envStart_eq, wrap32_natCast]
    by_cases trigger : bit data 7 = true
    · simp only [if_pos trigger, dacCheck_trigger trigger]
      rfl
    · simp only [if_neg trigger, trigEnabled]
      rfl

end Sys2Proof.Machine
end

section
/-! PROOFS. A frame step of the handheld group and of the triangle, clock by clock: the sweep with its two calculations, the
lengths, the envelopes (spec 44_hh_square.md R320, R321, R324, R326, R327, 46_triangle.md R417). -/

namespace Sys2Proof.Machine

/-! ## Lengths and envelopes -/

/-- The length clock, R321. -/
theorem clockLength_eq (nrx4 : Byte) (g : Gate) : g.clockLength nrx4 = lengthClocked true nrx4 g := by
  have counts : (bit nrx4 6 && decide (0 < g.lengthCtr)) = true ↔ true = true ∧ bit nrx4 6 = true ∧ 0 < g.lengthCtr := by
    rw [Bool.and_eq_true, decide_eq_true_eq, eq_self, true_and]
  unfold Gate.clockLength lengthClocked
  rw [if_congr counts rfl rfl]
  split
  · next due =>
    obtain ⟨-, -, left⟩ := due
    obtain last | more := eq_or_ne g.lengthCtr 1
    · simp [last]
    · have left' : g.lengthCtr - 1 ≠ 0 := by omega
      simp [more, left']
  · rfl

/-- Only the enable bit of NRx4 matters to the length clock. -/
theorem lengthClocked_congr {r r' : Byte} (clocked : Bool) (g : Gate) (h : bit r 6 = bit r' 6) :
    lengthClocked clocked r g = lengthClocked clocked r' g := by
  rw [lengthClocked, lengthClocked, h]

/-- The envelope clock, R324. -/
theorem clockEnv_eq (e : Env) : e.clock = envClocked true e := by
  have period : e.period = 0#3 ↔ e.period.toNat = 0 := eq_zero_iff_toNat e.period
  have top : e.volume.toNat + 1 ≤ 15 ↔ ¬ e.volume = 15 := by
    rw [← BitVec.toNat_inj]
    have := e.volume.isLt
    show _ ↔ ¬ e.volume.toNat = 15
    omega
  have bottom : 1 ≤ e.volume.toNat ↔ ¬ e.volume = 0 := by
    rw [Nat.one_le_iff_ne_zero]
    exact not_congr (eq_zero_iff_toNat e.volume).symm
  unfold Env.clock envClocked
  by_cases enabled : e.enabled = true
  · by_cases waits : 1 < e.delay
    · have left : e.delay - 1 ≠ 0 := by omega
      simp only [enabled, waits, left, if_true, if_false, and_self]
    · have elapsed : e.delay - 1 = 0 := by omega
      simp only [enabled, waits, elapsed, if_true, if_false, and_self, Env.reload, period, top, bottom]
      by_cases still : e.period.toNat = 0
      · simp only [still, if_true]
      · simp only [still, if_false, ite_not]
  · rw [if_neg enabled, if_neg fun k => enabled k.2]

/-- The lengths clocked or not, R320. -/
theorem clockLengths_if (c : Prop) [Decidable c] (h : Hh) : (if c then h.clockLengths else h) =
    { h with
      sq1 := { h.sq1 with gate := lengthClocked (decide c) (h.reg 0x14) h.sq1.gate }
      sq2 := { h.sq2 with gate := lengthClocked (decide c) (h.reg 0x19) h.sq2.gate }
      wave := { h.wave with gate := lengthClocked (decide c) (h.reg 0x1E) h.wave.gate }
      noise := { h.noise with gate := lengthClocked (decide c) (h.reg 0x23) h.noise.gate } } := by
  by_cases due : c
  · rw [if_pos due, decide_eq_true due, Hh.clockLengths, clockLength_eq, clockLength_eq, clockLength_eq, clockLength_eq]
  · rw [if_neg due, decide_eq_false due]
    rfl

/-- The envelopes clocked or not, R320. -/
theorem clockEnvs_if (c : Prop) [Decidable c] (h : Hh) : (if c then h.clockEnvs else h) =
    { h with
      sq1 := { h.sq1 with env := envClocked (decide c) h.sq1.env }
      sq2 := { h.sq2 with env := envClocked (decide c) h.sq2.env }
      noise := { h.noise with env := envClocked (decide c) h.noise.env } } := by
  by_cases due : c
  · rw [if_pos due, decide_eq_true due, Hh.clockEnvs, clockEnv_eq, clockEnv_eq, clockEnv_eq]
  · rw [if_neg due, decide_eq_false due]
    rfl

/-! ## The sweep -/

/-- A calculation that updates stores the frequency in the sweep unit and in NR13 and NR14, R326. -/
theorem calcSweep_true_of_fits {h : Hh} (fits : h.sweptFreq ≤ 0x7FF) (shifts : h.sweepShift ≠ 0#3) : h.calcSweep true =
    (Hh.setReg { h with sweep := { h.sweep with neg := bit (h.reg 0x10) 3, freq := BitVec.ofNat 11 h.sweptFreq } }
      0x13 (BitVec.ofNat 8 h.sweptFreq)).setReg 0x14 ((h.reg 0x14 &&& 0xF8) ||| BitVec.ofNat 8 (h.sweptFreq / 256)) := by
  have low : (BitVec.ofNat 11 h.sweptFreq).extractLsb' 0 8 = BitVec.ofNat 8 h.sweptFreq := by
    apply BitVec.eq_of_toNat_eq
    rw [BitVec.extractLsb'_toNat, Nat.shiftRight_zero, BitVec.toNat_ofNat, BitVec.toNat_ofNat]
    omega
  have high : ((BitVec.ofNat 11 h.sweptFreq).extractLsb' 8 3).zeroExtend 8 = BitVec.ofNat 8 (h.sweptFreq / 256) := by
    apply BitVec.eq_of_toNat_eq
    rw [BitVec.zeroExtend, BitVec.toNat_setWidth, BitVec.extractLsb'_toNat, Nat.shiftRight_eq_div_pow,
      BitVec.toNat_ofNat, BitVec.toNat_ofNat]
    omega
  unfold Hh.calcSweep
  dsimp only
  rw [if_neg (Nat.not_lt.2 fits), if_pos ⟨shifts, rfl⟩, low, high]

/-- One that does not is a calculation without an update. -/
theorem calcSweep_true_of_not {h : Hh} (keeps : ¬ (h.sweptFreq ≤ 0x7FF ∧ h.sweepShift ≠ 0#3)) :
    h.calcSweep true = h.calcSweep false := by
  unfold Hh.calcSweep
  dsimp only
  by_cases fits : h.sweptFreq ≤ 0x7FF
  · have inside := Nat.not_lt.2 fits
    rw [if_neg inside, if_neg inside, if_neg fun k => keeps ⟨fits, k.1⟩, if_neg fun k => Bool.false_ne_true k.2]
  · rw [if_pos (Nat.lt_of_not_le fits), if_pos (Nat.lt_of_not_le fits)]

/-- The two calculations of a sweep clock, R327. -/
theorem calcSweep_twice (h : Hh) :
    let nr10 := h.reg 0x10
    let f1 := sweptFrom nr10 h.sweep.freq.toNat
    let update : Bool := decide (f1 ≤ 0x7FF) && decide (nr10.toNat % 8 ≠ 0)
    let f2 := if update then sweptFrom nr10 f1 else f1
    let h' := (h.calcSweep true).calcSweep false
    h'.sweep = { h.sweep with freq := if update then BitVec.ofNat 11 f1 else h.sweep.freq, neg := bit nr10 3 } ∧
    (∀ a, h'.reg a =
      if update = true ∧ a = 0x13 then BitVec.ofNat 8 f1
      else if update = true ∧ a = 0x14 then (h.reg 0x14 &&& 0xF8) ||| BitVec.ofNat 8 (f1 / 256) else h.reg a) ∧
    h'.sq1.gate = { h.sq1.gate with enabled := h.sq1.gate.enabled && !decide (0x7FF < f1 ∨ 0x7FF < f2) } := by
  intro nr10 f1 update f2 h'
  have first : h.sweptFreq = f1 := sweptFreq_eq h
  have shift : h.sweepShift ≠ 0#3 ↔ nr10.toNat % 8 ≠ 0 := by rw [Ne, eq_zero_iff_toNat, toNat_sweepShift]
  have second : h' = { h.calcSweep true with
      sq1 := { (h.calcSweep true).sq1 with gate := { (h.calcSweep true).sq1.gate with
        enabled := (h.calcSweep true).sq1.gate.enabled &&
          !decide (0x7FF < sweptFrom nr10 (h.calcSweep true).sweep.freq.toNat) } }
      sweep := { (h.calcSweep true).sweep with neg := bit nr10 3 } } := by
    have same : (h.calcSweep true).reg 0x10 = nr10 := (calcSweep_frame true h).1 0x10 (by decide) (by decide)
    rw [show h' = _ from calcSweep_false _, sweptFreq_eq, same]
  rw [second]
  by_cases updates : f1 ≤ 0x7FF ∧ nr10.toNat % 8 ≠ 0
  · obtain ⟨fits, shifts⟩ := updates
    have updated : update = true := by simp [update, fits, shifts]
    have stored : (BitVec.ofNat 11 f1).toNat = f1 := by
      rw [BitVec.toNat_ofNat]
      omega
    rw [calcSweep_true_of_fits (first.trans_le fits) (shift.2 shifts), first]
    refine ⟨by simp only [updated, if_true]; rfl, fun a => ?_, ?_⟩
    · show ((Hh.setReg _ 0x13 _).setReg 0x14 _).reg a = _
      rw [reg_setReg, reg_setReg, updated]
      obtain rfl | high := eq_or_ne a 0x14
      · rfl
      · simp only [high, if_false, and_false, eq_self, true_and]
        rfl
    · simp only [f2, updated, if_true, Nat.not_lt.2 fits, false_or, setReg_sq1, setReg_sweep, stored]
  · have kept : update = false := by simpa [update] using updates
    have once : h.calcSweep true = h.calcSweep false := calcSweep_true_of_not (by rwa [first, shift])
    rw [once, calcSweep_false, first]
    refine ⟨by simp only [kept, Bool.false_eq_true, if_false], fun a => ?_, ?_⟩
    · simp only [kept, Bool.false_eq_true, false_and, if_false]
      rfl
    · simp only [f2, kept, Bool.false_eq_true, if_false, or_self]
      rw [show sweptFrom nr10 h.sweep.freq.toNat = f1 from rfl, Bool.and_assoc, Bool.and_self]

/-- A sweep reload, R326. -/
theorem reloadSweep_eq (h : Hh) : h.reloadSweep = { h with sweep := { h.sweep with
    delay := if (h.reg 0x10).toNat / 16 % 8 = 0 then 8 else (h.reg 0x10).toNat / 16 % 8 } } := by
  rw [Hh.reloadSweep, eightIfZero, toNat_sweepPeriod]

/-- A sweep clock before the delay elapses, R327. -/
theorem clockSweep_waiting {h : Hh} (waits : ¬ h.sweep.delay ≤ 1) :
    h.clockSweep = { h with sweep := { h.sweep with delay := h.sweep.delay - 1 } } :=
  if_neg (by omega)

/-- One that only reloads. -/
theorem clockSweep_idle {h : Hh} (due : h.sweep.delay ≤ 1) (idle : ¬ (h.sweep.enabled = true ∧ h.sweepPeriod ≠ 0#3)) :
    h.clockSweep = h.reloadSweep :=
  (if_pos (Nat.sub_eq_zero_of_le due)).trans (if_neg idle)

/-- One that sweeps. -/
theorem clockSweep_sweeping {h : Hh} (due : h.sweep.delay ≤ 1) (sweeps : h.sweep.enabled = true ∧ h.sweepPeriod ≠ 0#3) :
    h.clockSweep = (h.reloadSweep.calcSweep true).calcSweep false :=
  (if_pos (Nat.sub_eq_zero_of_le due)).trans (if_pos sweeps)

/-- The sweep clocked or not, R320, R327: the sweep unit, the registers and the gate of sq1. -/
theorem clockSweep_if (clocked : Bool) (h : Hh) :
    let nr10 := h.reg 0x10
    let period := nr10.toNat / 16 % 8
    let due := clocked && decide (h.sweep.delay ≤ 1)
    let swept := due && h.sweep.enabled && decide (period ≠ 0)
    let f1 := sweptFrom nr10 h.sweep.freq.toNat
    let update : Bool := swept && decide (f1 ≤ 0x7FF) && decide (nr10.toNat % 8 ≠ 0)
    let f2 := if update then sweptFrom nr10 f1 else f1
    let h' := if clocked then h.clockSweep else h
    h'.sweep =
      { freq := if update then BitVec.ofNat 11 f1 else h.sweep.freq
        delay := if due then (if period = 0 then 8 else period) else if clocked then h.sweep.delay - 1 else h.sweep.delay
        enabled := h.sweep.enabled
        neg := if swept then bit nr10 3 else h.sweep.neg } ∧
    (∀ a, h'.reg a =
      if update = true ∧ a = 0x13 then BitVec.ofNat 8 f1
      else if update = true ∧ a = 0x14 then (h.reg 0x14 &&& 0xF8) ||| BitVec.ofNat 8 (f1 / 256) else h.reg a) ∧
    h'.sq1.gate =
      { h.sq1.gate with enabled := h.sq1.gate.enabled && !(swept && decide (0x7FF < f1 ∨ 0x7FF < f2)) } := by
  intro nr10 period due swept f1 update f2 h'
  have hperiod : h.sweepPeriod ≠ 0#3 ↔ period ≠ 0 := by rw [Ne, eq_zero_iff_toNat, toNat_sweepPeriod]
  by_cases sweeps : swept = true
  · obtain ⟨⟨hdue, enabled⟩, nonzero⟩ : (due = true ∧ h.sweep.enabled = true) ∧ period ≠ 0 := by
      simpa only [swept, Bool.and_eq_true, decide_eq_true_eq] using sweeps
    obtain ⟨hclocked, elapsed⟩ : clocked = true ∧ h.sweep.delay ≤ 1 := by
      simpa only [due, Bool.and_eq_true, decide_eq_true_eq] using hdue
    have calculated : h' = (h.reloadSweep.calcSweep true).calcSweep false :=
      (if_pos hclocked).trans (clockSweep_sweeping elapsed ⟨enabled, hperiod.2 nonzero⟩)
    obtain ⟨sweep, regs, gate⟩ := calcSweep_twice h.reloadSweep
    simp only [f2, update, sweeps, hdue, if_true, Bool.true_and]
    rw [calculated]
    refine ⟨sweep.trans ?_, regs, gate⟩
    rw [reloadSweep_eq]
    rfl
  · have idle : swept = false := Bool.eq_false_of_not_eq_true sweeps
    have kept : update = false := by simp only [update, idle, Bool.false_and]
    have waited : h' = { h with sweep := { h.sweep with delay :=
        if due then (if period = 0 then 8 else period) else if clocked then h.sweep.delay - 1 else h.sweep.delay } } := by
      cases hclocked : clocked
      · simp only [h', due, hclocked, Bool.false_and, Bool.false_eq_true, if_false]
      · by_cases elapsed : h.sweep.delay ≤ 1
        · have off : ¬ (h.sweep.enabled = true ∧ h.sweepPeriod ≠ 0#3) := by
            simpa [swept, due, hclocked, elapsed, hperiod] using idle
          simp only [h', due, hclocked, elapsed, decide_true, Bool.and_self, if_true]
          rw [clockSweep_idle elapsed off, reloadSweep_eq]
        · simp only [h', due, hclocked, elapsed, decide_false, Bool.and_false, Bool.false_eq_true, if_false, if_true]
          exact clockSweep_waiting elapsed
    simp only [kept, idle, Bool.false_eq_true, if_false, false_and, Bool.false_and, Bool.not_false, Bool.and_true]
    rw [waited]
    exact ⟨rfl, fun _ => rfl, rfl⟩

/-! ## The frame step -/

/-- A group in its next frame phase, with the sweep clocked in phases 2 and 6, R320. -/
def Hh.afterSweep (h : Hh) : Hh :=
  let g := { h with framePhase := h.framePhase + 1 }
  if decide (h.framePhase.toNat = 2 ∨ h.framePhase.toNat = 6) then g.clockSweep else g

/-- The clocks of a frame step after the sweep's: lengths in even phases, envelopes in phase 7, R320. -/
theorem frameStep_eq (h : Hh) :
    let even := decide (h.framePhase.toNat % 2 = 0)
    let seven := decide (h.framePhase.toNat = 7)
    let g := h.afterSweep
    h.frameStep =
      { g with
        sq1 := { g.sq1 with
          gate := lengthClocked even (g.reg 0x14) g.sq1.gate
          env := envClocked seven g.sq1.env }
        sq2 := { g.sq2 with
          gate := lengthClocked even (g.reg 0x19) g.sq2.gate
          env := envClocked seven g.sq2.env }
        wave := { g.wave with gate := lengthClocked even (g.reg 0x1E) g.wave.gate }
        noise := { g.noise with
          gate := lengthClocked even (g.reg 0x23) g.noise.gate
          env := envClocked seven g.noise.env } } := by
  intro even seven g
  have phases : ∀ ph : BitVec 3,
      ((ph = 2#3 ∨ ph = 6#3) ↔ decide (ph.toNat = 2 ∨ ph.toNat = 6) = true) ∧
      (ph.extractLsb' 0 1 = 0#1 ↔ ph.toNat % 2 = 0) ∧ (ph = 7#3 ↔ ph.toNat = 7) := by decide
  obtain ⟨sweeps, lengths, envs⟩ := phases h.framePhase
  have swept : (if h.framePhase = 2#3 ∨ h.framePhase = 6#3 then Hh.clockSweep { h with framePhase := h.framePhase + 1 }
      else { h with framePhase := h.framePhase + 1 }) = g := if_congr sweeps rfl rfl
  unfold Hh.frameStep
  dsimp only
  rw [swept, if_congr lengths rfl rfl, if_congr envs rfl rfl, clockLengths_if, clockEnvs_if]

/-- What the sweep clock of a frame step leaves. -/
theorem afterSweep_frame (h : Hh) :
    h.afterSweep.framePhase = h.framePhase + 1 ∧ (∀ a, a ≠ 0x13 → a ≠ 0x14 → h.afterSweep.reg a = h.reg a) ∧
    (h.afterSweep.volScale = h.volScale ∧ h.afterSweep.lastTime = h.lastTime ∧ h.afterSweep.nextFrameTime = h.nextFrameTime) ∧
    (h.afterSweep.sq1.env = h.sq1.env ∧ h.afterSweep.sq1.phase = h.sq1.phase ∧ h.afterSweep.sq1.osc = h.sq1.osc) ∧
    h.afterSweep.sq2 = h.sq2 ∧ h.afterSweep.wave = h.wave ∧ h.afterSweep.noise = h.noise := by
  unfold Hh.afterSweep
  dsimp only
  split
  · obtain ⟨regs, scale, phase, next, last, osc, sq2, wave, noise, env, duty, -⟩ :=
      clockSweep_frame { h with framePhase := h.framePhase + 1 }
    exact ⟨phase, regs, ⟨scale, last, next⟩, ⟨env, duty, osc⟩, sq2, wave, noise⟩
  · exact ⟨rfl, fun _ _ _ => rfl, ⟨rfl, rfl, rfl⟩, ⟨rfl, rfl, rfl⟩, rfl, rfl, rfl⟩

/-- The enable bit of NR14 is outside the bits the sweep writes, R326. -/
theorem bit_nr14_swept (nr14 : Byte) {f : Nat} (fits : f ≤ 0x7FF) :
    bit ((nr14 &&& 0xF8) ||| BitVec.ofNat 8 (f / 256)) 6 = bit nr14 6 := by
  have high : (f / 256).testBit 6 = false := Nat.testBit_lt_two_pow (by omega)
  have mask : (0xF8 : Byte).getLsbD 6 = true := by decide
  rw [bit, bit, BitVec.getLsbD_or, BitVec.getLsbD_and, BitVec.getLsbD_ofNat, high, mask, Bool.and_true, Bool.and_false,
    Bool.or_false]

/-- A counter of 0 has nothing to lose. -/
theorem countDown_eq (P : Prop) [Decidable P] (n : Nat) : (if P then n - 1 else n) = if P ∧ 0 < n then n - 1 else n := by
  obtain rfl | left := Nat.eq_zero_or_pos n
  · rw [Nat.zero_sub, ite_self, ite_self]
  · exact if_congr (and_iff_left left).symm rfl rfl

/-- The triangle's frame step, R417. -/
theorem stepFrame_eq (g : Tri) :
    let fs := g.frameStep.toNat
    let control := bit g.r4008 7
    g.stepFrame = { g with
      frameStep := g.frameStep + 1
      linearCtr := if g.linearReload = true then g.r4008.toNat % 128 else if 0 < g.linearCtr then g.linearCtr - 1 else 0
      linearReload := if control = true then g.linearReload else false
      lengthCtr := if (fs = 1 ∨ fs = 3) ∧ control = false ∧ 0 < g.lengthCtr then g.lengthCtr - 1 else g.lengthCtr } := by
  intro fs control
  have odd : ∀ x : BitVec 2, x.getLsbD 0 = decide (x.toNat = 1 ∨ x.toNat = 3) := by decide
  have linear : g.linearCtr - 1 = if 0 < g.linearCtr then g.linearCtr - 1 else 0 := by
    split
    · rfl
    · omega
  have reload : (control && g.linearReload) = if control = true then g.linearReload else false := by cases control <;> rfl
  have due : (g.frameStep.getLsbD 0 && !control) = true ↔ (fs = 1 ∨ fs = 3) ∧ control = false := by
    rw [odd, Bool.and_eq_true, decide_eq_true_eq, Bool.not_eq_true']
  have length : (if g.frameStep.getLsbD 0 && !control then g.lengthCtr - 1 else g.lengthCtr) =
      if (fs = 1 ∨ fs = 3) ∧ control = false ∧ 0 < g.lengthCtr then g.lengthCtr - 1 else g.lengthCtr := by
    rw [if_congr due rfl rfl, countDown_eq, if_congr and_assoc rfl rfl]
  rw [← linear, ← reload, ← length, show 128 = 2 ^ 7 from rfl, ← toNat_low]
  rfl

/-- Settles O48: the sweep clock, then lengths and envelopes, each on what the clocks before it leave. -/
theorem frameSequencerSteps : Obligations.FrameSequencerSteps := by
  refine ⟨fun h => ?_, stepFrame_eq⟩
  intro ph h' nr10 period due swept f1 update f2 even
  obtain ⟨phase, kept, times, ⟨env, duty, osc⟩, sq2, wave, noise⟩ := afterSweep_frame h
  obtain ⟨sweep, regs, gate⟩ : _ ∧ _ ∧ _ :=
    clockSweep_if (decide (ph = 2 ∨ ph = 6)) { h with framePhase := h.framePhase + 1 }
  have delay : h.afterSweep.sweep.delay = if due then (if period = 0 then 8 else period)
      else if ph = 2 ∨ ph = 6 then h.sweep.delay - 1 else h.sweep.delay :=
    (congrArg Sweep.delay sweep).trans (if_congr Iff.rfl rfl (if_congr decide_eq_true_iff rfl rfl))
  have nr14 : bit (h.afterSweep.reg 0x14) 6 = bit (h.reg 0x14) 6 := by
    have stored : h.afterSweep.reg 0x14 =
        if update then (h.reg 0x14 &&& 0xF8) ||| BitVec.ofNat 8 (f1 / 256) else h.reg 0x14 :=
      (regs 0x14).trans ((if_neg fun k => absurd k.2 (by decide)).trans (if_congr (and_iff_left rfl) rfl rfl))
    rw [stored]
    split
    · next updated =>
      obtain ⟨⟨-, fits⟩, -⟩ : (swept = true ∧ f1 ≤ 0x7FF) ∧ _ := by
        simpa only [update, Bool.and_eq_true, decide_eq_true_eq] using updated
      exact bit_nr14_swept (h.reg 0x14) fits
    · rfl
  have nr24 : h.afterSweep.reg 0x19 = h.reg 0x19 := kept 0x19 (by decide) (by decide)
  have nr34 : h.afterSweep.reg 0x1E = h.reg 0x1E := kept 0x1E (by decide) (by decide)
  have nr44 : h.afterSweep.reg 0x23 = h.reg 0x23 := kept 0x23 (by decide) (by decide)
  rw [show h' = _ from frameStep_eq h, nr24, nr34, nr44, env, sq2, wave, noise]
  exact ⟨phase, delay, (congrArg Sweep.freq sweep :), (congrArg Sweep.enabled sweep :), (congrArg Sweep.neg sweep :), regs,
    (lengthClocked_congr even _ nr14).trans (congrArg (lengthClocked even (h.reg 0x14)) gate), rfl, rfl, rfl, rfl, rfl, rfl,
    ⟨duty, rfl, rfl, rfl, rfl⟩, ⟨osc, rfl, rfl, rfl⟩, times⟩

end Sys2Proof.Machine
end

section
/-! PROOFS. The power state of the handheld group: NR52 holds its power bit only, and while it is 0 so does every register
0x10..0x25, over runs, frame steps and register rules (spec 45_hh_wave_noise_master.md R391 to R397). -/

namespace Sys2Proof.Machine

/-! ## Registers and the power state -/

/-- Registers that read the same hold the same power state. -/
theorem powerOk_of_reg_eq {h h' : Hh} (same : ∀ a, h'.reg a = h.reg a) (k : h.powerOk) : h'.powerOk := by
  simpa only [Hh.powerOk, same] using k

/-- The same for one store of registers. -/
theorem powerOk_of_regs_eq {h h' : Hh} (regs : h'.regs = h.regs) (k : h.powerOk) : h'.powerOk :=
  powerOk_of_reg_eq (fun a => congrArg (Store.get · a) regs) k

/-- The addresses that a powered group does not write by a gated register: NR52 and the unused ones, R391, R395. -/
def fixedWhileOn (a : Nat) : Prop := a = 0x15 ∨ a = 0x1F ∨ (0x26 ≤ a ∧ a ≤ 0x2F)

/-- A powered group may change every other register. -/
theorem powerOk_of_on {h h' : Hh} (on : h.reg 0x26 ≠ 0) (same : ∀ a, fixedWhileOn a → h'.reg a = h.reg a) (k : h.powerOk) :
    h'.powerOk := by
  obtain ⟨master, unused15, unused1F, unused, -⟩ := k
  have nr52 : h'.reg 0x26 = h.reg 0x26 := same 0x26 (.inr (.inr ⟨le_rfl, by decide⟩))
  exact ⟨nr52 ▸ master, (same 0x15 (.inl rfl)).trans unused15, (same 0x1F (.inr (.inl rfl))).trans unused1F,
    fun a low high => (same a (.inr (.inr ⟨by omega, high⟩))).trans (unused a low high), fun off => absurd (nr52 ▸ off) on⟩

/-- A powered group is one whose NR52 is not 0. -/
theorem nr52_ne_zero {h : Hh} (on : h.powered = true) : h.reg 0x26 ≠ 0 := fun zero => by
  rw [Hh.powered, zero] at on
  exact absurd on (by decide)

/-- In a power state, NR52 of a group that is off is 0. -/
theorem nr52_of_off {h : Hh} (off : ¬ h.powered = true) (k : h.powerOk) : h.reg 0x26 = 0 := by
  obtain ⟨zero | set, -⟩ := k
  · exact zero
  · refine absurd ?_ off
    rw [Hh.powered, set]
    decide

/-- The group at reset, R39. -/
theorem hhReset_powerOk (p : Params) : (Hh.reset p).powerOk :=
  ⟨.inl rfl, rfl, rfl, fun _ _ _ => rfl, fun _ _ _ _ => rfl⟩

/-! ## Runs and frame steps -/

/-- Without a sweep period a sweep clock writes no register, 44_hh_square.md R327. -/
theorem clockSweep_regs_of_period {h : Hh} (period : h.sweepPeriod = 0#3) : h.clockSweep.regs = h.regs := by
  by_cases due : h.sweep.delay ≤ 1
  · rw [clockSweep_idle due fun sweeps => sweeps.2 period, reloadSweep_regs]
  · rw [clockSweep_waiting due]

/-- Nor does a frame step, R320. -/
theorem frameStep_regs_of_nr10 {h : Hh} (nr10 : h.reg 0x10 = 0) : h.frameStep.regs = h.regs := by
  have period : h.sweepPeriod = 0#3 := by
    rw [Hh.sweepPeriod, nr10]
    rfl
  have swept : h.afterSweep.regs = h.regs := by
    unfold Hh.afterSweep
    dsimp only
    split
    · exact clockSweep_regs_of_period period
    · rfl
  rw [frameStep_eq]
  exact swept

/-- A frame step: the sweep of a powered group writes NR13 and NR14, and NR10 of a group that is off has no sweep period. -/
theorem frameStep_powerOk {h : Hh} (k : h.powerOk) : h.frameStep.powerOk := by
  by_cases on : h.reg 0x26 = 0
  · have ⟨_, _, _, _, zero⟩ := k
    exact powerOk_of_regs_eq (frameStep_regs_of_nr10 (zero on 0x10 le_rfl (by decide))) k
  · obtain ⟨⟨regs, -⟩, -⟩ := hhFrameStep_frame h
    refine powerOk_of_on on (fun a fixed => regs a ?_ ?_) k <;> (unfold fixedWhileOn at fixed; omega)

/-- A run of the group, 42_osc_common.md R260. -/
theorem hhRunGroup_powerOk {p : Params} {opc : Byte} {t : Int} {n n' : Nat} {h h' : Hh} {m m' : Mix} (k : h.powerOk)
    (ran : Hh.runGroup p opc t n h m = .ok (h', n', m')) : h'.powerOk := by
  obtain ⟨_, _, ran⟩ := res_bind_ok.1 ran
  obtain ⟨⟨g, next, n1, m1⟩, frames, ran⟩ := res_bind_ok.1 ran
  cases ran
  have kept : g.powerOk := (runFrames_induct (fun (g : Hh) (_ : Mix) => g.powerOk)
    (fun k oscillators => powerOk_of_regs_eq (hhRunAll_ok oscillators).2.1 k) frameStep_powerOk k frames).1
  exact powerOk_of_regs_eq rfl kept

/-- A run of any group. -/
theorem runGroup_powerOk {opc : Byte} {g : GroupRef} {t : Int} {s r : State} (ran : runGroup opc g t s = .ok r)
    (k : s.hh.powerOk) : r.hh.powerOk := by
  cases g with
  | psg i => obtain ⟨x, m, rfl, _⟩ := runGroup_psg_ok ran; exact k
  | hh => obtain ⟨x, n, m, rfl, hx, _⟩ := runGroup_hh_ok ran; exact hhRunGroup_powerOk k hx
  | tri => obtain ⟨x, n, m, rfl, _⟩ := runGroup_tri_ok ran; exact k

/-! ## Register rules -/

/-- A register rule of the whole space keeps the power state. -/
def HhRuleKeepsPower (rule : Hh → Mix → Res (Hh × Mix × Bool)) : Prop :=
  ∀ ⦃h h' : Hh⦄ ⦃m m' : Mix⦄ ⦃b : Bool⦄, rule h m = .ok (h', m', b) → h.powerOk → h'.powerOk

/-- A write to a register 0x10..0x25 that is used, R394. -/
theorem hhGated_keepsPower {a : Nat} {data : Byte} {rule : HhRule} (free : ¬ fixedWhileOn a)
    (keeps : ∀ old, HhRuleKeepsRegs (rule data old)) : HhRuleKeepsPower (hhGated a data rule) := by
  intro h h' m m' b write k
  unfold hhGated at write
  split at write
  next on =>
    have written : (h.setReg a data).powerOk := powerOk_of_on (nr52_ne_zero on)
      (fun b fixed => store_get_set_ne h.regs data fun same => free (same ▸ fixed)) k
    exact powerOk_of_regs_eq (keeps _ write) written
  next => cases write; exact k

/-- The clearing loop of power off, R391: the `n` registers from `a` are 0, and no other register changes. -/
theorem hhClear_reg {p : Params} {opc : Byte} {t : Int} {n a : Nat} {h h' : Hh} {m m' : Mix}
    (cleared : hhClear p opc t n a h m = .ok (h', m')) (b : Nat) :
    h'.reg b = if a ≤ b ∧ b < a + n then 0 else h.reg b := by
  induction n generalizing a h m with
  | zero => cases cleared; rw [if_neg (by omega)]
  | succ n ih =>
    obtain ⟨⟨h1, m1, c⟩, rule, rest⟩ := res_bind_ok.1 cleared
    have first : h1.reg b = if b = a then 0 else h.reg b :=
      (congrArg (Store.get · b) (hhRule_keepsRegs p opc t a 0 (h.reg a) rule)).trans (reg_setReg h a b 0)
    rw [ih rest, first]
    by_cases head : b = a
    · rw [if_pos head, ite_self, if_pos (by omega)]
    · rw [if_neg head]
      exact if_congr (by omega) rfl rfl

/-- Every register 0x10..0x26 after power off, R391, and none besides. -/
theorem hhPowerOff_reg {p : Params} {opc : Byte} {t : Int} {h h' : Hh} {m m' : Mix} (on : h.powered = true)
    (off : hhPowerOff p opc t h m = .ok (h', m')) (a : Nat) :
    h'.reg a = if 0x10 ≤ a ∧ a ≤ 0x26 then 0 else h.reg a := by
  rw [hhPowerOff, if_pos on] at off
  obtain ⟨⟨h1, m1⟩, cleared, off⟩ := res_bind_ok.1 off
  cases off
  rw [reg_setReg, hhClear_reg cleared]
  by_cases master : a = 0x26
  · rw [if_pos master, if_pos (by omega)]
  · rw [if_neg master]
    exact if_congr (by omega) rfl rfl

/-- NR52 with bit 7 clear, R391, R392. -/
theorem hhPowerOff_keepsPower (p : Params) (opc : Byte) (t : Int) : HhRuleKeepsPower (noRestart (hhPowerOff p opc t)) := by
  intro h h' m m' b write k
  obtain ⟨⟨h1, m1⟩, off, write⟩ := res_bind_ok.1 write
  cases write
  by_cases on : h.powered = true
  · have cleared := hhPowerOff_reg on off
    have zero (a : Nat) (low : 0x10 ≤ a) (high : a ≤ 0x26) : h'.reg a = 0 := (cleared a).trans (if_pos ⟨low, high⟩)
    obtain ⟨-, -, -, unused, -⟩ := k
    exact ⟨.inl (zero 0x26 (by decide) le_rfl), zero 0x15 (by decide) (by decide), zero 0x1F (by decide) (by decide),
      fun a low high => (cleared a).trans ((if_neg (by omega)).trans (unused a low high)),
      fun _ a low high => zero a low (by omega)⟩
  · rw [hhPowerOff, if_neg on] at off
    cases off
    have nr52 := nr52_of_off on k
    refine powerOk_of_reg_eq (fun a => (reg_setReg h 0x26 a 0).trans ?_) k
    by_cases master : a = 0x26
    · rw [if_pos master, master, nr52]
    · rw [if_neg master]

/-- NR52 with bit 7 set, R392. -/
theorem hhPowerOn_powerOk {h : Hh} (k : h.powerOk) : (hhPowerOn h).powerOk := by
  have stored : (h.setReg 0x26 0x80).powerOk := by
    have others {a : Nat} (other : a ≠ 0x26) : (h.setReg 0x26 0x80).reg a = h.reg a := store_get_set_ne h.regs 0x80 other
    have nr52 : (h.setReg 0x26 0x80).reg 0x26 = 0x80 := store_get_set_self h.regs 0x26 0x80
    obtain ⟨-, unused15, unused1F, unused, -⟩ := k
    exact ⟨.inr nr52, (others (by decide)).trans unused15, (others (by decide)).trans unused1F,
      fun a low high => (others (by omega)).trans (unused a low high), fun off => absurd (nr52 ▸ off) (by decide)⟩
  have regs : (hhPowerOn h).regs = (h.setReg 0x26 0x80).regs := by
    unfold hhPowerOn
    dsimp only
    split <;> rfl
  exact powerOk_of_regs_eq regs stored

/-- A wave RAM write reaches no register below 0x30, R378. -/
theorem writeWaveRam_powerOk (low : BitVec 4) (data : Byte) {h : Hh} (k : h.powerOk) : (h.writeWaveRam low data).powerOk := by
  have kept (a : Nat) (below : a ≤ 0x2F) : (h.writeWaveRam low data).reg a = h.reg a := by
    refine store_get_set_ne h.regs data ?_
    rw [waveRamAddr_eq]
    omega
  obtain ⟨master, unused15, unused1F, unused, zero⟩ := k
  have nr52 := kept 0x26 (by decide)
  exact ⟨nr52 ▸ master, (kept 0x15 (by decide)).trans unused15, (kept 0x1F (by decide)).trans unused1F,
    fun a above high => (kept a high).trans (unused a above high),
    fun off a above high => (kept a (by omega)).trans (zero (nr52 ▸ off) a above high)⟩

/-- `Write_HH`, over the whole space. -/
theorem hhWriteRule_keepsPower {p : Params} {opc : Byte} {t : Int} {addr data : Byte}
    {rule : Hh → Mix → Res (Hh × Mix × Bool)} (hr : hhWriteRule p opc t addr data = some rule) : HhRuleKeepsPower rule := by
  have ignored : HhRuleKeepsPower hhIgnore := fun _ _ _ _ _ write k => by cases write; exact k
  have plain {f : Hh → Hh} (hf : ∀ {h : Hh}, h.powerOk → (f h).powerOk) : HhRuleKeepsPower (hhPlain f) :=
    fun _ _ _ _ _ write k => by cases write; exact hf k
  unfold hhWriteRule at hr
  dsimp only at hr
  split at hr
  · cases hr
  split at hr
  · cases hr; exact ignored
  next used =>
  split at hr
  · cases hr
    refine hhGated_keepsPower (fun fixed => ?_) fun old => hhRule_keepsRegs p opc t _ data old
    unfold fixedWhileOn at fixed
    omega
  split at hr
  · split at hr <;> cases hr
    · exact plain hhPowerOn_powerOk
    · exact hhPowerOff_keepsPower p opc t
  split at hr <;> cases hr
  · exact ignored
  · exact plain (writeWaveRam_powerOk _ data)

/-! ## O27 -/

/-- A completed command keeps the power state. -/
theorem completes_powerOk {s t : State} (k : s.hh.powerOk) (h : Completes s t) : t.hh.powerOk := by
  cases h with
  | nop => exact k
  | onMix _ _ => exact k
  | readStereo _ => exact k
  | writePsg _ hrun _ => have ran := runGroup_powerOk hrun k; exact ran
  | writeHh hr hrun h => exact hhWriteRule_keepsPower hr h (runGroup_powerOk hrun k)
  | writeTri _ hrun _ => have ran := runGroup_powerOk hrun k; exact ran
  | run v hrun => have ran := runGroup_powerOk hrun k; exact ran
  | @endFrame _ g _ _ hrun => have ran := runGroup_powerOk hrun k; cases g <;> exact ran
  | resetGroup g =>
    cases g with
    | psg i => exact k
    | hh => exact hhReset_powerOk _
    | tri => exact k
  | writeFm _ => exact k
  | fmRender i n => exact k
  | fmReset i => exact k
  | fmSetRate i clock rate => exact k

/-- Settles O27: a group that is off takes no write but wave RAM and power on, and its sweep has no period, so the power state is
an invariant of every command. -/
theorem hhPowerOffRegistersStayZero : Obligations.HhPowerOffRegistersStayZero := fun _ _ =>
  step_keeps (P := fun s => s.hh.powerOk) (hport := fun _ k => k) (hfault := fun _ k => k) (hcount := fun _ k => k)
    (hreset := fun {s} _ => hhReset_powerOk s.params) (hdone := completes_powerOk)

end Sys2Proof.Machine
end

section
/-! PROOFS. The master registers of the handheld group: the scale and the routes, power on and power off, each with the
amplitudes it takes back out of the DSBs (spec 45_hh_wave_noise_master.md R390 to R392, R398, 42_osc_common.md R265, R270). -/

namespace Sys2Proof.Machine

/-! ## Protocols over the four oscillators -/

/-- After a run to the command's time, the four deltas of a master write can be placed there. -/
theorem backDeltas_after_run {opc : Byte} {time : Word} {s r : State} (ready : s.ready .hh (sext time))
    (run : runGroup opc .hh (sext time) s = .ok r) (h : Hh) (delta : Osc → Nat → Int) :
    ∃ m, backDeltas s.params time h delta r.mix m := by
  obtain ⟨forward, -, -, accepts, -⟩ := ready
  have emits (o : Osc) (k : Nat) {m : Mix} (accepts : m.accepts s.params (sext s.hh.lastTime) (sext time)) :=
    emit_accepts 0x20 o.route (delta o k) accepts forward le_rfl
  obtain ⟨m0, back0, accepts0⟩ := emits h.sq1.osc 0 (accepts_after_run run accepts)
  obtain ⟨m1, back1, accepts1⟩ := emits h.sq2.osc 1 accepts0
  obtain ⟨m2, back2, accepts2⟩ := emits h.wave.osc 2 accepts1
  obtain ⟨m3, back3, -⟩ := emits h.noise.osc 3 accepts2
  exact ⟨m3, m0, m1, m2, back0, back1, back2, back3⟩

/-- Four protocols that each emit one delta, in the order of R270. -/
theorem mapOscs_of_backDeltas {p : Params} {time : Word} {f : Nat → Osc → Mix → Res (Osc × Mix)} {delta : Osc → Nat → Int}
    {after : Osc → Nat → Osc} {h : Hh} {m m' : Mix}
    (protocol : ∀ k o m m', emit p 0x20 o.route (sext time) (delta o k) m = .ok m' → f k o m = .ok (after o k, m'))
    (back : backDeltas p time h delta m m') :
    Hh.mapOscs (f 0) (f 1) (f 2) (f 3) h m = .ok (withOscs h after, m') := by
  obtain ⟨m0, m1, m2, back0, back1, back2, back3⟩ := back
  exact (res_bind_of_ok _ (protocol 0 _ _ _ back0)).trans <| (res_bind_of_ok _ (protocol 1 _ _ _ back1)).trans <|
    (res_bind_of_ok _ (protocol 2 _ _ _ back2)).trans (res_bind_of_ok _ (protocol 3 _ _ _ back3))

/-! ## The scale and the routes -/

/-- The scale of an NR50 value as numbers, R398. -/
theorem volScaleOf_eq (p : Params) (d : Byte) :
    volScaleOf p d = p.unitHh * ((max (d.toNat / 16 % 8) (d.toNat % 8) : Nat) + 1) := by
  have left : (d.extractLsb' 4 3).toNat = d.toNat / 16 % 8 := by rw [BitVec.extractLsb'_toNat, Nat.shiftRight_eq_div_pow]
  have right : (d.extractLsb' 0 3).toNat = d.toNat % 8 := toNat_low d 3
  rw [volScaleOf, left, right, Nat.cast_add_one]

/-- NR50 with the scale the group has, R398. -/
theorem hhNr50_same {p : Params} {opc : Byte} {t : Int} {data : Byte} {h : Hh} {m : Mix} (old : Byte)
    (same : volScaleOf p data = h.volScale) : hhNr50 p opc t data old h m = .ok (h, m, false) :=
  res_bind_of_ok _ (if_pos same)

/-- NR50 with a new scale takes every amplitude back, R398, R265. -/
theorem hhNr50_rescale {p : Params} {time : Word} {data : Byte} {h : Hh} {m m' : Mix} (old : Byte)
    (changed : volScaleOf p data ≠ h.volScale) (back : backDeltas p time h (fun o _ => -sext o.lastAmp) m m') :
    hhNr50 p 0x20 (sext time) data old h m =
      .ok ({ withOscs h (fun o _ => { o with lastAmp := 0 }) with volScale := volScaleOf p data }, m', false) := by
  have rescale : ∀ (_ : Nat) (o : Osc) (m m' : Mix), emit p 0x20 o.route (sext time) (-sext o.lastAmp) m = .ok m' →
      changeRoute p 0x20 (sext time) o.route o m = .ok ({ o with lastAmp := 0 }, m') :=
    fun _ _ _ _ emitted => res_bind_of_ok _ emitted
  exact res_bind_of_ok _ ((if_neg changed).trans
    (mapOscs_of_backDeltas (h := { h with volScale := volScaleOf p data }) rescale back))

/-- NR51 takes back the amplitude of every oscillator whose route changes, R390, R265. -/
theorem hhNr51_reroute {p : Params} {time : Word} {data : Byte} {h : Hh} {m m' : Mix} (old : Byte)
    (back : backDeltas p time h (fun o k => rerouteDelta o (stereoRoute data k)) m m') :
    hhNr51 p 0x20 (sext time) data old h m = .ok (withOscs h (fun o k => rerouted o (stereoRoute data k)), m', false) := by
  have reroute : ∀ (k : Nat) (o : Osc) (m m' : Mix),
      emit p 0x20 o.route (sext time) (rerouteDelta o (stereoRoute data k)) m = .ok m' →
      setRoute p 0x20 (sext time) (routeOf (bit data (k + 4)) (bit data k)) o m = .ok (rerouted o (stereoRoute data k), m') :=
    fun k _ _ _ emitted => by rw [routeOf_bits]; exact setRoute_of_emit emitted
  exact res_bind_of_ok _ (mapOscs_of_backDeltas (f := fun k =>
    setRoute p 0x20 (sext time) (routeOf (bit data (k + 4)) (bit data k))) reroute back)

/-- A gated register written while the group is powered on, after its run: what its rule makes of the group, R394. -/
theorem exec_gated_on {i : Instr} {a : Nat} {data : Byte} {time : Word} {s r : State} {g : Hh} {m : Mix}
    (writes : WritesRegister i a data time) (hf : s.fault = none) (hu : s.params.hasHh = true)
    (on : bit (s.hh.reg 0x26) 7 = true) (run : runGroup 0x20 .hh (sext time) s = .ok r)
    (rule : hhRule s.params 0x20 (sext time) a data (r.hh.reg a) (r.hh.setReg a data) r.mix = .ok (g, m, false)) :
    exec i s = .next (State.done { r with hh := g, mix := m } 0) :=
  (writes s).trans (hhForm_ok (b := false) hf hu run ((if_pos ((powered_after_run run).trans on)).trans rule))

/-- Settles O46: the run leaves the mix stage accepting the command's time, so the deltas of either write succeed in order. -/
theorem hhVolumeAndRouteWrites : Obligations.HhVolumeAndRouteWrites := by
  intro data time s hf hu ready on
  obtain ⟨r, run⟩ := runGroup_of_ready 0x20 ready
  refine ⟨r, run, ⟨fun same => ?_, fun changed => ?_⟩, ?_⟩
  · exact exec_gated_on (a := 0x24) (fun _ => rfl) hf hu on run (hhNr50_same (r.hh.reg 0x24) ((volScaleOf_eq _ _).trans same))
  · obtain ⟨m, back⟩ := backDeltas_after_run ready run r.hh fun o _ => -sext o.lastAmp
    rw [← volScaleOf_eq] at changed
    refine ⟨m, back, ?_⟩
    rw [← volScaleOf_eq]
    exact exec_gated_on (a := 0x24) (fun _ => rfl) hf hu on run
      (hhNr50_rescale (r.hh.reg 0x24) (h := r.hh.setReg 0x24 data) changed back)
  · obtain ⟨m, back⟩ := backDeltas_after_run ready run r.hh fun o k => rerouteDelta o (stereoRoute data k)
    exact ⟨m, back, exec_gated_on (a := 0x25) (fun _ => rfl) hf hu on run
      (hhNr51_reroute (r.hh.reg 0x25) (h := r.hh.setReg 0x25 data) back)⟩

end Sys2Proof.Machine
end

section
/-! PROOFS. NR52: power on, and power off as the clearing loop taken apart by oscillators (spec 45_hh_wave_noise_master.md R391,
R392, 42_osc_common.md R265). -/

namespace Sys2Proof.Machine

/-! ## The clearing loop, R391 -/

/-- The clearing loop takes the rule of its first register. -/
theorem hhClear_step {p : Params} {opc : Byte} {t : Int} {n a : Nat} {h h1 : Hh} {m m1 : Mix} {b : Bool}
    (rule : hhRule p opc t a 0 (h.reg a) (h.setReg a 0) m = .ok (h1, m1, b)) :
    hhClear p opc t (n + 1) a h m = hhClear p opc t n (a + 1) h1 m1 := res_bind_of_ok _ rule

/-- The clearing loop in two parts. -/
theorem hhClear_add {p : Params} {opc : Byte} {t : Int} {n k a : Nat} {h h1 : Hh} {m m1 : Mix}
    (first : hhClear p opc t n a h m = .ok (h1, m1)) : hhClear p opc t (n + k) a h m = hhClear p opc t k (a + n) h1 m1 := by
  induction n generalizing a h m with
  | zero => cases first; rw [Nat.zero_add, Nat.add_zero]
  | succ n ih =>
    obtain ⟨⟨h2, m2, b⟩, rule, rest⟩ := res_bind_ok.1 first
    rw [Nat.add_right_comm, hhClear_step rule, ih rest, Nat.add_right_comm, Nat.add_assoc]

/-- NRx4 with 0 neither triggers nor clocks the length; a disabled oscillator it leaves alone, R331. -/
theorem writeTrig_zero (p : Params) (ph : BitVec 3) (maxLen : Nat) (old : Byte) (len : Nat) :
    Gate.writeTrig p ph maxLen 0 old ⟨false, len⟩ = ⟨false, len⟩ := by
  have b6 : bit (0 : Byte) 6 = false := by decide
  have b7 : bit (0 : Byte) 7 = false := by decide
  simp only [Gate.writeTrig, b6, b7, Bool.and_false, Bool.false_and, Bool.false_eq_true, if_false, ite_self]

/-- The group with the four registers NRx0 to NRx3 of the oscillator at `base` cleared, before NRx4 is. -/
def Hh.zeroFour (h : Hh) (base : Nat) : Hh :=
  (((h.setReg base 0).setReg (base + 1) 0).setReg (base + 2) 0).setReg (base + 3) 0

section
variable (p : Params) (opc : Byte) (t : Int) (h : Hh) (m : Mix)

/-- Clearing NR10 to NR14 disables sq1 and fills its length. -/
theorem hhClear_sq1 : ∃ regs, hhClear p opc t 5 0x10 h m =
    .ok ({ h with regs := regs, sq1 := { h.sq1 with gate := ⟨false, 64⟩ } }, m) := by
  have sweeps (c : Bool) : ∃ regs, hhClear p opc t 4 0x11
      (if c then (h.setReg 0x10 0).disableSq1 else h.setReg 0x10 0) m =
      .ok ({ h with regs := regs, sq1 := { h.sq1 with gate := ⟨false, 64⟩ } }, m) := by
    rw [disableSq1_if, ← writeTrig_zero p h.framePhase 64 ((h.zeroFour 0x10).reg 0x14) 64]
    exact ⟨_, rfl⟩
  exact sweeps _

/-- Clearing the unused 0x15 and NR21 to NR24 does the same to sq2. -/
theorem hhClear_sq2 : ∃ regs, hhClear p opc t 5 0x15 h m =
    .ok ({ h with regs := regs, sq2 := { h.sq2 with gate := ⟨false, 64⟩ } }, m) := by
  rw [← writeTrig_zero p h.framePhase 64 ((h.zeroFour 0x15).reg 0x19) 64]
  exact ⟨_, rfl⟩

/-- Clearing NR30 to NR34 does it to the wave. -/
theorem hhClear_wave : ∃ regs, hhClear p opc t 5 0x1A h m =
    .ok ({ h with regs := regs, wave := { h.wave with gate := ⟨false, 256⟩ } }, m) := by
  rw [← writeTrig_zero p h.framePhase 256 ((h.zeroFour 0x1A).reg 0x1E) 256]
  exact ⟨_, rfl⟩

/-- Clearing the unused 0x1F and NR41 to NR44 does it to the noise. -/
theorem hhClear_noise : ∃ regs, hhClear p opc t 5 0x1F h m =
    .ok ({ h with regs := regs, noise := { h.noise with gate := ⟨false, 64⟩ } }, m) := by
  rw [← writeTrig_zero p h.framePhase 64 ((h.zeroFour 0x1F).reg 0x23) 64]
  exact ⟨_, rfl⟩

end

/-! ## The scale and the routes at power off -/

/-- NR50 with 0 is the scale of one unit, R398. -/
theorem volScaleOf_zero (p : Params) : volScaleOf p 0 = p.unitHh := Int.mul_one p.unitHh

/-- NR51 with 0 routes every oscillator to none, R390. -/
theorem stereoRoute_zero (k : Nat) : stereoRoute 0 k = .none := by
  have zero (i : Nat) : bit (0 : Byte) i = false := BitVec.getLsbD_zero
  rw [← routeOf_bits, zero, zero]
  rfl

/-- Where the scale stays, the route change at power off takes the whole amplitude back: an oscillator without a route has put
nothing anywhere. -/
theorem emit_rerouteDelta_none (p : Params) (opc : Byte) (t : Int) (o : Osc) (m : Mix) :
    emit p opc o.route t (rerouteDelta o .none) m = emit p opc o.route t (-sext o.lastAmp) m := by
  unfold rerouteDelta
  split
  · next unrouted => rw [← unrouted]; rfl
  · rfl

/-- An oscillator routed to none where the scale stays is powered off, R265. -/
theorem rerouted_none (o : Osc) : rerouted o .none = poweredOff false o := by
  obtain ⟨delay, amp, route⟩ := o
  cases route <;> rfl

/-- The same after a rescaling has taken its amplitude back. -/
theorem rerouted_none_rescaled (o : Osc) : rerouted { o with lastAmp := 0 } .none = poweredOff true o := by
  obtain ⟨delay, amp, route⟩ := o
  cases route <;> rfl

/-- After a rescaling the route change has nothing to take back. -/
theorem rerouteDelta_rescaled (o : Osc) (route : Route) : rerouteDelta { o with lastAmp := 0 } route = 0 := by
  unfold rerouteDelta
  split <;> rfl

/-- Clearing NR51 routes every oscillator to none, R390. -/
theorem hhClear_nr51 {p : Params} {time : Word} {h : Hh} {m m' : Mix}
    (back : backDeltas p time h (fun o _ => rerouteDelta o .none) m m') :
    hhClear p 0x20 (sext time) 1 0x25 h m = .ok (withOscs (h.setReg 0x25 0) (fun o _ => rerouted o .none), m') := by
  have rule := hhNr51_reroute (p := p) (time := time) (data := 0) (m := m) (m' := m') (h.reg 0x25) (h := h.setReg 0x25 0)
  simp only [stereoRoute_zero] at rule
  exact hhClear_step (n := 0) (rule back)

/-- Clearing NR50 and NR51: one delta of each oscillator, at the rescaling or else at the route change. -/
theorem hhClear_master {p : Params} {time : Word} {h : Hh} {m m' : Mix}
    (back : backDeltas p time h (fun o _ => -sext o.lastAmp) m m') :
    ∃ regs, hhClear p 0x20 (sext time) 2 0x24 h m =
      .ok ({ withOscs h (fun o _ => poweredOff (decide (h.volScale ≠ p.unitHh)) o) with
        regs := regs, volScale := p.unitHh }, m') := by
  by_cases same : h.volScale = p.unitHh
  · have nr50 : hhClear p 0x20 (sext time) 2 0x24 h m = hhClear p 0x20 (sext time) 1 0x25 (h.setReg 0x24 0) m :=
      hhClear_step (hhNr50_same (h.reg 0x24) (h := h.setReg 0x24 0) ((volScaleOf_zero p).trans same.symm))
    have routes : backDeltas p time (h.setReg 0x24 0) (fun o _ => rerouteDelta o .none) m m' := by
      show backDeltas p time h (fun o _ => rerouteDelta o .none) m m'
      simpa only [backDeltas, emit_rerouteDelta_none] using back
    rw [decide_eq_false (not_not.2 same), ← same, nr50, hhClear_nr51 routes]
    simp only [rerouted_none]
    exact ⟨_, rfl⟩
  · let scaled : Hh := { withOscs (h.setReg 0x24 0) (fun o _ => { o with lastAmp := 0 }) with volScale := volScaleOf p 0 }
    have nr50 : hhClear p 0x20 (sext time) 2 0x24 h m = hhClear p 0x20 (sext time) 1 0x25 scaled m' :=
      hhClear_step (hhNr50_rescale (h.reg 0x24) (h := h.setReg 0x24 0)
        (fun unchanged => same (unchanged.symm.trans (volScaleOf_zero p))) back)
    have kept (o : Osc) : emit p 0x20 o.route (sext time) (rerouteDelta { o with lastAmp := 0 } .none) m' = .ok m' := by
      rw [rerouteDelta_rescaled, emit_zero]
    have routes : backDeltas p time scaled (fun o _ => rerouteDelta o .none) m' m' :=
      ⟨m', m', m', kept h.sq1.osc, kept h.sq2.osc, kept h.wave.osc, kept h.noise.osc⟩
    have after : withOscs (scaled.setReg 0x25 0) (fun o _ => rerouted o .none) =
        { withOscs h (fun o _ => poweredOff true o) with
          regs := Store.set (Store.set h.regs 0x24 0) 0x25 0, volScale := p.unitHh } := by
      simp only [← rerouted_none_rescaled, ← volScaleOf_zero p]
      rfl
    rw [decide_eq_true same, nr50, hhClear_nr51 routes, after]
    exact ⟨_, rfl⟩

/-! ## O47 -/

/-- A group with every channel disabled and every length full, and with other registers. -/
def Hh.disabled (h : Hh) (regs : Store 8) : Hh :=
  { h with
    regs := regs
    sq1 := { h.sq1 with gate := ⟨false, 64⟩ }
    sq2 := { h.sq2 with gate := ⟨false, 64⟩ }
    wave := { h.wave with gate := ⟨false, 256⟩ }
    noise := { h.noise with gate := ⟨false, 64⟩ } }

/-- A group after power off, with the registers that it leaves, R391. -/
def Hh.poweredDown (p : Params) (h : Hh) (regs : Store 8) : Hh :=
  { withOscs (h.disabled regs) (fun o _ => poweredOff (decide (h.volScale ≠ p.unitHh)) o) with volScale := p.unitHh }

/-- The whole loop: the four oscillators, then the scale and the routes, R391. -/
theorem hhClear_all {p : Params} {time : Word} {h : Hh} {m m' : Mix}
    (back : backDeltas p time h (fun o _ => -sext o.lastAmp) m m') :
    ∃ regs, hhClear p 0x20 (sext time) 22 0x10 h m = .ok (h.poweredDown p regs, m') := by
  obtain ⟨_, sq1⟩ := hhClear_sq1 p 0x20 (sext time) h m
  obtain ⟨_, sq2⟩ := hhClear_sq2 p 0x20 (sext time) _ m
  obtain ⟨_, wave⟩ := hhClear_wave p 0x20 (sext time) _ m
  obtain ⟨regs, noise⟩ := hhClear_noise p 0x20 (sext time) _ m
  obtain ⟨regs', master⟩ := hhClear_master (h := h.disabled regs) back
  exact ⟨regs', (hhClear_add (k := 17) sq1).trans <| (hhClear_add (k := 12) sq2).trans <|
    (hhClear_add (k := 7) wave).trans <| (hhClear_add (k := 2) noise).trans master⟩

/-- NR52 with bit 7 clear while the group is powered on, R391. -/
theorem hhPowerOff_on {p : Params} {time : Word} {h : Hh} {m m' : Mix} (on : h.powered = true)
    (back : backDeltas p time h (fun o _ => -sext o.lastAmp) m m') :
    ∃ regs, hhPowerOff p 0x20 (sext time) h m = .ok (h.poweredDown p regs, m') := by
  obtain ⟨_, cleared⟩ := hhClear_all back
  exact ⟨_, (if_pos on).trans (res_bind_of_ok _ cleared)⟩

/-- NR52 with bit 7 set while the group is powered on stores the bit only, R392. -/
theorem hhPowerOn_on {h : Hh} (on : h.powered = true) : hhPowerOn h = h.setReg 0x26 0x80 := if_pos on

/-- Power on restarts the frame phase and the duty phases, R392. -/
theorem hhPowerOn_off {h : Hh} (off : h.powered = false) : hhPowerOn h =
    { h.setReg 0x26 0x80 with framePhase := 0, sq1 := { h.sq1 with phase := 0 }, sq2 := { h.sq2 with phase := 0 } } :=
  if_neg (ne_true_of_eq_false off)

/-- NR52 with bit 7 clear while the group is powered off stores the bit only, R392. -/
theorem hhPowerOff_off {p : Params} {opc : Byte} {t : Int} {h : Hh} {m : Mix} (off : h.powered = false) :
    hhPowerOff p opc t h m = .ok (h.setReg 0x26 0, m) := if_neg (ne_true_of_eq_false off)

/-- Settles O47: power on and the writes without a change touch the group alone; power off is the clearing loop, whose deltas
succeed because the run leaves the mix stage accepting the command's time. -/
theorem hhPowerWrites : Obligations.HhPowerWrites := by
  intro data time
  have powerOn {on : Bool} {after : Hh → Hh} (effect : ∀ h, h.powered = on → hhPowerOn h = after h) :
      writesHh (.oscWriteHhNr52On data time) time on (fun _ h => after h) 0 :=
    writesHh_of_rule (b := false) (rule := fun _ => hhPlain hhPowerOn) (fun _ => rfl) fun _ h _ power => effect h power ▸ rfl
  refine ⟨powerOn fun _ => hhPowerOn_on, powerOn fun _ => hhPowerOn_off, ?_, fun s hf hu ready on => ?_⟩
  · exact writesHh_of_rule (b := false) (rule := fun p => noRestart (hhPowerOff p 0x20 (timeOperand time))) (fun _ => rfl)
      fun _ _ _ off => res_bind_of_ok _ (hhPowerOff_off off)
  · obtain ⟨r, run⟩ := runGroup_of_ready 0x20 ready
    obtain ⟨m, back⟩ := backDeltas_after_run ready run r.hh fun o _ => -sext o.lastAmp
    have powered := (powered_after_run run).trans on
    obtain ⟨regs, off⟩ := hhPowerOff_on powered back
    have write : noRestart (hhPowerOff s.params 0x20 (timeOperand time)) r.hh r.mix =
        .ok (r.hh.poweredDown s.params regs, m, false) := res_bind_of_ok _ off
    exact ⟨r, m, regs, run, back, hhPowerOff_reg powered off,
      hhForm_ok (i := .oscWriteHhNr52Off data time) hf hu run write⟩

end Sys2Proof.Machine
end

section
/-! PROOFS. The triangle's register forms: each is the rule of its address after the run, and none of the rules emits (spec
46_triangle.md R414 to R416, R418, R420). -/

namespace Sys2Proof.Machine

/-- A triangle form whose rule succeeds on every group. -/
theorem writesTri_of_rule {i : Instr} {time : Word} {b : Bool} {rule : Params → TriRule} {after : Params → Tri → Tri}
    (form : ∀ s, exec i s = triForm i time (rule s.params) s) (effect : ∀ p g, rule p g = .ok (after p g, b)) :
    writesTri i time after (restartResult b) := by
  intro s hf hu done
  have completes (r : State) (run : runGroup 0x20 .tri (sext time) s = .ok r) : exec i s = .next (done r) :=
    (form s).trans (triForm_ok hf hu run (effect s.params r.tri))
  refine ⟨fun ready => ?_, completes⟩
  obtain ⟨r, run⟩ := runGroup_of_ready 0x20 ready
  exact ⟨r, run, completes r run⟩

/-- The index of the length table is the byte without its low three bits, R416. -/
theorem toNat_high_five (d : Byte) : (d.extractLsb' 3 5).toNat = d.toNat / 8 := by
  have bound := d.isLt
  rw [BitVec.extractLsb'_toNat, Nat.shiftRight_eq_div_pow]
  omega

/-- 0x0B loads the length only while the channel is enabled, and always restarts, R416. -/
theorem tri0B_eq (p : Params) (data : Byte) (g : Tri) : tri0B p data g =
    .ok ({ g with
      r400B := data
      lengthCtr := if g.chanEnable = true then p.triLen.getD (data.toNat / 8) 0 else g.lengthCtr
      linearReload := true }, true) := by
  rw [tri0B, toNat_high_five]

/-- 0x17 in 4-step mode restarts the frame sequencer at the write's time, R420. -/
theorem tri17_fourStep {data : Byte} (fourStep : bit data 7 = false) (p : Params) (time : Word) (g : Tri) :
    tri17 p (timeOperand time) data g =
      .ok ({ g with frameStep := 0, nextFrameTime := time + BitVec.ofNat 32 p.triFramePeriod }, false) := by
  rw [← wrap32_sext_add]
  exact if_neg (ne_true_of_eq_false fourStep)

/-- Settles O49: each form is its rule after the run; only 0x0B answers the restart, and only 0x17 depends on the time. -/
theorem triWritesComplete : Obligations.TriWritesComplete := by
  intro data time
  have store {i : Instr} {rule : TriRule} {after : Tri → Tri} (form : ∀ s, exec i s = triForm i time rule s)
      (effect : ∀ g, rule g = .ok (after g, false)) : writesTri i time (fun _ => after) 0 :=
    writesTri_of_rule (rule := fun _ => rule) form fun _ => effect
  refine ⟨?r08, ?r09, ?r0A, ?r0B, ?r15, fun fourStep => ?r17⟩
  case r08 => exact store (rule := tri08 data) (fun _ => rfl) fun _ => rfl
  case r09 => exact store (rule := tri09) (fun _ => rfl) fun _ => rfl
  case r0A => exact store (rule := tri0A data) (fun _ => rfl) fun _ => rfl
  case r0B => exact writesTri_of_rule (rule := fun p => tri0B p data) (fun _ => rfl) fun p g => tri0B_eq p data g
  case r15 => exact store (rule := tri15 data) (fun _ => rfl) fun _ => rfl
  case r17 =>
    exact writesTri_of_rule (b := false) (rule := fun p => tri17 p (timeOperand time) data) (fun _ => rfl)
      fun p g => tri17_fourStep fourStep p time g

end Sys2Proof.Machine
end

section
/-! PROOFS. The FM register file: what an image reads after a write, what a register rule leaves of it, which addresses are stored
only (spec 47_fm_registers.md R430, R432, R449), what names a channel (30_encoding.md R154), and which channels a rule reaches
(R431). -/

namespace Sys2Proof.Machine

/-! ## The register images -/

/-- An image after a write reads the byte written at its address and what was there at any other, R430. -/
theorem fmSetReg_reg (f : Fm) (port q : FmPort) (addr d a : Byte) :
    (f.setReg port addr d).reg q a = if q = port ∧ a = addr then d else f.reg q a := by
  have stored (r : Store 8) : Store.get (Store.set r addr.toNat d) a.toNat = if a = addr then d else Store.get r a.toNat := by
    rw [store_get_set]; simp only [BitVec.toNat_inj]
  cases port with
  | p0 => cases q with
    | p0 => simp only [true_and]; exact stored f.reg0
    | p1 => rfl
  | p1 => cases q with
    | p0 => rfl
    | p1 => simp only [true_and]; exact stored f.reg1

/-- The image of the port written, as a function of the address. -/
theorem fmSetReg_reg_self (f : Fm) (port : FmPort) (addr d : Byte) :
    (f.setReg port addr d).reg port = Function.update (f.reg port) addr d := by
  funext a
  simp [fmSetReg_reg, Function.update_apply]

/-- The image of the other port. -/
theorem fmSetReg_reg_other (f : Fm) {port q : FmPort} (addr d : Byte) (other : q ≠ port) :
    (f.setReg port addr d).reg q = f.reg q := by
  funext a
  rw [fmSetReg_reg, if_neg fun h => other h.1]

/-- A change of channels keeps what the images read. -/
@[simp] theorem mapChanOpt_reg (f : Fm) (c : Option ChNum) (g : Channel → Channel) (q : FmPort) :
    (f.mapChan? c g).reg q = f.reg q := by
  funext a
  unfold Fm.reg
  rw [mapChanOpt_image]

/-- The rule of an address keeps what the images read, R430. -/
theorem fmRule_reg (p : Params) (port : FmPort) (addr d : Byte) (f : Fm) (q : FmPort) :
    (fmRule p port addr d f).reg q = f.reg q := by
  funext a
  unfold Fm.reg
  rw [fmRule_image]

/-- An FM unit after a register write: the byte is stored, then the rule of its address runs, R430. -/
def Fm.write (p : Params) (port : FmPort) (addr d : Byte) (f : Fm) : Fm := fmRule p port addr d (f.setReg port addr d)

/-! ## Stored-only addresses -/

/-- The F-number high bytes are stored only, R449. -/
theorem fmRule_fnumHigh (p : Params) (port : FmPort) (ch : BitVec 2) (d : Byte) : fmRule p port (0b101001#6 ++ ch) d = id := by
  unfold fmRule fmChannelRule; simp only [chanAddr_fields]; rfl

/-- The split-mode F-number high bytes are stored only, R446. -/
theorem fmRule_splitHigh (p : Params) (port : FmPort) (ch : BitVec 2) (d : Byte) : fmRule p port (0b101011#6 ++ ch) d = id := by
  unfold fmRule fmChannelRule; simp only [chanAddr_fields]; rfl

/-- The global registers without a meaning on port 0 are stored only, R432, R435. -/
theorem fmGlobalRule_noEffect (p : Params) {addr : Byte} (d : Byte) (h : fmNoEffectAddr .p0 addr = true) :
    fmGlobalRule p addr d = id := by
  funext f
  unfold fmGlobalRule
  split
  case h_6 => rfl
  all_goals exact absurd h (by decide)

/-- The channel registers without a meaning are stored only, R432. -/
theorem fmChannelRule_noEffect (port : FmPort) {addr : Byte} (d : Byte) (h : fmNoEffectAddr port addr = true) :
    fmChannelRule port addr d = id := by
  funext f
  unfold fmChannelRule
  dsimp only
  split
  case h_2 row =>
    split
    case isTrue hport => subst hport; exact absurd h (by revert addr; decide)
    case isFalse => rfl
  case h_5 => rfl
  all_goals
    next row => exact absurd h (by cases port <;> revert addr <;> decide)

/-- The addresses without a meaning are stored only, R432. -/
theorem fmRule_noEffect (p : Params) {port : FmPort} {addr : Byte} (d : Byte) (h : fmNoEffectAddr port addr = true) :
    fmRule p port addr d = id := by
  funext f
  unfold fmRule
  dsimp only
  split
  case h_1 =>
    split
    case isTrue hport => subst hport; exact congrFun (fmGlobalRule_noEffect p d h) f
    case isFalse => rfl
  case h_9 => exact congrFun (fmChannelRule_noEffect port d h) f
  case h_10 => exact congrFun (fmChannelRule_noEffect port d h) f
  case h_11 => rfl
  all_goals
    next group => exact absurd h (by cases port <;> revert addr <;> decide)

/-! ## What a channel's registers name -/

/-- No two addresses of channel registers name one channel, R154. -/
theorem fmChannel_inj {port q : FmPort} {ch low : BitVec 2} {c : ChNum} (h : fmChannel port ch = some c)
    (h' : fmChannel q low = some c) : q = port ∧ low = ch := by
  cases port <;> cases q <;> cases c <;> revert ch low <;> decide

/-- The four slots of an operator register name four operators, R154. -/
theorem fmSlot_inj {slot slot' : BitVec 2} (h : fmSlot slot = fmSlot slot') : slot = slot' := by
  revert slot slot'; decide

/-- The channel of an address with a & 3 = 3: none, R432. -/
@[simp] theorem fmChannel_three (port : FmPort) : fmChannel port 3#2 = none := by cases port <;> rfl

/-! ## What a rule reaches -/

/-- Only channels that addresses of the port name change, R154, R431. -/
structure OnlyChannels (port : FmPort) (f f' : Fm) : Prop where
  fields : ∃ chans, f' = { f with chans := chans }
  other : ∀ c, (∀ low, fmChannel port low ≠ some c) → f'.chans.get c = f.chans.get c

section

variable {port : FmPort} {f : Fm}

/-- Nothing changes. -/
theorem onlyChannels_refl : OnlyChannels port f f := ⟨⟨f.chans, rfl⟩, fun _ _ => rfl⟩

/-- The channel an address of the port names changes. -/
theorem mapChan_onlyChannels {low : BitVec 2} {c : ChNum} (g : Channel → Channel) (name : fmChannel port low = some c) :
    OnlyChannels port f (f.mapChan c g) where
  fields := ⟨_, rfl⟩
  other _ apart := chans_get_set_ne _ _ fun e => apart low (e ▸ name)

/-- The channel an address of the port names changes, or none. -/
theorem mapChanOpt_onlyChannels (low : BitVec 2) (g : Channel → Channel) :
    OnlyChannels port f (f.mapChan? (fmChannel port low) g) := by
  cases name : fmChannel port low with
  | none => exact onlyChannels_refl
  | some c => exact mapChan_onlyChannels g name

/-- The split frequencies are of channel 2, which port 0 names, R446. -/
theorem fmSplitLow_onlyChannels (j : BitVec 2) (d : Byte) : OnlyChannels .p0 f (fmSplitLow j d f) := by
  unfold fmSplitLow
  split
  · exact onlyChannels_refl
  · exact mapChan_onlyChannels (low := 2) _ rfl

/-- The channel registers reach the channels of their port, R446 to R451. -/
theorem fmChannelRule_onlyChannels (port : FmPort) (addr d : Byte) : OnlyChannels port f (fmChannelRule port addr d f) := by
  unfold fmChannelRule
  dsimp only
  split
  · exact mapChanOpt_onlyChannels _ _
  · split
    case isTrue hport => subst hport; exact fmSplitLow_onlyChannels _ d
    case isFalse => exact onlyChannels_refl
  · exact mapChanOpt_onlyChannels _ _
  · exact mapChanOpt_onlyChannels _ _
  · exact onlyChannels_refl

/-- Every rule but those of the global registers of port 0 reaches the channels of its port only. -/
theorem fmRule_onlyChannels (p : Params) (addr d : Byte) (apart : ¬ (port = .p0 ∧ addr.extractLsb' 4 4 = 2#4)) :
    OnlyChannels port f (fmRule p port addr d f) := by
  unfold fmRule
  dsimp only
  split
  case h_1 group => rw [if_neg fun hport => apart ⟨hport, group⟩]; exact onlyChannels_refl
  case h_9 => exact fmChannelRule_onlyChannels port addr d
  case h_10 => exact fmChannelRule_onlyChannels port addr d
  case h_11 => exact onlyChannels_refl
  all_goals exact mapChanOpt_onlyChannels _ _

/-- The rule of a global register of port 0, R153. -/
theorem fmRule_global (p : Params) {addr : Byte} (d : Byte) (group : addr.extractLsb' 4 4 = 2#4) :
    fmRule p .p0 addr d = fmGlobalRule p addr d := by
  unfold fmRule; rw [group]; rfl

/-- The global registers but the key register reach no channel, R434 to R439. -/
theorem fmGlobalRule_chans (p : Params) {addr : Byte} (d : Byte) (key : addr ≠ 0x28) :
    (fmGlobalRule p addr d f).chans = f.chans := by
  unfold fmGlobalRule
  split
  case h_3 => exact absurd rfl key
  all_goals rfl

/-- The global registers keep the rates. -/
theorem fmGlobalRule_rates (p : Params) (addr d : Byte) :
    (fmGlobalRule p addr d f).clock = f.clock ∧ (fmGlobalRule p addr d f).rate = f.rate := by
  unfold fmGlobalRule
  split
  case h_3 => exact ⟨mapChanOpt_clock .., mapChanOpt_rate ..⟩
  all_goals exact ⟨rfl, rfl⟩

/-- Every rule keeps the rates. -/
theorem fmRule_rates (p : Params) (port : FmPort) (addr d : Byte) :
    (fmRule p port addr d f).clock = f.clock ∧ (fmRule p port addr d f).rate = f.rate := by
  by_cases global : port = .p0 ∧ addr.extractLsb' 4 4 = 2#4
  · obtain ⟨rfl, group⟩ := global
    rw [fmRule_global p d group]
    exact fmGlobalRule_rates p addr d
  · obtain ⟨⟨chans, same⟩, _⟩ := fmRule_onlyChannels (f := f) p addr d global
    rw [same]
    exact ⟨rfl, rfl⟩

/-- Every rule but that of the key register keeps the channels that no address of its port names, R431, R437. -/
theorem fmRule_other_chans (p : Params) {port : FmPort} {addr : Byte} (d : Byte) {c : ChNum} (key : ¬ (port = .p0 ∧ addr = 0x28))
    (apart : ∀ low, fmChannel port low ≠ some c) : (fmRule p port addr d f).chans.get c = f.chans.get c := by
  by_cases global : port = .p0 ∧ addr.extractLsb' 4 4 = 2#4
  · obtain ⟨rfl, group⟩ := global
    rw [fmRule_global p d group, fmGlobalRule_chans p d fun e => key ⟨rfl, e⟩]
  · exact (fmRule_onlyChannels p addr d global).other c apart

end

end Sys2Proof.Machine
end

section
/-! PROOFS. The FM fields agree with the register images (spec 47_fm_registers.md R430 to R452): operator by operator and channel
by channel, over register writes, frames and resets. -/

namespace Sys2Proof.Machine

/-! ## What agrees with what -/

/-- The fields of an operator are those of its bytes, one of each group 3..9 of addresses, R440 to R447. -/
structure Operator.agrees (byte : BitVec 4 → Byte) (o : Operator) : Prop where
  dt : o.dt = (byte 3).extractLsb' 4 3
  mul : o.mul = (byte 3).extractLsb' 0 4
  tl : o.tl = (byte 4).extractLsb' 0 7
  ks : o.ks = (byte 5).extractLsb' 6 2
  ar : o.ar = (byte 5).extractLsb' 0 5
  amEn : o.amEn = (byte 6).extractLsb' 7 1
  d1r : o.d1r = (byte 6).extractLsb' 0 5
  d2r : o.d2r = (byte 7).extractLsb' 0 5
  sl : o.sl = (byte 8).extractLsb' 4 4
  rr : o.rr = (byte 8).extractLsb' 0 4
  ssg : o.ssg = (byte 9).extractLsb' 0 4

/-- The fields of a channel but its operators and frequencies are those of its bytes at 0xB0 and 0xB4, R450, R451. -/
structure Channel.headAgrees (b0 b4 : Byte) (x : Channel) : Prop where
  fb : x.fb = b0.extractLsb' 3 3
  algo : x.algo = b0.extractLsb' 0 3
  panL : x.panL = bit b4 7
  panR : x.panR = bit b4 6
  ams : x.ams = b4.extractLsb' 4 2
  fms : x.fms = b4.extractLsb' 0 3

/-- The fields of a channel but its frequencies are those of the image of its port, at the addresses of its two low bits. -/
structure Channel.agrees (image : Byte → Byte) (ch : BitVec 2) (x : Channel) : Prop where
  head : x.headAgrees (image (0b101100#6 ++ ch)) (image (0b101101#6 ++ ch))
  op : ∀ slot, (x.ops.get (fmSlot slot)).agrees fun group => image (group ++ slot ++ ch)

/-- Every channel of an FM unit agrees with the image of its port. -/
def Fm.chansAgree (f : Fm) : Prop := ∀ port ch c, fmChannel port ch = some c → (f.chans.get c).agrees (f.reg port) ch

/-- The global fields of an FM unit are those of an image of port 0, R434 to R439. -/
structure Fm.globalsAgree (p : Params) (image : Byte → Byte) (f : Fm) : Prop where
  lfoEn : f.lfoEn = bit (image 0x22) 3
  lfoFreq : f.lfoFreq = (image 0x22).extractLsb' 0 3
  mode27 : f.mode27 = image 0x27
  dacEn : f.dacEn = bit (image 0x2B) 7
  dacData : f.dacData = wrap32 ((((image 0x2A).toNat : Int) - 128) * 2 ^ p.fmDacShift)

/-- An FM unit agrees with its images in its global fields and in its channels. -/
theorem imageAgrees_iff {p : Params} {f : Fm} : f.imageAgrees p ↔ f.globalsAgree p (f.reg .p0) ∧ f.chansAgree := by
  constructor
  · rintro ⟨lfoEn, lfoFreq, mode27, dacEn, dacData, chans⟩
    refine ⟨⟨lfoEn, lfoFreq, mode27, dacEn, dacData⟩, fun port ch c h => ?_⟩
    obtain ⟨fb, algo, panL, panR, ams, fms, ops⟩ := chans port ch c h
    refine ⟨⟨fb, algo, panL, panR, ams, fms⟩, fun slot => ?_⟩
    obtain ⟨dt, mul, tl, ks, ar, amEn, d1r, d2r, sl, rr, ssg⟩ := ops slot
    exact ⟨dt, mul, tl, ks, ar, amEn, d1r, d2r, sl, rr, ssg⟩
  · rintro ⟨⟨lfoEn, lfoFreq, mode27, dacEn, dacData⟩, chans⟩
    refine ⟨lfoEn, lfoFreq, mode27, dacEn, dacData, fun port ch c h => ?_⟩
    obtain ⟨⟨fb, algo, panL, panR, ams, fms⟩, ops⟩ := chans port ch c h
    refine ⟨fb, algo, panL, panR, ams, fms, fun slot => ?_⟩
    obtain ⟨dt, mul, tl, ks, ar, amEn, d1r, d2r, sl, rr, ssg⟩ := ops slot
    exact ⟨dt, mul, tl, ks, ar, amEn, d1r, d2r, sl, rr, ssg⟩

/-! ## Operators -/

section

variable {byte : BitVec 4 → Byte} {o : Operator} (d : Byte) (h : o.agrees byte)
include h

/-- DT and MUL with their byte, R440. -/
theorem opDtMul_agrees : (opDtMul d o).agrees (Function.update byte 3 d) := { h with dt := rfl, mul := rfl }

/-- TL with its byte, R441. -/
theorem opTl_agrees : (opTl d o).agrees (Function.update byte 4 d) := { h with tl := rfl }

/-- KS and AR with their byte, R442. -/
theorem opKsAr_agrees : (opKsAr d o).agrees (Function.update byte 5 d) := { h with ks := rfl, ar := rfl }

/-- AM enable and D1R with their byte, R443. -/
theorem opAmD1r_agrees : (opAmD1r d o).agrees (Function.update byte 6 d) := { h with amEn := rfl, d1r := rfl }

/-- D2R with its byte, R444. -/
theorem opD2r_agrees : (opD2r d o).agrees (Function.update byte 7 d) := { h with d2r := rfl }

/-- SL and RR with their byte, R445. -/
theorem opSlRr_agrees : (opSlRr d o).agrees (Function.update byte 8 d) := { h with sl := rfl, rr := rfl }

/-- SSG-EG with its byte, R447. -/
theorem opSsg_agrees : (opSsg d o).agrees (Function.update byte 9 d) := { h with ssg := rfl }

/-- A key bit touches no field of a register, R437, R485. -/
theorem setKey_agrees (p : Params) (b : Bool) : (setKey p b o).agrees byte := by
  unfold setKey
  dsimp only
  split
  · exact { h with }
  · split <;> exact { h with }

/-- The phase increment of a frame is no field of a register, 48_fm_operator.md R482. -/
theorem phaseInc_agrees (v : Word) : Operator.agrees byte { o with phaseInc := v } := { h with }

/-- A frame touches no field of a register, 48_fm_operator.md R526. -/
theorem opStep_agrees (p : Params) (f : Fm) (c : ChNum) (k : OpNum) : (f.opStep p c k o).agrees byte := by
  unfold Fm.opStep Fm.egStep
  dsimp only
  split <;> exact { h with }

end

/-- An operator reads only its bytes of the groups 3..9. -/
theorem operatorAgrees_congr {byte byte' : BitVec 4 → Byte} {o : Operator}
    (same : ∀ group, 3 ≤ group → group ≤ 9 → byte' group = byte group) (h : o.agrees byte) : o.agrees byte' := by
  have e3 := same 3 (by decide) (by decide)
  have e4 := same 4 (by decide) (by decide)
  have e5 := same 5 (by decide) (by decide)
  have e6 := same 6 (by decide) (by decide)
  have e7 := same 7 (by decide) (by decide)
  have e8 := same 8 (by decide) (by decide)
  have e9 := same 9 (by decide) (by decide)
  obtain ⟨dt, mul, tl, ks, ar, amEn, d1r, d2r, sl, rr, ssg⟩ := h
  rw [← e3] at dt mul
  rw [← e4] at tl
  rw [← e5] at ks ar
  rw [← e6] at amEn d1r
  rw [← e7] at d2r
  rw [← e8] at sl rr
  rw [← e9] at ssg
  exact ⟨dt, mul, tl, ks, ar, amEn, d1r, d2r, sl, rr, ssg⟩

/-! ## Channels -/

/-- The addresses a channel's fields are read from: the groups 3..9, and the rows of 0xB0 and 0xB4. -/
def isFieldAddr (addr : Byte) : Bool :=
  (decide (3 ≤ addr.extractLsb' 4 4) && decide (addr.extractLsb' 4 4 ≤ 9)) ||
  decide (addr.extractLsb' 2 6 = 0b101100#6) || decide (addr.extractLsb' 2 6 = 0b101101#6)

/-- The address of an operator register, R154. -/
theorem isFieldAddr_op {group : BitVec 4} (slot ch : BitVec 2) (low : 3 ≤ group) (high : group ≤ 9) :
    isFieldAddr (group ++ slot ++ ch) = true := by
  unfold isFieldAddr
  simp only [opAddr_fields, decide_eq_true low, decide_eq_true high]
  rfl

/-- The addresses 0xB0.. and 0xB4.. of a channel, R155. -/
theorem isFieldAddr_head (ch : BitVec 2) : isFieldAddr (0b101100#6 ++ ch) = true ∧ isFieldAddr (0b101101#6 ++ ch) = true := by
  revert ch; decide

/-- An operator register is no channel register, R154, R155. -/
theorem opAddr_ne_chanAddr {group : BitVec 4} {row : BitVec 6} (slot ch : BitVec 2) (high : group ≤ 9) (low : 0b101000#6 ≤ row) :
    group ++ slot ++ ch ≠ row ++ ch := by
  have apart : ∀ row : BitVec 6, 0b101000#6 ≤ row → ¬ row.extractLsb' 2 4 ≤ 9 := by decide
  intro e
  have same : group = row.extractLsb' 2 4 := by
    rw [← (opAddr_fields group slot ch).1, e, (chanAddr_fields row ch).2.2]
  exact apart row low (same ▸ high)

/-- The addresses 0xB0.. and 0xB4.. differ. -/
theorem fbAddr_ne_panAddr (ch : BitVec 2) : 0b101100#6 ++ ch ≠ 0b101101#6 ++ ch := by revert ch; decide

/-- A channel reads only the bytes at its own addresses of the image. -/
theorem channelAgrees_congr {image image' : Byte → Byte} {ch : BitVec 2} {x : Channel}
    (same : ∀ addr, isFieldAddr addr = true → addr.extractLsb' 0 2 = ch → image' addr = image addr) (h : x.agrees image ch) :
    x.agrees image' ch where
  head := by
    have b0 := same (0b101100#6 ++ ch) (isFieldAddr_head ch).1 (chanAddr_fields _ ch).2.1
    have b4 := same (0b101101#6 ++ ch) (isFieldAddr_head ch).2 (chanAddr_fields _ ch).2.1
    rw [b0, b4]
    exact h.head
  op slot := operatorAgrees_congr
    (fun _ low high => same _ (isFieldAddr_op slot ch low high) (opAddr_fields _ slot ch).2.2) (h.op slot)

/-- An operator register with its byte: the operator of the slot takes it, and no other field of the channel reads it. -/
theorem channelMapOp_agrees {image : Byte → Byte} {ch : BitVec 2} {x : Channel} {group : BitVec 4} (slot : BitVec 2) {d : Byte}
    {g : Operator → Operator} (high : group ≤ 9)
    (hg : ∀ {byte : BitVec 4 → Byte} {o : Operator}, o.agrees byte → (g o).agrees (Function.update byte group d))
    (h : x.agrees image ch) : (x.mapOp (fmSlot slot) g).agrees (Function.update image (group ++ slot ++ ch) d) ch where
  head := by
    have b0 := opAddr_ne_chanAddr (row := 0b101100#6) slot ch high (by decide)
    have b4 := opAddr_ne_chanAddr (row := 0b101101#6) slot ch high (by decide)
    rw [Function.update_of_ne b0.symm, Function.update_of_ne b4.symm]
    exact { h.head with }
  op slot' := by
    unfold Channel.mapOp
    by_cases same : slot' = slot
    · subst same
      have bytes : (fun k => Function.update image (group ++ slot' ++ ch) d (k ++ slot' ++ ch)) =
          Function.update (fun k => image (k ++ slot' ++ ch)) group d := by
        funext k
        have addr : k ++ slot' ++ ch = group ++ slot' ++ ch ↔ k = group :=
          ⟨fun e => by rw [← (opAddr_fields k slot' ch).1, e, (opAddr_fields group slot' ch).1], fun e => by rw [e]⟩
        simp only [Function.update_apply, addr]
      rw [bytes, ops_get_set_self]
      exact hg (h.op slot')
    · have bytes (k : BitVec 4) : Function.update image (group ++ slot ++ ch) d (k ++ slot' ++ ch) = image (k ++ slot' ++ ch) :=
        Function.update_of_ne (fun e => same (by rw [← (opAddr_fields k slot' ch).2.1, e, (opAddr_fields group slot ch).2.1])) _ _
      rw [ops_get_set_ne _ _ fun e => same (fmSlot_inj e)]
      simp only [bytes]
      exact h.op slot'

/-- The bytes at 0xB0.. and 0xB4.. are no operator's. -/
theorem operatorAgrees_update_head {image : Byte → Byte} {ch slot : BitVec 2} {o : Operator} {row : BitVec 6} (d : Byte)
    (high : 0b101000#6 ≤ row) (h : o.agrees fun group => image (group ++ slot ++ ch)) :
    o.agrees fun group => Function.update image (row ++ ch) d (group ++ slot ++ ch) :=
  operatorAgrees_congr (fun _ _ le => Function.update_of_ne (opAddr_ne_chanAddr slot ch le high) _ _) h

/-- Feedback and algorithm with their byte, R450. -/
theorem chFbAlgo_agrees {image : Byte → Byte} {ch : BitVec 2} {x : Channel} (d : Byte) (h : x.agrees image ch) :
    (chFbAlgo d x).agrees (Function.update image (0b101100#6 ++ ch) d) ch where
  head := by
    rw [Function.update_self, Function.update_of_ne (fbAddr_ne_panAddr ch).symm]
    exact { h.head with fb := rfl, algo := rfl }
  op slot := operatorAgrees_update_head d (by decide) (h.op slot)

/-- Pan and LFO sensitivities with their byte, R451. -/
theorem chPan_agrees {image : Byte → Byte} {ch : BitVec 2} {x : Channel} (d : Byte) (h : x.agrees image ch) :
    (chPan d x).agrees (Function.update image (0b101101#6 ++ ch) d) ch where
  head := by
    rw [Function.update_self, Function.update_of_ne (fbAddr_ne_panAddr ch)]
    exact { h.head with panL := rfl, panR := rfl, ams := rfl, fms := rfl }
  op slot := operatorAgrees_update_head d (by decide) (h.op slot)

/-- Key bits touch no field of a register, R437. -/
theorem setKeys_agrees {image : Byte → Byte} {ch : BitVec 2} {x : Channel} (p : Params) (b1 b2 b3 b4 : Bool)
    (h : x.agrees image ch) : Channel.agrees image ch
      { x with ops := ⟨setKey p b1 x.ops.o1, setKey p b2 x.ops.o2, setKey p b3 x.ops.o3, setKey p b4 x.ops.o4⟩ } where
  head := { h.head with }
  op slot := by
    have before := h.op slot
    revert before
    cases fmSlot slot <;> exact fun before => setKey_agrees before p _

/-- The frequencies are no field of these registers. -/
theorem setFreqs_agrees {image : Byte → Byte} {ch : BitVec 2} {x : Channel} (freqs : Freqs Freq) (h : x.agrees image ch) :
    Channel.agrees image ch { x with freqs := freqs } := ⟨{ h.head with }, h.op⟩

/-- A frame touches no field of a register, 48_fm_operator.md R526. -/
theorem chanStep_agrees {image : Byte → Byte} {ch : BitVec 2} {x : Channel} (p : Params) (f : Fm) (c : ChNum)
    (h : x.agrees image ch) : (f.chanStep p c x).agrees image ch where
  head := { h.head with }
  op slot := by
    have before := h.op slot
    revert before
    cases fmSlot slot <;> exact fun before => opStep_agrees (phaseInc_agrees before _) p f c _

/-! ## Register writes -/

section

variable {f : Fm}

/-- A byte stored at an address that no channel field is read from. -/
theorem setReg_chansAgree {addr : Byte} (port : FmPort) (d : Byte) (apart : isFieldAddr addr = false) (h : f.chansAgree) :
    (f.setReg port addr d).chansAgree := by
  intro q ch c name
  rw [fmSetReg_chans]
  refine channelAgrees_congr (fun a field _ => ?_) (h q ch c name)
  rw [fmSetReg_reg, if_neg]
  rintro ⟨_, rfl⟩
  rw [apart] at field
  cases field

/-- A change of a channel that keeps its agreement with any image. -/
theorem mapChanOpt_chansAgree (c : Option ChNum) {g : Channel → Channel}
    (hg : ∀ {image : Byte → Byte} {ch : BitVec 2} {x : Channel}, x.agrees image ch → (g x).agrees image ch) (h : f.chansAgree) :
    (f.mapChan? c g).chansAgree := by
  intro q ch b name
  rw [mapChanOpt_reg]
  cases c with
  | none => exact h q ch b name
  | some c =>
    unfold Fm.mapChan? Fm.mapChan
    by_cases same : b = c
    · subst same; rw [chans_get_set_self]; exact hg (h q ch b name)
    · rw [chans_get_set_ne _ _ same]; exact h q ch b name

/-- A channel register: the channel it names takes the byte it is stored with, and no other channel reads that byte. -/
theorem writeChan_chansAgree {addr d : Byte} {ch : BitVec 2} (port : FmPort) {g : Channel → Channel}
    (low : addr.extractLsb' 0 2 = ch)
    (hg : ∀ {image : Byte → Byte} {x : Channel}, x.agrees image ch → (g x).agrees (Function.update image addr d) ch)
    (h : f.chansAgree) : ((f.setReg port addr d).mapChan? (fmChannel port ch) g).chansAgree := by
  have elsewhere {q : FmPort} {ch' : BitVec 2} {c : ChNum} (name : fmChannel q ch' = some c) (other : ¬ (q = port ∧ ch' = ch)) :
      (f.chans.get c).agrees ((f.setReg port addr d).reg q) ch' := by
    refine channelAgrees_congr (fun a _ low' => ?_) (h q ch' c name)
    rw [fmSetReg_reg, if_neg]
    rintro ⟨rfl, rfl⟩
    exact other ⟨rfl, low'.symm.trans low⟩
  intro q ch' c name
  rw [mapChanOpt_reg]
  cases target : fmChannel port ch with
  | none =>
    unfold Fm.mapChan?
    rw [fmSetReg_chans]
    exact elsewhere name fun ⟨port', ch''⟩ => by subst port' ch''; rw [target] at name; cases name
  | some b =>
    unfold Fm.mapChan? Fm.mapChan
    rw [fmSetReg_chans]
    by_cases same : c = b
    · subst same
      obtain ⟨rfl, rfl⟩ := fmChannel_inj target name
      rw [chans_get_set_self, fmSetReg_reg_self]
      exact hg (h q ch' c name)
    · rw [chans_get_set_ne _ _ same]
      exact elsewhere name fun ⟨port', ch''⟩ => by subst port' ch''; exact same (Option.some.inj (name.symm.trans target))

/-- An operator register, R440 to R447. -/
theorem writeOp_chansAgree {addr d : Byte} {group : BitVec 4} (port : FmPort) {g : Operator → Operator}
    (row : addr.extractLsb' 4 4 = group) (high : group ≤ 9)
    (hg : ∀ {byte : BitVec 4 → Byte} {o : Operator}, o.agrees byte → (g o).agrees (Function.update byte group d))
    (h : f.chansAgree) : ((f.setReg port addr d).mapOp port (addr.extractLsb' 2 2) (addr.extractLsb' 0 2) g).chansAgree := by
  refine writeChan_chansAgree port rfl (fun hx => ?_) h
  have step := channelMapOp_agrees (addr.extractLsb' 2 2) high hg hx
  rwa [byte_of_group row] at step

/-- The global registers leave the fields of the channels, R434 to R439. -/
theorem fmGlobalRule_chansAgree (p : Params) (addr d : Byte) (h : f.chansAgree) : (fmGlobalRule p addr d f).chansAgree := by
  unfold fmGlobalRule
  split
  case h_3 => exact mapChanOpt_chansAgree _ (setKeys_agrees p _ _ _ _) h
  all_goals exact h

/-- The channel registers, R446 to R451. -/
theorem fmChannelRule_chansAgree {addr : Byte} (port : FmPort) (d : Byte)
    (row : addr.extractLsb' 4 4 = 0xA#4 ∨ addr.extractLsb' 4 4 = 0xB#4) (h : f.chansAgree) :
    (fmChannelRule port addr d (f.setReg port addr d)).chansAgree := by
  unfold fmChannelRule
  dsimp only
  split
  case h_1 => exact mapChanOpt_chansAgree _ (setFreqs_agrees _) (setReg_chansAgree port d (by clear h; decide +revert) h)
  case h_2 =>
    have kept := setReg_chansAgree (addr := addr) port d (by clear h; decide +revert) h
    split
    · unfold fmSplitLow
      split
      · exact kept
      · exact mapChanOpt_chansAgree (some .ch2) (setFreqs_agrees _) kept
    · exact kept
  case h_3 fbAlgo =>
    refine writeChan_chansAgree port rfl (fun hx => ?_) h
    have written := chFbAlgo_agrees d hx
    rwa [byte_of_high_six fbAlgo] at written
  case h_4 pan =>
    refine writeChan_chansAgree port rfl (fun hx => ?_) h
    have written := chPan_agrees d hx
    rwa [byte_of_high_six pan] at written
  case h_5 => exact setReg_chansAgree port d (by clear h; decide +revert) h

/-- The rule of an address, run after the byte is stored, R430: in the channels. -/
theorem fmRule_chansAgree (p : Params) (port : FmPort) (addr d : Byte) (h : f.chansAgree) :
    (fmRule p port addr d (f.setReg port addr d)).chansAgree := by
  unfold fmRule
  dsimp only
  split
  case h_1 =>
    have kept := setReg_chansAgree (addr := addr) port d (by clear h; decide +revert) h
    split
    · exact fmGlobalRule_chansAgree p addr d kept
    · exact kept
  case h_2 row => exact writeOp_chansAgree port row (by decide) (opDtMul_agrees d) h
  case h_3 row => exact writeOp_chansAgree port row (by decide) (opTl_agrees d) h
  case h_4 row => exact writeOp_chansAgree port row (by decide) (opKsAr_agrees d) h
  case h_5 row => exact writeOp_chansAgree port row (by decide) (opAmD1r_agrees d) h
  case h_6 row => exact writeOp_chansAgree port row (by decide) (opD2r_agrees d) h
  case h_7 row => exact writeOp_chansAgree port row (by decide) (opSlRr_agrees d) h
  case h_8 row => exact writeOp_chansAgree port row (by decide) (opSsg_agrees d) h
  case h_9 row => exact fmChannelRule_chansAgree port d (.inl row) h
  case h_10 row => exact fmChannelRule_chansAgree port d (.inr row) h
  case h_11 => exact setReg_chansAgree port d (by clear h; decide +revert) h

variable {p : Params} {image : Byte → Byte}

/-- A change of channels leaves the global fields. -/
theorem mapChanOpt_globalsAgree (c : Option ChNum) (g : Channel → Channel) (h : f.globalsAgree p image) :
    (f.mapChan? c g).globalsAgree p image := by
  cases c <;> exact { h with }

/-- The images are no global field. -/
theorem setReg_globalsAgree (port : FmPort) (addr d : Byte) (h : f.globalsAgree p image) :
    (f.setReg port addr d).globalsAgree p image := by
  cases port <;> exact { h with }

/-- An address of no global field. -/
theorem globalsAgree_update {addr : Byte} (d : Byte) (lfo : addr ≠ 0x22) (mode : addr ≠ 0x27) (data : addr ≠ 0x2A)
    (enable : addr ≠ 0x2B) (h : f.globalsAgree p image) : f.globalsAgree p (Function.update image addr d) := by
  have other {a : Byte} (ne : addr ≠ a) : Function.update image addr d a = image a := Function.update_of_ne ne.symm _ _
  obtain ⟨lfoEn, lfoFreq, mode27, dacEn, dacData⟩ := h
  rw [← other lfo] at lfoEn lfoFreq
  rw [← other mode] at mode27
  rw [← other enable] at dacEn
  rw [← other data] at dacData
  exact ⟨lfoEn, lfoFreq, mode27, dacEn, dacData⟩

/-- An address outside 0x20..0x2F is of no global field. -/
theorem globalsAgree_update_group {addr : Byte} (d : Byte) (group : addr.extractLsb' 4 4 ≠ 2#4) (h : f.globalsAgree p image) :
    f.globalsAgree p (Function.update image addr d) := by
  refine globalsAgree_update d ?_ ?_ ?_ ?_ h <;> (rintro rfl; exact group rfl)

/-- The global registers with their byte, R434 to R439; the key register and the timers are no global field. -/
theorem fmGlobalRule_globalsAgree (addr d : Byte) (h : f.globalsAgree p image) :
    (fmGlobalRule p addr d f).globalsAgree p (Function.update image addr d) := by
  unfold fmGlobalRule
  split
  case h_1 => exact { h with lfoEn := rfl, lfoFreq := rfl }
  case h_2 => exact { h with mode27 := rfl }
  case h_3 =>
    have keyed : (fmKey p d f).globalsAgree p image := mapChanOpt_globalsAgree _ _ h
    exact { keyed with }
  case h_4 => exact { h with dacData := rfl }
  case h_5 => exact { h with dacEn := rfl }
  case h_6 lfo mode _ data enable => exact globalsAgree_update d lfo mode data enable h

/-- The rule of an address outside the global registers of port 0 leaves the global fields: it reaches channels only. -/
theorem fmRule_globalsAgree_of_ne (port : FmPort) (addr d : Byte) (apart : ¬ (port = .p0 ∧ addr.extractLsb' 4 4 = 2#4))
    (h : f.globalsAgree p image) : (fmRule p port addr d f).globalsAgree p image := by
  obtain ⟨⟨chans, same⟩, _⟩ := fmRule_onlyChannels (f := f) p addr d apart
  rw [same]
  exact { h with }

/-- The rule of an address, run after the byte is stored, R430: in the global fields. -/
theorem fmRule_globalsAgree (port : FmPort) (addr d : Byte) (h : f.globalsAgree p (f.reg .p0)) :
    (fmRule p port addr d (f.setReg port addr d)).globalsAgree p ((f.setReg port addr d).reg .p0) := by
  have stored := setReg_globalsAgree port addr d h
  cases port with
  | p1 =>
    rw [fmSetReg_reg_other f addr d (by decide)]
    exact fmRule_globalsAgree_of_ne .p1 addr d (fun e => nomatch e.1) stored
  | p0 =>
    rw [fmSetReg_reg_self]
    by_cases group : addr.extractLsb' 4 4 = 2#4
    · rw [fmRule_global p d group]
      exact fmGlobalRule_globalsAgree addr d stored
    · exact fmRule_globalsAgree_of_ne .p0 addr d (fun e => group e.2) (globalsAgree_update_group d group stored)

/-- A register write keeps the agreement, R430. -/
theorem fmWrite_imageAgrees (port : FmPort) (addr d : Byte) (h : f.imageAgrees p) :
    (f.write p port addr d).imageAgrees p := by
  obtain ⟨globals, chans⟩ := imageAgrees_iff.1 h
  refine imageAgrees_iff.2 ⟨?_, fmRule_chansAgree p port addr d chans⟩
  unfold Fm.write
  rw [fmRule_reg]
  exact fmRule_globalsAgree port addr d globals

/-! ## Frames, rates, resets -/

/-- A frame keeps the agreement, 48_fm_operator.md R526. -/
theorem frameNext_imageAgrees (h : f.imageAgrees p) : (f.frameNext p).imageAgrees p := by
  obtain ⟨globals, chans⟩ := imageAgrees_iff.1 h
  refine imageAgrees_iff.2 ⟨{ globals with }, fun port ch c name => ?_⟩
  rw [frameNext_get]
  unfold Fm.chanNext
  split
  · exact chans port ch c name
  · exact chanStep_agrees p f c (chans port ch c name)

/-- Frames keep the agreement, 49_fm_channel_output.md R530. -/
theorem render_imageAgrees (n : Nat) (h : f.imageAgrees p) : (f.render p n).2.imageAgrees p := by
  induction n generalizing f with
  | zero => exact h
  | succ n ih => exact ih (frameNext_imageAgrees h)

end

/-- What the images read at reset where the channels' fields are: 0xC0 at 0xB4..0xB6, else 0, 70_reset_and_hazards.md R705. -/
theorem fm_reset_reg (p : Params) (clock rate : Word) (port : FmPort) {addr : Byte} (field : isFieldAddr addr = true) :
    (Fm.reset p clock rate).reg port addr =
      if addr.extractLsb' 2 6 = 0b101101#6 ∧ addr.extractLsb' 0 2 ≠ 3#2 then 0xC0 else 0 := by
  cases port with
  | p0 =>
    show Store.get [(0x2A, 0x80), (0xB4, 0xC0), (0xB5, 0xC0), (0xB6, 0xC0)] addr.toNat = _
    revert addr; decide
  | p1 =>
    show Store.get [(0xB4, 0xC0), (0xB5, 0xC0), (0xB6, 0xC0)] addr.toNat = _
    revert addr; decide

/-- An operator at reset, R46. -/
theorem operator_reset_agrees (p : Params) : (Operator.reset p).agrees fun _ => 0 := by constructor <;> rfl

/-- A channel at reset agrees with the reset images: both pan bits set, all else 0, R45, R705. -/
theorem channel_reset_agrees (p : Params) (clock rate : Word) {port : FmPort} {ch : BitVec 2} (name : ch ≠ 3#2) :
    (Channel.reset p).agrees ((Fm.reset p clock rate).reg port) ch where
  head := by
    have fb : (Fm.reset p clock rate).reg port (0b101100#6 ++ ch) = 0 := by
      rw [fm_reset_reg p clock rate port (isFieldAddr_head ch).1, (chanAddr_fields _ ch).1]; rfl
    have pan : (Fm.reset p clock rate).reg port (0b101101#6 ++ ch) = 0xC0 := by
      rw [fm_reset_reg p clock rate port (isFieldAddr_head ch).2, (chanAddr_fields _ ch).1, (chanAddr_fields _ ch).2.1]
      exact if_pos ⟨rfl, name⟩
    rw [fb, pan]
    constructor <;> rfl
  op slot := by
    have op : (Channel.reset p).ops.get (fmSlot slot) = Operator.reset p := by cases fmSlot slot <;> rfl
    rw [op]
    refine operatorAgrees_congr (fun group low high => ?_) (operator_reset_agrees p)
    rw [fm_reset_reg p clock rate port (isFieldAddr_op slot ch low high), if_neg]
    rintro ⟨row, _⟩
    have addr := byte_of_high_six row
    rw [(opAddr_fields group slot ch).2.2] at addr
    exact opAddr_ne_chanAddr slot ch high (by decide) addr.symm

/-- An FM unit at reset agrees with its images, whatever its rates, R44, R705. -/
theorem fm_reset_imageAgrees (p : Params) (clock rate : Word) : (Fm.reset p clock rate).imageAgrees p := by
  refine imageAgrees_iff.2 ⟨⟨?lfoEn, rfl, rfl, ?dacEn, ?dacData⟩, fun port ch c name => ?_⟩
  case lfoEn => exact (by decide : false = bit 0 3)
  case dacEn => exact (by decide : false = bit 0 7)
  case dacData =>
    show (0 : Word) = wrap32 (((0x80 : Int) - 128) * 2 ^ p.fmDacShift)
    rw [sub_self, zero_mul]
    rfl
  · have reset : (Fm.reset p clock rate).chans.get c = Channel.reset p := by cases c <;> rfl
    rw [reset]
    exact channel_reset_agrees p clock rate (by rintro rfl; rw [fmChannel_three] at name; cases name)

end Sys2Proof.Machine
end

section
/-! PROOFS. O29: what a command that decodes makes of an FM unit, and so that the FM fields go on agreeing with the register
images (spec 47_fm_registers.md R430 to R452). -/

namespace Sys2Proof.Machine

/-- What a command makes of an FM unit: nothing; a register write with the rule of its address, R430; frames, R530; a reset, R533;
other rates, R534. -/
inductive FmChange (p : Params) (f : Fm) : Fm → Prop where
  | kept : FmChange p f f
  | written (port : FmPort) (addr d : Byte) : FmChange p f (f.write p port addr d)
  | rendered (n : Nat) : FmChange p f (f.render p n).2
  | reset (clock rate : Word) : FmChange p f (.reset p clock rate)
  | rated (clock rate : Word) : FmChange p f { f with clock := clock, rate := rate }

/-- Each of these keeps the agreement with the images. -/
theorem fmChange_imageAgrees {p : Params} {f f' : Fm} (h : f.imageAgrees p) (change : FmChange p f f') : f'.imageAgrees p := by
  cases change with
  | kept => exact h
  | written port addr d => exact fmWrite_imageAgrees port addr d h
  | rendered n => exact render_imageAgrees n h
  | reset clock rate => exact fm_reset_imageAgrees p clock rate
  | rated clock rate => exact h

/-- Each FM unit changes in one of these ways. -/
def State.fmChanges (s t : State) : Prop := ∀ n, FmChange s.params (s.fm.get n) (t.fm.get n)

/-- No FM unit changes. -/
theorem fmChanges_of_eq {s t : State} (h : t.fm = s.fm) : s.fmChanges t := fun n => by rw [h]; exact .kept

/-- One FM unit changes. -/
theorem fmChanges_set {s t : State} {i : BitVec 1} {f : Fm} (h : t.fm = s.fm.set i f)
    (change : FmChange s.params (s.fm.get i) f) : s.fmChanges t := fun n => by
  rw [h]
  by_cases same : n = i
  · subst same; rw [two_get_set_self]; exact change
  · rw [two_get_set_ne _ _ same]; exact .kept

/-! ## Rules that leave the FM units -/

/-- Where the rule completes, the FM units are as before. -/
def KeepsFm (s : State) (body : Res State) : Prop := ∀ t, body = .ok t → t.fm = s.fm

/-- A rule that ends in a state with the FM units of `s`. -/
theorem keepsFm_ok {s t : State} (h : t.fm = s.fm) : KeepsFm s (.ok t) := fun _ e => by cases e; exact h

/-- A rule that raises ILLEGAL. -/
theorem keepsFm_illegal {s : State} {w0 : Word} : KeepsFm s (illegal w0) := fun _ e => by cases e

/-- A rule behind a check or another computation. -/
theorem keepsFm_bind {α : Type} {s : State} {x : Res α} {rest : α → Res State} (h : ∀ a, KeepsFm s (rest a)) :
    KeepsFm s (x >>= rest) := fun t e => by
  obtain ⟨a, _, e⟩ := res_bind_ok.1 e
  exact h a t e

/-- A rule behind a run of a group, 42_osc_common.md R260. -/
theorem keepsFm_run {opc : Byte} {g : GroupRef} {time : Int} {s : State} {rest : State → Res State}
    (h : ∀ r, KeepsFm r (rest r)) : KeepsFm s (runGroup opc g time s >>= rest) := fun t e => by
  obtain ⟨r, run, e⟩ := res_bind_ok.1 e
  obtain ⟨_, _, _, _, _, _, _, fm, _⟩ := runGroup_frame run
  exact (h r t e).trans fm

section

variable {s : State}

/-- OSC_WRITE on a PSG unit, R263. -/
theorem writePsg_keepsFm {i : BitVec 1} {time : Word} {rule : Psg → Mix → Res (Psg × Mix × Bool)} :
    KeepsFm s (writePsg i time rule s) :=
  keepsFm_run fun _ => keepsFm_bind fun _ => keepsFm_ok rfl

/-- OSC_WRITE on the HH group, R263. -/
theorem writeHh_keepsFm {time : Word} {rule : Hh → Mix → Res (Hh × Mix × Bool)} : KeepsFm s (writeHh time rule s) :=
  keepsFm_run fun _ => keepsFm_bind fun _ => keepsFm_ok rfl

/-- OSC_WRITE on the TRI group, R263. -/
theorem writeTri_keepsFm {time : Word} {rule : TriRule} : KeepsFm s (writeTri time rule s) :=
  keepsFm_run fun _ => keepsFm_bind fun _ => keepsFm_ok rfl

/-- OSC_READ on the HH group, R266. -/
theorem readHh_keepsFm {time : Word} {value : Hh → Byte} : KeepsFm s (readHh time value s) :=
  keepsFm_run fun _ => keepsFm_ok rfl

/-- OSC_READ on the TRI group, R266. -/
theorem readTri_keepsFm {time : Word} {value : Tri → Byte} : KeepsFm s (readTri time value s) :=
  keepsFm_run fun _ => keepsFm_ok rfl

/-! ## Commands -/

/-- A command that changes each FM unit in one of the ways of `FmChange`. -/
def IsFmCommand (s : State) (o : Host.Outcome State Fault Refusal) : Prop :=
  ∃ body, o = runCommand body s ∧ ∀ t, body = .ok t → s.fmChanges t

/-- A command by a rule that leaves the FM units. -/
theorem isFmCommand_of_keepsFm {body : Res State} (h : KeepsFm s body) : IsFmCommand s (runCommand body s) :=
  ⟨body, rfl, fun t e => fmChanges_of_eq (h t e)⟩

/-- NOP, 60_exceptions.md R620. -/
theorem execNop_isFmCommand : IsFmCommand s (execNop s) :=
  isFmCommand_of_keepsFm (body := .ok { s with result := 0 }) (keepsFm_ok rfl)

/-- A rule on the mix stage. -/
theorem onMix_isFmCommand {rule : Mix → Res (Mix × Word)} : IsFmCommand s (runCommand (onMix rule s) s) :=
  isFmCommand_of_keepsFm (keepsFm_bind fun _ => keepsFm_ok rfl)

/-- A PSG form. -/
theorem psgForm_isFmCommand {i : Instr} {inst : BitVec 1} {time : Word} {rule : Psg → Mix → Res (Psg × Mix × Bool)} :
    IsFmCommand s (psgForm i inst time rule s) := isFmCommand_of_keepsFm (keepsFm_bind fun _ => writePsg_keepsFm)

/-- An HH form. -/
theorem hhForm_isFmCommand {i : Instr} {time : Word} {rule : Hh → Mix → Res (Hh × Mix × Bool)} :
    IsFmCommand s (hhForm i time rule s) := isFmCommand_of_keepsFm (keepsFm_bind fun _ => writeHh_keepsFm)

/-- A TRI form. -/
theorem triForm_isFmCommand {i : Instr} {time : Word} {rule : TriRule} : IsFmCommand s (triForm i time rule s) :=
  isFmCommand_of_keepsFm (keepsFm_bind fun _ => writeTri_keepsFm)

/-- An HH read form. -/
theorem hhReadForm_isFmCommand {i : Instr} {time : Word} {addr : Byte} : IsFmCommand s (hhReadForm i time addr s) :=
  isFmCommand_of_keepsFm (keepsFm_bind fun _ => readHh_keepsFm)

/-- A TRI read form. -/
theorem triReadForm_isFmCommand {i : Instr} {time : Word} {value : Tri → Byte} : IsFmCommand s (triReadForm i time value s) :=
  isFmCommand_of_keepsFm (keepsFm_bind fun _ => readTri_keepsFm)

/-- OSC_WRITE, R263. -/
theorem execOscWrite_isFmCommand (inst sel : BitVec 4) (addr data : Byte) (time : Word) :
    IsFmCommand s (execOscWrite inst sel addr data time s) :=
  isFmCommand_of_keepsFm <| keepsFm_bind fun g => match g with
    | .psg _ => keepsFm_bind fun _ => writePsg_keepsFm
    | .hh => keepsFm_bind fun _ => writeHh_keepsFm
    | .tri => keepsFm_bind fun _ => writeTri_keepsFm

/-- OSC_READ, R266. -/
theorem execOscRead_isFmCommand (inst sel : BitVec 4) (addr : Byte) (time : Word) :
    IsFmCommand s (execOscRead inst sel addr time s) :=
  isFmCommand_of_keepsFm <| keepsFm_bind fun g => match g with
    | .psg _ => keepsFm_illegal
    | .hh => keepsFm_bind fun _ => readHh_keepsFm
    | .tri => keepsFm_bind fun _ => readTri_keepsFm

/-- OSC_END_FRAME, R268. -/
theorem execOscEndFrame_isFmCommand (inst sel : BitVec 4) (time : Word) : IsFmCommand s (execOscEndFrame inst sel time s) :=
  isFmCommand_of_keepsFm <| keepsFm_bind fun g => keepsFm_run fun _ => keepsFm_ok (by cases g <;> rfl)

/-- OSC_RESET, R269. -/
theorem execOscReset_isFmCommand (inst sel : BitVec 4) : IsFmCommand s (execOscReset inst sel s) :=
  isFmCommand_of_keepsFm <| keepsFm_bind fun g => keepsFm_ok (by cases g <;> rfl)

/-- A register write with the rule of its address, R430. -/
theorem writeFm_fmChanges {t : State} {i : BitVec 1} {port : FmPort} {addr data : Byte} {refused : Bool} {rule : Fm → Fm}
    (hr : rule = fmRule s.params port addr data) (h : writeFm i port addr data refused rule s = .ok t) : s.fmChanges t := by
  subst hr
  obtain ⟨f, written, h⟩ := res_bind_ok.1 h
  cases h
  unfold fmWriteReg at written
  split at written
  · cases written
  · cases written
    exact fmChanges_set rfl (.written port addr data)

/-- An FM form with the rule of its address. -/
theorem fmForm_isFmCommand {i : Instr} {inst : BitVec 1} {port : FmPort} {addr data : Byte} {refused : Bool} {rule : Fm → Fm}
    (hr : fmRule s.params port addr data = rule) : IsFmCommand s (fmForm i inst port addr data refused rule s) := by
  refine ⟨_, rfl, fun t h => ?_⟩
  obtain ⟨_, _, h⟩ := res_bind_ok.1 h
  exact writeFm_fmChanges hr.symm h

/-- FM_WRITE, R430. -/
theorem execFmWrite_isFmCommand (inst sel : BitVec 4) (addr data : Byte) : IsFmCommand s (execFmWrite inst sel addr data s) := by
  refine ⟨_, rfl, fun t h => ?_⟩
  obtain ⟨i, _, h⟩ := res_bind_ok.1 h
  obtain ⟨port, _, h⟩ := res_bind_ok.1 h
  exact writeFm_fmChanges rfl h

/-- FM_RENDER, R530. -/
theorem execFmRender_isFmCommand (inst : BitVec 4) (n : Word) : IsFmCommand s (execFmRender inst n s) := by
  refine ⟨_, rfl, fun t h => ?_⟩
  obtain ⟨i, _, h⟩ := res_bind_ok.1 h
  split at h
  · cases h; exact fmChanges_set rfl (.rendered (countOperand n))
  · cases h

/-- FM_RESET, R533. -/
theorem execFmReset_isFmCommand (inst : BitVec 4) : IsFmCommand s (execFmReset inst s) := by
  refine ⟨_, rfl, fun t h => ?_⟩
  obtain ⟨i, _, h⟩ := res_bind_ok.1 h
  cases h
  exact fmChanges_set rfl (.reset _ _)

/-- FM_SET_RATE, R534. -/
theorem execFmSetRate_isFmCommand (inst : BitVec 4) (clock rate : Word) : IsFmCommand s (execFmSetRate inst clock rate s) := by
  refine ⟨_, rfl, fun t h => ?_⟩
  obtain ⟨i, _, h⟩ := res_bind_ok.1 h
  split at h
  · cases h
  · cases h; exact fmChanges_set rfl (.rated clock rate)

/-- Every well-formed instruction but BLOCK_RESET: an FM form has the rule of its address, which for an address without a meaning
is none, and the others leave the FM units or are the FM commands. -/
theorem exec_isFmCommand {i : Instr} (wf : i.wf = true) (hi : i ≠ .blockReset) : IsFmCommand s (exec i s) := by
  cases i with
  | blockReset => exact absurd rfl hi
  | nop => exact execNop_isFmCommand
  | bufSetSampleRate | bufSetClockRate | bufAddDelta | bufEndFrame | bufRemoveSamples => exact onMix_isFmCommand
  | bufClear => exact onMix_isFmCommand (rule := fun m => .ok (m.clear, 0))
  | bufSamplesAvail => exact onMix_isFmCommand (rule := fun m => .ok (m, BitVec.ofNat 32 m.available))
  | bufReadStereo => exact isFmCommand_of_keepsFm (keepsFm_bind fun _ => keepsFm_ok rfl)
  | oscWrite inst sel addr data time => exact execOscWrite_isFmCommand inst sel addr data time
  | oscRead inst sel addr time => exact execOscRead_isFmCommand inst sel addr time
  | oscRun => exact isFmCommand_of_keepsFm (keepsFm_bind fun _ => keepsFm_run fun _ => keepsFm_ok rfl)
  | oscEndFrame inst sel time => exact execOscEndFrame_isFmCommand inst sel time
  | oscReset inst sel => exact execOscReset_isFmCommand inst sel
  | oscWaveStatus => exact isFmCommand_of_keepsFm (keepsFm_bind fun _ => keepsFm_run fun _ => keepsFm_ok rfl)
  | oscWritePsgLatch | oscWritePsgData | oscWritePsgStereo => exact psgForm_isFmCommand
  | oscWriteHhNr10 | oscWriteHhNr11 | oscWriteHhNr12 | oscWriteHhNr13 | oscWriteHhNr14 | oscWriteHhUnused15 | oscWriteHhNr21
  | oscWriteHhNr22 | oscWriteHhNr23 | oscWriteHhNr24 | oscWriteHhNr30 | oscWriteHhNr31 | oscWriteHhNr32 | oscWriteHhNr33
  | oscWriteHhNr34 | oscWriteHhUnused1F | oscWriteHhNr41 | oscWriteHhNr42 | oscWriteHhNr43 | oscWriteHhNr44 | oscWriteHhNr50
  | oscWriteHhNr51 | oscWriteHhUnused27 | oscWriteHhNr52Off | oscWriteHhNr52On | oscWriteHhUnused28 | oscWriteHhWaveRam =>
    exact hhForm_isFmCommand
  | oscWriteTri08 | oscWriteTri09 | oscWriteTri0A | oscWriteTri0B | oscWriteTri15 | oscWriteTri17 => exact triForm_isFmCommand
  | oscReadHhReg | oscReadHhWaveRam => exact hhReadForm_isFmCommand
  | oscReadTri15 => exact triReadForm_isFmCommand
  | fmWrite inst sel addr data => exact execFmWrite_isFmCommand inst sel addr data
  | fmRender inst n => exact execFmRender_isFmCommand inst n
  | fmReset inst => exact execFmReset_isFmCommand inst
  | fmSetRate inst clock rate => exact execFmSetRate_isFmCommand inst clock rate
  | fmWriteLfo | fmWriteTimer24 | fmWriteTimer25 | fmWriteTimer26 | fmWriteMode27 | fmWriteKey | fmWriteDacData
  | fmWriteDacEnable =>
    exact fmForm_isFmCommand rfl
  | fmWriteDtMul => exact fmForm_isFmCommand (fmRule_dtMul ..)
  | fmWriteTl => exact fmForm_isFmCommand (fmRule_tl ..)
  | fmWriteKsAr => exact fmForm_isFmCommand (fmRule_ksAr ..)
  | fmWriteAmD1r => exact fmForm_isFmCommand (fmRule_amD1r ..)
  | fmWriteD2r => exact fmForm_isFmCommand (fmRule_d2r ..)
  | fmWriteSlRr => exact fmForm_isFmCommand (fmRule_slRr ..)
  | fmWriteSsgEg => exact fmForm_isFmCommand (fmRule_ssgEg ..)
  | fmWriteFnumLow => exact fmForm_isFmCommand (fmRule_fnumLow ..)
  | fmWriteFnumHigh => exact fmForm_isFmCommand (fmRule_fnumHigh ..)
  | fmWriteSplitLow => exact fmForm_isFmCommand (fmRule_splitLow ..)
  | fmWriteSplitHigh => exact fmForm_isFmCommand (fmRule_splitHigh ..)
  | fmWriteFbAlgo => exact fmForm_isFmCommand (fmRule_fbAlgo ..)
  | fmWritePan => exact fmForm_isFmCommand (fmRule_pan ..)
  | fmWriteNoEffect inst port addr data => exact fmForm_isFmCommand (fmRule_noEffect _ data wf)

/-- An outcome of such a command: also a refusal or a fault leaves the FM units. -/
theorem isFmCommand_fmChanges {t : State} {o : Host.Outcome State Fault Refusal} (h : IsFmCommand s o) (ht : o = .next t) :
    s.fmChanges t := by
  obtain ⟨body, rfl, hb⟩ := h
  obtain ⟨_, rfl⟩ | ⟨_, u, hu, rfl⟩ | ⟨_, r, _, rfl⟩ := runCommand_cases ht
  · exact fmChanges_of_eq rfl
  · exact hb u hu
  · exact fmChanges_of_eq rfl

/-- BLOCK_RESET resets both FM units, 60_exceptions.md R621. -/
theorem blockReset_fmChanges : s.fmChanges (blockReset s) := fun n => by
  have reset : (blockReset s).fm.get n = .reset s.params 0 0 := by
    rw [blockReset_fm]; unfold Two.get; split <;> rfl
  rw [reset]
  exact .reset 0 0

/-- What a well-formed instruction makes of the FM units. -/
theorem exec_fmChanges {i : Instr} {t : State} (wf : i.wf = true) (h : exec i s = .next t) : s.fmChanges t := by
  by_cases hi : i = .blockReset
  · subst hi; cases h; exact blockReset_fmChanges
  · exact isFmCommand_fmChanges (exec_isFmCommand wf hi) h

/-- What a step makes of the FM units: what a command decodes to is well formed. -/
theorem step_fmChanges {t : State} (h : step s = .next t) : s.fmChanges t := by
  cases hp : s.port with
  | nil =>
    rw [step_empty hp] at h
    cases h
    exact fmChanges_of_eq rfl
  | cons c rest =>
    rw [step_cons hp] at h
    have taken : State.fmChanges { s with port := rest } t := by
      cases decoded : decode c with
      | ok i => exact exec_fmChanges (decode_reads decoded).1 ((executeCommand_ok decoded).symm.trans h)
      | error e =>
        have rejected : executeCommand c { s with port := rest } = rejectCommand c { s with port := rest } := by
          unfold executeCommand; rw [decoded]
        exact isFmCommand_fmChanges (isFmCommand_of_keepsFm keepsFm_illegal) (rejected.symm.trans h)
    exact taken

end

/-- Settles O29: the parameters are kept, and every change a step makes of an FM unit keeps the agreement. -/
theorem fmImageAgreesWithFields : Obligations.FmImageAgreesWithFields := by
  intro s t agrees h n
  obtain ⟨params, _⟩ := paramsAndPortsKept s t h
  rw [params]
  exact fmChange_imageAgrees (agrees n) (step_fmChanges h n)

end Sys2Proof.Machine
end

section
/-! PROOFS. The register forms of FM_WRITE: each is the rule of its address on the unit with the byte stored, or the refusal of
R436 or R447 (spec 47_fm_registers.md R432 to R451). -/

namespace Sys2Proof.Machine

/-! ## The shape of a form -/

/-- A form that is not refused does what its rule does to the unit with the byte stored. -/
theorem writesFm_of_rule {i : Instr} {inst : BitVec 1} {port : FmPort} {addr data : Byte} {refused : Bool}
    {rule after : Params → Fm → Fm} (form : ∀ s, exec i s = fmForm i inst port addr data refused (rule s.params) s)
    (accepted : refused = false) (effect : ∀ p f, rule p f = after p f) : writesFm i inst port addr data after := by
  intro s hf hu
  rw [form s, fmForm_ok hf hu accepted, effect]

/-- The information word of a refused byte, R436, R447. -/
theorem byte_zeroExtend (d : Byte) : d.zeroExtend 32 = 0#24 ++ d := by revert d; decide

/-- A form that is refused raises UNSUPPORTED with its byte and does nothing else. -/
theorem fmForm_unsupported {i : Instr} {inst : BitVec 1} {port : FmPort} {addr data : Byte} {refused : Bool}
    {rule : Params → Fm → Fm} (form : ∀ s, exec i s = fmForm i inst port addr data refused (rule s.params) s)
    (refusal : refused = true) (s : State) (hf : s.fault = none) (hu : inst.toNat < s.params.nFm) :
    exec i s = .next (s.faulted .unsupported (0#24 ++ data)) := by
  rw [form s, fmForm_refused hf hu refusal, byte_zeroExtend]

/-- The channel an address names has its change. -/
theorem mapChanOpt_some {f : Fm} {o : Option ChNum} {c : ChNum} (g : Channel → Channel) (h : o = some c) :
    f.mapChan? o g = { f with chans := f.chans.set c (g (f.chans.get c)) } := by rw [h]; rfl

/-- An address that names no channel has no effect, R432. -/
theorem mapChanOpt_none {f : Fm} {o : Option ChNum} (g : Channel → Channel) (h : o = none) : f.mapChan? o g = f := by rw [h]; rfl

/-! ## The global registers -/

/-- Settles O50: each form is its rule on the stored byte; CSM mode is the one refusal. -/
theorem fmGlobalWrites : Obligations.FmGlobalWrites := by
  intro inst data
  have write {i : Instr} {addr : Byte} {rule : Params → Fm → Fm}
      (form : ∀ s, exec i s = fmForm i inst .p0 addr data false (rule s.params) s) : writesFm i inst .p0 addr data rule :=
    writesFm_of_rule form rfl fun _ _ => rfl
  have mode (s : State) : exec (.fmWriteMode27 inst data) s =
      fmForm (.fmWriteMode27 inst data) inst .p0 0x27 data (bit data 7) (fmMode27 data) s := rfl
  refine ⟨?lfo, ?timer24, ?timer25, ?timer26, fun off => ?mode27, ?dacData, ?dacEnable, fun csm => ?csm⟩
  case lfo => exact write (rule := fun _ => fmLfo data) fun _ => rfl
  case timer24 => exact write (rule := fun _ => id) fun _ => rfl
  case timer25 => exact write (rule := fun _ => id) fun _ => rfl
  case timer26 => exact write (rule := fun _ => id) fun _ => rfl
  case mode27 => exact writesFm_of_rule (rule := fun _ => fmMode27 data) mode off fun _ _ => rfl
  case dacData => exact write (rule := fun p => fmDacData p data) fun _ => rfl
  case dacEnable => exact write (rule := fun _ => fmDacEnable data) fun _ => rfl
  case csm => exact fmForm_unsupported (rule := fun _ => fmMode27 data) mode csm

/-! ## The key register -/

/-- A key bit acts on a change only, R437. -/
theorem setKey_eq (p : Params) (b : Bool) (o : Operator) : setKey p b o = keyed p b o := by
  obtain ⟨dt, mul, tl, ks, ar, amEn, d1r, d2r, sl, rr, ssg, phaseCnt, phaseInc, egPhase, egLvl, key⟩ := o
  cases b <;> cases key <;> rfl

/-- After its key bit an operator's key is that bit, R437. -/
theorem keyed_key (p : Params) (b : Bool) (o : Operator) : (keyed p b o).key = b := by
  rw [← setKey_eq]; rfl

/-- An operator whose key is the bit already is left as it is, R437. -/
theorem keyed_of_key {p : Params} {b : Bool} {o : Operator} (h : o.key = b) : keyed p b o = o := by
  unfold keyed
  rw [if_neg, if_neg]
  all_goals
    rintro ⟨rfl, off⟩
    rw [h] at off
    cases off

/-- The channel of a key code, R437. -/
theorem keyChannel_of_names {code : BitVec 3} {c : ChNum} (h : keyCodeNames code.toNat c) : keyChannel code = some c := by
  obtain ⟨e, rfl⟩ | ⟨e, rfl⟩ | ⟨e, rfl⟩ | ⟨e, rfl⟩ | ⟨e, rfl⟩ | ⟨e, rfl⟩ := h <;> (revert code; decide)

/-- Key codes 3 and 7 name no channel, R437. -/
theorem keyChannel_none {code : BitVec 3} (h : code.toNat = 3 ∨ code.toNat = 7) : keyChannel code = none := by
  revert code; decide

/-- Settles O51: the key register is `keyed` on each operator of the channel its code names. -/
theorem fmKeyWrite : Obligations.FmKeyWrite := by
  intro inst data
  have code : (data.extractLsb' 0 3).toNat = data.toNat % 8 := by rw [BitVec.extractLsb'_toNat]; rfl
  have write {after : Params → Fm → Fm} (effect : ∀ p f, fmKey p data f = after p f) :
      writesFm (.fmWriteKey inst data) inst .p0 0x28 data after :=
    writesFm_of_rule (rule := fun p => fmKey p data) (fun _ => rfl) rfl effect
  rw [← code]
  refine ⟨fun c names => write fun p f => ?_, fun none => write fun p f => ?_, fun p b o => keyed_of_key (keyed_key p b o)⟩
  · simp only [fmKey, mapChanOpt_some _ (keyChannel_of_names names), setKey_eq]
  · exact mapChanOpt_none _ (keyChannel_none none)

/-! ## The operator registers -/

/-- The channel of an address, R154. -/
theorem fmChannel_of_chanOf {port : FmPort} {ch : BitVec 2} {c : ChNum} (h : chanOf port ch c) : fmChannel port ch = some c := by
  obtain ⟨rfl, h⟩ | ⟨rfl, h⟩ := h <;> obtain ⟨rfl, rfl⟩ | ⟨rfl, rfl⟩ | ⟨rfl, rfl⟩ := h <;> rfl

/-- OPMAP, R154. -/
theorem fmSlot_eq_opOf (slot : BitVec 2) : fmSlot slot = opOf slot := by revert slot; decide

/-- An operator form writes the operator its address names, or with ADDR[1:0] = 3 the image only, R432. -/
theorem writesOp_of_rule {i : Instr} {inst : BitVec 1} {port : FmPort} {group : BitVec 4} {slot ch : BitVec 2} {data : Byte}
    {refused : Bool} {field : Operator → Operator}
    (form : ∀ s, exec i s = fmForm i inst port (group ++ slot ++ ch) data refused (fun f => f.mapOp port slot ch field) s)
    (accepted : refused = false) : writesOp i inst port group slot ch data field := by
  refine ⟨fun c name => ?_, fun three => ?_⟩
  · refine writesFm_of_rule (rule := fun _ f => f.mapOp port slot ch field) form accepted fun _ f => ?_
    rw [← fmSlot_eq_opOf]
    exact mapChanOpt_some _ (fmChannel_of_chanOf name)
  · refine writesFm_of_rule (rule := fun _ f => f.mapOp port slot ch field) form accepted fun _ f => ?_
    exact mapChanOpt_none _ (three ▸ fmChannel_three port)

/-- Settles O52: each form is its group's rule on the named operator; SSG-EG enabled on an operator is the one refusal. -/
theorem fmOperatorWrites : Obligations.FmOperatorWrites := by
  intro inst port slot ch d
  have ssg (s : State) : exec (.fmWriteSsgEg inst port slot ch d) s = fmForm (.fmWriteSsgEg inst port slot ch d) inst port
      (9#4 ++ slot ++ ch) d (ssgRefused ch d) (fun f => f.mapOp port slot ch (opSsg d)) s := rfl
  refine ⟨?dtMul, ?tl, ?ksAr, ?amD1r, ?d2r, ?slRr, fun off => ?ssgOff, fun on named => ?ssgOn⟩
  case dtMul => exact writesOp_of_rule (field := opDtMul d) (fun _ => rfl) rfl
  case tl => exact writesOp_of_rule (field := opTl d) (fun _ => rfl) rfl
  case ksAr => exact writesOp_of_rule (field := opKsAr d) (fun _ => rfl) rfl
  case amD1r => exact writesOp_of_rule (field := opAmD1r d) (fun _ => rfl) rfl
  case d2r => exact writesOp_of_rule (field := opD2r d) (fun _ => rfl) rfl
  case slRr => exact writesOp_of_rule (field := opSlRr d) (fun _ => rfl) rfl
  case ssgOff => exact writesOp_of_rule (field := opSsg d) ssg (by rw [ssgRefused, off]; rfl)
  case ssgOn =>
    exact fmForm_unsupported (rule := fun _ f => f.mapOp port slot ch (opSsg d)) ssg
      (by rw [ssgRefused, on]; exact decide_eq_true named)

/-! ## The channel registers -/

/-- A frequency from its two bytes, R448, R480. -/
theorem freqOf_eq (high low : Byte) : freqOf high low = freqFrom high low := by
  have table : ∀ n : BitVec 4, fkey n = if n.toNat < 7 then 0 else if n.toNat = 7 then 1 else if n.toNat = 8 then 2 else 3 := by
    decide
  have index : ((high.extractLsb' 0 3 ++ low).extractLsb' 7 4).toNat = (high.extractLsb' 0 3 ++ low).toNat / 128 := by
    rw [BitVec.extractLsb'_toNat, Nat.shiftRight_eq_div_pow]
    have bound := (high.extractLsb' 0 3 ++ low).isLt
    omega
  unfold freqOf freqFrom keyCode
  dsimp only
  rw [table, index]

/-- The addresses of a row of channel registers, R155. -/
theorem chanAddr_eq (ch : BitVec 2) :
    0xA0 + ch.setWidth 8 = 0b101000#6 ++ ch ∧ 0xA4 + ch.setWidth 8 = 0b101001#6 ++ ch ∧ 0xA8 + ch.setWidth 8 = 0b101010#6 ++ ch ∧
    0xAC + ch.setWidth 8 = 0b101011#6 ++ ch ∧ 0xB0 + ch.setWidth 8 = 0b101100#6 ++ ch ∧
    0xB4 + ch.setWidth 8 = 0b101101#6 ++ ch := by
  revert ch; decide

/-- Settles O53: each form is its rule, with the channel its address names or none. -/
theorem fmChannelWrites : Obligations.FmChannelWrites := by
  intro inst port ch addr d
  obtain ⟨a0, a4, a8, ac, b0, b4⟩ := chanAddr_eq ch
  rw [a0, a4, a8, ac, b0, b4]
  have write {i : Instr} {q : FmPort} {a : Byte} {rule : Fm → Fm} {after : Fm → Fm}
      (form : ∀ s, exec i s = fmForm i inst q a d false rule s) (effect : ∀ f, rule f = after f) :
      writesFm i inst q a d fun _ => after :=
    writesFm_of_rule (rule := fun _ => rule) form rfl fun _ => effect
  refine ⟨fun c named => ?named, fun three => ?three, fun split => ?splitLow, ?fnumHigh, ?splitHigh, ?noEffect⟩
  case named =>
    have name := fmChannel_of_chanOf named
    refine ⟨write (fun _ => rfl) fun f => ?_, write (fun _ => rfl) fun f => ?_, write (fun _ => rfl) fun f => ?_⟩
    · simp only [← freqOf_eq]; exact mapChanOpt_some _ name
    · exact mapChanOpt_some _ name
    · exact mapChanOpt_some _ name
  case three =>
    subst three
    exact ⟨write (fun _ => rfl) fun f => mapChanOpt_none _ (fmChannel_three port),
      write (fun _ => rfl) fun f => mapChanOpt_none _ (fmChannel_three port),
      write (fun _ => rfl) fun f => mapChanOpt_none _ (fmChannel_three port), write (fun _ => rfl) fun f => if_pos rfl⟩
  case splitLow => exact write (fun _ => rfl) fun f => by rw [← freqOf_eq]; exact if_neg split
  case fnumHigh => exact write (fun _ => rfl) fun _ => rfl
  case splitHigh => exact write (fun _ => rfl) fun _ => rfl
  case noEffect => exact write (fun _ => rfl) fun _ => rfl

end Sys2Proof.Machine
end

section
/-! PROOFS. O54: what FM_WRITE at any address leaves of the FM unit (spec 47_fm_registers.md R430, R431). -/

namespace Sys2Proof.Machine

/-! ## A register write -/

section

variable (p : Params) (port : FmPort) (addr d : Byte) (g : Fm)

/-- The image of the port holds the byte, R430. -/
theorem fmWrite_reg (a : Byte) : (g.write p port addr d).reg port a = if a = addr then d else g.reg port a := by
  unfold Fm.write
  rw [fmRule_reg, fmSetReg_reg]
  simp only [true_and]

/-- A write on port 0 keeps the image of port 1. -/
theorem fmWrite_p0_reg1 : (g.write p .p0 addr d).reg1 = g.reg1 := fmRule_image p .p0 addr d (g.setReg .p0 addr d) .p1

/-- A write keeps the rates. -/
theorem fmWrite_rates : (g.write p port addr d).clock = g.clock ∧ (g.write p port addr d).rate = g.rate := by
  obtain ⟨clock, rate⟩ := fmRule_rates (f := g.setReg port addr d) p port addr d
  exact ⟨clock.trans (fmSetReg_clock ..), rate.trans (fmSetReg_rate ..)⟩

/-- A write but of the key register keeps the channels that no address of its port names, R431, R437. -/
theorem fmWrite_other_chans {c : ChNum} (key : ¬ (port = .p0 ∧ addr = 0x28)) (apart : ∀ low, fmChannel port low ≠ some c) :
    (g.write p port addr d).chans.get c = g.chans.get c := by
  unfold Fm.write
  rw [fmRule_other_chans p d key apart, fmSetReg_chans]

/-- A write on port 1 changes nothing but its image and channels. -/
theorem fmWrite_p1_fields :
    g.write p .p1 addr d = { g with reg1 := (g.write p .p1 addr d).reg1, chans := (g.write p .p1 addr d).chans } := by
  obtain ⟨⟨chans, same⟩, _⟩ := fmRule_onlyChannels (port := .p1) (f := g.setReg .p1 addr d) p addr d fun e => nomatch e.1
  unfold Fm.write
  rw [same]
  rfl

end

/-! ## FM_WRITE -/

/-- What FM_WRITE refuses: CSM mode, R436, and SSG-EG enabled on an operator, R447. -/
theorem fmRefused_eq_false {port : FmPort} {addr d : Byte} (csm : ¬ (port = .p0 ∧ addr = 0x27 ∧ bit d 7 = true))
    (ssg : ¬ (addr.extractLsb' 4 4 = 9 ∧ addr.extractLsb' 0 2 ≠ 3 ∧ bit d 3 = true)) : fmRefused port addr d = false := by
  unfold fmRefused ssgRefused
  grind

/-- An FM_WRITE that is not refused. -/
theorem execFmWrite_ok {inst sel : BitVec 4} {n : BitVec 1} {port : FmPort} {addr data : Byte} {s : State} (hf : s.fault = none)
    (unit : instOperand s.params.nFm inst = some n) (named : portOperand sel = some port)
    (accepted : fmRefused port addr data = false) : exec (.fmWrite inst sel addr data) s =
      .next (State.done { s with fm := s.fm.set n ((s.fm.get n).write s.params port addr data) } 0) := by
  refine runCommand_ok hf (t := { s with fm := s.fm.set n ((s.fm.get n).write s.params port addr data), result := 0 }) ?_
  have written : fmWriteReg port addr data (fmRefused port addr data) (fmRule s.params port addr data) (s.fm.get n) =
      .ok ((s.fm.get n).write s.params port addr data) := by rw [accepted]; rfl
  rw [unit, named]
  exact res_bind_of_ok _ written

/-- Settles O54: on either port the write is the rule of its address on the stored byte, which reaches the channels of its port
only. -/
theorem fmWritesStayInTheirPort : Obligations.FmWritesStayInTheirPort := by
  intro inst sel n addr data s hf same below hsel csm ssg
  have unit := instOperand_field same below
  have rates := fmWrite_rates s.params
  obtain rfl | rfl := hsel
  · have accepted : fmRefused .p0 addr data = false := fmRefused_eq_false (fun ⟨_, addr27, csm7⟩ => csm ⟨rfl, addr27, csm7⟩) ssg
    refine ⟨_, execFmWrite_ok hf unit rfl accepted, fmWrite_reg _ _ _ _ _, fun _ => ⟨fmWrite_p0_reg1 .., fun key => ?_⟩, nofun,
      rates ..⟩
    have kept {c : ChNum} := fmWrite_other_chans s.params .p0 addr data (s.fm.get n) (c := c) fun e => key e.2
    exact ⟨kept (c := .ch3) (by decide), kept (c := .ch4) (by decide), kept (c := .ch5) (by decide)⟩
  · have accepted : fmRefused .p1 addr data = false := fmRefused_eq_false (fun e => nomatch e.1) ssg
    refine ⟨_, execFmWrite_ok hf unit rfl accepted, fmWrite_reg _ _ _ _ _, nofun, fun _ => ⟨fmWrite_p1_fields .., ?_⟩, rates ..⟩
    have kept {c : ChNum} := fmWrite_other_chans s.params .p1 addr data (s.fm.get n) (c := c) fun e => nomatch e.1
    exact ⟨kept (c := .ch0) (by decide), kept (c := .ch1) (by decide), kept (c := .ch2) (by decide)⟩

end Sys2Proof.Machine
end

section
/-! PROOFS. Faults and resets: what a recorded fault refuses (spec 60_exceptions.md R603), what BLOCK_RESET restores (R621), the
values of the power-on state (70_reset_and_hazards.md R701, R705), and that every invariant of a step holds there. -/

namespace Sys2Proof.Machine

/-! ## O7: a recorded fault -/

/-- A command is refused while a fault is recorded, R603. -/
theorem isCommand_refused {s : State} {r : FaultRecord} {o : Host.Outcome State Fault Refusal} (hf : s.fault = some r)
    (h : IsCommand s o) : o = .next s := by
  obtain ⟨body, rfl, _⟩ := h
  exact runCommand_refused body hf

/-- A command that does not decode is rejected, 30_encoding.md R145. -/
theorem executeCommand_rejected {c : Command} {e : DecodeError} (hd : decode c = .error e) (s : State) :
    executeCommand c s = rejectCommand c s := by
  unfold executeCommand; rw [hd]

/-- Settles O7: every instruction but BLOCK_RESET, and the rejection of a command that does not decode, goes through the command
shell, which refuses it; BLOCK_RESET does not read the record. -/
theorem recordedFaultIsSticky : Obligations.RecordedFaultIsSticky := by
  intro s recorded
  obtain ⟨r, hf⟩ := Option.ne_none_iff_exists'.1 recorded
  refine ⟨fun i hi => isCommand_refused hf (exec_isCommand i s hi), fun c rest e hp hd => ?_, blockReset s, rfl, rfl, rfl⟩
  rw [step_cons hp, executeCommand_rejected hd]
  exact runCommand_refused _ hf

/-! ## O9, O10: the values at power-on -/

/-- Settles O9: BLOCK_RESET is the power-on state with the ports put back, by its definition. -/
theorem blockResetRestoresPowerOn : Obligations.BlockResetRestoresPowerOn := fun _ => rfl

/-- Both units of a pair of equal ones. -/
theorem two_get_same {α : Type} (x : α) (n : BitVec 1) : (⟨x, x⟩ : Two α).get n = x := ite_self x

/-- Either FM unit at power-on, R44. -/
theorem powerOn_fm_get (p : Params) (n : BitVec 1) : (State.powerOn p).fm.get n = .reset p 0 0 := two_get_same _ n

/-- The images of an FM unit at reset, at every address, R705. -/
theorem fm_reset_reg_all (p : Params) (clock rate : Word) :
    (∀ a, (Fm.reset p clock rate).reg .p0 a =
      if a = 0xB4 ∨ a = 0xB5 ∨ a = 0xB6 then 0xC0 else if a = 0x2A then 0x80 else 0) ∧
    ∀ a, (Fm.reset p clock rate).reg .p1 a = if a = 0xB4 ∨ a = 0xB5 ∨ a = 0xB6 then 0xC0 else 0 := by
  refine ⟨fun a => ?_, fun a => ?_⟩
  · show Store.get [(0x2A, 0x80), (0xB4, 0xC0), (0xB5, 0xC0), (0xB6, 0xC0)] a.toNat = _
    revert a; decide
  · show Store.get [(0xB4, 0xC0), (0xB5, 0xC0), (0xB6, 0xC0)] a.toNat = _
    revert a; decide

/-- Every channel of an FM unit at reset is a channel at reset, R45. -/
theorem fm_reset_chan (p : Params) (clock rate : Word) (c : ChNum) : (Fm.reset p clock rate).chans.get c = .reset p := by
  cases c <;> rfl

/-- The frequencies and operators of a channel at reset, R45, R46. -/
theorem channel_reset_parts (p : Params) :
    (∀ j, (Channel.reset p).freqs.get j = ⟨0, 0, 0⟩) ∧ ∀ k, (Channel.reset p).ops.get k = .reset p := by
  refine ⟨fun j => ?_, fun k => by cases k <;> rfl⟩
  unfold Freqs.get
  split <;> rfl

/-- Settles O10: unit by unit, each field of the power-on state. -/
theorem resetValues : Obligations.ResetValues := by
  refine ⟨fun s t h => ?ports, fun p => ⟨?shell, ?mix, fun n => ?psg, ?hh, rfl, fun n => ?fm⟩⟩
  case ports => cases h; exact ⟨rfl, rfl⟩
  case shell => exact ⟨rfl, rfl, rfl, rfl, rfl⟩
  case mix => exact ⟨rfl, rfl, rfl, rfl, rfl, fun u => by cases u <;> exact ⟨fun _ => rfl, rfl, rfl⟩⟩
  case psg =>
    have reset : (State.powerOn p).psg.get n = .reset p := two_get_same _ n
    rw [reset]
    refine ⟨rfl, rfl, rfl, fun x tone => ?_, rfl⟩
    obtain rfl | rfl | rfl := tone <;> exact ⟨rfl, rfl, rfl, rfl⟩
  case hh =>
    refine ⟨fun _ => rfl, rfl, rfl, rfl, rfl, fun x square => ?_, rfl, rfl, rfl⟩
    obtain rfl | rfl := square <;> rfl
  case fm =>
    obtain ⟨image0, image1⟩ := fm_reset_reg_all p 0 0
    obtain ⟨freqs, ops⟩ := channel_reset_parts p
    rw [powerOn_fm_get]
    refine ⟨image0, image1, rfl, rfl, rfl, rfl, rfl, rfl, rfl, rfl, fun c => ?_⟩
    rw [fm_reset_chan]
    exact ⟨freqs, rfl, rfl, rfl, rfl, rfl, rfl, rfl, rfl, ops⟩

/-! ## O30: the invariants at power-on -/

/-- A block at power-on is as BLOCK_RESET leaves it. -/
theorem blockReset_powerOn (p : Params) : blockReset (State.powerOn p) = State.powerOn p := rfl

/-- Settles O30: power-on is a state after BLOCK_RESET, where the stores and the counters are as required, and its units are at
reset. -/
theorem invariantsHoldAtReset : Obligations.InvariantsHoldAtReset := by
  refine ⟨fun p => ⟨lockStep_of_zero rfl rfl rfl, ?stores, hhReset_powerOk p, ?ranges, fun n => ?images⟩, rfl⟩
  case stores => rw [← blockReset_powerOn]; exact blockReset_storesWf _
  case ranges => rw [← blockReset_powerOn]; exact blockReset_ranges _
  case images =>
    rw [powerOn_fm_get]
    exact fm_reset_imageAgrees p 0 0

end Sys2Proof.Machine
end

section
/-! PROOFS. The FM commands on a whole unit: FM_SET_RATE, FM_RESET and FM_RENDER (spec 49_fm_channel_output.md R530, R533 to
R535). -/

namespace Sys2Proof.Machine

section

variable {inst : BitVec 4} {n : BitVec 1} {s : State}

/-! ## O55: the rates and the reset -/

/-- FM_RESET completes on a unit that exists, R533. -/
theorem execFmReset_ok (hf : s.fault = none) (unit : instOperand s.params.nFm inst = some n) : exec (.fmReset inst) s =
    .next (State.done { s with fm := s.fm.set n (.reset s.params (s.fm.get n).clock (s.fm.get n).rate) } 0) := by
  refine runCommand_ok hf
    (t := { s with fm := s.fm.set n (.reset s.params (s.fm.get n).clock (s.fm.get n).rate), result := 0 }) ?_
  rw [unit]; rfl

/-- FM_SET_RATE with two rates other than 0, R534. -/
theorem execFmSetRate_ok {clock rate : Word} (hf : s.fault = none) (unit : instOperand s.params.nFm inst = some n)
    (hclock : clock ≠ 0) (hrate : rate ≠ 0) : exec (.fmSetRate inst clock rate) s =
      .next (State.done { s with fm := s.fm.set n { s.fm.get n with clock := clock, rate := rate } } 0) := by
  refine runCommand_ok hf (t := { s with fm := s.fm.set n { s.fm.get n with clock := clock, rate := rate }, result := 0 }) ?_
  rw [unit]
  exact if_neg (not_or.2 ⟨hclock, hrate⟩)

/-- FM_SET_RATE with a zero rate, R534. -/
theorem execFmSetRate_badRate {clock rate : Word} (hf : s.fault = none) (unit : instOperand s.params.nFm inst = some n)
    (zero : clock = 0 ∨ rate = 0) : exec (.fmSetRate inst clock rate) s = .next (s.faulted .badRate (n.setWidth 32)) := by
  refine runCommand_error hf (r := ⟨.badRate, n.setWidth 32⟩) ?_
  rw [unit]
  exact if_pos zero

/-- Settles O55: the unit exists, so each command does what its rule says of the two rates. -/
theorem fmSetRateAndResetComplete : Obligations.FmSetRateAndResetComplete := by
  intro inst n clock rate s hf same below
  have unit := instOperand_field same below
  refine ⟨?_, execFmSetRate_ok hf unit, execFmSetRate_badRate hf unit⟩
  rw [powerOn_fm_get]
  exact execFmReset_ok hf unit

/-! ## O56: rendering -/

/-- A configured unit has both rates, R530. -/
theorem fmConfigured_iff {f : Fm} : f.configured = true ↔ f.clock ≠ 0 ∧ f.rate ≠ 0 := by
  unfold Fm.configured
  rw [Bool.and_eq_true, decide_eq_true_eq, decide_eq_true_eq]

/-- `count` frames rendered by unit `n`: the unit after them, and the frames on its port, R530. -/
def State.rendered (s : State) (n : BitVec 1) (count : Nat) : State :=
  { s with
    fm := s.fm.set n ((s.fm.get n).render s.params count).2
    fmOut := s.fmOut.set n (s.fmOut.get n ++ ((s.fm.get n).render s.params count).1) }

/-- FM_RENDER on a configured unit, R530. -/
theorem execFmRender_ok (hf : s.fault = none) (unit : instOperand s.params.nFm inst = some n)
    (hclock : (s.fm.get n).clock ≠ 0) (hrate : (s.fm.get n).rate ≠ 0) (count : Word) :
    exec (.fmRender inst count) s = .next ((s.rendered n count.toNat).done count) := by
  have configured : (s.fm.get n).configured = true := fmConfigured_iff.2 ⟨hclock, hrate⟩
  refine runCommand_ok hf (t := { s.rendered n count.toNat with result := count }) ?_
  rw [unit]
  exact if_pos configured

/-- FM_RENDER on a unit without rates, R535. -/
theorem execFmRender_notConfigured (hf : s.fault = none) (unit : instOperand s.params.nFm inst = some n)
    (zero : (s.fm.get n).clock = 0 ∨ (s.fm.get n).rate = 0) (count : Word) :
    exec (.fmRender inst count) s = .next (s.faulted .notConfigured (n.setWidth 32)) := by
  have unconfigured : ¬ (s.fm.get n).configured = true := fun ready =>
    zero.elim (fmConfigured_iff.1 ready).1 (fmConfigured_iff.1 ready).2
  refine runCommand_error hf (r := ⟨.notConfigured, n.setWidth 32⟩) ?_
  rw [unit]
  exact if_neg unconfigured

end

section

variable (p : Params) (f : Fm)

/-- One frame per count, R530. -/
theorem render_length (count : Nat) : (f.render p count).1.length = count := by
  induction count generalizing f with
  | zero => rfl
  | succ count ih => exact congrArg (· + 1) (ih (f.frameNext p))

/-- Frames keep the rates. -/
theorem render_rates (count : Nat) : (f.render p count).2.clock = f.clock ∧ (f.render p count).2.rate = f.rate := by
  induction count generalizing f with
  | zero => exact ⟨rfl, rfl⟩
  | succ count ih => exact ih (f.frameNext p)

/-- `a + b` frames are `a` frames and then `b`. -/
theorem render_add (a b : Nat) : f.render p (a + b) =
    ((f.render p a).1 ++ ((f.render p a).2.render p b).1, ((f.render p a).2.render p b).2) := by
  induction a generalizing f with
  | zero => rw [Nat.zero_add]; rfl
  | succ a ih =>
    rw [Nat.succ_add]
    show (f.frameOut p :: ((f.frameNext p).render p (a + b)).1, ((f.frameNext p).render p (a + b)).2) = _
    rw [ih]
    rfl

end

/-- Writing a unit twice leaves the second value. -/
theorem two_set_set {α : Type} (v : Two α) (n : BitVec 1) (x y : α) : (v.set n x).set n y = v.set n y := by
  by_cases zero : n = 0#1 <;> simp [Two.set, zero]

section

variable (s : State) (n : BitVec 1)

/-- The unit that rendered. -/
@[simp] theorem rendered_fm_get (count : Nat) :
    (s.rendered n count).fm.get n = ((s.fm.get n).render s.params count).2 := two_get_set_self _ _ _

/-- Its port. -/
@[simp] theorem rendered_fmOut_get (count : Nat) :
    (s.rendered n count).fmOut.get n = s.fmOut.get n ++ ((s.fm.get n).render s.params count).1 := two_get_set_self _ _ _

/-- No frame changes nothing. -/
theorem rendered_zero : s.rendered n 0 = s := by
  unfold State.rendered
  simp [Fm.render]

/-- `a + b` frames on the state are `a` frames and then `b`. -/
theorem rendered_add (a b : Nat) : s.rendered n (a + b) = (s.rendered n a).rendered n b := by
  unfold State.rendered
  simp only [two_get_set_self, two_set_set, render_add, List.append_assoc]

end

/-- Settles O56: a configured unit renders as many frames as asked, and those of `a + b` are those of `a` and then of `b`. -/
theorem fmRenderCompletes : Obligations.FmRenderCompletes := by
  intro inst n s hf same below
  have unit := instOperand_field same below
  refine ⟨execFmRender_notConfigured hf unit, fun hclock hrate => ⟨?none, fun count => ?some, fun a b small => ?sum⟩⟩
  case none =>
    rw [execFmRender_ok hf unit hclock hrate]
    exact congrArg (fun t => Host.Outcome.next (State.done t 0)) (rendered_zero s n)
  case some =>
    exact ⟨_, _, render_length .., execFmRender_ok hf unit hclock hrate count, render_rates ..⟩
  case sum =>
    obtain ⟨clock, rate⟩ := render_rates s.params (s.fm.get n) a.toNat
    have count : (a + b).toNat = a.toNat + b.toNat := by rw [BitVec.toNat_add, Nat.mod_eq_of_lt small]
    have second := execFmRender_ok (inst := inst) (n := n) (s := (s.rendered n a.toNat).done a) hf unit
      (by rwa [done_fm, rendered_fm_get, clock]) (by rwa [done_fm, rendered_fm_get, rate]) b
    have composed := rendered_add s n a.toNat b.toNat
    refine ⟨_, _, _, execFmRender_ok hf unit hclock hrate a, second, execFmRender_ok hf unit hclock hrate (a + b), ?_, ?_⟩
    · rw [count, composed]; rfl
    · rw [count, composed]; rfl

end Sys2Proof.Machine
end

section
/-! PROOFS. One frame of an FM unit: the operator outputs by the algorithm's row, what the unit puts out, and what the frame
advances (spec 48_fm_operator.md R482 to R487, 49_fm_channel_output.md R521 to R526). -/

namespace Sys2Proof.Machine

/-! ## The algorithms as rows, R521 -/

/-- The modulation inputs and the carrier sum of an algorithm are the sums over its row. -/
theorem algorithm_sums (algo : BitVec 3) (v : OpNum → Int) :
    modInput2 algo (v .op1) = ((algorithmRow algo).1.map v).sum ∧
    modInput3 algo (v .op1) (v .op2) = ((algorithmRow algo).2.1.map v).sum ∧
    modInput4 algo (v .op1) (v .op2) (v .op3) = ((algorithmRow algo).2.2.1.map v).sum ∧
    carrierSum algo (v .op1) (v .op2) (v .op3) (v .op4) = ((algorithmRow algo).2.2.2.map v).sum := by
  have eight : ∀ a : BitVec 3, a = 0#3 ∨ a = 1#3 ∨ a = 2#3 ∨ a = 3#3 ∨ a = 4#3 ∨ a = 5#3 ∨ a = 6#3 ∨ a = 7#3 := by decide
  obtain rfl | rfl | rfl | rfl | rfl | rfl | rfl | rfl := eight algo <;>
    simp [modInput2, modInput3, modInput4, carrierSum, algorithmRow, Int.add_assoc]

/-! ## Outputs -/

section

variable (p : Params) (f : Fm) (c : ChNum)

/-- The outputs of the operators of channel `c` in a frame that starts at `f`. -/
def Fm.outputs (k : OpNum) : Int := (f.opOutputs p (f.chans.get c)).get k

/-- The model's operator outputs are operator outputs of R521 and R522. -/
theorem outputs_frameOutputs : frameOutputs p f c (f.outputs p c) := by
  obtain ⟨mod2, mod3, mod4, _⟩ := algorithm_sums (f.chans.get c).algo (f.outputs p c)
  unfold frameOutputs
  dsimp only
  rw [← mod2, ← mod3, ← mod4]
  exact ⟨rfl, rfl, rfl, rfl⟩

/-- Saturation keeps a value within the channel limit, R523. -/
theorem saturate_bounds (v : Int) : -(p.fmChLimit : Int) ≤ saturate p v ∧ saturate p v ≤ p.fmChLimit := by
  unfold saturate clamp
  omega

/-- A channel's output: in DAC mode that of channel 5 is the DAC value, any other the sum of its carriers, R523, R524. -/
theorem chout_eq : f.chout p c = saturate p (if c = .ch5 ∧ f.dacEn = true then sext f.dacData
    else ((algorithmRow (f.chans.get c).algo).2.2.2.map (f.outputs p c)).sum / 2 ^ p.fmOutShift) := by
  obtain ⟨_, _, _, carriers⟩ := algorithm_sums (f.chans.get c).algo (f.outputs p c)
  rw [← carriers]
  unfold Fm.chout Fm.skipped
  simp only [Bool.and_eq_true, decide_eq_true_eq]
  split <;> rfl

/-- A sum over the channels, as a list. -/
theorem sumChans_eq (g : ChNum → Int) : sumChans g = ([ChNum.ch0, .ch1, .ch2, .ch3, .ch4, .ch5].map g).sum := by
  simp [sumChans, Int.add_assoc]

end

/-- One frame on the port of its unit, R525, R530. -/
theorem rendered_one_fmOut (s : State) (n : BitVec 1) :
    (s.rendered n 1).fmOut.get n = s.fmOut.get n ++ [(s.fm.get n).frameOut s.params] := rendered_fmOut_get s n 1

/-- Settles O57: the outputs of the operators satisfy the equations of R521 by the algorithm's row, the channels' outputs those of
R523, and the two sums are over the channels whose pan bit is set. -/
theorem fmFrameOutput : Obligations.FmFrameOutput := by
  intro inst n s hf same below hclock hrate f lim
  have unit := instOperand_field same below
  refine ⟨f.outputs s.params, f.chout s.params, _, outputs_frameOutputs s.params f, fun c => ?_, fun c => ?_,
    execFmRender_ok hf unit hclock hrate 1, ?_⟩
  · rw [chout_eq]
    split <;> rfl
  · rw [chout_eq]
    exact saturate_bounds s.params _
  · rw [← sumChans_eq, ← sumChans_eq]
    exact rendered_one_fmOut s n

/-! ## What a frame advances -/

section

variable (p : Params) (f : Fm) (c : ChNum) (k : OpNum)

/-- The frequency an operator uses: the one of its split index in split mode on channel 2, else the channel's own, R481. -/
theorem freqs_get_freqIndex {α : Type} (v : Freqs α) : v.get (f.freqIndex c k) =
    if (decide (c = .ch2) && decide (f.mode27.extractLsb' 6 2 = 1#2)) = true then v.get (splitIndex k) else v.f0 := by
  unfold Fm.freqIndex Fm.splitMode
  simp only [Bool.and_eq_true, decide_eq_true_eq]
  split <;> rfl

/-- The phase increment of an operator is that of R482, narrowed once. -/
theorem phaseInc_eq : f.phaseInc c k ((f.chans.get c).ops.get k) = framePhaseInc f c k := by
  unfold Fm.phaseInc framePhaseInc phaseIncOf Fm.opFreq Fm.bentFnum wrap32
  dsimp only
  rw [freqs_get_freqIndex, BitVec.toNat_ofInt]
  cases k <;> rfl

/-- An envelope step is that of R486 and R487, and changes nothing else. -/
theorem egStep_spec (kc : BitVec 5) (o : Operator) :
    f.egStep p kc o = { o with egPhase := (f.egStep p kc o).egPhase, egLvl := (f.egStep p kc o).egLvl } ∧
    frameEnvelope p f kc o (f.egStep p kc o).egLvl (f.egStep p kc o).egPhase := by
  unfold Fm.egStep frameEnvelope
  dsimp only
  cases o.egPhase <;> exact ⟨rfl, rfl, rfl⟩

/-- An operator after a frame: its phase increment, then its phase and its envelope, R526. -/
theorem chanStep_op (x : Channel) : (f.chanStep p c x).ops.get k =
    f.egStep p (f.opFreq c k).kc (phaseStep { x.ops.get k with phaseInc := f.phaseInc c k (x.ops.get k) }) := by
  cases k <;> rfl

/-- What a frame does to an operator of a channel it synthesises: R482, R483, R487. -/
theorem chanStep_op_spec : let o := (f.chans.get c).ops.get k
    let o' := (f.chanStep p c (f.chans.get c)).ops.get k
    o' = { o with phaseInc := framePhaseInc f c k, phaseCnt := o.phaseCnt + framePhaseInc f c k,
                  egPhase := o'.egPhase, egLvl := o'.egLvl } ∧
    frameEnvelope p f (f.opFreq c k).kc o o'.egLvl o'.egPhase := by
  dsimp only
  rw [chanStep_op, phaseInc_eq]
  exact egStep_spec p f _ (phaseStep { (f.chans.get c).ops.get k with phaseInc := framePhaseInc f c k })

/-- A channel that is not skipped is synthesised, R524. -/
theorem chanNext_of_synthesised (on : ¬ (c = .ch5 ∧ f.dacEn = true)) : f.chanNext p c = f.chanStep p c (f.chans.get c) := by
  unfold Fm.chanNext Fm.skipped
  rw [if_neg]
  rwa [Bool.and_eq_true, decide_eq_true_eq]

/-- In DAC mode channel 5 keeps all of its state, R524. -/
theorem chanNext_dac (dac : f.dacEn = true) : f.chanNext p .ch5 = f.chans.c5 := by
  unfold Fm.chanNext Fm.skipped
  rw [dac]
  rfl

/-- The LFO runs while enabled, R491. -/
theorem lfoNext_eq : f.lfoNext =
    if f.lfoEn = true then f.lfoCnt + BitVec.ofNat 32 (Config.fmLfoInc f.clock f.rate f.lfoFreq) else f.lfoCnt := by
  unfold Fm.lfoNext
  rw [BitVec.ofNat_add, BitVec.ofNat_toNat, BitVec.setWidth_eq]

end

/-- The unit after one frame. -/
theorem rendered_one_fm (s : State) (n : BitVec 1) : (s.rendered n 1).fm.get n = (s.fm.get n).frameNext s.params :=
  rendered_fm_get s n 1

/-- Settles O58: one frame is `frameNext`, channel by channel and operator by operator. -/
theorem fmFrameAdvances : Obligations.FmFrameAdvances := by
  intro inst n s hf same below hclock hrate f
  refine ⟨_, execFmRender_ok hf (instOperand_field same below) hclock hrate 1, ?_⟩
  rw [done_fm]
  have one : (s.rendered n (1 : Word).toNat).fm.get n = f.frameNext s.params := rendered_one_fm s n
  rw [one]
  refine ⟨rfl, lfoNext_eq f, chanNext_dac s.params f, fun c on => ?_⟩
  have channel : (f.frameNext s.params).chans.get c = f.chanStep s.params c (f.chans.get c) :=
    (frameNext_get s.params f c).trans (chanNext_of_synthesised s.params f c on)
  rw [channel]
  exact ⟨⟨f.outputs s.params c, outputs_frameOutputs s.params f c, rfl⟩, chanStep_op_spec s.params f c⟩

end Sys2Proof.Machine
end

section
/-! PROOFS. Envelopes are monotonic but for a key-on, over any command but a reset (spec 48_fm_operator.md R490), and the
constraints on the tables behind it (R488, R489). -/

namespace Sys2Proof.Machine

/-! ## What an envelope may do -/

/-- An operator that is not keyed on goes forward from `o` to `o'`, R490: its phase, and its level within the phase. -/
structure Operator.Advances (o o' : Operator) : Prop where
  phase : phaseFollows o.egPhase o'.egPhase
  attack : o'.egPhase = .attack → o'.egLvl ≤ o.egLvl
  fall : o.egPhase ≠ .attack → o.egLvl ≤ o'.egLvl

/-- The phases in their order. -/
def phaseRank : EgPhase → Nat
  | .attack => 0
  | .decay => 1
  | .sustain => 2
  | .release => 3

/-- A phase may be followed by itself and by every later one. -/
theorem phaseFollows_iff {a b : EgPhase} : phaseFollows a b ↔ phaseRank a ≤ phaseRank b := by
  unfold phaseFollows
  cases a <;> cases b <;> decide

/-- Only attack leads to attack. -/
theorem attack_of_phaseFollows {a : EgPhase} (h : phaseFollows a .attack) : a = .attack := by
  have first := Nat.le_zero.1 (phaseFollows_iff.1 h)
  cases a with
  | attack => rfl
  | decay | sustain | release => cases first

/-- The order of the phases is transitive. -/
theorem phaseFollows_trans {a b c : EgPhase} (h : phaseFollows a b) (h' : phaseFollows b c) : phaseFollows a c :=
  phaseFollows_iff.2 ((phaseFollows_iff.1 h).trans (phaseFollows_iff.1 h'))

/-- An operator whose envelope is as before. -/
theorem advances_of_eq {o o' : Operator} (phase : o'.egPhase = o.egPhase) (level : o'.egLvl = o.egLvl) : o.Advances o' :=
  ⟨.inl phase.symm, fun _ => level.le, fun _ => level.ge⟩

/-- Going forward twice is going forward. -/
theorem Operator.Advances.trans {o o' o'' : Operator} (h : o.Advances o') (h' : o'.Advances o'') : o.Advances o'' where
  phase := phaseFollows_trans h.phase h'.phase
  attack last := by
    have mid : o'.egPhase = .attack := attack_of_phaseFollows (last ▸ h'.phase)
    exact (h'.attack last).trans (h.attack mid)
  fall first := by
    have mid : o'.egPhase ≠ .attack := fun e => first (attack_of_phaseFollows (e ▸ h.phase))
    exact (h.fall first).trans (h'.fall mid)

/-- Outside attack, going forward is the order of the phases and a level that does not fall. -/
theorem advances_of_rise {o o' : Operator} (start : o.egPhase ≠ .attack) (order : phaseFollows o.egPhase o'.egPhase)
    (rise : o.egLvl ≤ o'.egLvl) : o.Advances o' :=
  ⟨order, fun last => absurd (attack_of_phaseFollows (last ▸ order)) start, fun _ => rise⟩

/-- A rise bounded by FM_ENV_MAX is one from a level within it, R487. -/
theorem le_egRise {p : Params} {lvl : Nat} (inc : Nat) (h : lvl ≤ p.fmEnvMax) : lvl ≤ egRise p lvl inc :=
  le_min h (Nat.le_add_right lvl inc)

/-! ## Frames -/

/-- The envelope of a frame goes forward, R487, R490. -/
theorem frameEnvelope_advances {p : Params} {f : Fm} {kc : BitVec 5} {o o' : Operator} (range : o.egLvl ≤ p.fmEnvMax)
    (h : frameEnvelope p f kc o o'.egLvl o'.egPhase) : o.Advances o' := by
  unfold frameEnvelope at h
  cases start : o.egPhase <;> rw [start] at h <;> obtain ⟨level, phase⟩ := h
  case attack =>
    refine ⟨?_, fun _ => level.trans_le (fmAttCurve_le _ _), fun other => absurd start other⟩
    rw [start, phaseFollows_iff]
    exact Nat.zero_le _
  case decay =>
    refine advances_of_rise (by rw [start]; decide) ?_ ((le_egRise _ range).trans_eq level.symm)
    rw [start, phase, phaseFollows_iff]
    split <;> decide
  case sustain | release =>
    exact advances_of_rise (by rw [start]; decide) (.inl (start.trans phase.symm)) ((le_egRise _ range).trans_eq level.symm)

/-- An operator of a unit. -/
def Fm.oper (f : Fm) (c : ChNum) (k : OpNum) : Operator := (f.chans.get c).ops.get k

/-- A frame moves every operator forward and keeps its key, R526. -/
theorem frameNext_advances {p : Params} {f : Fm} (h : f.rangesOk p) (c : ChNum) (k : OpNum) :
    (f.oper c k).Advances ((f.frameNext p).oper c k) ∧ ((f.frameNext p).oper c k).key = (f.oper c k).key := by
  obtain ⟨_, level, _⟩ := h
  unfold Fm.oper
  rw [frameNext_get]
  unfold Fm.chanNext
  split
  · exact ⟨advances_of_eq rfl rfl, rfl⟩
  · obtain ⟨fields, envelope⟩ := chanStep_op_spec p f c k
    exact ⟨frameEnvelope_advances (level c k) envelope, (congrArg Operator.key fields :)⟩

/-- Frames move every operator forward and keep its key, R530. -/
theorem render_advances {p : Params} (count : Nat) {f : Fm} (h : f.rangesOk p) (c : ChNum) (k : OpNum) :
    (f.oper c k).Advances ((f.render p count).2.oper c k) ∧ ((f.render p count).2.oper c k).key = (f.oper c k).key := by
  induction count generalizing f with
  | zero => exact ⟨advances_of_eq rfl rfl, rfl⟩
  | succ count ih =>
    obtain ⟨first, key⟩ := frameNext_advances h c k
    obtain ⟨rest, key'⟩ := ih (frameNext_ranges h)
    exact ⟨first.trans rest, key'.trans key⟩

/-! ## Register writes -/

/-- An operator that is not keyed on goes forward. -/
def Operator.Moves (o o' : Operator) : Prop := ¬ (o.key = false ∧ o'.key = true) → o.Advances o'

/-- So does every operator of a unit. -/
def Fm.Moves (f f' : Fm) : Prop := ∀ c k, (f.oper c k).Moves (f'.oper c k)

section

variable {f : Fm}

/-- An operator whose envelope is as before. -/
theorem moves_of_eq {o o' : Operator} (phase : o'.egPhase = o.egPhase) (level : o'.egLvl = o.egLvl) : o.Moves o' :=
  fun _ => advances_of_eq phase level

/-- A unit whose channels are as before. -/
theorem fmMoves_of_chans {f' : Fm} (h : f'.chans = f.chans) : f.Moves f' := fun c k => by
  unfold Fm.oper
  rw [h]
  exact moves_of_eq rfl rfl

/-- A change of one channel, or of none, R432. -/
theorem mapChanOpt_moves (c : Option ChNum) {g : Channel → Channel}
    (hg : ∀ x k, ((Channel.ops x).get k).Moves ((g x).ops.get k)) : f.Moves (f.mapChan? c g) := by
  cases c with
  | none => exact fmMoves_of_chans rfl
  | some c =>
    intro b k
    unfold Fm.oper Fm.mapChan? Fm.mapChan
    by_cases same : b = c
    · subst same; rw [chans_get_set_self]; exact hg _ k
    · rw [chans_get_set_ne _ _ same]; exact moves_of_eq rfl rfl

/-- A channel register leaves the operators, R446 to R451. -/
theorem mapChanOpt_moves_of_ops (c : Option ChNum) {g : Channel → Channel} (hg : ∀ x, (g x).ops = x.ops) :
    f.Moves (f.mapChan? c g) :=
  mapChanOpt_moves c fun x k => by rw [hg x]; exact moves_of_eq rfl rfl

/-- An operator register leaves the envelopes, R440 to R447. -/
theorem mapOp_moves (port : FmPort) (slot ch : BitVec 2) {g : Operator → Operator}
    (hg : ∀ o, (g o).egPhase = o.egPhase ∧ (g o).egLvl = o.egLvl) : f.Moves (f.mapOp port slot ch g) :=
  mapChanOpt_moves _ fun x k => by
    unfold Channel.mapOp
    by_cases same : k = fmSlot slot
    · subst same; rw [ops_get_set_self]; exact moves_of_eq (hg _).1 (hg _).2
    · rw [ops_get_set_ne _ _ same]; exact moves_of_eq rfl rfl

/-- A key bit that does not key an operator on releases it or leaves its envelope, R437, R485. -/
theorem setKey_moves (p : Params) (b : Bool) (o : Operator) : o.Moves (setKey p b o) := by
  rw [setKey_eq]
  unfold keyed
  split
  case isTrue on => exact fun off => absurd ⟨on.2, rfl⟩ off
  case isFalse =>
    split
    · exact fun _ => ⟨.inr (.inl rfl), nofun, fun _ => le_rfl⟩
    · exact moves_of_eq rfl rfl

/-- The key register, R437. -/
theorem fmKey_moves (p : Params) (d : Byte) : f.Moves (fmKey p d f) :=
  mapChanOpt_moves _ fun _ k => by cases k <;> exact setKey_moves p _ _

/-- The global registers, R434 to R439. -/
theorem fmGlobalRule_moves (p : Params) (addr d : Byte) : f.Moves (fmGlobalRule p addr d f) := by
  by_cases key : addr = 0x28
  · subst key; exact fmKey_moves p d
  · exact fmMoves_of_chans (fmGlobalRule_chans p d key)

/-- The channel registers, R446 to R451. -/
theorem fmChannelRule_moves (port : FmPort) (addr d : Byte) : f.Moves (fmChannelRule port addr d f) := by
  have splitLow : f.Moves (fmSplitLow (addr.extractLsb' 0 2) d f) := by
    unfold fmSplitLow
    split
    · exact fmMoves_of_chans rfl
    · exact mapChanOpt_moves_of_ops (some .ch2) fun _ => rfl
  unfold fmChannelRule
  dsimp only
  split
  · exact mapChanOpt_moves_of_ops _ fun _ => rfl
  · split
    · exact splitLow
    · exact fmMoves_of_chans rfl
  · exact mapChanOpt_moves_of_ops _ fun _ => rfl
  · exact mapChanOpt_moves_of_ops _ fun _ => rfl
  · exact fmMoves_of_chans rfl

/-- The rule of an address, R430. -/
theorem fmRule_moves (p : Params) (port : FmPort) (addr d : Byte) : f.Moves (fmRule p port addr d f) := by
  unfold fmRule
  dsimp only
  split
  case h_1 =>
    split
    · exact fmGlobalRule_moves p addr d
    · exact fmMoves_of_chans rfl
  case h_9 => exact fmChannelRule_moves port addr d
  case h_10 => exact fmChannelRule_moves port addr d
  case h_11 => exact fmMoves_of_chans rfl
  all_goals exact mapOp_moves _ _ _ fun _ => ⟨rfl, rfl⟩

/-- A register write: the image is no envelope, and then the rule runs, R430. -/
theorem fmWrite_moves {p : Params} {rule : Fm → Fm} {port : FmPort} {addr d : Byte}
    (hr : rule = fmRule p port addr d ∨ rule = id) : f.Moves (rule (f.setReg port addr d)) := by
  have stored : (f.setReg port addr d).oper = f.oper := by
    unfold Fm.oper
    rw [fmSetReg_chans]
  have ran : (f.setReg port addr d).Moves (rule (f.setReg port addr d)) := by
    obtain rfl | rfl := hr
    · exact fmRule_moves p port addr d
    · exact fmMoves_of_chans rfl
  unfold Fm.Moves at ran
  rwa [stored] at ran

end

/-! ## Commands -/

/-- An outcome is that of a command that is no reset: where its rule completes, the operators of every unit go forward unless they
are keyed on. -/
def MovesFm (s : State) (o : Host.Outcome State Fault Refusal) : Prop :=
  ∃ body, o = runCommand body s ∧ ∀ t, body = .ok t → ∀ n, (s.fm.get n).Moves (t.fm.get n)

section

variable {s : State}

/-- One unit changes so. -/
theorem fmMoves_set {i : BitVec 1} {f : Fm} (h : (s.fm.get i).Moves f) (n : BitVec 1) :
    (s.fm.get n).Moves ((s.fm.set i f).get n) := by
  by_cases same : n = i
  · subst same; rwa [two_get_set_self]
  · rw [two_get_set_ne _ _ same]; exact fmMoves_of_chans rfl

/-- A command whose rule leaves the FM units. -/
theorem movesFm_of_keepsFm {body : Res State} (h : KeepsFm s body) : MovesFm s (runCommand body s) :=
  ⟨body, rfl, fun t e n => by rw [h t e]; exact fmMoves_of_chans rfl⟩

/-- A rule on the mix stage. -/
theorem onMix_movesFm {rule : Mix → Res (Mix × Word)} : MovesFm s (runCommand (onMix rule s) s) :=
  movesFm_of_keepsFm (keepsFm_bind fun _ => keepsFm_ok rfl)

/-- A PSG form. -/
theorem psgForm_movesFm {i : Instr} {inst : BitVec 1} {time : Word} {rule : Psg → Mix → Res (Psg × Mix × Bool)} :
    MovesFm s (psgForm i inst time rule s) := movesFm_of_keepsFm (keepsFm_bind fun _ => writePsg_keepsFm)

/-- An HH form. -/
theorem hhForm_movesFm {i : Instr} {time : Word} {rule : Hh → Mix → Res (Hh × Mix × Bool)} :
    MovesFm s (hhForm i time rule s) := movesFm_of_keepsFm (keepsFm_bind fun _ => writeHh_keepsFm)

/-- A TRI form. -/
theorem triForm_movesFm {i : Instr} {time : Word} {rule : TriRule} : MovesFm s (triForm i time rule s) :=
  movesFm_of_keepsFm (keepsFm_bind fun _ => writeTri_keepsFm)

/-- OSC_WRITE, 42_osc_common.md R263. -/
theorem execOscWrite_movesFm (inst sel : BitVec 4) (addr data : Byte) (time : Word) :
    MovesFm s (execOscWrite inst sel addr data time s) :=
  movesFm_of_keepsFm <| keepsFm_bind fun g => match g with
    | .psg _ => keepsFm_bind fun _ => writePsg_keepsFm
    | .hh => keepsFm_bind fun _ => writeHh_keepsFm
    | .tri => keepsFm_bind fun _ => writeTri_keepsFm

/-- OSC_READ, R266. -/
theorem execOscRead_movesFm (inst sel : BitVec 4) (addr : Byte) (time : Word) :
    MovesFm s (execOscRead inst sel addr time s) :=
  movesFm_of_keepsFm <| keepsFm_bind fun g => match g with
    | .psg _ => keepsFm_illegal
    | .hh => keepsFm_bind fun _ => readHh_keepsFm
    | .tri => keepsFm_bind fun _ => readTri_keepsFm

/-- A register write. -/
theorem writeFm_moves {t : State} {i : BitVec 1} {port : FmPort} {addr data : Byte} {refused : Bool} {rule : Fm → Fm}
    (hr : rule = fmRule s.params port addr data ∨ rule = id) (h : writeFm i port addr data refused rule s = .ok t)
    (n : BitVec 1) : (s.fm.get n).Moves (t.fm.get n) := by
  obtain ⟨f, written, h⟩ := res_bind_ok.1 h
  cases h
  unfold fmWriteReg at written
  split at written
  · cases written
  · cases written
    exact fmMoves_set (fmWrite_moves hr) n

/-- An FM form. -/
theorem fmForm_movesFm {i : Instr} {inst : BitVec 1} {port : FmPort} {addr data : Byte} {refused : Bool} {rule : Fm → Fm}
    (hr : rule = fmRule s.params port addr data ∨ rule = id) : MovesFm s (fmForm i inst port addr data refused rule s) := by
  refine ⟨_, rfl, fun t h => ?_⟩
  obtain ⟨_, _, h⟩ := res_bind_ok.1 h
  exact writeFm_moves hr h

/-- FM_WRITE, 47_fm_registers.md R430. -/
theorem execFmWrite_movesFm (inst sel : BitVec 4) (addr data : Byte) : MovesFm s (execFmWrite inst sel addr data s) := by
  refine ⟨_, rfl, fun t h => ?_⟩
  obtain ⟨_, _, h⟩ := res_bind_ok.1 h
  obtain ⟨_, _, h⟩ := res_bind_ok.1 h
  exact writeFm_moves (.inl rfl) h

/-- FM_RENDER on units in range, 49_fm_channel_output.md R530. -/
theorem execFmRender_movesFm (range : ∀ n, (s.fm.get n).rangesOk s.params) (inst : BitVec 4) (count : Word) :
    MovesFm s (execFmRender inst count s) := by
  refine ⟨_, rfl, fun t h => ?_⟩
  obtain ⟨i, _, h⟩ := res_bind_ok.1 h
  split at h
  · cases h
    exact fmMoves_set fun c k _ => (render_advances (countOperand count) (range i) c k).1
  · cases h

/-- FM_SET_RATE, R534. -/
theorem execFmSetRate_movesFm (inst : BitVec 4) (clock rate : Word) : MovesFm s (execFmSetRate inst clock rate s) := by
  refine ⟨_, rfl, fun t h => ?_⟩
  obtain ⟨i, _, h⟩ := res_bind_ok.1 h
  split at h
  · cases h
  · cases h; exact fmMoves_set (fmMoves_of_chans rfl)

/-- Every instruction but the two resets. -/
theorem exec_movesFm (range : ∀ n, (s.fm.get n).rangesOk s.params) {i : Instr} (block : i ≠ .blockReset)
    (unit : ∀ inst, i ≠ .fmReset inst) : MovesFm s (exec i s) := by
  cases i with
  | blockReset => exact absurd rfl block
  | fmReset inst => exact absurd rfl (unit inst)
  | nop => exact movesFm_of_keepsFm (body := .ok { s with result := 0 }) (keepsFm_ok rfl)
  | bufSetSampleRate | bufSetClockRate | bufAddDelta | bufEndFrame | bufRemoveSamples => exact onMix_movesFm
  | bufClear => exact onMix_movesFm (rule := fun m => .ok (m.clear, 0))
  | bufSamplesAvail => exact onMix_movesFm (rule := fun m => .ok (m, BitVec.ofNat 32 m.available))
  | bufReadStereo => exact movesFm_of_keepsFm (keepsFm_bind fun _ => keepsFm_ok rfl)
  | oscWrite inst sel addr data time => exact execOscWrite_movesFm inst sel addr data time
  | oscRead inst sel addr time => exact execOscRead_movesFm inst sel addr time
  | oscRun | oscWaveStatus => exact movesFm_of_keepsFm (keepsFm_bind fun _ => keepsFm_run fun _ => keepsFm_ok rfl)
  | oscEndFrame =>
    exact movesFm_of_keepsFm (keepsFm_bind fun g => keepsFm_run fun _ => keepsFm_ok (by cases g <;> rfl))
  | oscReset => exact movesFm_of_keepsFm (keepsFm_bind fun g => keepsFm_ok (by cases g <;> rfl))
  | oscWritePsgLatch | oscWritePsgData | oscWritePsgStereo => exact psgForm_movesFm
  | oscWriteHhNr10 | oscWriteHhNr11 | oscWriteHhNr12 | oscWriteHhNr13 | oscWriteHhNr14 | oscWriteHhUnused15 | oscWriteHhNr21
  | oscWriteHhNr22 | oscWriteHhNr23 | oscWriteHhNr24 | oscWriteHhNr30 | oscWriteHhNr31 | oscWriteHhNr32 | oscWriteHhNr33
  | oscWriteHhNr34 | oscWriteHhUnused1F | oscWriteHhNr41 | oscWriteHhNr42 | oscWriteHhNr43 | oscWriteHhNr44 | oscWriteHhNr50
  | oscWriteHhNr51 | oscWriteHhUnused27 | oscWriteHhNr52Off | oscWriteHhNr52On | oscWriteHhUnused28 | oscWriteHhWaveRam =>
    exact hhForm_movesFm
  | oscWriteTri08 | oscWriteTri09 | oscWriteTri0A | oscWriteTri0B | oscWriteTri15 | oscWriteTri17 => exact triForm_movesFm
  | oscReadHhReg | oscReadHhWaveRam => exact movesFm_of_keepsFm (keepsFm_bind fun _ => readHh_keepsFm)
  | oscReadTri15 => exact movesFm_of_keepsFm (keepsFm_bind fun _ => readTri_keepsFm)
  | fmWrite inst sel addr data => exact execFmWrite_movesFm inst sel addr data
  | fmRender inst count => exact execFmRender_movesFm range inst count
  | fmSetRate inst clock rate => exact execFmSetRate_movesFm inst clock rate
  | fmWriteLfo | fmWriteMode27 | fmWriteKey | fmWriteDacData | fmWriteDacEnable => exact fmForm_movesFm (.inl rfl)
  | fmWriteTimer24 | fmWriteTimer25 | fmWriteTimer26 | fmWriteFnumHigh | fmWriteSplitHigh | fmWriteNoEffect =>
    exact fmForm_movesFm (.inr rfl)
  | fmWriteDtMul => exact fmForm_movesFm (.inl (fmRule_dtMul ..).symm)
  | fmWriteTl => exact fmForm_movesFm (.inl (fmRule_tl ..).symm)
  | fmWriteKsAr => exact fmForm_movesFm (.inl (fmRule_ksAr ..).symm)
  | fmWriteAmD1r => exact fmForm_movesFm (.inl (fmRule_amD1r ..).symm)
  | fmWriteD2r => exact fmForm_movesFm (.inl (fmRule_d2r ..).symm)
  | fmWriteSlRr => exact fmForm_movesFm (.inl (fmRule_slRr ..).symm)
  | fmWriteSsgEg => exact fmForm_movesFm (.inl (fmRule_ssgEg ..).symm)
  | fmWriteFnumLow => exact fmForm_movesFm (.inl (fmRule_fnumLow ..).symm)
  | fmWriteSplitLow => exact fmForm_movesFm (.inl (fmRule_splitLow ..).symm)
  | fmWriteFbAlgo => exact fmForm_movesFm (.inl (fmRule_fbAlgo ..).symm)
  | fmWritePan => exact fmForm_movesFm (.inl (fmRule_pan ..).symm)

/-- An outcome of such a command: also a refusal or a fault leaves the envelopes. -/
theorem movesFm_next {t : State} {o : Host.Outcome State Fault Refusal} (h : MovesFm s o) (ht : o = .next t) (n : BitVec 1) :
    (s.fm.get n).Moves (t.fm.get n) := by
  obtain ⟨body, rfl, hb⟩ := h
  obtain ⟨_, rfl⟩ | ⟨_, u, hu, rfl⟩ | ⟨_, r, _, rfl⟩ := runCommand_cases ht
  · exact fmMoves_of_chans rfl
  · exact hb u hu n
  · exact fmMoves_of_chans rfl

end

/-- The opcode of BLOCK_RESET, 30_encoding.md R143. -/
theorem blockReset_opc : (encode .blockReset).opc = 0x01 := rfl

/-- The opcode of FM_RESET, R143. -/
theorem fmReset_opc (inst : BitVec 4) : (encode (.fmReset inst)).opc = 0x32 := by
  obtain ⟨opc, _⟩ := fields_word0 0x32 inst 0 0 0 0 0
  exact opc

/-! ## The tables, R488, R489 -/

/-- A sum of the first values, as a sum over a range. -/
theorem sumBelow_eq (f : Nat → Nat) (n : Nat) : sumBelow f n = ∑ i ∈ Finset.range n, f i := by
  induction n with
  | zero => rfl
  | succ n ih => rw [Finset.sum_range_succ, ← ih]; rfl

/-- A sum of more of the first values is no smaller. -/
theorem sumBelow_mono (f : Nat → Nat) {m n : Nat} (h : m ≤ n) : sumBelow f m ≤ sumBelow f n := by
  rw [sumBelow_eq, sumBelow_eq]
  exact Finset.sum_le_sum_of_subset (Finset.range_mono h)

/-- The magnitude of FM_OPOUT is the sum of the falls from `att` to FM_ENV_MAX. -/
theorem fmOpMagnitude_eq (p : Params) (half att : Nat) :
    fmOpMagnitude p half att = ∑ i ∈ Finset.Ico att p.fmEnvMax, Config.fmOpDrop half i := by
  unfold fmOpMagnitude
  rw [sumBelow_eq, Finset.sum_Ico_eq_sum_range]

/-- More attenuation, less magnitude. -/
theorem fmOpMagnitude_antitone (p : Params) (half : Nat) {att att' : Nat} (h : att ≤ att') :
    fmOpMagnitude p half att' ≤ fmOpMagnitude p half att := by
  rw [fmOpMagnitude_eq, fmOpMagnitude_eq]
  exact Finset.sum_le_sum_of_subset (Finset.Ico_subset_Ico_left h)

/-- FM_OPOUT is 0 from FM_ENV_MAX on. -/
theorem fmOpOut_of_le {p : Params} {att : Nat} (i : BitVec 12) (h : p.fmEnvMax ≤ att) : fmOpOut p i att = 0 := if_pos h

/-- What `|FM_OPOUT|` is. -/
theorem fmOpOut_natAbs (p : Params) (i : BitVec 12) (att : Nat) :
    (fmOpOut p i att).natAbs = fmOpMagnitude p (i.toNat % 2048) att := by
  by_cases silent : p.fmEnvMax ≤ att
  · rw [fmOpOut_of_le i silent, fmOpMagnitude_eq, Finset.Ico_eq_empty_of_le silent, Finset.sum_empty]
    rfl
  · unfold fmOpOut
    dsimp only
    rw [if_neg silent]
    repeat' split
    all_goals omega

/-- The second half period is the first negated. -/
theorem fmOpOut_half (p : Params) (i : BitVec 12) (att : Nat) : fmOpOut p (i + 2048) att = -fmOpOut p i att := by
  have bound := i.isLt
  have index : (i + 2048).toNat = (i.toNat + 2048) % 4096 := BitVec.toNat_add i 2048
  have half : (i + 2048).toNat % 2048 = i.toNat % 2048 := by omega
  have other : (i + 2048).toNat < 2048 ↔ ¬ i.toNat < 2048 := by omega
  unfold fmOpOut
  dsimp only
  rw [half]
  simp only [other]
  split
  · rfl
  · by_cases first : i.toNat < 2048 <;> simp [first]

/-- The constraints on the rates, the attack curve and the levels, R488. -/
theorem envelope_tables (p : Params) (clock rate : Word) (ph : EgPhase) (e inc : Nat) :
    fmRate clock rate ph 0 = 0 ∧ fmAttCurve e 0 = e ∧ fmAttCurve e inc ≤ e ∧ fmSl p 0 = 0 ∧ fmTl p 0 = 0 ∧
    fmSl p 15 ≤ p.fmEnvMax ∧ fmTl p 127 ≤ p.fmEnvMax :=
  ⟨rfl, rfl, fmAttCurve_le e inc, Nat.min_zero _, Nat.min_zero _, Nat.min_le_left _ _, Nat.min_le_left _ _⟩

/-- Settles O59: only a key-on sets an envelope back, since a frame, a register write and new rates move each operator forward; the
tables meet their constraints as sums. -/
theorem envelopesAreMonotonic : Obligations.EnvelopesAreMonotonic := by
  refine ⟨fun i s t block unit range h n c k off => ?_, envelope_tables, fun p a b x y => ?_, fun p i att att' => ?_⟩
  · have moves : MovesFm s (exec i s) :=
      exec_movesFm range (fun e => block (e ▸ blockReset_opc)) fun inst e => unit (e ▸ fmReset_opc inst)
    obtain ⟨phase, attack, fall⟩ := movesFm_next moves h n c k off
    exact ⟨phase, attack, fall⟩
  · exact ⟨fun le => min_le_min_left _ (sumBelow_mono _ le), fun le => min_le_min_left _ (sumBelow_mono _ le)⟩
  · refine ⟨fmOpOut_of_le i, fmOpOut_half p i att, fun le => ?_⟩
    rw [fmOpOut_natAbs, fmOpOut_natAbs]
    exact fmOpMagnitude_antitone p _ le

end Sys2Proof.Machine
end

section
/-! PROOFS. The OSC commands that run a group: each is the run to its time and then what it makes of the state, wherever its unit and
its address exist (spec 42_osc_common.md R260, R262, R263, R266 to R268, R272, 30_encoding.md R144, 60_exceptions.md R604). -/

namespace Sys2Proof.Machine

/-! ## A command as a run and what follows it -/

/-- An instruction runs group `g` to `time` in a command of opcode `opc`, and then does `after`. -/
def RunsThen (i : Instr) (opc : Byte) (g : GroupRef) (time : Word) (after : State → Res State) (s : State) : Prop :=
  exec i s = runCommand (runGroup opc g (sext time) s >>= after) s

section

variable {i : Instr} {opc : Byte} {g : GroupRef} {time : Word} {after : State → Res State} {s r : State}

/-- The run succeeds, and so does what follows it. -/
theorem runsThen_done {t : State} {v : Word} (command : RunsThen i opc g time after s) (hf : s.fault = none)
    (run : runGroup opc g (sext time) s = .ok r) (rest : after r = .ok { t with result := v })
    (count : t.cmdCount = r.cmdCount) : exec i s = .next (t.done v) := by
  have sameCount : s.cmdCount = t.cmdCount := count.trans (runGroup_frame run).2.2.1 |>.symm
  rw [command, runCommand_ok hf ((res_bind_of_ok after run).trans rest), sameCount]
  rfl

/-- The run faults. -/
theorem runsThen_faulted {e : Raise} (command : RunsThen i opc g time after s) (hf : s.fault = none)
    (run : runGroup opc g (sext time) s = .error e) : exec i s = .next (s.faulted e.code e.info) := by
  have body : (runGroup opc g (sext time) s >>= after) = .error e := by rw [run]; rfl
  rw [command, runCommand_error hf body]
  rfl

/-- What follows the run faults. -/
theorem runsThen_faulted_after {e : Raise} (command : RunsThen i opc g time after s) (hf : s.fault = none)
    (run : runGroup opc g (sext time) s = .ok r) (rest : after r = .error e) : exec i s = .next (s.faulted e.code e.info) := by
  rw [command, runCommand_error hf ((res_bind_of_ok after run).trans rest)]
  rfl

end

/-! ## What a group reads as -/

/-- NR52 reads the power bit, three ones and the channels that sound, R396. -/
theorem statusByte_eq (h : Hh) : h.statusByte =
    BitVec.ofBool (bit (h.reg 0x26) 7) ++ 0b111#3 ++ BitVec.ofBool h.noise.gate.enabled ++ BitVec.ofBool h.wave.gate.enabled ++
      BitVec.ofBool h.sq2.gate.enabled ++ BitVec.ofBool h.sq1.gate.enabled := by
  unfold Hh.statusByte
  generalize h.reg 0x26 = nr52
  generalize h.sq1.gate.enabled = sq1
  generalize h.sq2.gate.enabled = sq2
  generalize h.wave.gate.enabled = wave
  generalize h.noise.gate.enabled = noise
  revert nr52 sq1 sq2 wave noise
  decide +kernel

/-- A wave RAM address reads the byte its access reaches, R378. -/
theorem readWaveRam_eq (h : Hh) (low : BitVec 4) : h.readWaveRam low = hhReadValue h (0x30 + low.toNat) := by
  unfold Hh.readWaveRam hhReadValue
  rw [if_neg (by omega), if_neg (by omega), if_neg (by omega), waveRamAddr_eq, Nat.add_sub_cancel_left]

/-- An HH address inside the space reads as R396 and R378 say, and outside there is nothing to read. -/
theorem hhRead_eq (h : Hh) (addr : Byte) : h.read addr =
    if 0x10 ≤ addr.toNat ∧ addr.toNat ≤ 0x3F then some (hhReadValue h addr.toNat) else none := by
  unfold Hh.read
  dsimp only
  by_cases inside : 0x10 ≤ addr.toNat ∧ addr.toNat ≤ 0x3F
  · rw [if_pos inside, if_neg (by omega)]
    split
    · next register =>
      have mask := List.getD_append hhMasks [0x70] 0 (addr.toNat - 0x10) (show addr.toNat - 0x10 < 22 by omega)
      rw [hhReadValue, if_pos register, ← mask]
      rfl
    split
    · next nr52 => rw [statusByte_eq, nr52]; rfl
    split
    · next unused => rw [hhReadValue, if_neg (by omega), if_neg (by omega), if_pos unused]
    · have low : (addr.extractLsb' 0 4).toNat = addr.toNat - 0x30 := by rw [toNat_low]; omega
      rw [readWaveRam_eq, low]
      congr
      omega
  · rw [if_neg inside, if_pos (by omega)]

/-- OSC_WAVE_STATUS answers position, latched nibble and whether the wave sounds, R272. -/
theorem waveStatus_eq (h : Hh) : h.waveStatus =
    0#15 ++ BitVec.ofBool h.wave.gate.enabled ++ 0#4 ++ h.wave.latched ++ 0#3 ++ h.wave.position := by
  unfold Hh.waveStatus
  generalize h.wave.gate.enabled = enabled
  generalize h.wave.latched = latched
  generalize h.wave.position = position
  revert enabled latched position
  decide +kernel

/-- TRI 0x15 reads whether the length counter runs, R421. -/
theorem triStatus_eq (g : Tri) : 0#24 ++ g.statusByte = (if 0 < g.lengthCtr then 4 else 0 : Word) := by
  unfold Tri.statusByte
  by_cases running : 0 < g.lengthCtr
  · rw [decide_eq_true running, if_pos running]; rfl
  · rw [decide_eq_false running, if_neg running]; rfl

/-! ## The rule of a write and the value of a read -/

/-- What OSC_WRITE makes of the state after the run by the rule of its address, R263; none where the space has no such address. -/
def afterWrite (g : GroupRef) (p : Params) (addr data : Byte) (time : Word) : Option (State → Res State) :=
  match g with
  | .psg i => (psgWriteRule p 0x20 (sext time) addr data).map fun rule r => do
    let (g, m, restart) ← rule (r.psg.get i) r.mix
    .ok { r with psg := r.psg.set i g, mix := m, result := restartResult restart }
  | .hh => (hhWriteRule p 0x20 (sext time) addr data).map fun rule r => do
    let (g, m, restart) ← rule r.hh r.mix
    .ok { r with hh := g, mix := m, result := restartResult restart }
  | .tri => (triWriteRule p (sext time) addr data).map fun rule r => do
    let (g, restart) ← rule r.tri
    .ok { r with tri := g, result := restartResult restart }

/-- What OSC_READ answers of the state after the run, R266; none where the group has no such address. -/
def readValue (g : GroupRef) (addr : Byte) : Option (State → Byte) :=
  match g with
  | .psg _ => none
  | .hh => if 0x10 ≤ addr.toNat ∧ addr.toNat ≤ 0x3F then some fun r => hhReadValue r.hh addr.toNat else none
  | .tri => if addr = 0x15 then some fun r => r.tri.statusByte else none

section

variable {inst sel : BitVec 4} {g : GroupRef} {addr data : Byte} {time : Word} {s : State}

/-- OSC_WRITE at an address of the group. -/
theorem oscWrite_runsThen (named : g.named s.params inst sel) {after : State → Res State}
    (rule : afterWrite g s.params addr data time = some after) :
    RunsThen (.oscWrite inst sel addr data time) 0x20 g time after s := by
  show execOscWrite inst sel addr data time s = _
  unfold execOscWrite
  rw [groupOperand_named named]
  cases g with
  | psg i =>
    obtain ⟨rule, found, rfl⟩ := Option.map_eq_some_iff.1 rule
    exact congrArg (runCommand · s) (by dsimp only [orIllegal, timeOperand]; rw [found]; rfl)
  | hh =>
    obtain ⟨rule, found, rfl⟩ := Option.map_eq_some_iff.1 rule
    exact congrArg (runCommand · s) (by dsimp only [orIllegal, timeOperand]; rw [found]; rfl)
  | tri =>
    obtain ⟨rule, found, rfl⟩ := Option.map_eq_some_iff.1 rule
    exact congrArg (runCommand · s) (by dsimp only [orIllegal, timeOperand]; rw [found]; rfl)

/-- OSC_WRITE at any other address, R108: the check comes before the run. -/
theorem oscWrite_illegal (hf : s.fault = none) (named : g.named s.params inst sel)
    (rule : afterWrite g s.params addr data time = none) : exec (.oscWrite inst sel addr data time) s =
      .next (s.faulted .illegal (encode (.oscWrite inst sel addr data time)).w0) := by
  refine runCommand_illegal hf ?_
  rw [groupOperand_named named]
  cases g with
  | psg i => dsimp only [orIllegal, timeOperand]; rw [Option.map_eq_none_iff.1 rule]; rfl
  | hh => dsimp only [orIllegal, timeOperand]; rw [Option.map_eq_none_iff.1 rule]; rfl
  | tri => dsimp only [orIllegal, timeOperand]; rw [Option.map_eq_none_iff.1 rule]; rfl

/-- OSC_READ at an address that can be read. -/
theorem oscRead_runsThen (named : g.named s.params inst sel) {value : State → Byte} (read : readValue g addr = some value) :
    RunsThen (.oscRead inst sel addr time) 0x21 g time (fun r => .ok { r with result := 0#24 ++ value r }) s := by
  show execOscRead inst sel addr time s = _
  unfold execOscRead
  rw [groupOperand_named named]
  cases g with
  | psg i => cases read
  | hh =>
    obtain ⟨inside, value_eq⟩ := Option.ite_none_right_eq_some.1 read
    cases value_eq
    simp only [hhRead_eq, if_pos inside, ← byte_zeroExtend]
    rfl
  | tri =>
    obtain ⟨rfl, value_eq⟩ := Option.ite_none_right_eq_some.1 read
    cases value_eq
    simp only [← byte_zeroExtend]
    rfl

/-- OSC_READ at any other address, R108, and on a PSG group, R144. -/
theorem oscRead_illegal (hf : s.fault = none) (named : g.named s.params inst sel) (read : readValue g addr = none) :
    exec (.oscRead inst sel addr time) s = .next (s.faulted .illegal (encode (.oscRead inst sel addr time)).w0) := by
  refine runCommand_illegal hf ?_
  rw [groupOperand_named named]
  cases g with
  | psg i => rfl
  | hh =>
    have outside : ¬ (0x10 ≤ addr.toNat ∧ addr.toNat ≤ 0x3F) := fun inside => by simp [readValue, inside] at read
    simp only [hhRead_eq, if_neg outside]
    rfl
  | tri =>
    have other : addr ≠ 0x15 := fun h => by simp [readValue, h] at read
    have unread : s.tri.read addr = none := if_neg other
    simp only [unread]
    rfl

/-- OSC_RUN, R267. -/
theorem oscRun_runsThen (named : g.named s.params inst sel) :
    RunsThen (.oscRun inst sel time) 0x22 g time (fun r => .ok { r with result := 0 }) s := by
  show execOscRun inst sel time s = _
  unfold execOscRun
  rw [groupOperand_named named]
  rfl

/-- OSC_END_FRAME, R268. -/
theorem oscEndFrame_runsThen (named : g.named s.params inst sel) :
    RunsThen (.oscEndFrame inst sel time) 0x23 g time (fun r => .ok { endFrame g (sext time) r with result := 0 }) s := by
  show execOscEndFrame inst sel time s = _
  unfold execOscEndFrame
  rw [groupOperand_named named]
  rfl

/-- OSC_WAVE_STATUS, R272. -/
theorem oscWaveStatus_runsThen (unit : s.params.hasHh = true) :
    RunsThen (.oscWaveStatus time) 0x25 .hh time (fun r => .ok { r with result := r.hh.waveStatus }) s := by
  show execOscWaveStatus time s = _
  unfold execOscWaveStatus
  rw [unit]
  rfl

/-- A read form of an HH address. -/
theorem hhReadForm_runsThen {i : Instr} (form : ∀ s, exec i s = hhReadForm i time addr s) (unit : s.params.hasHh = true)
    (inside : 0x10 ≤ addr.toNat ∧ addr.toNat ≤ 0x3F) :
    RunsThen i 0x21 .hh time (fun r => .ok { r with result := 0#24 ++ hhReadValue r.hh addr.toNat }) s := by
  rw [RunsThen, form, hhReadForm, unit]
  simp only [hhRead_eq, if_pos inside, ← byte_zeroExtend]
  rfl

/-- The form of an HH register, R396. -/
theorem oscReadHhReg_runsThen (unit : s.params.hasHh = true) (inside : 0x10 ≤ addr.toNat ∧ addr.toNat ≤ 0x3F) :
    RunsThen (.oscReadHhReg addr time) 0x21 .hh time
      (fun r => .ok { r with result := 0#24 ++ hhReadValue r.hh addr.toNat }) s :=
  hhReadForm_runsThen (fun _ => rfl) unit inside

/-- The form of wave RAM, R378. -/
theorem oscReadHhWaveRam_runsThen (low : BitVec 4) (unit : s.params.hasHh = true) :
    RunsThen (.oscReadHhWaveRam low time) 0x21 .hh time
      (fun r => .ok { r with result := 0#24 ++ hhReadValue r.hh (0x30 + low.toNat) }) s := by
  have address : (3#4 ++ low).toNat = 0x30 + low.toNat := by revert low; decide
  have := low.isLt
  rw [← address]
  exact hhReadForm_runsThen (addr := 3#4 ++ low) (fun _ => rfl) unit (by omega)

/-- The form of the triangle's status, R421. -/
theorem oscReadTri15_runsThen (unit : s.params.hasTri = true) :
    RunsThen (.oscReadTri15 time) 0x21 .tri time (fun r => .ok { r with result := 0#24 ++ r.tri.statusByte }) s := by
  show triReadForm (.oscReadTri15 time) time Tri.statusByte s = _
  rw [triReadForm, unit]
  simp only [← byte_zeroExtend]
  rfl

/-- A read form of an HH address outside the space, R108. -/
theorem oscReadHhReg_illegal (hf : s.fault = none) (outside : ¬ (0x10 ≤ addr.toNat ∧ addr.toNat ≤ 0x3F)) :
    exec (.oscReadHhReg addr time) s = .next (s.faulted .illegal (encode (.oscReadHhReg addr time)).w0) := by
  refine checkLegal_false hf ?_
  rw [hhRead_eq, if_neg outside]
  exact Bool.and_false _

end

end Sys2Proof.Machine
end

section
/-! PROOFS. OSC_END_FRAME, OSC_RESET and the reads: the run, then the new time origin, the reset values or the value read (spec
42_osc_common.md R266, R268, R269, R272). -/

namespace Sys2Proof.Machine

/-- After a run to `time` that is the group's time, R260. -/
theorem runGroup_lastTime {opc : Byte} {g : GroupRef} {time : Word} {s r : State}
    (run : runGroup opc g (sext time) s = .ok r) : r.lastTime g = time := by
  cases g with
  | psg i =>
    obtain ⟨x, m, rfl, ran, _⟩ := runGroup_psg_ok run
    obtain ⟨_, _, last, _⟩ := psgRunGroup_ok ran
    simpa [State.lastTime, wrap32_sext] using last
  | hh =>
    obtain ⟨x, n, m, rfl, ran, _⟩ := runGroup_hh_ok run
    obtain ⟨_, _, last, _⟩ := hhRunGroup_ok ran
    exact last.trans (wrap32_sext time)
  | tri =>
    obtain ⟨x, n, m, rfl, ran, _⟩ := runGroup_tri_ok run
    obtain ⟨_, _, last, _⟩ := triRunGroup_ok ran
    exact last.trans (wrap32_sext time)

/-- A stored time counted from a new origin, R268. -/
theorem wrap32_sub (a b : Word) : wrap32 (sext a - sext b) = a - b := by
  unfold wrap32 sext
  rw [← BitVec.toInt_inj, BitVec.toInt_sub, BitVec.toInt_ofInt]

section

variable {time : Word} {r : State}

/-- The end of a PSG group's frame at its own time puts that time at 0, R268. -/
theorem endFrame_psg {i : BitVec 1} (last : (r.psg.get i).lastTime = time) : endFrame (.psg i) (sext time) r =
    { r with psg := r.psg.set i { r.psg.get i with lastTime := 0 } } := by
  rw [endFrame, Psg.endFrame, last, wrap32_sub, sub_self]

/-- The end of the HH group's frame, which its next frame step is counted from. -/
theorem endFrame_hh (last : r.hh.lastTime = time) : endFrame .hh (sext time) r =
    { r with hh := { r.hh with lastTime := 0, nextFrameTime := r.hh.nextFrameTime - time } } := by
  rw [endFrame, Hh.endFrame, last, wrap32_sub, wrap32_sub, sub_self]

/-- The end of the TRI group's frame. -/
theorem endFrame_tri (last : r.tri.lastTime = time) : endFrame .tri (sext time) r =
    { r with tri := { r.tri with lastTime := 0, nextFrameTime := r.tri.nextFrameTime - time } } := by
  rw [endFrame, Tri.endFrame, last, wrap32_sub, wrap32_sub, sub_self]

end

/-- Settles O33: the run leaves the group's time at the command's, which becomes the new 0. -/
theorem oscEndFrameCompletes : Obligations.OscEndFrameCompletes := by
  intro inst sel g time s hf named ready
  obtain ⟨r, run⟩ := runGroup_of_ready 0x23 ready
  refine ⟨r, run, ?_⟩
  have last := runGroup_lastTime run
  refine (runsThen_done (oscEndFrame_runsThen named) hf run rfl (by cases g <;> rfl)).trans ?_
  cases g with
  | psg i => rw [endFrame_psg last]
  | hh => rw [endFrame_hh last]
  | tri => rw [endFrame_tri last]

/-- Settles O34: OSC_RESET replaces the group it names and runs nothing. -/
theorem oscResetCompletes : Obligations.OscResetCompletes := by
  intro inst sel g s hf named
  have unit : execOscReset inst sel s = runCommand (.ok { resetGroup g s with result := 0 }) s := by
    rw [execOscReset, groupOperand_named named]
    rfl
  refine (unit.trans (runCommand_ok hf rfl)).trans ?_
  cases g with
  | psg i =>
    have reset : (State.powerOn s.params).psg.get i = .reset s.params := two_get_same _ i
    simp only [reset]
    rfl
  | hh => rfl
  | tri => rfl

/-- Settles O35: each read is the run and the value of R396, R378, R421 or R272. -/
theorem oscReadsComplete : Obligations.OscReadsComplete := by
  intro addr low time s hf
  refine ⟨fun unit ready => ⟨?status, ?hh⟩, fun unit ready => ?tri⟩
  case status =>
    obtain ⟨r, run⟩ := runGroup_of_ready 0x25 ready
    refine ⟨r, run, ?_⟩
    rw [← waveStatus_eq]
    exact runsThen_done (oscWaveStatus_runsThen unit) hf run rfl rfl
  case hh =>
    obtain ⟨r, run⟩ := runGroup_of_ready 0x21 ready
    refine ⟨r, run, fun low high => ⟨?_, ?_⟩, runsThen_done (oscReadHhWaveRam_runsThen low unit) hf run rfl rfl⟩
    · exact runsThen_done (oscReadHhReg_runsThen unit ⟨low, high⟩) hf run rfl rfl
    · exact runsThen_done (oscRead_runsThen (g := .hh) ⟨rfl, rfl, unit⟩ (if_pos ⟨low, high⟩)) hf run rfl rfl
  case tri =>
    obtain ⟨r, run⟩ := runGroup_of_ready 0x21 ready
    refine ⟨r, run, ?_⟩
    rw [← triStatus_eq]
    exact ⟨runsThen_done (oscReadTri15_runsThen unit) hf run rfl rfl,
      runsThen_done (oscRead_runsThen (g := .tri) ⟨rfl, rfl, unit⟩ rfl) hf run rfl rfl⟩

end Sys2Proof.Machine
end

section
/-! PROOFS. The run of one oscillator is that of R261 written out: its calls of `Emit` in order, one transition after the other, and
what they leave of its state, its delay and its last amplitude (spec 42_osc_common.md R261, R271). -/

namespace Sys2Proof.Machine

/-! ## Outcomes one after the other -/

/-- A bind of a bind. -/
theorem res_bind_assoc {α β γ : Type} (x : Res α) (f : α → Res β) (k : β → Res γ) :
    ((x >>= f) >>= k) = x >>= fun a => f a >>= k := by
  cases x <;> rfl

/-- A bind of a success. -/
theorem res_ok_bind {α β : Type} (a : α) (f : α → Res β) : ((.ok a : Res α) >>= f) = f a := rfl

/-! ## Transitions -/

/-- The number of transitions before `stop`, R261. -/
theorem transitions_eq (first stop : Int) {period : Nat} (hp : 1 ≤ period) :
    transitions first stop period = eventsBefore first stop period := by
  unfold transitions eventsBefore ceilDiv
  split
  · next before =>
    obtain ⟨n, hn⟩ := Int.eq_ofNat_of_zero_le (show 0 ≤ stop - first by omega)
    rw [hn, show ((n : Int) + period - 1) = ((n + (period - 1) : Nat) : Int) by omega, ← Int.natCast_ediv, Int.toNat_natCast]
    rfl
  · next after =>
    rw [show (stop - first).toNat = 0 by omega, Nat.div_eq_of_lt (by omega)]

/-- Advancing before the repetition instead of after it. -/
theorem repeat_advance {α : Type} (f : α → α) (n : Nat) (a : α) : Nat.repeat f (n + 1) a = Nat.repeat f n (f a) := by
  induction n with
  | zero => rfl
  | succ n ih => exact congrArg f ih

/-- The model's repetition. -/
theorem iterate_eq_repeat {α : Type} (f : α → α) (n : Nat) (a : α) : iterate f n a = Nat.repeat f n a := by
  induction n generalizing a with
  | zero => rfl
  | succ n ih => exact (ih (f a)).trans (repeat_advance f n a).symm

section

variable {α : Type} (v : Voice α) (p : Params) (opc : Byte)

/-- The calls of `Emit` of `n` transitions from `t` on, each a change from the level before it. -/
def voiceChanges (n : Nat) (t : Int) (a : α) : List (Int × Int) :=
  (List.range n).map fun (k : Nat) =>
    (t + (k : Int) * v.period, v.level (Nat.repeat v.advance (k + 1) a) - sext (wrap32 (v.level (Nat.repeat v.advance k a))))

/-- The first of them, and those from the state after it. -/
theorem changes_succ (n : Nat) (t : Int) (a : α) : voiceChanges v (n + 1) t a =
    (t, v.level (v.advance a) - sext (wrap32 (v.level a))) :: voiceChanges v n (t + v.period) (v.advance a) := by
  unfold voiceChanges
  rw [List.range_succ_eq_map, List.map_cons, List.map_map]
  congr 1
  · rw [Nat.cast_zero, zero_mul, add_zero]
    rfl
  · refine List.map_congr_left fun k _ => ?_
    rw [Function.comp_apply, Nat.succ_eq_add_one, repeat_advance v.advance (k + 1) a, repeat_advance v.advance k a]
    congr 1
    push_cast
    ring

/-- The calls of `Emit` of a run are that of the level check and those of the transitions of an audible voice. -/
theorem emits_eq (start stop : Int) (a : α) (o : Osc) : v.emits start stop a o =
    (start, v.level a - sext o.lastAmp) :: if v.audible = true then
      voiceChanges v (transitions (start + sext o.delay) stop v.period) (start + sext o.delay) a else [] := rfl

/-! ## A run -/

/-- A level check is one `Emit`, which does nothing where the level is the last one. -/
theorem levelCheck_eq (t amp : Int) (o : Osc) (m : Mix) : levelCheck p opc t amp o m =
    emit p opc o.route t (amp - sext o.lastAmp) m >>= fun m' => .ok ({ o with lastAmp := wrap32 amp }, m') := by
  unfold levelCheck
  split
  · next same =>
    rw [same, sub_self, emit_zero, wrap32_sext]
    rfl
  · rfl

/-- The transitions of an audible voice whose last amplitude is its level. -/
theorem audibleLoop_eq {n : Nat} {t : Int} {a : α} {o : Osc} {m : Mix} (emitted : o.lastAmp = wrap32 (v.level a)) :
    audibleLoop p opc v.level v.advance v.period n t a o m =
      emitAll p opc o.route (voiceChanges v n t a) m >>= fun m' =>
        .ok (Nat.repeat v.advance n a, { o with lastAmp := wrap32 (v.level (Nat.repeat v.advance n a)) }, m') := by
  induction n generalizing t a o m with
  | zero => show Except.ok (a, o, m) = Except.ok (a, { o with lastAmp := wrap32 (v.level a) }, m); rw [← emitted]
  | succ n ih =>
    rw [audibleLoop, levelCheck_eq, changes_succ, emitAll, emitted, repeat_advance]
    simp only [res_bind_assoc, res_ok_bind]
    exact congrArg _ (funext fun m' => ih (o := { o with lastAmp := wrap32 (v.level (v.advance a)) }) rfl)

/-- A run, R261, whatever the variant. -/
theorem runOsc_eq_voice (start stop : Int) (a : α) (o : Osc) (m : Mix) (hp : 1 ≤ v.period) :
    runOsc p opc v.level v.advance v.audible v.period start stop a o m = v.run p opc start stop a o m := by
  unfold runOsc Voice.run
  rw [levelCheck_eq, emits_eq, emitAll, transitions_eq _ _ hp]
  simp only [res_bind_assoc, res_ok_bind]
  refine congrArg _ (funext fun m' => ?_)
  cases v.audible with
  | true =>
    rw [if_pos rfl, if_pos rfl, audibleLoop_eq (o := { o with lastAmp := wrap32 (v.level a) }) v p opc rfl]
    simp only [res_bind_assoc, res_ok_bind]
    rfl
  | false => rw [if_neg Bool.false_ne_true, iterate_eq_repeat]; rfl

/-- The last amplitude after a run is the present level, also of a voice that emits no transitions because its level stands still. -/
theorem voiceRun_lastAmp {start stop : Int} {a a' : α} {o o' : Osc} {m m' : Mix}
    (still : v.audible = false → ∀ b, v.level (v.advance b) = v.level b)
    (ran : v.run p opc start stop a o m = .ok (a', o', m')) : o'.lastAmp = wrap32 (v.level a') := by
  obtain ⟨m1, _, result⟩ := res_bind_ok.1 ran
  cases result
  show BitVec.ofInt 32 (if v.audible then _ else _) = wrap32 _
  cases audible : v.audible with
  | true => rfl
  | false =>
    have kept (n : Nat) : v.level (Nat.repeat v.advance n a) = v.level a := by
      induction n with
      | zero => rfl
      | succ n ih => exact (still audible _).trans ih
    rw [kept]
    rfl

end

end Sys2Proof.Machine
end

section
/-! PROOFS. The voices written out are the model's variants: level times unit, period, internal transition and audibility of each
(spec 43_psg.md R290, R292, R293, 44_hh_square.md R322, R328, 45_hh_wave_noise_master.md R370, R371, R380, 46_triangle.md R410,
R411). -/

namespace Sys2Proof.Machine

/-! ## Fields as numbers -/

/-- A field of a word as a number. -/
theorem toNat_field {w : Nat} (x : BitVec w) (low n : Nat) : (x.extractLsb' low n).toNat = x.toNat / 2 ^ low % 2 ^ n := by
  rw [BitVec.extractLsb'_toNat, Nat.shiftRight_eq_div_pow]

/-- The lowest bit tells odd from even. -/
theorem lowBit_iff {w : Nat} (x : BitVec w) : x.getLsbD 0 = true ↔ x.toNat % 2 = 1 := by
  rw [BitVec.getLsbD, Nat.testBit_zero, decide_eq_true_iff]

/-- A register of 0 counts as 1. -/
theorem max_one_toNat {w : Nat} (x : BitVec w) : (if x = 0 then 1 else x.toNat) = max x.toNat 1 := by
  have zero : x = 0 ↔ x.toNat = 0 := eq_zero_iff_toNat x
  simp only [zero]
  split <;> omega

/-- Two words side by side as a number. -/
theorem toNat_append_eq_add {m n : Nat} (x : BitVec m) (y : BitVec n) : (x ++ y).toNat = x.toNat * 2 ^ n + y.toNat := by
  rw [BitVec.toNat_append, ← Nat.shiftLeft_add_eq_or_of_lt y.isLt, Nat.shiftLeft_eq]

/-! ## PSG -/

/-- A tone, R290. -/
theorem toneVoice_eq (p : Params) (x : Tone) : toneVoice p x =
    { level := fun ph => x.level p ph * p.unitPsg, period := x.ticks, advance := fun ph => ph ^^^ 1#1
      audible := x.audible p } := by
  rw [toneVoice, Voice.mk.injEq]
  refine ⟨rfl, ?_, ?_, ?_⟩
  · rw [max_one_toNat]; rfl
  · funext ph; revert ph; decide
  · unfold Tone.audible psgVolume
    simp

/-- The noise's period, R292, by its rate and tone2's period register. -/
theorem psgNoiseTicks_eq (x : PsgNoise) (period2 : BitVec 10) : x.ticks period2 =
    if x.ctrl.toNat % 4 = 3 then 32 * max period2.toNat 1 else [512, 1024, 2048].getD (x.ctrl.toNat % 4) 0 := by
  have rate : (x.ctrl.extractLsb' 0 2).toNat = x.ctrl.toNat % 4 := by rw [toNat_field]; simp
  unfold PsgNoise.ticks
  rw [← rate]
  generalize x.ctrl.extractLsb' 0 2 = code
  match code with
  | 0#2 | 1#2 | 2#2 | 3#2 => rfl

/-- The PSG noise, R292, R293. -/
theorem psgNoiseVoice_eq (p : Params) (x : PsgNoise) (period2 : BitVec 10) : psgNoiseVoice p x period2 =
    { level := fun s => x.level p s * p.unitPsg, period := x.ticks period2, advance := x.advance p, audible := x.audible p } := by
  rw [psgNoiseVoice, Voice.mk.injEq]
  refine ⟨?_, ?_, ?_, ?_⟩
  · funext s
    unfold PsgNoise.level
    simp only [lowBit_iff]
    rfl
  · rw [psgNoiseTicks_eq, max_one_toNat]
  · funext s
    have white : x.ctrl.extractLsb' 2 1 = 1#1 ↔ 4 ≤ x.ctrl.toNat := by
      generalize x.ctrl = ctrl
      revert ctrl
      decide
    have mask : (if s.toNat % 2 = 1 then if 4 ≤ x.ctrl.toNat then p.psgFbWhite.toNat else p.psgFbPeriodic.toNat else 0) =
        (if s.getLsbD 0 then x.feedback p else 0).toNat := by
      unfold PsgNoise.feedback
      simp only [lowBit_iff, white]
      split
      · split <;> rfl
      · rfl
    have half : s.toNat / 2 = (s >>> 1).toNat := by rw [BitVec.toNat_ushiftRight, Nat.shiftRight_one]
    rw [mask, half, ← BitVec.toNat_xor, BitVec.ofNat_toNat, BitVec.setWidth_eq]
    rfl
  · unfold PsgNoise.audible psgVolume
    simp

/-! ## HH -/

/-- The duty tables, R328: how long each pattern is high, and where. -/
theorem duty_tables (d : BitVec 2) (ph : BitVec 3) : [1, 2, 4, 6].getD d.toNat 0 = dutyLength d ∧
    (dutyPatterns.getD d.toNat []).getD ph.toNat 0 = if dutyHigh d ph then 1 else 0 := by
  revert d ph; decide

/-- A square, R322, R328, R273. -/
theorem squareVoice_eq (p : Params) (h : Hh) (base : Nat) (q : Square) :
    squareVoice p h.volScale (h.reg (base + 1)) (h.reg (base + 2)) (h.reg (base + 3)) (h.reg (base + 4)) q =
      { level := fun ph => h.squareLevel p base q ph * h.volScale, period := h.squareTicks base, advance := fun ph => ph + 1
        audible := h.squareAudible p base q } := by
  have dac : h.dacOn base = decide (8 ≤ (h.reg (base + 2)).toNat) := dacOnByte_eq _
  have duty : (h.reg (base + 1)).toNat / 64 = (h.duty base).toNat := by
    have := (h.reg (base + 1)).isLt
    rw [Hh.duty, toNat_field]
    omega
  rw [squareVoice, Voice.mk.injEq]
  refine ⟨?_, ?_, ?_, ?_⟩
  · funext ph
    obtain ⟨length, high⟩ := duty_tables (h.duty base) ph
    unfold Hh.squareLevel
    rw [mul_comm, dac, toNat_freq, duty, length, high]
    simp only [decide_eq_false_iff_not, mul_ite, mul_one, mul_zero, sub_eq_neg_add]
    rfl
  · rw [Hh.squareTicks, toNat_freq]
  · funext ph; revert ph; decide
  · unfold Hh.squareAudible
    rw [dac, toNat_freq, Bool.and_assoc, ← Bool.decide_and, ← Bool.decide_and]
    rfl

/-- Entry `e` of the wave table, R370. -/
theorem waveEntry_eq (h : Hh) (e : BitVec 5) : waveEntry h e.toNat = (h.nibble e).toNat := by
  have byte : 0x30 + e.toNat / 2 = 0x30 + (e.extractLsb' 1 4).toNat := by
    have := e.isLt
    rw [toNat_field]
    omega
  have even : e.extractLsb' 0 1 = 0#1 ↔ e.toNat % 2 = 0 := by
    rw [eq_zero_iff_toNat, toNat_field]
    simp
  unfold waveEntry Hh.nibble
  rw [byte]
  generalize h.reg _ = b
  have := b.isLt
  simp only [even, apply_ite BitVec.toNat, toNat_field]
  split <;> omega

/-- The wave, R322, R371, R273. -/
theorem waveVoice_eq (p : Params) (h : Hh) : waveVoice p h =
    { level := fun a => h.waveLevel p h.wave a.2 * h.volScale, period := h.waveTicks, advance := h.waveAdvance
      audible := h.waveAudible h.wave } := by
  have frequency : (h.freq baseWave).toNat = freqOfRegs (h.reg 0x1D) (h.reg 0x1E) := toNat_freq h baseWave
  have code : (h.reg 0x1C).toNat / 32 % 4 = h.waveCode.toNat := (toNat_field (h.reg 0x1C) 5 2).symm
  have shift : [4, 0, 1, 2].getD h.waveCode.toNat 0 = waveShift h.waveCode := by
    generalize h.waveCode = c
    revert c
    decide
  rw [waveVoice, Voice.mk.injEq]
  refine ⟨?_, ?_, ?_, ?_⟩
  · funext a
    unfold Hh.waveLevel
    rw [mul_comm, code, shift, sub_eq_neg_add]
    rfl
  · rw [Hh.waveTicks, frequency]
  · funext a
    have next : (a.1.toNat + 1) % 32 = (a.1 + 1).toNat := (BitVec.toNat_add a.1 1).symm
    show (BitVec.ofNat 5 ((a.1.toNat + 1) % 32), BitVec.ofNat 4 (waveEntry h ((a.1.toNat + 1) % 32))) = _
    rw [next, waveEntry_eq, BitVec.ofNat_toNat, BitVec.ofNat_toNat, BitVec.setWidth_eq, BitVec.setWidth_eq]
    rfl
  · have below : (h.freq baseWave).toNat < Config.hhWaveDcFreq := (h.freq baseWave).isLt
    have silent : h.waveCode ≠ 0#2 ↔ h.waveCode.toNat ≠ 0 := not_congr (eq_zero_iff_toNat _)
    unfold Hh.waveAudible
    simp only [decide_eq_true below, Bool.and_true, code, silent]
    rfl

/-- The LFSR after a transition, R380. -/
theorem toNat_lfsrStep (narrow : Bool) (l : BitVec 15) : (lfsrStep narrow l).toNat = lfsrAfter narrow l.toNat := by
  have feedback : (l.extractLsb' 0 1 ^^^ l.extractLsb' 1 1).toNat = (l.toNat % 2 + l.toNat / 2 % 2) % 2 := by
    have bits (a b : BitVec 1) : (a ^^^ b).toNat = (a.toNat + b.toNat) % 2 := by revert a b; decide
    rw [bits, toNat_field, toNat_field]
    simp
  have half : l.toNat / 2 ^ 1 % 2 ^ 14 = l.toNat / 2 := by have := l.isLt; omega
  have bound : l.toNat / 2 < 2 ^ 14 := by have := l.isLt; omega
  unfold lfsrStep lfsrAfter
  dsimp only
  rw [← feedback]
  generalize l.extractLsb' 0 1 ^^^ l.extractLsb' 1 1 = fb
  have bit := fb.isLt
  cases narrow with
  | true =>
    simp only [if_true, toNat_append_eq_add, toNat_field, half]
    omega
  | false =>
    rw [if_neg Bool.false_ne_true, if_neg Bool.false_ne_true, toNat_append_eq_add, toNat_field, half]
    omega

/-- The HH noise, R322, R380, R273. -/
theorem hhNoiseVoice_eq (p : Params) (h : Hh) : hhNoiseVoice p h =
    { level := fun l => h.noiseLevel p h.noise l * h.volScale, period := h.noiseTicks, advance := h.noiseAdvance
      audible := h.noiseAudible h.noise } := by
  have dac : h.dacOn baseNoise = decide (8 ≤ (h.reg 0x21).toNat) := dacOnByte_eq _
  have shift : h.noiseShift = (h.reg 0x22).toNat / 16 := by
    have := (h.reg 0x22).isLt
    rw [Hh.noiseShift, toNat_field]
    omega
  rw [hhNoiseVoice, Voice.mk.injEq]
  refine ⟨?_, ?_, ?_, ?_⟩
  · funext l
    have even : l.toNat % 2 = 0 ↔ ¬ l.getLsbD 0 = true := by rw [lowBit_iff]; omega
    unfold Hh.noiseLevel
    rw [mul_comm, dac]
    simp only [decide_eq_false_iff_not, even, sub_eq_neg_add]
    simp
  · rw [noiseTicks_eq]
    congr 1
    have := Nat.mod_lt (h.reg 0x22).toNat (show 8 > 0 by decide)
    generalize (h.reg 0x22).toNat % 8 = code at *
    interval_cases code <;> rfl
  · funext l
    have narrow : bit (h.reg 0x22) 3 = decide ((h.reg 0x22).toNat / 8 % 2 = 1) := by
      generalize h.reg 0x22 = d
      revert d
      decide
    unfold Hh.noiseAdvance
    rw [shift, narrow, ← toNat_lfsrStep, BitVec.ofNat_toNat, BitVec.setWidth_eq]
  · unfold Hh.noiseAudible
    rw [dac, shift]
    simp only [Bool.decide_and, Bool.decide_eq_true, Bool.and_assoc]
    rfl

/-! ## TRI -/

/-- The triangle while it runs, R410, R411. -/
theorem triVoice_eq (p : Params) (g : Tri) : triVoice p g =
    { level := fun s => triSeq s * p.unitTri, period := g.ticks, advance := fun s => s + 1, audible := true } := by
  rw [triVoice, Voice.mk.injEq]
  refine ⟨?_, ?_, ?_, rfl⟩
  · funext s
    have := s.isLt
    unfold triSeq
    split <;> congr 1 <;> omega
  · rw [Tri.ticks, Tri.raw, toNat_append_eq_add, toNat_low]
    rfl
  · funext s; revert s; decide

end Sys2Proof.Machine
end

section
/-! PROOFS. The runs of the groups' oscillators written out are the model's (spec 42_osc_common.md R261, R270, 46_triangle.md R413), and
what they settle: after one, every oscillator of the group has emitted its present level. -/

namespace Sys2Proof.Machine

section

variable (p : Params) (opc : Byte) (start stop : Int)

/-! ## The variants -/

/-- A tone's run is its voice's. -/
theorem toneRun_eq (x : Tone) (m : Mix) : x.run p opc start stop m =
    (toneVoice p x).run p opc start stop x.phase x.osc m >>= fun y =>
      .ok ({ x with phase := y.1, osc := y.2.1 }, y.2.2) := by
  have period : 1 ≤ (toneVoice p x).period := by rw [toneVoice_eq]; show 1 ≤ 16 * max x.period.toNat 1; omega
  rw [← runOsc_eq_voice _ _ _ _ _ _ _ _ period, toneVoice_eq]
  rfl

/-- The PSG noise's run is its voice's. -/
theorem psgNoiseRun_eq (period2 : BitVec 10) (x : PsgNoise) (m : Mix) : x.run p opc start stop period2 m =
    (psgNoiseVoice p x period2).run p opc start stop x.shifter x.osc m >>= fun y =>
      .ok ({ x with shifter := y.1, osc := y.2.1 }, y.2.2) := by
  have period : 1 ≤ (psgNoiseVoice p x period2).period := by
    rw [psgNoiseVoice_eq]
    show 1 ≤ x.ticks period2
    unfold PsgNoise.ticks
    split <;> omega
  rw [← runOsc_eq_voice _ _ _ _ _ _ _ _ period, psgNoiseVoice_eq]
  rfl

/-- A square's run is its voice's. -/
theorem squareRun_eq (h : Hh) (base : Nat) (q : Square) (m : Mix) : h.runSquare p opc base start stop q m =
    (squareVoice p h.volScale (h.reg (base + 1)) (h.reg (base + 2)) (h.reg (base + 3)) (h.reg (base + 4)) q).run p opc start stop
      q.phase q.osc m >>= fun y => .ok ({ q with phase := y.1, osc := y.2.1 }, y.2.2) := by
  rw [squareVoice_eq, ← runOsc_eq_voice]
  · rfl
  · have := (h.freq base).isLt
    show 1 ≤ (2048 - (h.freq base).toNat) * 4
    omega

/-- The wave's run is its voice's. -/
theorem waveRun_eq (h : Hh) (m : Mix) : h.runWave p opc start stop h.wave m =
    (waveVoice p h).run p opc start stop (h.wave.position, h.wave.latched) h.wave.osc m >>= fun y =>
      .ok ({ h.wave with position := y.1.1, latched := y.1.2, osc := y.2.1 }, y.2.2) := by
  rw [waveVoice_eq, ← runOsc_eq_voice]
  · rfl
  · have := (h.freq baseWave).isLt
    show 1 ≤ (2048 - (h.freq baseWave).toNat) * 2
    omega

/-- The HH noise's run is its voice's. -/
theorem hhNoiseRun_eq (h : Hh) (m : Mix) : h.runNoise p opc start stop h.noise m =
    (hhNoiseVoice p h).run p opc start stop h.noise.lfsr h.noise.osc m >>= fun y =>
      .ok ({ h.noise with lfsr := y.1, osc := y.2.1 }, y.2.2) := by
  rw [hhNoiseVoice_eq, ← runOsc_eq_voice]
  · rfl
  · exact (noiseTicks_range h).1

/-! ## The groups -/

/-- The run of a PSG group's oscillators. -/
theorem psgRunAll_eq (g : Psg) (m : Mix) : g.runAll p opc start stop m = psgRun p opc start stop g m := by
  unfold Psg.runAll psgRun
  simp only [toneRun_eq, psgNoiseRun_eq, res_bind_assoc, res_ok_bind]

/-- The run of the HH group's oscillators. -/
theorem hhRunAll_eq (h : Hh) (m : Mix) : h.runAll p opc start stop m = hhRun p opc start stop h m := by
  unfold Hh.runAll hhRun
  simp only [squareRun_eq, waveRun_eq, hhNoiseRun_eq, res_bind_assoc, res_ok_bind]
  rfl

/-- A running triangle runs as its voice, R413. -/
theorem triRun_running {g : Tri} (m : Mix) (running : g.running p = true) : g.run p opc start stop m =
    (triVoice p g).run p opc start stop g.step g.osc m >>= fun y => .ok ({ g with step := y.1, osc := y.2.1 }, y.2.2) := by
  rw [triVoice_eq, ← runOsc_eq_voice]
  · unfold Tri.run runOsc
    simp only [running, if_true, res_bind_assoc, res_ok_bind]
  · exact Nat.le_add_left 1 _

/-- A halted triangle checks its level once and holds its step, R413. -/
theorem triRun_halted {g : Tri} (m : Mix) (halted : g.running p = false) : g.run p opc start stop m =
    emit p opc g.osc.route start (triSeq g.step * p.unitTri - sext g.osc.lastAmp) m >>= fun m' =>
      .ok ({ g with osc := { g.osc with delay := 0, lastAmp := wrap32 (triSeq g.step * p.unitTri) } }, m') := by
  unfold Tri.run
  simp only [levelCheck_eq, halted, Bool.false_eq_true, if_false, res_bind_assoc, res_ok_bind]

/-- The run of the triangle. -/
theorem triRun_eq (g : Tri) (m : Mix) : g.run p opc start stop m = triRun p opc start stop g m := by
  have running : g.running p = decide (0 < g.lengthCtr ∧ 0 < g.linearCtr ∧ p.triMinPeriod ≤ (triVoice p g).period) := by
    rw [triVoice_eq]
    simp only [Bool.decide_and, ← Bool.and_assoc]
    rfl
  unfold triRun
  dsimp only
  split
  · next on => exact triRun_running p opc start stop m (running.trans (decide_eq_true on))
  · next off =>
    rw [triRun_halted p opc start stop m (running.trans (decide_eq_false off)), triVoice_eq]
    rfl

end

end Sys2Proof.Machine
end

section
/-! PROOFS. What a run settles: every oscillator of the group has emitted its present level, since one that is inaudible keeps its level
from transition to transition, and no pending transition is left in the past (spec 42_osc_common.md R261, R271, R273). -/

namespace Sys2Proof.Machine

section

variable {p : Params} {opc : Byte} {start stop : Int} {m m' : Mix}

/-! ## One oscillator -/

/-- After a run the last amplitude is the present level, where an inaudible variant's level stands still. -/
theorem runOsc_lastAmp {α : Type} {level : α → Int} {advance : α → α} {audible : Bool} {period : Nat} {a a' : α} {o o' : Osc}
    (hp : 1 ≤ period) (still : audible = false → ∀ b, level (advance b) = level b)
    (ran : runOsc p opc level advance audible period start stop a o m = .ok (a', o', m')) : o'.lastAmp = wrap32 (level a') := by
  rw [runOsc_eq_voice ⟨level, period, advance, audible⟩ p opc start stop a o m hp] at ran
  exact voiceRun_lastAmp _ p opc still ran

/-- A tone, R290: it is silent, or its level does not depend on its phase. -/
theorem toneRun_lastAmp {x x' : Tone} (ran : x.run p opc start stop m = .ok (x', m')) :
    x'.osc.lastAmp = wrap32 (x'.level p x'.phase * p.unitPsg) := by
  obtain ⟨⟨phase, osc, _⟩, ran, result⟩ := res_bind_ok.1 ran
  cases result
  refine runOsc_lastAmp (level := fun ph => x.level p ph * p.unitPsg) ?_ (fun inaudible b => ?_) ran
  · unfold Tone.ticks; omega
  · unfold Tone.audible at inaudible
    unfold Tone.level
    obtain silent | constant := Bool.and_eq_false_iff.1 inaudible
    · have volume : psgVolume p x.atten = 0 := by simpa using silent
      simp [volume]
    · have low : x.period.toNat ≤ p.psgDcPeriod := by simpa using constant
      simp [low]

/-- The PSG noise, R293. -/
theorem psgNoiseRun_lastAmp {period2 : BitVec 10} {x x' : PsgNoise} (ran : x.run p opc start stop period2 m = .ok (x', m')) :
    x'.osc.lastAmp = wrap32 (x'.level p x'.shifter * p.unitPsg) := by
  obtain ⟨⟨shifter, osc, _⟩, ran, result⟩ := res_bind_ok.1 ran
  cases result
  refine runOsc_lastAmp (level := fun s => x.level p s * p.unitPsg) ?_ (fun inaudible b => ?_) ran
  · unfold PsgNoise.ticks
    split <;> omega
  · have volume : psgVolume p x.atten = 0 := by simpa [PsgNoise.audible] using inaudible
    unfold PsgNoise.level
    simp [volume]

/-- A square, R328. -/
theorem squareRun_lastAmp {h : Hh} {base : Nat} {q q' : Square} (ran : h.runSquare p opc base start stop q m = .ok (q', m')) :
    q'.osc.lastAmp = wrap32 (h.squareLevel p base q' q'.phase * h.volScale) := by
  obtain ⟨⟨phase, osc, _⟩, ran, result⟩ := res_bind_ok.1 ran
  cases result
  refine runOsc_lastAmp (level := fun ph => h.squareLevel p base q ph * h.volScale) ?_ (fun inaudible b => ?_) ran
  · have := (h.freq base).isLt
    unfold Hh.squareTicks
    omega
  · simp only [Hh.squareAudible, Bool.and_eq_false_iff, decide_eq_false_iff_not, not_not, not_lt] at inaudible
    unfold Hh.squareLevel
    obtain (off | silent) | constant := inaudible
    · simp [off]
    · simp [silent]
    · simp [constant]

/-- The wave, R371. -/
theorem waveRun_lastAmp {h : Hh} {w w' : Wave} (ran : h.runWave p opc start stop w m = .ok (w', m')) :
    w'.osc.lastAmp = wrap32 (h.waveLevel p w' w'.latched * h.volScale) := by
  obtain ⟨⟨a, osc, _⟩, ran, result⟩ := res_bind_ok.1 ran
  cases result
  refine runOsc_lastAmp (level := fun a : BitVec 5 × BitVec 4 => h.waveLevel p w a.2 * h.volScale) ?_ (fun inaudible b => ?_) ran
  · have := (h.freq baseWave).isLt
    unfold Hh.waveTicks
    omega
  · have below : (h.freq baseWave).toNat < Config.hhWaveDcFreq := (h.freq baseWave).isLt
    simp only [Hh.waveAudible, Bool.and_eq_false_iff, decide_eq_false_iff_not, not_not, not_true, below, or_false] at inaudible
    unfold Hh.waveLevel
    obtain (off | disabled) | muted := inaudible
    · simp [off]
    · simp [disabled]
    · have shifted (l : BitVec 4) : l.toNat / 2 ^ waveShift h.waveCode = 0 := by
        rw [muted]
        exact Nat.div_eq_of_lt l.isLt
      simp only [shifted]

/-- The HH noise, R380: it is silent, or its shift register stands still. -/
theorem hhNoiseRun_lastAmp {h : Hh} {x x' : HhNoise} (ran : h.runNoise p opc start stop x m = .ok (x', m')) :
    x'.osc.lastAmp = wrap32 (h.noiseLevel p x' x'.lfsr * h.volScale) := by
  obtain ⟨⟨lfsr, osc, _⟩, ran, result⟩ := res_bind_ok.1 ran
  cases result
  refine runOsc_lastAmp (level := fun l => h.noiseLevel p x l * h.volScale) (noiseTicks_range h).1 (fun inaudible b => ?_) ran
  simp only [Hh.noiseAudible, Bool.and_eq_false_iff, decide_eq_false_iff_not, not_not, not_lt] at inaudible
  obtain ((off | disabled) | silent) | frozen := inaudible
  · simp [Hh.noiseLevel, off]
  · simp [Hh.noiseLevel, disabled]
  · simp [Hh.noiseLevel, silent]
  · rw [Hh.noiseAdvance, if_pos frozen]

/-! ## The groups -/

/-- The oscillators of a PSG group. -/
theorem psgRunAll_settled {g g' : Psg} (ran : g.runAll p opc start stop m = .ok (g', m')) : g'.settled p := by
  unfold Psg.runAll at ran
  obtain ⟨⟨x0, m0⟩, ran0, ran⟩ := res_bind_ok.1 ran
  obtain ⟨⟨x1, m1⟩, ran1, ran⟩ := res_bind_ok.1 ran
  obtain ⟨⟨x2, m2⟩, ran2, ran⟩ := res_bind_ok.1 ran
  obtain ⟨⟨x3, m3⟩, ran3, ran⟩ := res_bind_ok.1 ran
  cases ran
  exact ⟨toneRun_lastAmp ran0, toneRun_lastAmp ran1, toneRun_lastAmp ran2, psgNoiseRun_lastAmp ran3⟩

/-- The oscillators of the HH group. -/
theorem hhRunAll_settled {h h' : Hh} (ran : h.runAll p opc start stop m = .ok (h', m')) : h'.settled p := by
  unfold Hh.runAll at ran
  obtain ⟨⟨x0, m0⟩, ran0, ran⟩ := res_bind_ok.1 ran
  obtain ⟨⟨x1, m1⟩, ran1, ran⟩ := res_bind_ok.1 ran
  obtain ⟨⟨x2, m2⟩, ran2, ran⟩ := res_bind_ok.1 ran
  obtain ⟨⟨x3, m3⟩, ran3, ran⟩ := res_bind_ok.1 ran
  cases ran
  exact ⟨squareRun_lastAmp ran0, squareRun_lastAmp ran1, waveRun_lastAmp ran2, hhNoiseRun_lastAmp ran3⟩

/-- The triangle, which holds its step while it is halted. -/
theorem triRun_settled {g g' : Tri} (ran : g.run p opc start stop m = .ok (g', m')) : g'.settled p := by
  cases running : g.running p with
  | true =>
    rw [triRun_running p opc start stop m running] at ran
    obtain ⟨⟨step, osc, _⟩, voiced, result⟩ := res_bind_ok.1 ran
    cases result
    rw [triVoice_eq] at voiced
    exact voiceRun_lastAmp _ p opc nofun voiced
  | false =>
    rw [triRun_halted p opc start stop m running] at ran
    obtain ⟨m1, _, result⟩ := res_bind_ok.1 ran
    cases result
    rfl

end

/-! ## Runs with frame steps -/

/-- A run that passes the time check does not go back in time. -/
theorem checkTime_forward {t : Int} {last : Word} {u : Unit} (check : checkTime t last = .ok u) : sext last ≤ t := by
  by_contra back
  rw [checkTime_back (by omega)] at check
  cases check

/-- The loop of R260 ends with a run to `t` that does not go back in time. -/
theorem frameLoop_last {γ : Type} {run : Int → Int → γ → Mix → Res (γ × Mix)} {frame : γ → γ} {period : Nat} {t : Int}
    {n : Nat} {last : Int} {next : Word} {next' : Option Word} {g g' : γ} {m m' : Mix} (forward : last ≤ t)
    (looped : frameLoop run frame period t n last next g m = .ok (g', next', m')) :
    ∃ start g0 m0, start ≤ t ∧ run start t g0 m0 = .ok (g', m') := by
  induction n generalizing last next g m with
  | zero =>
    obtain ⟨⟨g1, m1⟩, ran, result⟩ := res_bind_ok.1 looped
    cases result
    exact ⟨last, g, m, forward, ran⟩
  | succ n ih =>
    unfold frameLoop at looped
    split at looped
    · obtain ⟨⟨g1, m1⟩, ran, result⟩ := res_bind_ok.1 looped
      cases result
      exact ⟨last, g, m, forward, ran⟩
    · obtain ⟨⟨g1, m1⟩, _, rest⟩ := res_bind_ok.1 looped
      exact ih (by omega) rest

/-- A run of the HH group settles it. -/
theorem hhRunGroup_settled {p : Params} {opc : Byte} {t : Int} {n n' : Nat} {h h' : Hh} {m m' : Mix}
    (ran : h.runGroup p opc t n m = .ok (h', n', m')) : h'.settled p ∧ h'.pending := by
  obtain ⟨_, check, ran⟩ := res_bind_ok.1 ran
  obtain ⟨⟨g, next, n1, m1⟩, framed, result⟩ := res_bind_ok.1 ran
  cases result
  obtain ⟨k, stored, looped, _⟩ := runFrames_ok framed
  obtain ⟨start, g0, m0, forward, ran⟩ := frameLoop_last (checkTime_forward check) looped
  obtain ⟨_, _, _, _, _, _, _, _, _, _, _, pending⟩ := hhRunAll_ok ran
  have settled := hhRunAll_settled ran
  exact ⟨settled, pending forward⟩

/-- A run of the TRI group settles it. -/
theorem triRunGroup_settled {p : Params} {opc : Byte} {t : Int} {n n' : Nat} {g g' : Tri} {m m' : Mix}
    (ran : g.runGroup p opc t n m = .ok (g', n', m')) : g'.settled p ∧ g'.osc.pending := by
  obtain ⟨_, check, ran⟩ := res_bind_ok.1 ran
  obtain ⟨⟨g1, next, n1, m1⟩, framed, result⟩ := res_bind_ok.1 ran
  cases result
  obtain ⟨k, stored, looped, _⟩ := runFrames_ok framed
  obtain ⟨start, g0, m0, forward, ran⟩ := frameLoop_last (checkTime_forward check) looped
  have settled := triRun_settled ran
  obtain ⟨_, step, osc, rfl, _, pending⟩ := triRun_ok ran
  exact ⟨settled, pending forward⟩

/-- A run of a PSG group settles it. -/
theorem psgRunGroup_settled {p : Params} {opc : Byte} {t : Int} {g g' : Psg} {m m' : Mix}
    (ran : g.runGroup p opc t m = .ok (g', m')) : g'.settled p ∧ g'.pending := by
  obtain ⟨_, _, _, pending⟩ := psgRunGroup_ok ran
  obtain ⟨_, _, ran⟩ := res_bind_ok.1 ran
  obtain ⟨⟨g1, m1⟩, ran, result⟩ := res_bind_ok.1 ran
  cases result
  have settled := psgRunAll_settled ran
  exact ⟨settled, pending⟩

/-- Settles O32: the last thing a group's loop does is a run of its oscillators to the command's time. -/
theorem levelsSettleAfterRun : Obligations.LevelsSettleAfterRun := by
  intro inst sel g time s hf named ready
  obtain ⟨r, run⟩ := runGroup_of_ready 0x22 ready
  refine ⟨r.done 0, runsThen_done (oscRun_runsThen named) hf run rfl rfl, ?_⟩
  cases g with
  | psg i =>
    obtain ⟨x, m, rfl, ran, _⟩ := runGroup_psg_ok run
    simpa using psgRunGroup_settled ran
  | hh =>
    obtain ⟨x, n, m, rfl, ran, _⟩ := runGroup_hh_ok run
    exact hhRunGroup_settled ran
  | tri =>
    obtain ⟨x, n, m, rfl, ran, _⟩ := runGroup_tri_ok run
    exact triRunGroup_settled ran

end Sys2Proof.Machine
end

section
/-! PROOFS. A run with frame steps: the loop of R260 takes the steps of the frame times before the run's time, up to the one that ends
it; where none does, it has the fault of its first failing pass, or takes the steps that the exact frame times give (spec
42_osc_common.md R260, 00_scope.md R11; entry 8 of the log). -/

namespace Sys2Proof.Machine

/-! ## Frame times -/

/-- The first frame time is the stored one. -/
theorem frameTimeAt_zero (next : Word) (period : Nat) : frameTimeAt next period 0 = sext next := by
  rw [frameTimeAt, Nat.zero_mul]
  exact congrArg sext (BitVec.add_zero next)

/-- A frame time one period after another. -/
theorem frameTime_step (next : Word) (period k : Nat) :
    next + BitVec.ofNat 32 period + BitVec.ofNat 32 (k * period) = next + BitVec.ofNat 32 ((k + 1) * period) := by
  rw [BitVec.add_assoc, ← BitVec.ofNat_add, Nat.succ_mul, Nat.add_comm]

/-- The frame times after a frame step are those from the second one on. -/
theorem frameTimeAt_succ (next : Word) (period k : Nat) :
    frameTimeAt (next + BitVec.ofNat 32 period) period k = frameTimeAt next period (k + 1) :=
  congrArg sext (frameTime_step next period k)

/-- The frame times repeat after 2^32 steps, R11. -/
theorem frameTimeAt_mod (next : Word) (period k : Nat) : frameTimeAt next period (k % 2 ^ 32) = frameTimeAt next period k := by
  have steps : BitVec.ofNat 32 (k % 2 ^ 32 * period) = BitVec.ofNat 32 (k * period) := by
    apply BitVec.eq_of_toNat_eq
    rw [BitVec.toNat_ofNat, BitVec.toNat_ofNat, Nat.mod_mul_mod]
  rw [frameTimeAt, frameTimeAt, steps]

/-- A loop that ends takes a number of frame steps below 2^32. -/
theorem exists_framesTaken {next : Word} {period : Nat} {t : Word} (reach : frameTimesReach next period (sext t) = true) :
    ∃ n, n < 2 ^ 32 ∧ framesTaken next period t n := by
  obtain ⟨k, below, ends⟩ := frameTimesReach_iff.1 reach
  have exists_end : ∃ n, sext t ≤ frameTimeAt next period n := ⟨k, ends⟩
  exact ⟨Nat.find exists_end, lt_of_le_of_lt (Nat.find_min' exists_end ends) below,
    fun j earlier => not_le.1 (Nat.find_min exists_end earlier), Nat.find_spec exists_end⟩

/-- A loop that none of the first 2^32 frame times ends is ended by none. -/
theorem framesEndless_of_not_reach {next : Word} {period : Nat} {t : Word} (never : frameTimesReach next period (sext t) = false) :
    framesEndless next period t := fun k => by
  by_contra ends
  have reach := frameTimesReach_iff.2 ⟨k % 2 ^ 32, Nat.mod_lt k (by decide), (not_lt.1 ends).trans (frameTimeAt_mod _ _ k).ge⟩
  rw [never] at reach
  cases reach

/-- The exact frame times before a time. -/
theorem framesBefore_eventsBefore (next : Word) {period : Nat} (t : Word) (hp : 1 ≤ period) :
    framesBefore next period t (eventsBefore (sext next) (sext t) period) := by
  refine ⟨fun k earlier => ?_, ?_⟩
  · rw [Nat.cast_mul]
    exact event_lt earlier
  · rw [Nat.cast_mul]
    exact event_ge hp

/-! ## The loop -/

section

variable {γ : Type} {run : Int → Int → γ → Mix → Res (γ × Mix)} {frame : γ → γ} {period : Nat} {t : Word}

/-- The loop with more passes than the frame steps it takes ends at the frame time after them. -/
theorem frameLoop_taken {n : Nat} (spare : Nat) {last : Int} {next : Word} {g : γ} {m : Mix} (taken : framesTaken next period t n) :
    frameLoop run frame period (sext t) (n + spare + 1) last next g m =
      framedRun run frame period (sext t) n last next g m >>= fun x =>
        .ok (x.1, some (next + BitVec.ofNat 32 (n * period)), x.2) := by
  obtain ⟨before, ends⟩ := taken
  induction n generalizing last next g m with
  | zero =>
    rw [frameTimeAt_zero] at ends
    rw [frameLoop, if_pos ends, Nat.zero_mul]
    exact congrArg (_ >>= ·) (funext fun x => by rw [show next + BitVec.ofNat 32 0 = next from BitVec.add_zero next])
  | succ n ih =>
    have notYet : ¬ sext t ≤ sext next := not_le.2 (frameTimeAt_zero next period ▸ before 0 n.succ_pos)
    have rest (g : γ) (m : Mix) := ih (last := sext next) (next := next + BitVec.ofNat 32 period) (g := g) (m := m)
      (fun k earlier => frameTimeAt_succ next period k ▸ before (k + 1) (Nat.succ_lt_succ earlier))
      (frameTimeAt_succ next period n ▸ ends)
    rw [show n + 1 + spare + 1 = (n + spare + 1) + 1 by omega, frameLoop, if_neg notYet, framedRun, wrap32_add_period]
    simp only [rest, res_bind_assoc, frameTime_step]

/-- The loop with as many passes as frame times before `t`, and no more, runs to `t` all the same. -/
theorem frameLoop_usedUp {n : Nat} {last : Int} {next : Word} {g : γ} {m : Mix}
    (before : ∀ k, k < n → frameTimeAt next period k < sext t) :
    frameLoop run frame period (sext t) n last next g m =
      framedRun run frame period (sext t) n last next g m >>= fun x => .ok (x.1, none, x.2) := by
  induction n generalizing last next g m with
  | zero => rfl
  | succ n ih =>
    have notYet : ¬ sext t ≤ sext next := not_le.2 (frameTimeAt_zero next period ▸ before 0 n.succ_pos)
    have rest (g : γ) (m : Mix) := ih (last := sext next) (next := next + BitVec.ofNat 32 period) (g := g) (m := m)
      fun k earlier => frameTimeAt_succ next period k ▸ before (k + 1) (Nat.succ_lt_succ earlier)
    rw [frameLoop, if_neg notYet, framedRun, wrap32_add_period]
    simp only [rest, res_bind_assoc]

/-! ## The outcome of a run -/

/-- The run of R260 with `n` frame steps, with the frame time and the count of free values after it. -/
def framesRun (run : Int → Int → γ → Mix → Res (γ × Mix)) (frame : γ → γ) (period : Nat) (t last next : Word) (free : Nat) (g : γ)
    (m : Mix) (n : Nat) : Res (γ × Word × Nat × Mix) :=
  framedRun run frame period (sext t) n (sext last) next g m >>= fun x =>
    .ok (x.1, (frameTimeAfter next period t n free).1, (frameTimeAfter next period t n free).2, x.2)

variable {quiet : γ → Mix → Bool} {last next : Word} {free : Nat} {g : γ} {m : Mix}

/-- A run whose loop ends. -/
theorem runFrames_taken (reach : frameTimesReach next period (sext t) = true) :
    ∃ n, framesTaken next period t n ∧
      runFrames run frame quiet period (sext t) last next free g m = framesRun run frame period t last next free g m n := by
  obtain ⟨n, below, taken⟩ := exists_framesTaken reach
  obtain ⟨spare, passes⟩ := Nat.exists_eq_add_of_lt below
  have after : frameTimeAfter next period t n free = (next + BitVec.ofNat 32 (n * period), free) := if_pos taken.2
  refine ⟨n, taken, ?_⟩
  rw [runFrames, frameOutcome, if_pos reach, passes, frameLoop_taken spare taken, framesRun, after, res_bind_assoc]
  rfl

/-- A run whose loop never ends and has no fault. -/
theorem runFrames_usedUp (never : frameTimesReach next period (sext t) = false)
    (quietly : firstFault run frame quiet period endlessPasses (sext last) next g m = none) :
    runFrames run frame quiet period (sext t) last next free g m =
      framesRun run frame period t last next free g m (eventsBefore (sext next) (sext t) period) := by
  have endless := framesEndless_of_not_reach never
  have after : frameTimeAfter next period t (eventsBefore (sext next) (sext t) period) free =
      (wrap32 (max (sext t) (sext (Config.freeFrameTime free))), free + 1) := if_neg (not_le.2 (endless _))
  rw [runFrames, frameOutcome, never, if_neg Bool.false_ne_true, quietly, framesRun, after]
  dsimp only
  rw [frameLoop_usedUp fun k _ => endless k, res_bind_assoc]
  rfl

/-- A run whose loop never ends and has a fault. -/
theorem runFrames_fault {r : Raise} (never : frameTimesReach next period (sext t) = false)
    (fault : firstFault run frame quiet period endlessPasses (sext last) next g m = some r) :
    runFrames run frame quiet period (sext t) last next free g m = .error r := by
  rw [runFrames, frameOutcome, never, if_neg Bool.false_ne_true, fault]
  rfl

/-- Every run with frame steps, R260; `stored` is what becomes of its group and of the block. -/
theorem runFrames_outcome {β : Type} (stored : γ × Word × Nat × Mix → β) (hp : 1 ≤ period)
    (faults : firstFault run frame quiet period endlessPasses (sext last) next g m =
      raised (loopPasses run frame period endlessPasses (sext last) next g m)) :
    let passes : Res Unit := loopPasses run frame period endlessPasses (sext last) next g m >>= fun _ => .ok ()
    let outcome (n : Nat) : Res β := framesRun run frame period t last next free g m n >>= fun y => .ok (stored y)
    let x : Res β := runFrames run frame quiet period (sext t) last next free g m >>= fun y => .ok (stored y)
    (∃ n, framesTaken next period t n ∧ x = outcome n) ∨
      (framesEndless next period t ∧
        ((∃ r, passes = .error r ∧ x = .error r) ∨ (passes = .ok () ∧ ∃ n, framesBefore next period t n ∧ x = outcome n))) := by
  intro passes outcome x
  cases reach : frameTimesReach next period (sext t) with
  | true =>
    obtain ⟨n, taken, same⟩ := runFrames_taken (run := run) (frame := frame) (quiet := quiet) (last := last) (free := free)
      (g := g) (m := m) reach
    exact .inl ⟨n, taken, congrArg (· >>= fun y => .ok (stored y)) same⟩
  | false =>
    refine .inr ⟨framesEndless_of_not_reach reach, ?_⟩
    cases looped : loopPasses run frame period endlessPasses (sext last) next g m with
    | error r =>
      rw [looped] at faults
      have faulted : x = .error r := congrArg (· >>= fun y => Except.ok (stored y)) (runFrames_fault reach faults)
      exact .inl ⟨r, congrArg (· >>= fun _ => Except.ok ()) looped, faulted⟩
    | ok y =>
      rw [looped] at faults
      exact .inr ⟨congrArg (· >>= fun _ => Except.ok ()) looped, _, framesBefore_eventsBefore next t hp,
        congrArg (· >>= fun y => Except.ok (stored y)) (runFrames_usedUp reach faults)⟩

end

end Sys2Proof.Machine
end

section
/-! PROOFS. OSC_RUN on a ready group, and the outcome of every run of a group (spec 42_osc_common.md R260, R261, R267). -/

namespace Sys2Proof.Machine

/-! ## What a run leaves -/

/-- After a run of the HH group its next frame step is not before the run's time. -/
theorem hhRunGroup_next {p : Params} {opc : Byte} {time : Word} {n n' : Nat} {h h' : Hh} {m m' : Mix}
    (ran : h.runGroup p opc (sext time) n m = .ok (h', n', m')) : sext time ≤ sext h'.nextFrameTime := by
  obtain ⟨_, _, ran⟩ := res_bind_ok.1 ran
  obtain ⟨⟨g, next, n1, m1⟩, framed, result⟩ := res_bind_ok.1 ran
  cases result
  exact runFrames_next (sext_range time).1 (sext_range time).2 framed

/-- After a run of the TRI group its next frame step is not before the run's time. -/
theorem triRunGroup_next {p : Params} {opc : Byte} {time : Word} {n n' : Nat} {g g' : Tri} {m m' : Mix}
    (ran : g.runGroup p opc (sext time) n m = .ok (g', n', m')) : sext time ≤ sext g'.nextFrameTime := by
  obtain ⟨_, _, ran⟩ := res_bind_ok.1 ran
  obtain ⟨⟨g, next, n1, m1⟩, framed, result⟩ := res_bind_ok.1 ran
  cases result
  exact runFrames_next (sext_range time).1 (sext_range time).2 framed

/-- A run leaves the group's registers and routes, and everything else but cells and `dirty`. -/
theorem runGroup_leaves {opc : Byte} {g : GroupRef} {time : Word} {s r : State}
    (run : runGroup opc g (sext time) s = .ok r) : runLeaves g time s r := by
  cases g with
  | psg i =>
    obtain ⟨x, m, rfl, ran, adds⟩ := runGroup_psg_ok run
    obtain ⟨_, regs, last, _⟩ := psgRunGroup_ok ran
    exact ⟨m, s.freeCount, adds_sameFrame adds, .inl rfl, x, rfl, regs, last.trans (wrap32_sext time)⟩
  | hh =>
    obtain ⟨x, n, m, rfl, ran, adds⟩ := runGroup_hh_ok run
    obtain ⟨_, regs, last, count⟩ := hhRunGroup_ok ran
    exact ⟨m, n, adds_sameFrame adds, count, x, rfl, regs, last.trans (wrap32_sext time), hhRunGroup_next ran⟩
  | tri =>
    obtain ⟨x, n, m, rfl, ran, adds⟩ := runGroup_tri_ok run
    obtain ⟨_, regs, last, count⟩ := triRunGroup_ok ran
    exact ⟨m, n, adds_sameFrame adds, count, x, rfl, regs, last.trans (wrap32_sext time), triRunGroup_next ran⟩

/-! ## The outcome of a run -/

section

variable {opc : Byte} {time : Word} {s : State}

/-- The state after the HH group has run to `time`. -/
def State.afterHh (s : State) (time : Word) (y : Hh × Word × Nat × Mix) : State :=
  { s with hh := { y.1 with lastTime := time, nextFrameTime := y.2.1 }, mix := y.2.2.2, freeCount := y.2.2.1 }

/-- The state after the TRI group has run to `time`. -/
def State.afterTri (s : State) (time : Word) (y : Tri × Word × Nat × Mix) : State :=
  { s with tri := { y.1 with lastTime := time, nextFrameTime := y.2.1 }, mix := y.2.2.2, freeCount := y.2.2.1 }

/-- The passes of the HH group's loop are those written out. -/
theorem hhRunAll_fun (p : Params) (opc : Byte) : (fun a b g m => Hh.runAll p opc a b g m) = hhRun p opc :=
  funext fun a => funext fun b => funext fun g => funext fun m => hhRunAll_eq p opc a b g m

/-- The passes of the TRI group's loop are those written out. -/
theorem triRun_fun (p : Params) (opc : Byte) : (fun a b g m => Tri.run p opc a b g m) = triRun p opc :=
  funext fun a => funext fun b => funext fun g => funext fun m => triRun_eq p opc a b g m

/-- A run of the HH group that does not go back in time is its loop. -/
theorem runGroup_hh_eq (forward : sext s.hh.lastTime ≤ sext time) : runGroup opc .hh (sext time) s =
    runFrames (hhRun s.params opc) Hh.frameStep (Hh.quiet s.params) (max s.params.hhFramePeriod 1) (sext time) s.hh.lastTime
      s.hh.nextFrameTime s.freeCount s.hh s.mix >>= fun y => .ok (s.afterHh time y) := by
  rw [runGroup, Hh.runGroup, checkTime_ok forward, hhRunAll_fun]
  simp only [res_bind_assoc, res_ok_bind, wrap32_sext]
  rfl

/-- A run of the TRI group that does not go back in time is its loop. -/
theorem runGroup_tri_eq (forward : sext s.tri.lastTime ≤ sext time) : runGroup opc .tri (sext time) s =
    runFrames (triRun s.params opc) Tri.stepFrame (Tri.quiet s.params) (max s.params.triFramePeriod 1) (sext time) s.tri.lastTime
      s.tri.nextFrameTime s.freeCount s.tri s.mix >>= fun y => .ok (s.afterTri time y) := by
  rw [runGroup, Tri.runGroup, checkTime_ok forward, triRun_fun]
  simp only [res_bind_assoc, res_ok_bind, wrap32_sext]
  rfl

/-- The run of the HH group written out is that of its loop. -/
theorem groupRun_hh (n : Nat) : groupRun opc .hh time n s =
    framesRun (hhRun s.params opc) Hh.frameStep (max s.params.hhFramePeriod 1) time s.hh.lastTime s.hh.nextFrameTime s.freeCount
      s.hh s.mix n >>= fun y => .ok (s.afterHh time y) := by
  rw [groupRun, framesRun]
  simp only [res_bind_assoc, res_ok_bind]
  rfl

/-- The run of the TRI group written out is that of its loop. -/
theorem groupRun_tri (n : Nat) : groupRun opc .tri time n s =
    framesRun (triRun s.params opc) Tri.stepFrame (max s.params.triFramePeriod 1) time s.tri.lastTime s.tri.nextFrameTime
      s.freeCount s.tri s.mix n >>= fun y => .ok (s.afterTri time y) := by
  rw [groupRun, framesRun]
  simp only [res_bind_assoc, res_ok_bind]
  rfl

/-- The run of a PSG group. -/
theorem runGroup_psg_eq {i : BitVec 1} (forward : sext (s.psg.get i).lastTime ≤ sext time) :
    runGroup opc (.psg i) (sext time) s = groupRun opc (.psg i) time 0 s := by
  rw [runGroup, Psg.runGroup, checkTime_ok forward, groupRun]
  simp only [psgRunAll_eq, res_bind_assoc, res_ok_bind, wrap32_sext]

/-- The faults that the HH group's search finds are those of the passes written out. -/
theorem hhFaults_eq : firstFault (hhRun s.params opc) Hh.frameStep (Hh.quiet s.params) (max s.params.hhFramePeriod 1)
      endlessPasses (sext s.hh.lastTime) s.hh.nextFrameTime s.hh s.mix =
    raised (loopPasses (hhRun s.params opc) Hh.frameStep (max s.params.hhFramePeriod 1) endlessPasses (sext s.hh.lastTime)
      s.hh.nextFrameTime s.hh s.mix) := by
  rw [← hhRunAll_fun]
  exact hhFirstFault_eq (sext_range _).1 (sext_range _).2

/-- The faults that the TRI group's search finds are those of the passes written out. -/
theorem triFaults_eq : firstFault (triRun s.params opc) Tri.stepFrame (Tri.quiet s.params) (max s.params.triFramePeriod 1)
      endlessPasses (sext s.tri.lastTime) s.tri.nextFrameTime s.tri s.mix =
    raised (loopPasses (triRun s.params opc) Tri.stepFrame (max s.params.triFramePeriod 1) endlessPasses (sext s.tri.lastTime)
      s.tri.nextFrameTime s.tri s.mix) := by
  rw [← triRun_fun]
  exact triFirstFault_eq (sext_range _).1 (sext_range _).2

/-- Every run of a group that does not go back in time has the outcome of R260 and R261. -/
theorem runGroup_outcome (opc : Byte) {g : GroupRef} (forward : sext (s.lastTime g) ≤ sext time) :
    runOutcome opc g time s (runGroup opc g (sext time) s) := by
  cases g with
  | psg i => exact runGroup_psg_eq forward
  | hh =>
    rw [runGroup_hh_eq forward]
    have outcome := runFrames_outcome (t := time) (free := s.freeCount) (s.afterHh time) (le_max_right s.params.hhFramePeriod 1)
      (hhFaults_eq (opc := opc) (s := s))
    simp only [← groupRun_hh] at outcome
    exact outcome
  | tri =>
    rw [runGroup_tri_eq forward]
    have outcome := runFrames_outcome (t := time) (free := s.freeCount) (s.afterTri time) (le_max_right s.params.triFramePeriod 1)
      (triFaults_eq (opc := opc) (s := s))
    simp only [← groupRun_tri] at outcome
    exact outcome

end

/-- Settles O31: a ready group's run succeeds, and every run is that of the voices and the frame steps written out. -/
theorem oscRunCompletes : Obligations.OscRunCompletes := by
  refine ⟨fun inst sel g time s hf named ready => ?_, fun opc g time s forward => runGroup_outcome opc forward⟩
  obtain ⟨r, run⟩ := runGroup_of_ready 0x22 ready
  exact ⟨r, run, runGroup_leaves run, runsThen_done (oscRun_runsThen named) hf run rfl rfl⟩

end Sys2Proof.Machine
end

section
/-! PROOFS. Where the OSC commands fault: a time before the group's own, the fault of the run, an address outside the space, the
triangle's 5-step mode, and where one `Emit` fails (spec 40_delta_buffer.md R203, R206, 42_osc_common.md R260, R263, R266,
46_triangle.md R420, 60_exceptions.md R602, R604). -/

namespace Sys2Proof.Machine

/-! ## A run has one outcome -/

/-- A loop ends at its first frame time that is not before `t`. -/
theorem framesTaken_unique {next t : Word} {period n k : Nat} (h : framesTaken next period t n) (h' : framesTaken next period t k) :
    n = k := by
  obtain ⟨before, ends⟩ := h
  obtain ⟨before', ends'⟩ := h'
  rcases Nat.lt_trichotomy n k with less | same | more
  · exact absurd ends (not_le.2 (before' n less))
  · exact same
  · exact absurd ends' (not_le.2 (before k more))

/-- The exact frame times before a time have one number. -/
theorem framesBefore_unique {next t : Word} {period n k : Nat} (h : framesBefore next period t n)
    (h' : framesBefore next period t k) : n = k := by
  obtain ⟨before, ends⟩ := h
  obtain ⟨before', ends'⟩ := h'
  rcases Nat.lt_trichotomy n k with less | same | more
  · exact absurd ends (not_le.2 (before' n less))
  · exact same
  · exact absurd ends' (not_le.2 (before k more))

/-- A run has at most one outcome. -/
theorem runOutcome_unique {opc : Byte} {g : GroupRef} {time : Word} {s : State} {x y : Res State}
    (hx : runOutcome opc g time s x) (hy : runOutcome opc g time s y) : x = y := by
  unfold runOutcome at hx hy
  cases sequencer : frameSequencer g s with
  | none =>
    simp only [sequencer] at hx hy
    exact hx.trans hy.symm
  | some frames =>
    obtain ⟨next, period⟩ := frames
    simp only [sequencer] at hx hy
    obtain ⟨n, taken, rfl⟩ | ⟨endless, outcome⟩ := hx <;> obtain ⟨k, taken', rfl⟩ | ⟨endless', outcome'⟩ := hy
    · rw [framesTaken_unique taken taken']
    · exact absurd taken.2 (not_le.2 (endless' n))
    · exact absurd taken'.2 (not_le.2 (endless k))
    · obtain ⟨r, fault, rfl⟩ | ⟨passed, n, before, rfl⟩ := outcome <;>
        obtain ⟨r', fault', rfl⟩ | ⟨passed', k, before', rfl⟩ := outcome'
      · cases fault.symm.trans fault'
        rfl
      · cases fault.symm.trans passed'
      · cases passed.symm.trans fault'
      · rw [framesBefore_unique before before']

/-- A run back in time faults, R260. -/
theorem runGroup_back (opc : Byte) {g : GroupRef} {time : Word} {s : State} (back : sext time < sext (s.lastTime g)) :
    runGroup opc g (sext time) s = .error ⟨.timeBackwards, time⟩ := by
  have check : checkTime (sext time) (s.lastTime g) = .error ⟨.timeBackwards, time⟩ := by
    rw [checkTime_back back, wrap32_sext]
  cases g with
  | psg i =>
    change checkTime (sext time) (s.psg.get i).lastTime = _ at check
    rw [runGroup, Psg.runGroup, check]
    rfl
  | hh =>
    change checkTime (sext time) s.hh.lastTime = _ at check
    rw [runGroup, Hh.runGroup, check]
    rfl
  | tri =>
    change checkTime (sext time) s.tri.lastTime = _ at check
    rw [runGroup, Tri.runGroup, check]
    rfl

/-! ## The addresses of a group -/

/-- The PSG space, R149. -/
theorem psgWriteRule_isSome (p : Params) (opc : Byte) (t : Int) (addr data : Byte) :
    (psgWriteRule p opc t addr data).isSome = decide (addr.toNat ≤ 1) := by
  unfold psgWriteRule
  split
  · split <;> rfl
  · rfl
  · next not0 not1 =>
    have outside : ¬ addr.toNat ≤ 1 := fun inside => by
      rcases Nat.le_one_iff_eq_zero_or_eq_one.1 inside with zero | one
      · exact not0 (BitVec.eq_of_toNat_eq zero)
      · exact not1 (BitVec.eq_of_toNat_eq one)
    rw [decide_eq_false outside]
    rfl

/-- The HH space, R151, R395. -/
theorem hhWriteRule_isSome (p : Params) (opc : Byte) (t : Int) (addr data : Byte) :
    (hhWriteRule p opc t addr data).isSome = decide (0x10 ≤ addr.toNat ∧ addr.toNat ≤ 0x3F) := by
  unfold hhWriteRule
  dsimp only
  split
  · rw [decide_eq_false (by omega)]
    rfl
  · rw [decide_eq_true (by omega)]
    repeat' split
    all_goals rfl

/-- The TRI space, R152. -/
theorem triWriteRule_isSome (p : Params) (t : Int) (addr data : Byte) : (triWriteRule p t addr data).isSome =
    decide (addr = 0x08 ∨ addr = 0x09 ∨ addr = 0x0A ∨ addr = 0x0B ∨ addr = 0x15 ∨ addr = 0x17) := by
  unfold triWriteRule
  split
  case h_7 not08 not09 not0A not0B not15 not17 =>
    rw [decide_eq_false fun h => by
      obtain h | h | h | h | h | h := h
      exacts [not08 h, not09 h, not0A h, not0B h, not15 h, not17 h]]
    rfl
  all_goals rfl

/-- The rule of an address exists exactly where the write is accepted, or is the one R420 refuses. -/
theorem afterWrite_isSome_iff {g : GroupRef} {p : Params} {addr data : Byte} {time : Word} :
    (afterWrite g p addr data time).isSome = true ↔ writeAccepted g addr data ∨ (g = .tri ∧ addr = 0x17) := by
  cases g with
  | psg i => simp [afterWrite, psgWriteRule_isSome, writeAccepted]
  | hh => simp [afterWrite, hhWriteRule_isSome, writeAccepted]
  | tri =>
    simp only [afterWrite, Option.isSome_map, triWriteRule_isSome, decide_eq_true_eq, writeAccepted, true_and]
    tauto

/-- What can be read has a value. -/
theorem readValue_of_accepted {g : GroupRef} {addr : Byte} (accepted : readAccepted g addr) :
    ∃ value, readValue g addr = some value := by
  cases g with
  | psg i => exact accepted.elim
  | hh => exact ⟨_, if_pos accepted⟩
  | tri => exact ⟨_, if_pos accepted⟩

section

variable {inst sel : BitVec 4} {g : GroupRef} {addr data : Byte} {time : Word} {s : State}

/-- Every command that runs a group is its run and something after it. -/
theorem runsGroup_runsThen (named : g.named s.params inst sel) {opc : Byte} {i : Instr}
    (runs : runsGroup inst sel g addr data time opc i) : ∃ after, RunsThen i opc g time after s := by
  obtain ⟨rfl, rfl, accepted⟩ | ⟨rfl, accepted, reads⟩ | ⟨rfl, rfl⟩ | ⟨rfl, rfl⟩ | ⟨rfl, rfl, rfl⟩ := runs
  · obtain ⟨after, rule⟩ := Option.isSome_iff_exists.1 (afterWrite_isSome_iff (p := s.params) (time := time).2 accepted)
    exact ⟨after, oscWrite_runsThen named rule⟩
  · obtain rfl | ⟨rfl, rfl⟩ | ⟨rfl, low, rfl⟩ | ⟨rfl, rfl⟩ := reads
    · obtain ⟨value, read⟩ := readValue_of_accepted accepted
      exact ⟨_, oscRead_runsThen named read⟩
    · exact ⟨_, oscReadHhReg_runsThen named.2.2 accepted⟩
    · exact ⟨_, oscReadHhWaveRam_runsThen low named.2.2⟩
    · exact ⟨_, oscReadTri15_runsThen named.2.2⟩
  · exact ⟨_, oscRun_runsThen named⟩
  · exact ⟨_, oscEndFrame_runsThen named⟩
  · exact ⟨_, oscWaveStatus_runsThen named.2.2⟩

/-- The triangle's 5-step mode is refused after the run, R420. -/
theorem oscWriteTri17_unsupported (hf : s.fault = none) (unit : s.params.hasTri = true) (mode : bit data 7 = true)
    (ready : s.ready .tri (sext time)) : exec (.oscWriteTri17 data time) s = .next (s.faulted .unsupported (0#24 ++ data)) := by
  obtain ⟨r, run⟩ := runGroup_of_ready 0x20 ready
  have refused : tri17 s.params (timeOperand time) data r.tri = .error ⟨.unsupported, 0#24 ++ data⟩ := by
    rw [tri17, if_pos mode, byte_zeroExtend]
    rfl
  have command : RunsThen (.oscWriteTri17 data time) 0x20 .tri time (fun r => do
      let (g, restart) ← tri17 s.params (timeOperand time) data r.tri
      .ok { r with tri := g, result := restartResult restart }) s := by
    show triForm _ time (tri17 s.params (timeOperand time) data) s = _
    rw [triForm, unit]
    rfl
  exact runsThen_faulted_after command hf run (by rw [refused]; rfl)

end

/-! ## Where an `Emit` fails -/

/-- Placing a delta fails in a debug build only, before the origin or past the horizon, R206. -/
theorem place_error_iff {p : Params} {m : Mix} {t : Int} {r : Raise} : m.place p t = .error r ↔ p.buildMode = .debug ∧
    ((m.pos t < 0 ∧ r = ⟨.deltaBeforeOrigin, wrap32 t⟩) ∨
      (0 ≤ m.pos t ∧ m.cap.toNat < m.idx t ∧ r = ⟨.deltaPastHorizon, wrap32 t⟩)) := by
  unfold Mix.place raise
  cases p.buildMode with
  | debug =>
    split
    · next before => simp [before, eq_comm]
    · next after =>
      have nonneg : 0 ≤ m.pos t := not_lt.1 after
      split
      · next past => simp [after, nonneg, past, eq_comm]
      · next inside => simp [after, inside]
  | release =>
    split
    · simp
    · split <;> simp

/-- Adding a delta fails on an unconfigured mix stage, R203, or where it cannot be placed. -/
theorem addDelta_error_iff {p : Params} {opc : Byte} {u : DsbName} {t d : Int} {m : Mix} {r : Raise} :
    addDelta p opc u t d m = .error r ↔ emitFails p opc m t r := by
  unfold emitFails
  by_cases missing : m.sampleRate = 0 ∨ m.clockRate = 0
  · rw [addDelta_notConfigured (not_configured missing), byte_zeroExtend]
    simp only [if_pos missing, Except.error.injEq, eq_comm]
  · have ready : m.configured = true := configured_iff.2 (not_or.1 missing)
    have places : addDelta p opc u t d m = .error r ↔ m.place p t = .error r := by
      cases placed : m.place p t with
      | error fault => rw [addDelta_unplaced ready placed, Except.error.injEq, Except.error.injEq]
      | ok cell =>
        rw [addDelta_placed ready placed]
        exact iff_of_false nofun nofun
    rw [places, place_error_iff]
    simp only [if_neg missing]
    rfl

/-- `Emit` fails where it adds a delta that fails, R10. -/
theorem emit_error_iff {p : Params} {opc : Byte} {route : Route} {t d : Int} {m : Mix} {r : Raise} :
    emit p opc route t d m = .error r ↔ route ≠ .none ∧ d ≠ 0 ∧ emitFails p opc m t r := by
  by_cases zero : d = 0
  · subst zero
    simp [emit_zero]
  · have adds : ∀ u, route.dsb = some u → emit p opc route t d m = addDelta p opc u t d m := fun u named => by
      simp only [emit, named, if_neg zero]
    cases route with
    | none => simp [emit_none]
    | center => simp [adds .center rfl, addDelta_error_iff, zero]
    | left => simp [adds .left rfl, addDelta_error_iff, zero]
    | right => simp [adds .right rfl, addDelta_error_iff, zero]

/-- Settles O37: each command is its run and something after it, a run has one outcome, and the checks of addresses come first. -/
theorem oscFaults : Obligations.OscFaults := by
  refine ⟨fun inst sel g addr data time s hf named => ⟨fun opc i runs => ?runs, fun rejected other => ?write, fun hh outside => ?hh,
    fun tri other => ?tri, fun tri mode ready => ?mode⟩, fun p opc route t d m r => emit_error_iff⟩
  case runs =>
    obtain ⟨after, command⟩ := runsGroup_runsThen named runs
    exact ⟨fun back => runsThen_faulted command hf (runGroup_back opc back),
      fun r forward outcome => runsThen_faulted command hf (runOutcome_unique (runGroup_outcome opc forward) outcome)⟩
  case write =>
    have rule : afterWrite g s.params addr data time = none := Option.not_isSome_iff_eq_none.1 fun found =>
      (afterWrite_isSome_iff.1 found).elim rejected other
    exact oscWrite_illegal hf named rule
  case hh =>
    subst hh
    exact ⟨oscReadHhReg_illegal hf outside, oscRead_illegal hf named (if_neg outside)⟩
  case tri =>
    subst tri
    exact oscRead_illegal hf named (if_neg other)
  case mode =>
    subst tri
    exact oscWriteTri17_unsupported hf named.2.2 mode ready

end Sys2Proof.Machine
end

section
/-! PROOFS. OSC_WRITE on a ready group: every rule completes after the run, keeps the group's time, changes the mix stage by deltas
only, and answers the restart signal (spec 42_osc_common.md R262 to R264). -/

namespace Sys2Proof.Machine

/-- A write rule completes on a group and a mix stage: with deltas only, at the same time of the group, and with the restart signal
exactly where `c` holds, R263, R264. -/
def RuleCompletes {γ : Type} (lastTime : γ → Word) (rule : γ → Mix → Res (γ × Mix × Bool)) (g : γ) (m : Mix) (c : Prop) : Prop :=
  ∃ g' m' b, rule g m = .ok (g', m', b) ∧ m.sameFrame m' ∧ lastTime g' = lastTime g ∧ (b = true ↔ c)

/-- A rule that leaves the mix stage alone. -/
theorem ruleCompletes_pure {γ : Type} {lastTime : γ → Word} {rule : γ → Mix → Res (γ × Mix × Bool)} {g g' : γ} {m : Mix}
    {b : Bool} {c : Prop} (wrote : rule g m = .ok (g', m, b)) (last : lastTime g' = lastTime g) (restart : b = true ↔ c) :
    RuleCompletes lastTime rule g m c :=
  ⟨g', m, b, wrote, ⟨rfl, rfl, rfl, rfl, fun _ => rfl, fun _ => rfl⟩, last, restart⟩

/-! ## The PSG groups -/

/-- An attenuation write keeps the group's time. -/
theorem psgAtten_lastTime (ch : BitVec 2) (v : BitVec 4) (g : Psg) : (psgAtten ch v g).lastTime = g.lastTime := by
  simp only [psgAtten, apply_ite Psg.lastTime, ite_self]

/-- A period or noise control write keeps the group's time. -/
theorem psgPeriod_lastTime (p : Params) (ch : BitVec 2) (period : BitVec 10 → BitVec 10) (ctrl : BitVec 3) (g : Psg) :
    (psgPeriod p ch period ctrl g).lastTime = g.lastTime := by
  simp only [psgPeriod, apply_ite Psg.lastTime, ite_self]

/-- A latch byte keeps the group's time. -/
theorem writeLatch_lastTime (p : Params) (ch : BitVec 2) (ty : BitVec 1) (data : BitVec 4) (g : Psg) :
    (g.writeLatch p ch ty data).1.lastTime = g.lastTime := by
  rw [writeLatch_eq]
  simp only [apply_ite Psg.lastTime, psgAtten_lastTime, psgPeriod_lastTime, ite_self]

/-- A data byte keeps the group's time. -/
theorem writeData_lastTime (p : Params) (data : BitVec 7) (g : Psg) : (g.writeData p data).1.lastTime = g.lastTime := by
  rw [writeData_eq]
  simp only [apply_ite Psg.lastTime, psgAtten_lastTime, psgPeriod_lastTime, ite_self]

/-- The noise restarts at the data port, R294, R295: where the byte names its control, the latch byte for a data byte. -/
def psgRestarts (addr data : Byte) (g : Psg) : Prop :=
  addr = 0 ∧ (if bit data 7 then data else g.latch).extractLsb' 5 2 = 3#2 ∧
    (if bit data 7 then data else g.latch).extractLsb' 4 1 = 0#1

/-- The latch bit of a byte. -/
theorem topField_iff (b : Byte) : b.extractLsb' 7 1 = 1#1 ↔ bit b 7 = true := by revert b; decide

/-- Every write to a PSG group completes where the mix stage accepts its time, R294 to R296. -/
theorem psgWriteRule_completes {p : Params} {time : Word} {lo : Int} {addr data : Byte} {m : Mix} (g : Psg)
    (inside : addr.toNat ≤ 1) (accepts : m.accepts p lo (sext time)) (low : lo ≤ sext time) :
    ∃ rule, psgWriteRule p 0x20 (sext time) addr data = some rule ∧
      RuleCompletes Psg.lastTime rule g m (psgRestarts addr data g) := by
  rcases Nat.le_one_iff_eq_zero_or_eq_one.1 inside with zero | one
  · obtain rfl : addr = 0 := BitVec.eq_of_toNat_eq zero
    by_cases latch : bit data 7 = true
    · refine ⟨_, if_pos ((topField_iff data).2 latch), ruleCompletes_pure rfl (writeLatch_lastTime _ _ _ _ g) ?_⟩
      have clear : data.extractLsb' 4 1 = 0#1 ↔ ¬ data.extractLsb' 4 1 = 1#1 := by
        generalize data.extractLsb' 4 1 = ty; revert ty; decide
      rw [writeLatch_eq, decide_eq_true_iff, psgRestarts, if_pos latch, clear]
      tauto
    · refine ⟨_, if_neg (mt (topField_iff data).1 latch), ruleCompletes_pure rfl (writeData_lastTime _ _ g) ?_⟩
      have clear : g.latch.extractLsb' 4 1 = 0#1 ↔ ¬ bit g.latch 4 = true := by
        generalize g.latch = byte; revert byte; decide
      rw [writeData_eq, decide_eq_true_iff, psgRestarts, if_neg latch, clear]
      tauto
  · obtain rfl : addr = 1 := BitVec.eq_of_toNat_eq one
    have emits (o : Osc) (k : Nat) {m : Mix} (accepts : m.accepts p lo (sext time)) :=
      emit_accepts 0x20 o.route (rerouteDelta o (stereoRoute data k)) accepts low le_rfl
    obtain ⟨m0, back0, accepts0⟩ := emits g.tone0.osc 0 accepts
    obtain ⟨m1, back1, accepts1⟩ := emits g.tone1.osc 1 accepts0
    obtain ⟨m2, back2, accepts2⟩ := emits g.tone2.osc 2 accepts1
    obtain ⟨m3, back3, -⟩ := emits g.noise.osc 3 accepts2
    have wrote := writeStereo_of_emits back0 back1 back2 back3
    exact ⟨_, rfl, g.withStereo data, m3, false, res_bind_of_ok _ wrote, adds_sameFrame (writeStereo_adds wrote), rfl,
      iff_of_false nofun fun restarted => absurd restarted.1 (by decide)⟩

/-! ## The HH group -/

/-- The deltas of a master write can be placed at `time`. -/
def TakesBack (p : Params) (time : Word) (m : Mix) : Prop := ∀ h delta, ∃ m', backDeltas p time h delta m m'

/-- The four deltas of a master write are deltas. -/
theorem backDeltas_sameFrame {p : Params} {time : Word} {h : Hh} {delta : Osc → Nat → Int} {m m' : Mix}
    (back : backDeltas p time h delta m m') : m.sameFrame m' := by
  obtain ⟨m0, m1, m2, back0, back1, back2, back3⟩ := back
  have first := adds_trans (emit_adds back0) (emit_adds back1)
  exact adds_sameFrame (adds_trans first (adds_trans (emit_adds back2) (emit_adds back3)))

/-- The sweep start keeps the group's time. -/
theorem sweepStart_lastTime (h : Hh) : h.sweepStart.lastTime = h.lastTime := by
  unfold Hh.sweepStart
  dsimp only
  split
  · obtain ⟨_, _, _, _, last, _⟩ := calcSweep_frame false _
    exact last
  · rfl

/-- The registers whose bit 7 triggers a channel, R264, R331. -/
abbrev triggers (a : Nat) : Prop := a = 0x14 ∨ a = 0x19 ∨ a = 0x1E ∨ a = 0x23

section

variable {p : Params} {time : Word} {m : Mix}

/-- A rule of a register that triggers nothing and changes only the group. -/
theorem hhPlain_completes {f : Hh → Hh} {h : Hh} {a : Nat} {data : Byte} (other : ¬ triggers a)
    (last : (f h).lastTime = h.lastTime) : RuleCompletes Hh.lastTime (hhPlain f) h m (bit data 7 = true ∧ triggers a) :=
  ruleCompletes_pure rfl last (iff_of_false nofun fun restarted => other restarted.2)

/-- NR50 completes, R398. -/
theorem hhNr50_completes {c : Prop} (never : ¬ c) (takesBack : TakesBack p time m) (data old : Byte) (h : Hh) :
    RuleCompletes Hh.lastTime (hhNr50 p 0x20 (sext time) data old) h m c := by
  by_cases same : volScaleOf p data = h.volScale
  · exact ruleCompletes_pure (hhNr50_same old same) rfl (iff_of_false nofun never)
  · obtain ⟨m', back⟩ := takesBack h fun o _ => -sext o.lastAmp
    exact ⟨_, m', false, hhNr50_rescale old same back, backDeltas_sameFrame back, rfl, iff_of_false nofun never⟩

/-- NR51 completes, R390. -/
theorem hhNr51_completes {c : Prop} (never : ¬ c) (takesBack : TakesBack p time m) (data old : Byte) (h : Hh) :
    RuleCompletes Hh.lastTime (hhNr51 p 0x20 (sext time) data old) h m c := by
  obtain ⟨m', back⟩ := takesBack h fun o k => rerouteDelta o (stereoRoute data k)
  exact ⟨_, m', false, hhNr51_reroute old back, backDeltas_sameFrame back, rfl, iff_of_false nofun never⟩

/-- The rules of 0x10..0x25, in the order of `hhRule`. -/
theorem hhRule_completes (takesBack : TakesBack p time m) (a : Nat) (data old : Byte) (h : Hh) :
    RuleCompletes Hh.lastTime (hhRule p 0x20 (sext time) a data old) h m (bit data 7 = true ∧ triggers a) := by
  have trigger {a : Nat} (ha : triggers a) : bit data 7 = true ↔ bit data 7 = true ∧ triggers a := (and_iff_left ha).symm
  unfold hhRule
  split
  · exact hhPlain_completes (by decide) (by rw [disableSq1_if])
  · exact hhPlain_completes (by decide) rfl
  · exact hhPlain_completes (by decide) rfl
  · exact hhPlain_completes (by decide) rfl
  · exact ruleCompletes_pure rfl (by split <;> simp [sweepStart_lastTime]) (trigger (by decide))
  · exact hhPlain_completes (by decide) rfl
  · exact hhPlain_completes (by decide) rfl
  · exact hhPlain_completes (by decide) rfl
  · exact ruleCompletes_pure rfl rfl (trigger (by decide))
  · exact hhPlain_completes (by decide) rfl
  · exact hhPlain_completes (by decide) rfl
  · exact hhPlain_completes (by decide) rfl
  · exact hhPlain_completes (by decide) rfl
  · exact ruleCompletes_pure rfl rfl (trigger (by decide))
  · exact hhPlain_completes (by decide) rfl
  · exact hhPlain_completes (by decide) rfl
  · exact hhPlain_completes (by decide) rfl
  · exact ruleCompletes_pure rfl rfl (trigger (by decide))
  · exact hhNr50_completes (fun h => absurd h.2 (by decide)) takesBack data old h
  · exact hhNr51_completes (fun h => absurd h.2 (by decide)) takesBack data old h
  · exact hhPlain_completes (by simp_all [triggers]) rfl

/-- NR52 with bit 7 clear completes, R391, R392. -/
theorem hhPowerOff_completes {c : Prop} (never : ¬ c) (takesBack : TakesBack p time m) (h : Hh) :
    RuleCompletes Hh.lastTime (noRestart (hhPowerOff p 0x20 (sext time))) h m c := by
  cases power : h.powered with
  | false => exact ruleCompletes_pure (res_bind_of_ok _ (hhPowerOff_off power)) rfl (iff_of_false nofun never)
  | true =>
    obtain ⟨m', back⟩ := takesBack h fun o _ => -sext o.lastAmp
    obtain ⟨regs, off⟩ := hhPowerOff_on power back
    exact ⟨_, m', false, res_bind_of_ok _ off, backDeltas_sameFrame back, rfl, iff_of_false nofun never⟩

/-- A voice of the group restarts, R264: a trigger while the group is powered on. -/
def hhRestarts (addr data : Byte) (h : Hh) : Prop :=
  bit (h.reg 0x26) 7 = true ∧ bit data 7 = true ∧ (addr = 0x14 ∨ addr = 0x19 ∨ addr = 0x1E ∨ addr = 0x23)

/-- The trigger registers by number. -/
theorem triggers_toNat (addr : Byte) : triggers addr.toNat ↔ addr = 0x14 ∨ addr = 0x19 ∨ addr = 0x1E ∨ addr = 0x23 := by
  simp only [triggers, ← BitVec.toNat_inj]
  rfl

/-- A register is written only while the group is powered on, R394. -/
theorem hhGated_completes (takesBack : TakesBack p time m) (addr data : Byte) (h : Hh) :
    RuleCompletes Hh.lastTime (hhGated addr.toNat data (hhRule p 0x20 (sext time) addr.toNat)) h m (hhRestarts addr data h) := by
  cases power : h.powered with
  | false =>
    exact ruleCompletes_pure (if_neg (ne_true_of_eq_false power)) rfl
      (iff_of_false nofun fun restarted => ne_true_of_eq_false power restarted.1)
  | true =>
    obtain ⟨g, m', b, wrote, frame, last, restart⟩ :=
      hhRule_completes takesBack addr.toNat data (h.reg addr.toNat) (h.setReg addr.toNat data)
    refine ⟨g, m', b, (if_pos power).trans wrote, frame, last, restart.trans ?_⟩
    rw [triggers_toNat]
    exact (and_iff_right power).symm

/-- Every write to the HH group completes where the deltas of a master write can be placed. -/
theorem hhWriteRule_completes {addr data : Byte} (h : Hh) (inside : 0x10 ≤ addr.toNat ∧ addr.toNat ≤ 0x3F)
    (takesBack : TakesBack p time m) : ∃ rule, hhWriteRule p 0x20 (sext time) addr data = some rule ∧
      RuleCompletes Hh.lastTime rule h m (hhRestarts addr data h) := by
  have never (other : ¬ triggers addr.toNat) : ¬ hhRestarts addr data h := fun ⟨_, _, trigger⟩ =>
    other ((triggers_toNat addr).2 trigger)
  have ignored (other : ¬ triggers addr.toNat) : RuleCompletes Hh.lastTime hhIgnore h m (hhRestarts addr data h) :=
    ruleCompletes_pure rfl rfl (iff_of_false nofun (never other))
  have plain {f : Hh → Hh} (other : ¬ triggers addr.toNat) (last : (f h).lastTime = h.lastTime) :
      RuleCompletes Hh.lastTime (hhPlain f) h m (hhRestarts addr data h) :=
    ruleCompletes_pure rfl last (iff_of_false nofun (never other))
  unfold hhWriteRule
  dsimp only
  rw [if_neg (by omega)]
  split
  · exact ⟨_, rfl, ignored (by unfold triggers; omega)⟩
  split
  · exact ⟨_, rfl, hhGated_completes takesBack addr data h⟩
  split
  · have other : ¬ triggers addr.toNat := by unfold triggers; omega
    split
    · refine ⟨_, rfl, plain other ?_⟩
      unfold hhPowerOn
      split <;> rfl
    · exact ⟨_, rfl, hhPowerOff_completes (never other) takesBack h⟩
  split
  · exact ⟨_, rfl, ignored (by unfold triggers; omega)⟩
  · exact ⟨_, rfl, plain (by unfold triggers; omega) rfl⟩

end

/-! ## The triangle -/

/-- Every write to the triangle that R420 does not refuse completes at the same time, and only 0x0B restarts, R414 to R420. -/
theorem triWriteRule_completes {p : Params} {addr data : Byte} (time : Word) (g : Tri) (accepted : writeAccepted .tri addr data) :
    ∃ rule g' b, triWriteRule p (sext time) addr data = some rule ∧ rule g = .ok (g', b) ∧ g'.lastTime = g.lastTime ∧
      (b = true ↔ addr = 0x0B) := by
  obtain rfl | rfl | rfl | rfl | rfl | ⟨rfl, fourStep⟩ := accepted
  · exact ⟨_, _, _, rfl, rfl, rfl, by decide⟩
  · exact ⟨_, _, _, rfl, rfl, rfl, by decide⟩
  · exact ⟨_, _, _, rfl, rfl, rfl, by decide⟩
  · exact ⟨_, _, _, rfl, rfl, rfl, by decide⟩
  · exact ⟨_, _, _, rfl, rfl, rfl, by decide⟩
  · exact ⟨_, _, _, rfl, tri17_fourStep fourStep p time g, rfl, by decide⟩

/-! ## The command -/

/-- The restart signal is 1 or 0, R263. -/
theorem restartResult_of_iff {b : Bool} {c : Prop} (restart : b = true ↔ c) :
    (c → restartResult b = 1) ∧ (¬ c → restartResult b = 0) := by
  cases b with
  | true => exact ⟨fun _ => rfl, fun no => absurd (restart.1 rfl) no⟩
  | false => exact ⟨fun yes => absurd (restart.2 yes) nofun, fun _ => rfl⟩

/-- Mix stages that differ by deltas. -/
theorem sameFrame_trans {m0 m1 m2 : Mix} (first : m0.sameFrame m1) (second : m1.sameFrame m2) : m0.sameFrame m2 := by
  obtain ⟨rate, clock, factor, cap, offset, accum⟩ := first
  obtain ⟨rate', clock', factor', cap', offset', accum'⟩ := second
  exact ⟨rate'.trans rate, clock'.trans clock, factor'.trans factor, cap'.trans cap, fun u => (offset' u).trans (offset u),
    fun u => (accum' u).trans (accum u)⟩

/-- Settles O36: after the run the mix stage accepts the command's time, so the rule of the address completes there. -/
theorem oscWriteRestartSignal : Obligations.OscWriteRestartSignal := by
  intro inst sel g addr data time s hf named ready accepted
  obtain ⟨r, run⟩ := runGroup_of_ready 0x20 ready
  have ran := adds_sameFrame (runGroup_adds run)
  have reached := runGroup_lastTime run
  cases g with
  | psg i =>
    obtain ⟨forward, -, accepts⟩ := ready
    obtain ⟨rule, found, x, m, b, wrote, frame, last, restart⟩ :=
      psgWriteRule_completes (data := data) (r.psg.get i) accepted (accepts_after_run run accepts) forward
    have completes := runsThen_done (t := { r with psg := r.psg.set i x, mix := m }) (v := restartResult b)
      (oscWrite_runsThen named (congrArg (Option.map _) found)) hf run (res_bind_of_ok _ wrote) rfl
    obtain ⟨one, zero⟩ := restartResult_of_iff restart
    obtain ⟨y, m', rfl, -⟩ := runGroup_psg_ok run
    have other : ∀ i : BitVec 1, ~~~i ≠ i := by decide
    refine ⟨_, _, run, completes, hf, rfl, one, zero, rfl, rfl, rfl, sameFrame_trans ran frame, rfl, rfl, ?_, ?_⟩
    · exact (two_get_set_ne _ _ (other i)).trans (two_get_set_ne _ _ (other i))
    · exact (congrArg Psg.lastTime (two_get_set_self _ i x)).trans (last.trans reached)
  | hh =>
    obtain ⟨rule, found, x, m, b, wrote, frame, last, restart⟩ :=
      hhWriteRule_completes (data := data) r.hh accepted (backDeltas_after_run ready run)
    have completes := runsThen_done (t := { r with hh := x, mix := m }) (v := restartResult b)
      (oscWrite_runsThen named (congrArg (Option.map _) found)) hf run (res_bind_of_ok _ wrote) rfl
    obtain ⟨one, zero⟩ := restartResult_of_iff restart
    obtain ⟨y, n, m', rfl, -⟩ := runGroup_hh_ok run
    exact ⟨_, _, run, completes, hf, rfl, one, zero, rfl, rfl, rfl, sameFrame_trans ran frame, rfl, rfl, last.trans reached⟩
  | tri =>
    obtain ⟨rule, x, b, found, wrote, last, restart⟩ := triWriteRule_completes (p := s.params) time r.tri accepted
    have completes := runsThen_done (t := { r with tri := x }) (v := restartResult b)
      (oscWrite_runsThen named (congrArg (Option.map _) found)) hf run (res_bind_of_ok _ wrote) rfl
    obtain ⟨one, zero⟩ := restartResult_of_iff restart
    obtain ⟨y, n, m', rfl, -⟩ := runGroup_tri_ok run
    exact ⟨_, _, run, completes, hf, rfl, one, zero, rfl, rfl, rfl, ran, rfl, rfl, last.trans reached⟩

end Sys2Proof.Machine
end

section
/-! PROOFS. A register form does what the plain command of its word does: a form's rule is that of its address, and the
decoder gives each word one form (spec 30_encoding.md R141, 42_osc_common.md R263, R266, 47_fm_registers.md R430). -/

namespace Sys2Proof.Machine

section

variable {i : Instr} {addr data : Byte} {time : Word} {s : State}

/-! ## A form whose rule is that of its address -/

/-- A PSG form. -/
theorem psgForm_agrees {inst : BitVec 4} {rule : Psg → Mix → Res (Psg × Mix × Bool)} (high : inst.extractLsb' 1 3 = 0#3)
    (word : encode i = encode (.oscWrite inst 0 addr data time))
    (found : psgWriteRule s.params 0x20 (timeOperand time) addr data = some rule) :
    psgForm i (inst.extractLsb' 0 1) time rule s = exec (.oscWrite inst 0 addr data time) s := by
  show _ = execOscWrite inst 0 addr data time s
  have unit : groupOperand s.params inst 0 = (instOperand s.params.nPsg inst).map .psg := rfl
  rw [psgForm, execOscWrite, word, instNibble_of_high high, unit]
  cases instOperand s.params.nPsg inst with
  | none => rfl
  | some n =>
    dsimp only [Option.map_some, orIllegal]
    rw [found]
    rfl

/-- An HH form. -/
theorem hhForm_agrees {rule : Hh → Mix → Res (Hh × Mix × Bool)} (word : encode i = encode (.oscWrite 0 1 addr data time))
    (found : hhWriteRule s.params 0x20 (timeOperand time) addr data = some rule) :
    hhForm i time rule s = exec (.oscWrite 0 1 addr data time) s := by
  show _ = execOscWrite 0 1 addr data time s
  have unit : groupOperand s.params 0 1 = if (0 : BitVec 4) = 0 ∧ s.params.hasHh = true then some .hh else none := rfl
  rw [hhForm, execOscWrite, word, unit]
  cases s.params.hasHh with
  | false => rfl
  | true =>
    rw [if_pos ⟨rfl, rfl⟩]
    dsimp only [orIllegal]
    rw [found]
    rfl

/-- A triangle form. -/
theorem triForm_agrees {rule : TriRule} (word : encode i = encode (.oscWrite 0 2 addr data time))
    (found : triWriteRule s.params (timeOperand time) addr data = some rule) :
    triForm i time rule s = exec (.oscWrite 0 2 addr data time) s := by
  show _ = execOscWrite 0 2 addr data time s
  have unit : groupOperand s.params 0 2 = if (0 : BitVec 4) = 0 ∧ s.params.hasTri = true then some .tri else none := rfl
  rw [triForm, execOscWrite, word, unit]
  cases s.params.hasTri with
  | false => rfl
  | true =>
    rw [if_pos ⟨rfl, rfl⟩]
    dsimp only [orIllegal]
    rw [found]
    rfl

/-- An HH read form; `row` is its address as the row's fields write it. -/
theorem hhReadForm_agrees {row : Byte} (address : row = addr) (word : encode i = encode (.oscRead 0 1 row time)) :
    hhReadForm i time row s = exec (.oscRead 0 1 addr time) s := by
  subst address
  show _ = execOscRead 0 1 row time s
  have unit : groupOperand s.params 0 1 = if (0 : BitVec 4) = 0 ∧ s.params.hasHh = true then some .hh else none := rfl
  rw [hhReadForm, execOscRead, word, unit]
  cases s.params.hasHh <;> rfl

/-- The read form of the triangle's status. -/
theorem triReadForm_agrees (word : encode i = encode (.oscRead 0 2 0x15 time)) :
    triReadForm i time Tri.statusByte s = exec (.oscRead 0 2 0x15 time) s := by
  show _ = execOscRead 0 2 0x15 time s
  have unit : groupOperand s.params 0 2 = if (0 : BitVec 4) = 0 ∧ s.params.hasTri = true then some .tri else none := rfl
  rw [triReadForm, execOscRead, word, unit]
  cases s.params.hasTri <;> rfl

/-- An FM form; `row` is its address as the row's fields write it. -/
theorem fmForm_agrees {inst : BitVec 1} {port : FmPort} {row : Byte} {refused : Bool} {rule : Fm → Fm} (address : row = addr)
    (word : encode i = encodeFm inst port row data) (refusal : fmRefused port row data = refused)
    (meaning : fmRule s.params port row data = rule) :
    fmForm i inst port row data refused rule s = exec (.fmWrite (instNibble inst) (fmPortSel port) addr data) s := by
  subst address refusal meaning
  show _ = execFmWrite (instNibble inst) (fmPortSel port) row data s
  have named : portOperand (fmPortSel port) = some port := by cases port <;> rfl
  rw [fmForm, execFmWrite, word, named]
  rfl

/-! ## OSC_WRITE -/

/-- The PSG rows, R294 to R296. -/
theorem decodePsgWrite_agrees {inst : BitVec 4} (high : inst.extractLsb' 1 3 = 0#3) :
    exec (decodePsgWrite inst addr data time) s = exec (.oscWrite inst 0 addr data time) s := by
  have reads := (decodePsgWrite_reads addr data time high).2
  revert reads
  fun_cases decodePsgWrite inst addr data time
  case case1 latch top =>
    subst latch
    exact fun word => psgForm_agrees high word (if_pos top)
  case case2 latch top =>
    subst latch
    exact fun word => psgForm_agrees high word (if_neg top)
  case case3 stereo =>
    subst stereo
    exact fun word => psgForm_agrees high word rfl
  case case4 => exact fun _ => rfl

/-- The HH rows, 44_hh_square.md R330 to R335 and 45_hh_wave_noise_master.md R373 to R395. -/
theorem decodeHhWrite_agrees : exec (decodeHhWrite addr data time) s = exec (.oscWrite 0 1 addr data time) s := by
  have reads := (decodeHhWrite_reads addr data time).2
  revert reads
  fun_cases decodeHhWrite addr data time
  case case24 top => exact fun word => hhForm_agrees word (if_pos ((topField_iff data).1 top))
  case case25 top => exact fun word => hhForm_agrees word (if_neg (mt (topField_iff data).2 top))
  case case26 =>
    have unused := ‹addr.extractLsb' 3 5 = 0b00101#5›
    rw [if_pos unused]
    refine fun word => hhForm_agrees word ?_
    rw [← byte_of_high_five unused]
    exact hhWriteRule_unused28 _ _ _ _ _
  case case27 =>
    have ram := ‹addr.extractLsb' 4 4 = 3#4›
    rw [if_neg ‹_›, if_pos ram]
    refine fun word => hhForm_agrees word ?_
    have found := hhWriteRule_waveRam s.params 0x20 (timeOperand time) (addr.extractLsb' 0 4) data
    rwa [byte_of_high_nibble ram] at found
  case case28 =>
    rw [if_neg ‹_›, if_neg ‹_›]
    exact fun _ => rfl
  all_goals exact fun word => hhForm_agrees word rfl

/-- The triangle's rows, 46_triangle.md R414 to R420. -/
theorem decodeTriWrite_agrees : exec (decodeTriWrite addr data time) s = exec (.oscWrite 0 2 addr data time) s := by
  have reads := (decodeTriWrite_reads addr data time).2
  revert reads
  fun_cases decodeTriWrite addr data time
  case case7 => exact fun _ => rfl
  all_goals exact fun word => triForm_agrees word rfl

/-- OSC_WRITE, by its unit. -/
theorem decodeOscWrite_agrees (inst sel : BitVec 4) :
    exec (decodeOscWrite inst sel addr data time) s = exec (.oscWrite inst sel addr data time) s := by
  fun_cases decodeOscWrite inst sel addr data time
  case case1 psg => obtain ⟨rfl, high⟩ := psg; exact decodePsgWrite_agrees high
  case case2 hh => obtain ⟨rfl, rfl⟩ := hh; exact decodeHhWrite_agrees
  case case3 tri => obtain ⟨rfl, rfl⟩ := tri; exact decodeTriWrite_agrees
  case case4 => rfl

/-! ## OSC_READ -/

/-- OSC_READ, by its unit and address, R266. -/
theorem decodeOscRead_agrees (inst sel : BitVec 4) :
    exec (decodeOscRead inst sel addr time) s = exec (.oscRead inst sel addr time) s := by
  fun_cases decodeOscRead inst sel addr time
  case case1 hh ram =>
    obtain ⟨rfl, rfl⟩ := hh
    exact hhReadForm_agrees (byte_of_high_nibble ram) rfl
  case case2 hh _ =>
    obtain ⟨rfl, rfl⟩ := hh
    exact hhReadForm_agrees rfl rfl
  case case3 _ tri =>
    obtain ⟨rfl, rfl, rfl⟩ := tri
    exact triReadForm_agrees rfl
  case case4 => rfl

/-! ## FM_WRITE -/

variable (inst : BitVec 1) {port : FmPort}

/-- A form outside the global registers and the 0x90 group: nothing there is refused, R436, R447. -/
theorem fmRowForm_agrees {row : Byte} {rule : Fm → Fm} (address : row = addr) (notGlobal : addr.extractLsb' 4 4 ≠ 2#4)
    (notSsg : addr.extractLsb' 4 4 ≠ 9#4) (word : encode i = encodeFm inst port row data)
    (meaning : fmRule s.params port row data = rule) :
    fmForm i inst port row data false rule s = exec (.fmWrite (instNibble inst) (fmPortSel port) addr data) s := by
  have accepted : fmRefused port row data = false := by
    subst address
    refine fmRefused_eq_false (fun ⟨_, mode, _⟩ => ?_) fun ⟨group, _⟩ => notSsg group
    subst mode
    exact notGlobal (by decide)
  exact fmForm_agrees address word accepted meaning

/-- An address without a meaning, R432. -/
theorem fmWriteNoEffect_agrees (noEffect : fmNoEffectAddr port addr = true) : exec (.fmWriteNoEffect inst port addr data) s =
    exec (.fmWrite (instNibble inst) (fmPortSel port) addr data) s := by
  have mode : port = .p0 → addr ≠ 0x27 := by
    rintro rfl rfl
    exact absurd noEffect (by decide)
  have ssg : addr.extractLsb' 4 4 ≠ 9#4 := by
    revert noEffect
    cases port <;> revert addr <;> decide
  exact fmForm_agrees rfl rfl (fmRefused_eq_false (fun h => mode h.1 h.2.1) fun h => ssg h.1) (fmRule_noEffect _ data noEffect)

/-- The global registers, R432 to R439. -/
theorem decodeFmGlobal_agrees (group : addr.extractLsb' 4 4 = 2#4) : exec (decodeFmGlobal inst port addr data) s =
    exec (.fmWrite (instNibble inst) (fmPortSel port) addr data) s := by
  have wf := (decodeFmGlobal_reads inst port data group).1
  cases port with
  | p0 =>
    revert wf
    fun_cases decodeFmGlobal inst .p0 addr data
    all_goals intro wf
    case case5 => exact fmForm_agrees rfl rfl (Bool.or_false _) rfl
    case case9 | case10 => exact fmWriteNoEffect_agrees inst wf
    all_goals exact fmForm_agrees rfl rfl rfl rfl
  | p1 => exact fmWriteNoEffect_agrees inst wf

/-- The channel registers, R446 to R451. -/
theorem decodeFmChannel_agrees (group : addr.extractLsb' 4 4 = 0xA#4 ∨ addr.extractLsb' 4 4 = 0xB#4) :
    exec (decodeFmChannel inst port addr data) s = exec (.fmWrite (instNibble inst) (fmPortSel port) addr data) s := by
  have notGlobal : addr.extractLsb' 4 4 ≠ 2#4 := by rcases group with group | group <;> rw [group] <;> decide
  have notSsg : addr.extractLsb' 4 4 ≠ 9#4 := by rcases group with group | group <;> rw [group] <;> decide
  have wf := (decodeFmChannel_reads inst port data group).1
  revert wf
  fun_cases decodeFmChannel inst port addr data
  all_goals intro wf
  case case1 row => exact fmRowForm_agrees inst (byte_of_high_six row) notGlobal notSsg rfl (fmRule_fnumLow _ _ _ _)
  case case2 row => exact fmRowForm_agrees inst (byte_of_high_six row) notGlobal notSsg rfl (fmRule_fnumHigh _ _ _ _)
  case case3 row => exact fmRowForm_agrees inst (byte_of_high_six row) notGlobal notSsg rfl (fmRule_fbAlgo _ _ _ _)
  case case4 row => exact fmRowForm_agrees inst (byte_of_high_six row) notGlobal notSsg rfl (fmRule_pan _ _ _ _)
  case case5 row hport =>
    subst hport
    exact fmRowForm_agrees inst (byte_of_high_six row) notGlobal notSsg rfl (fmRule_splitLow _ _ _)
  case case7 row hport =>
    subst hport
    exact fmRowForm_agrees inst (byte_of_high_six row) notGlobal notSsg rfl (fmRule_splitHigh _ _ _ _)
  case case6 | case8 | case9 => exact fmWriteNoEffect_agrees inst wf

/-- The operator registers but those of the 0x90 group, R440 to R445. -/
theorem fmOpForm_agrees {group : BitVec 4} {rule : Fm → Fm} (isGroup : addr.extractLsb' 4 4 = group)
    (notGlobal : group ≠ 2#4) (notSsg : group ≠ 9#4)
    (word : encode i = encodeFmOp inst port group (addr.extractLsb' 2 2) (addr.extractLsb' 0 2) data)
    (meaning : fmRule s.params port (group ++ addr.extractLsb' 2 2 ++ addr.extractLsb' 0 2) data = rule) :
    fmForm i inst port (group ++ addr.extractLsb' 2 2 ++ addr.extractLsb' 0 2) data false rule s =
      exec (.fmWrite (instNibble inst) (fmPortSel port) addr data) s := by
  subst isGroup
  exact fmRowForm_agrees inst (byte_of_group rfl) notGlobal notSsg word meaning

/-- The 0x90 group, R447. -/
theorem fmWriteSsgEg_agrees (group : addr.extractLsb' 4 4 = 9#4) :
    exec (.fmWriteSsgEg inst port (addr.extractLsb' 2 2) (addr.extractLsb' 0 2) data) s =
      exec (.fmWrite (instNibble inst) (fmPortSel port) addr data) s := by
  have address := byte_of_group group
  have mode : addr ≠ 0x27#8 := by
    rintro rfl
    exact absurd group (by decide)
  refine fmForm_agrees address rfl ?_ (fmRule_ssgEg _ _ _ _ _)
  rw [address, fmRefused, group, decide_eq_false mode, Bool.and_false]
  rfl

/-- FM_WRITE on a unit and port that a form can name. -/
theorem decodeFmWrite_named : exec (decodeFmWrite (instNibble inst) (fmPortSel port) addr data) s =
    exec (.fmWrite (instNibble inst) (fmPortSel port) addr data) s := by
  rw [decodeFmWrite, if_pos ⟨fmPortSel_high port, instNibble_high inst⟩, fmPortOf_fmPortSel, instNibble_low]
  dsimp only
  split
  case h_1 group => exact decodeFmGlobal_agrees inst group
  case h_2 group => exact fmOpForm_agrees inst group (by decide) (by decide) rfl (fmRule_dtMul _ _ _ _ _)
  case h_3 group => exact fmOpForm_agrees inst group (by decide) (by decide) rfl (fmRule_tl _ _ _ _ _)
  case h_4 group => exact fmOpForm_agrees inst group (by decide) (by decide) rfl (fmRule_ksAr _ _ _ _ _)
  case h_5 group => exact fmOpForm_agrees inst group (by decide) (by decide) rfl (fmRule_amD1r _ _ _ _ _)
  case h_6 group => exact fmOpForm_agrees inst group (by decide) (by decide) rfl (fmRule_d2r _ _ _ _ _)
  case h_7 group => exact fmOpForm_agrees inst group (by decide) (by decide) rfl (fmRule_slRr _ _ _ _ _)
  case h_8 group => exact fmWriteSsgEg_agrees inst group
  case h_9 group => exact decodeFmChannel_agrees inst (.inl group)
  case h_10 group => exact decodeFmChannel_agrees inst (.inr group)
  case h_11 => exact fmWriteNoEffect_agrees inst (by cases port <;> decide +revert)

end

/-- FM_WRITE, by its unit and port, R430. -/
theorem decodeFmWrite_agrees (inst sel : BitVec 4) (addr data : Byte) (s : State) :
    exec (decodeFmWrite inst sel addr data) s = exec (.fmWrite inst sel addr data) s := by
  by_cases unit : sel.extractLsb' 1 3 = 0#3 ∧ inst.extractLsb' 1 3 = 0#3
  · obtain ⟨hs, hi⟩ := unit
    have named := decodeFmWrite_named (addr := addr) (data := data) (s := s) (inst.extractLsb' 0 1) (port := fmPortOf sel)
    rwa [instNibble_of_high hi, fmPortSel_of_high hs] at named
  · rw [decodeFmWrite, if_neg unit]

/-- Settles O39: a well-formed instruction is what its word decodes to, and what a word decodes to does what the word's plain
command does. -/
theorem formsAgreeWithPlainCommands : Obligations.FormsAgreeWithPlainCommands := by
  intro i s wf
  have decoded {c : Command} {j : Instr} (word : encode i = c) (reads : decode c = .ok j) : i = j := by
    subst word
    exact Except.ok.inj ((decodeOfEncode i wf).symm.trans reads)
  refine ⟨fun inst sel addr data time word => ?write, fun inst sel addr time word => ?read, fun inst sel addr data word => ?fm⟩
  case write => exact decoded word (decode_oscWrite inst sel addr data time) ▸ decodeOscWrite_agrees inst sel
  case read => exact decoded word (decode_oscRead inst sel addr time) ▸ decodeOscRead_agrees inst sel
  case fm => exact decoded word (decode_fmWrite inst sel addr data) ▸ decodeFmWrite_agrees inst sel addr data s

end Sys2Proof.Machine
end
